-- ==== Sys2Proof/Word.lean ====
section
/-! DEFINITION. The word types of the tinydeflate CORE (spec/00_scope.md R13, R15): every quantity is an unsigned
bit vector; bit 0 is the least significant. -/

namespace Sys2Proof

/-- One byte of input, of output or of a byte memory (R13). -/
abbrev Byte := BitVec 8

/-- One 32-bit word at the host port: a command word or `len` (R90, R92). -/
abbrev Word := BitVec 32

/-- One entry of `head` or `prev` (R66). -/
abbrev Entry := BitVec 16

end Sys2Proof
end

