-- ==== Sys2Proof/Config.lean ====
section
/-! DEFINITION. What is fixed for the machine: the constants of spec/00_scope.md R8, the open parameters of R9 and
R10, and the free values (opaque constants: nothing can be proved of them). -/

namespace Sys2Proof.Config

/-- Window size in bytes (R8). -/
abbrev W : Nat := 32768
/-- Minimum match length (R8). -/
abbrev M : Nat := 3
/-- Maximum match length and lookahead capacity (R8). -/
abbrev L : Nat := 258
/-- Entries of the hash head table (R8). -/
abbrev H : Nat := 4096
/-- Length of the dictionary array, `W + L - 1` (R8, R26). -/
abbrev DICT_LEN : Nat := 33025
/-- Bytes of the LZ code buffer (R8). -/
abbrev LZ_SIZE : Nat := 24576
/-- Bytes of the output staging buffer (R8). -/
abbrev OUT_SIZE : Nat := 4096
/-- Largest depth the builder's histogram supports (R8, R247). -/
abbrev MAX_HUFF_LEN : Nat := 32
/-- "None" value of a `head` or `prev` entry (R8, R27). -/
abbrev SENTINEL : Entry := 0xFFFF#16
/-- Match length at which the lazy parser commits at once (R8, R206). -/
abbrev LONG_COMMIT : Nat := 64
/-- Largest `n` of one `PUT_BITS` (R8, R140). -/
abbrev PUT_MAX : Nat := 16
/-- Entries of the packed code-length list (R35). -/
abbrev PACKED_LEN : Nat := 320
/-- Modulus of the two Adler-32 sums (R318). -/
abbrev ADLER_MOD : Nat := 65521

end Sys2Proof.Config

namespace Sys2Proof

/-- The five private memories (spec/20_memory.md R60). -/
inductive Space where
  | dict
  | head
  | prev
  | lzBuf
  | outBuf
deriving DecidableEq, Repr

/-- Mapping of `flags[11:0]` to the probe budget (R9, R311). -/
inductive ProbeMap where
  | direct
  | divided
deriving DecidableEq, Repr

/-- The algorithm behind `HUFF_DEPTHS` (R10): the one R246 gives, or a substitute that R258 constrains. -/
inductive DepthAlgorithm where
  | moffatKatajainen
  | substitute
deriving DecidableEq, Repr

/-- The open parameters (R9, R10); fixed for one machine. -/
structure Params where
  probeMap : ProbeMap
  reject3Dist : Nat
  depths : DepthAlgorithm
deriving DecidableEq, Repr

/-- The spec's defaults (R9, R10). -/
def Params.standard : Params :=
  { probeMap := .direct, reject3Dist := 12288, depths := .moffatKatajainen }

/-- Free value: the sink's answer to the `k`-th call whose answer the environment has not fixed (R146; log 3). -/
opaque Config.sinkAnswer : Nat → Bool

/-- Free value: what entry `i` of a byte memory holds when nothing has written it since hardware reset number
`epoch` (R26, R30, R32, R370; log 2). -/
opaque Config.powerOnByte : Space → (epoch : Nat) → (i : Nat) → Byte

/-- Free value: the same for an entry of `head` or `prev` (R27, R28, R370; log 2). -/
opaque Config.powerOnEntry : Space → (epoch : Nat) → (i : Nat) → Entry

/-- Free value: the depths a substitute algorithm gives to ascending keys; used only where R258 accepts them
(R10, R258; log 6). -/
opaque Config.substituteDepths : List Nat → List Nat

end Sys2Proof
end

