-- ==== Sys2Proof/Syntax.lean ====
section
/-! DEFINITION. The instructions: one constructor per row of spec/opcode_table.json, in the table's order. Rows of
the host port carry the operand fields of their words; internal operations carry their operands; wire-format rows
carry their extra field. -/

namespace Sys2Proof

/-- The three Huffman tables `OPTIMIZE` is called with (spec/44_huffman_builder.md R240). -/
inductive HuffTable where
  | litLen
  | dist
  | codeLen
deriving DecidableEq, Repr

/-- What the host presents at its port, one item at a time: a 32-bit word (command word or `len`), a data byte
(spec/30_encoding.md R90, R92), or a hardware reset (spec/70_reset_and_hazards.md R370, R371; log 10). -/
inductive HostItem where
  | word (w : Word)
  | byte (b : Byte)
  | hardwareReset
  /-- The hardware reset will strike inside the work of the command presented next: before its sink call number
  `puts` + 1, or, where it makes no more than `puts` calls, before it returns its bit (R371, R383; log 10). -/
  | resetDuring (puts : Nat)
deriving DecidableEq, Repr

/-- One token of the LZ stream, as the encoder reads it (spec/30_encoding.md R102, R103). -/
inductive Token where
  | literal (v : Byte)
  | copy (length distance : Nat)
deriving DecidableEq, Repr

/-- The instruction set: host commands, reserved words, the sink call, flag fields, internal operations, the LZ
token format and the wire format. -/
inductive Instr where
  /-- `INIT(p, flags)` (R310). -/
  | init (sinkPresent : Bool) (flags : BitVec 16)
  /-- `COMPRESS_DATA` with a buffer of `len` = the number of bytes given (R93, R315). -/
  | feed (data : List Byte)
  /-- `COMPRESS_DATA(null, 0)`, the terminal flush (R93, R316). -/
  | finish
  /-- `COMPRESS_DATA` without a buffer and with `len` not 0 (R93, R343). -/
  | badarg (len : Word)
  /-- Reserved word, `op` = 2; `rest` is bits 31:2 (R94, R348). -/
  | reservedOp2 (rest : BitVec 30)
  /-- Reserved word, `op` = 3; `rest` is bits 31:2 (R94, R348). -/
  | reservedOp3 (rest : BitVec 30)
  /-- Reserved word, `op` = 0 or 1 and bit 3 set; `rest` is bits 31:4 (R94, R348). -/
  | reservedBit3 (op0 : Bool) (p : Bool) (rest : BitVec 28)
  /-- Reserved word, `op` = 0 or 1, bit 3 clear, `high` = bits 31:20 not 0 (R94, R348). -/
  | reservedHigh (op0 : Bool) (p : Bool) (flags : BitVec 16) (high : BitVec 12)
  /-- Reserved word, `op` = 1 and bits 19:4 not 0 (R94, R348). -/
  | reservedCdFlags (p : Bool) (flags : BitVec 16)
  /-- `put(out_buf[0..length-1], length)`, one call on the sink port (R97, R142, R146). -/
  | sinkPut (length : BitVec 13)
  /-- Flags field bits 11:0 (R95, R311). -/
  | flagProbes (v : BitVec 12)
  /-- Flags field bit 12 (R95, R313). -/
  | flagZlib (b : Bool)
  /-- Flags field bit 13, ignored (R95). -/
  | flagBit13 (b : Bool)
  /-- Flags field bit 14 (R95, R206). -/
  | flagGreedy (b : Bool)
  /-- Flags field bit 15 (R95, R374). -/
  | flagNondet (b : Bool)
  /-- Append `n` bits to the output stream (R140). -/
  | putBits (value : Nat) (n : Nat)
  /-- Append one byte to the staging buffer (R141). -/
  | outByte (b : Byte)
  /-- Hand the staged bytes to the sink (R142). -/
  | drain
  /-- Pad with zero bits to a byte boundary (R143). -/
  | align
  /-- Take one input byte (R160). -/
  | feedByte (b : Byte)
  /-- The 12-bit hash of three bytes (R161). -/
  | hash3 (b0 : Byte) (b1 : Byte) (b2 : Byte)
  /-- Walk a hash chain (R180 to R190). -/
  | findMatch (pos : BitVec 15) (maxDist : BitVec 16) (maxLen : BitVec 9) (matchDist : BitVec 16) (matchLen : BitVec 9)
  /-- One parser transition (R201). -/
  | parseStep
  /-- Transition `Idle`, not improved (R205). -/
  | idleLiteral
  /-- Transition `Idle`, match `(d, l)` committed (R206). -/
  | idleCommit (d : BitVec 16) (l : BitVec 9)
  /-- Transition `Idle`, match `(d, l)` deferred (R207). -/
  | idleDefer (d : BitVec 16) (l : BitVec 9)
  /-- Transition `Deferred`, longer match of length at least 64 (R208). -/
  | deferredLongerLong (d : BitVec 16) (l : BitVec 9)
  /-- Transition `Deferred`, longer match of length at most 63 (R209). -/
  | deferredLongerShort (d : BitVec 16) (l : BitVec 9)
  /-- Transition `Deferred`, not longer (R210). -/
  | deferredCommit
  /-- Record a match still saved at the terminal flush (R211). -/
  | savedMatchFlush
  /-- Empty the LZ code buffer (R221). -/
  | lzReset
  /-- Record a literal token (R222). -/
  | recordLiteral (v : Byte)
  /-- Record a match token (R223). -/
  | recordMatch (d : BitVec 16) (l : BitVec 9)
  /-- Flag update, group roll-over, flush test (R224). -/
  | lzAfterRecord (isMatch : Bool)
  /-- Build one of the three Huffman tables (R240 names the arguments of each). -/
  | optimize (t : HuffTable)
  /-- Code depths of the first `n` sorted keys, in place (R245, R246). -/
  | huffDepths (n : BitVec 9)
  /-- The `n`-bit reversal of `c` (R252). -/
  | rev (c : BitVec 15) (n : BitVec 4)
  /-- Emit the block in the LZ buffer (R270). -/
  | flushBlock (last : Bool)
  /-- The token walk over `lz_buf[0..stop-1]` (R272). -/
  | tokens (stop : BitVec 16)
  /-- Run-length packing of code lengths (R278). -/
  | rlePack (seq : List (BitVec 4))
  /-- Length symbol of a match length (R289). -/
  | lenSym (l : BitVec 9)
  /-- Distance symbol of a match distance (R290). -/
  | distSym (d : BitVec 16)
  /-- Accumulate one byte into `adler` (R318). -/
  | adlerUpdate (b : Byte)
  /-- The flag byte of a token group (R100, R101). -/
  | lzFlag (f : Byte)
  /-- A literal token in `lz_buf` (R102). -/
  | lzLiteral (v : Byte)
  /-- A match token in `lz_buf` (R103, R104). -/
  | lzMatch (lenMinus3 : Byte) (distMinus1 : BitVec 15)
  /-- The 17 header bits of a block (R110, R281). -/
  | blockHeader (bfinal : Bool) (hlitMinus257 : BitVec 5) (hdistMinus1 : BitVec 5) (hclenMinus4 : BitVec 4)
  /-- The `HCLEN` code lengths of the code-length alphabet (R282). -/
  | clLengths (hclen : BitVec 5)
  /-- Packed entry: code-length symbol 0 (R113, R283). -/
  | cl0
  /-- Packed entry: code-length symbol 1 (R113, R283). -/
  | cl1
  /-- Packed entry: code-length symbol 2 (R113, R283). -/
  | cl2
  /-- Packed entry: code-length symbol 3 (R113, R283). -/
  | cl3
  /-- Packed entry: code-length symbol 4 (R113, R283). -/
  | cl4
  /-- Packed entry: code-length symbol 5 (R113, R283). -/
  | cl5
  /-- Packed entry: code-length symbol 6 (R113, R283). -/
  | cl6
  /-- Packed entry: code-length symbol 7 (R113, R283). -/
  | cl7
  /-- Packed entry: code-length symbol 8 (R113, R283). -/
  | cl8
  /-- Packed entry: code-length symbol 9 (R113, R283). -/
  | cl9
  /-- Packed entry: code-length symbol 10 (R113, R283). -/
  | cl10
  /-- Packed entry: code-length symbol 11 (R113, R283). -/
  | cl11
  /-- Packed entry: code-length symbol 12 (R113, R283). -/
  | cl12
  /-- Packed entry: code-length symbol 13 (R113, R283). -/
  | cl13
  /-- Packed entry: code-length symbol 14 (R113, R283). -/
  | cl14
  /-- Packed entry: code-length symbol 15 (R113, R283). -/
  | cl15
  /-- Packed entry: code-length symbol 16 with its 2 extra bits (R113, R283). -/
  | cl16 (x : BitVec 2)
  /-- Packed entry: code-length symbol 17 with its 3 extra bits (R113, R283). -/
  | cl17 (x : BitVec 3)
  /-- Packed entry: code-length symbol 18 with its 7 extra bits (R113, R283). -/
  | cl18 (x : BitVec 7)
  /-- A literal on the wire (R114, R284). -/
  | llLiteral (v : Byte)
  /-- End of block on the wire (R114, R287). -/
  | llEob
  /-- Match length 3 on the wire: symbol 257 (R115, R285). -/
  | len257
  /-- Match length 4 on the wire: symbol 258 (R115, R285). -/
  | len258
  /-- Match length 5 on the wire: symbol 259 (R115, R285). -/
  | len259
  /-- Match length 6 on the wire: symbol 260 (R115, R285). -/
  | len260
  /-- Match length 7 on the wire: symbol 261 (R115, R285). -/
  | len261
  /-- Match length 8 on the wire: symbol 262 (R115, R285). -/
  | len262
  /-- Match length 9 on the wire: symbol 263 (R115, R285). -/
  | len263
  /-- Match length 10 on the wire: symbol 264 (R115, R285). -/
  | len264
  /-- Match length 11 to 12 on the wire: symbol 265, extra value `x` (R115, R285). -/
  | len265 (x : BitVec 1)
  /-- Match length 13 to 14 on the wire: symbol 266, extra value `x` (R115, R285). -/
  | len266 (x : BitVec 1)
  /-- Match length 15 to 16 on the wire: symbol 267, extra value `x` (R115, R285). -/
  | len267 (x : BitVec 1)
  /-- Match length 17 to 18 on the wire: symbol 268, extra value `x` (R115, R285). -/
  | len268 (x : BitVec 1)
  /-- Match length 19 to 22 on the wire: symbol 269, extra value `x` (R115, R285). -/
  | len269 (x : BitVec 2)
  /-- Match length 23 to 26 on the wire: symbol 270, extra value `x` (R115, R285). -/
  | len270 (x : BitVec 2)
  /-- Match length 27 to 30 on the wire: symbol 271, extra value `x` (R115, R285). -/
  | len271 (x : BitVec 2)
  /-- Match length 31 to 34 on the wire: symbol 272, extra value `x` (R115, R285). -/
  | len272 (x : BitVec 2)
  /-- Match length 35 to 42 on the wire: symbol 273, extra value `x` (R115, R285). -/
  | len273 (x : BitVec 3)
  /-- Match length 43 to 50 on the wire: symbol 274, extra value `x` (R115, R285). -/
  | len274 (x : BitVec 3)
  /-- Match length 51 to 58 on the wire: symbol 275, extra value `x` (R115, R285). -/
  | len275 (x : BitVec 3)
  /-- Match length 59 to 66 on the wire: symbol 276, extra value `x` (R115, R285). -/
  | len276 (x : BitVec 3)
  /-- Match length 67 to 82 on the wire: symbol 277, extra value `x` (R115, R285). -/
  | len277 (x : BitVec 4)
  /-- Match length 83 to 98 on the wire: symbol 278, extra value `x` (R115, R285). -/
  | len278 (x : BitVec 4)
  /-- Match length 99 to 114 on the wire: symbol 279, extra value `x` (R115, R285). -/
  | len279 (x : BitVec 4)
  /-- Match length 115 to 130 on the wire: symbol 280, extra value `x` (R115, R285). -/
  | len280 (x : BitVec 4)
  /-- Match length 131 to 162 on the wire: symbol 281, extra value `x` (R115, R285). -/
  | len281 (x : BitVec 5)
  /-- Match length 163 to 194 on the wire: symbol 282, extra value `x` (R115, R285). -/
  | len282 (x : BitVec 5)
  /-- Match length 195 to 226 on the wire: symbol 283, extra value `x` (R115, R285). -/
  | len283 (x : BitVec 5)
  /-- Match length 227 to 257 on the wire: symbol 284, extra value `x` (R115, R285). -/
  | len284 (x : BitVec 5)
  /-- Match length 258 on the wire: symbol 285 (R115, R285). -/
  | len285
  /-- Match distance 1 on the wire: symbol 0 (R116, R286). -/
  | dist0
  /-- Match distance 2 on the wire: symbol 1 (R116, R286). -/
  | dist1
  /-- Match distance 3 on the wire: symbol 2 (R116, R286). -/
  | dist2
  /-- Match distance 4 on the wire: symbol 3 (R116, R286). -/
  | dist3
  /-- Match distance 5 to 6 on the wire: symbol 4, extra value `x` (R116, R286). -/
  | dist4 (x : BitVec 1)
  /-- Match distance 7 to 8 on the wire: symbol 5, extra value `x` (R116, R286). -/
  | dist5 (x : BitVec 1)
  /-- Match distance 9 to 12 on the wire: symbol 6, extra value `x` (R116, R286). -/
  | dist6 (x : BitVec 2)
  /-- Match distance 13 to 16 on the wire: symbol 7, extra value `x` (R116, R286). -/
  | dist7 (x : BitVec 2)
  /-- Match distance 17 to 24 on the wire: symbol 8, extra value `x` (R116, R286). -/
  | dist8 (x : BitVec 3)
  /-- Match distance 25 to 32 on the wire: symbol 9, extra value `x` (R116, R286). -/
  | dist9 (x : BitVec 3)
  /-- Match distance 33 to 48 on the wire: symbol 10, extra value `x` (R116, R286). -/
  | dist10 (x : BitVec 4)
  /-- Match distance 49 to 64 on the wire: symbol 11, extra value `x` (R116, R286). -/
  | dist11 (x : BitVec 4)
  /-- Match distance 65 to 96 on the wire: symbol 12, extra value `x` (R116, R286). -/
  | dist12 (x : BitVec 5)
  /-- Match distance 97 to 128 on the wire: symbol 13, extra value `x` (R116, R286). -/
  | dist13 (x : BitVec 5)
  /-- Match distance 129 to 192 on the wire: symbol 14, extra value `x` (R116, R286). -/
  | dist14 (x : BitVec 6)
  /-- Match distance 193 to 256 on the wire: symbol 15, extra value `x` (R116, R286). -/
  | dist15 (x : BitVec 6)
  /-- Match distance 257 to 384 on the wire: symbol 16, extra value `x` (R116, R286). -/
  | dist16 (x : BitVec 7)
  /-- Match distance 385 to 512 on the wire: symbol 17, extra value `x` (R116, R286). -/
  | dist17 (x : BitVec 7)
  /-- Match distance 513 to 768 on the wire: symbol 18, extra value `x` (R116, R286). -/
  | dist18 (x : BitVec 8)
  /-- Match distance 769 to 1024 on the wire: symbol 19, extra value `x` (R116, R286). -/
  | dist19 (x : BitVec 8)
  /-- Match distance 1025 to 1536 on the wire: symbol 20, extra value `x` (R116, R286). -/
  | dist20 (x : BitVec 9)
  /-- Match distance 1537 to 2048 on the wire: symbol 21, extra value `x` (R116, R286). -/
  | dist21 (x : BitVec 9)
  /-- Match distance 2049 to 3072 on the wire: symbol 22, extra value `x` (R116, R286). -/
  | dist22 (x : BitVec 10)
  /-- Match distance 3073 to 4096 on the wire: symbol 23, extra value `x` (R116, R286). -/
  | dist23 (x : BitVec 10)
  /-- Match distance 4097 to 6144 on the wire: symbol 24, extra value `x` (R116, R286). -/
  | dist24 (x : BitVec 11)
  /-- Match distance 6145 to 8192 on the wire: symbol 25, extra value `x` (R116, R286). -/
  | dist25 (x : BitVec 11)
  /-- Match distance 8193 to 12288 on the wire: symbol 26, extra value `x` (R116, R286). -/
  | dist26 (x : BitVec 12)
  /-- Match distance 12289 to 16384 on the wire: symbol 27, extra value `x` (R116, R286). -/
  | dist27 (x : BitVec 12)
  /-- Match distance 16385 to 24576 on the wire: symbol 28, extra value `x` (R116, R286). -/
  | dist28 (x : BitVec 13)
  /-- Match distance 24577 to 32768 on the wire: symbol 29, extra value `x` (R116, R286). -/
  | dist29 (x : BitVec 13)
  /-- The two zlib header bytes (R119, R313). -/
  | zlibHeader
  /-- The four zlib trailer bytes (R120, R317). -/
  | zlibTrailer
deriving DecidableEq, Repr

end Sys2Proof
end

