-- ==== Sys2Proof/WellFormed.lean ====
section
/-! DEFINITION. Which operand values an instruction admits: the ranges the encodings and the contracts of spec/
give (R92 to R94, R97, R104, R111, R140, R180, R212, R223, R272, R277, R289, R290). -/

namespace Sys2Proof

/-- The range of a recorded match (R104, R223). -/
def matchInRange (d : BitVec 16) (l : BitVec 9) : Bool :=
  decide (Config.M ≤ l.toNat ∧ l.toNat ≤ Config.L ∧ 1 ≤ d.toNat ∧ d.toNat ≤ Config.W)

/-- Well-formed instructions. -/
def Instr.wf : Instr → Bool
  | .init _ _ => true
  | .feed data => decide (data.length < 2 ^ 32)
  | .finish => true
  | .badarg len => len != 0#32
  | .reservedOp2 _ => true
  | .reservedOp3 _ => true
  | .reservedBit3 _ _ _ => true
  | .reservedHigh _ _ _ high => high != 0#12
  | .reservedCdFlags _ flags => flags != 0#16
  | .sinkPut length => decide (1 ≤ length.toNat ∧ length.toNat ≤ Config.OUT_SIZE)
  | .flagProbes _ => true
  | .flagZlib _ => true
  | .flagBit13 _ => true
  | .flagGreedy _ => true
  | .flagNondet _ => true
  | .putBits value n => decide (n ≤ Config.PUT_MAX ∧ value < 2 ^ n)
  | .outByte _ => true
  | .drain => true
  | .align => true
  | .feedByte _ => true
  | .hash3 _ _ _ => true
  | .findMatch _ maxDist maxLen _ matchLen => decide (maxDist.toNat ≤ Config.W ∧ 1 ≤ maxLen.toNat ∧ maxLen.toNat ≤ Config.L ∧ Config.M - 1 ≤ matchLen.toNat)
  | .parseStep => true
  | .idleLiteral => true
  | .idleCommit d l => matchInRange d l
  | .idleDefer d l => matchInRange d l && decide (l.toNat < Config.LONG_COMMIT)
  | .deferredLongerLong d l => matchInRange d l && decide (Config.LONG_COMMIT ≤ l.toNat)
  | .deferredLongerShort d l => matchInRange d l && decide (Config.M < l.toNat ∧ l.toNat < Config.LONG_COMMIT)
  | .deferredCommit => true
  | .savedMatchFlush => true
  | .lzReset => true
  | .recordLiteral _ => true
  | .recordMatch d l => matchInRange d l
  | .lzAfterRecord _ => true
  | .optimize _ => true
  | .huffDepths n => decide (n.toNat ≤ 288)
  | .rev _ _ => true
  | .flushBlock _ => true
  | .tokens stop => decide (stop.toNat ≤ Config.LZ_SIZE)
  | .rlePack seq => decide (seq.length ≤ Config.PACKED_LEN)
  | .lenSym l => decide (Config.M ≤ l.toNat ∧ l.toNat ≤ Config.L)
  | .distSym d => decide (1 ≤ d.toNat ∧ d.toNat ≤ Config.W)
  | .adlerUpdate _ => true
  | .lzFlag _ => true
  | .lzLiteral _ => true
  | .lzMatch _ _ => true
  | .blockHeader _ hlitMinus257 hdistMinus1 _ => decide (hlitMinus257.toNat ≤ 29 ∧ hdistMinus1.toNat ≤ 29)
  | .clLengths hclen => decide (4 ≤ hclen.toNat ∧ hclen.toNat ≤ 19)
  | .cl0 => true
  | .cl1 => true
  | .cl2 => true
  | .cl3 => true
  | .cl4 => true
  | .cl5 => true
  | .cl6 => true
  | .cl7 => true
  | .cl8 => true
  | .cl9 => true
  | .cl10 => true
  | .cl11 => true
  | .cl12 => true
  | .cl13 => true
  | .cl14 => true
  | .cl15 => true
  | .cl16 _ => true
  | .cl17 _ => true
  | .cl18 _ => true
  | .llLiteral _ => true
  | .llEob => true
  | .len257 => true
  | .len258 => true
  | .len259 => true
  | .len260 => true
  | .len261 => true
  | .len262 => true
  | .len263 => true
  | .len264 => true
  | .len265 _ => true
  | .len266 _ => true
  | .len267 _ => true
  | .len268 _ => true
  | .len269 _ => true
  | .len270 _ => true
  | .len271 _ => true
  | .len272 _ => true
  | .len273 _ => true
  | .len274 _ => true
  | .len275 _ => true
  | .len276 _ => true
  | .len277 _ => true
  | .len278 _ => true
  | .len279 _ => true
  | .len280 _ => true
  | .len281 _ => true
  | .len282 _ => true
  | .len283 _ => true
  | .len284 x => decide (x.toNat ≤ 30)
  | .len285 => true
  | .dist0 => true
  | .dist1 => true
  | .dist2 => true
  | .dist3 => true
  | .dist4 _ => true
  | .dist5 _ => true
  | .dist6 _ => true
  | .dist7 _ => true
  | .dist8 _ => true
  | .dist9 _ => true
  | .dist10 _ => true
  | .dist11 _ => true
  | .dist12 _ => true
  | .dist13 _ => true
  | .dist14 _ => true
  | .dist15 _ => true
  | .dist16 _ => true
  | .dist17 _ => true
  | .dist18 _ => true
  | .dist19 _ => true
  | .dist20 _ => true
  | .dist21 _ => true
  | .dist22 _ => true
  | .dist23 _ => true
  | .dist24 _ => true
  | .dist25 _ => true
  | .dist26 _ => true
  | .dist27 _ => true
  | .dist28 _ => true
  | .dist29 _ => true
  | .zlibHeader => true
  | .zlibTrailer => true

end Sys2Proof
end

