-- ==== Sys2Proof/Decode.lean ====
section
/-! DEFINITION. Decoding and encoding: the host port (spec/30_encoding.md R90 to R95), the LZ token stream (R100 to
R104), the 17 header bits of a block (R110, R281) and the zlib header (R119). Decoding is total; what it does not
take it rejects by name. Internal operations have no encoding (spec/opcode_table.json: "not decoded from bits");
the codes of the wire symbols are state (R34) and stand in Sys2Proof/Machine/Wire.lean. -/

namespace Sys2Proof

/-! ## The host port -/

/-- Why the items at the host port are not a command. -/
inductive DecodeError where
  /-- No command word is there: the CORE waits (R355). -/
  | noWord
  /-- A `COMPRESS_DATA` word without its `len` word yet (R92). -/
  | noLen
  /-- Fewer than `len` data bytes are there yet (R92). -/
  | noData
  /-- An item of another kind stands where a word or a byte is due (the order of R92 is broken). -/
  | outOfOrder
deriving DecidableEq, Repr

/-- What a command word alone settles (R90 to R94). -/
inductive WordKind where
  /-- The word is the whole command. -/
  | whole (i : Instr)
  /-- `COMPRESS_DATA`: a `len` word follows. -/
  | compressData (bufValid : Bool)
deriving DecidableEq, Repr

/-- The command word (R90, R91, R94). A word that several reserved rows describe is taken by the first of `op` = 2,
`op` = 3, bit 3, bits 31:20, bits 19:4 (log 8). -/
def decodeWord (w : Word) : WordKind :=
  if w.extractLsb' 0 2 = 2#2 then .whole (.reservedOp2 (w.extractLsb' 2 30))
  else if w.extractLsb' 0 2 = 3#2 then .whole (.reservedOp3 (w.extractLsb' 2 30))
  else if w.getLsbD 3 then .whole (.reservedBit3 (w.getLsbD 0) (w.getLsbD 2) (w.extractLsb' 4 28))
  else if w.extractLsb' 20 12 ≠ 0#12 then
    .whole (.reservedHigh (w.getLsbD 0) (w.getLsbD 2) (w.extractLsb' 4 16) (w.extractLsb' 20 12))
  else if w.getLsbD 0 then
    if w.extractLsb' 4 16 ≠ 0#16 then .whole (.reservedCdFlags (w.getLsbD 2) (w.extractLsb' 4 16))
    else .compressData (w.getLsbD 2)
  else .whole (.init (w.getLsbD 2) (w.extractLsb' 4 16))

/-- The next `n` data bytes (R92). -/
def takeBytes : List HostItem → Nat → Except DecodeError (List Byte × List HostItem)
  | items, 0 => .ok ([], items)
  | [], _ + 1 => .error .noData
  | .byte b :: items, n + 1 =>
    match takeBytes items n with
    | .ok (bs, rest) => .ok (b :: bs, rest)
    | .error e => .error e
  | .word _ :: _, _ + 1 => .error .outOfOrder
  | .hardwareReset :: _, _ + 1 => .error .outOfOrder
  | .resetDuring _ :: _, _ + 1 => .error .outOfOrder

/-- What follows the `COMPRESS_DATA` word: `len`, then `len` bytes when a buffer is given (R92, R93). -/
def decodeCompressData (bufValid : Bool) : List HostItem → Except DecodeError (Instr × List HostItem)
  | [] => .error .noLen
  | .byte _ :: _ => .error .outOfOrder
  | .hardwareReset :: _ => .error .outOfOrder
  | .resetDuring _ :: _ => .error .outOfOrder
  | .word len :: items =>
    if bufValid then
      match takeBytes items len.toNat with
      | .ok (bs, rest) => .ok (.feed bs, rest)
      | .error e => .error e
    else if len = 0#32 then .ok (.finish, items)
    else .ok (.badarg len, items)

/-- The next command at the host port and what is left behind it (R90 to R94). A refused word consumes nothing
more (R94). -/
def decodeHost : List HostItem → Except DecodeError (Instr × List HostItem)
  | [] => .error .noWord
  | .byte _ :: _ => .error .outOfOrder
  | .hardwareReset :: _ => .error .outOfOrder
  | .resetDuring _ :: _ => .error .outOfOrder
  | .word w :: items =>
    match decodeWord w with
    | .whole i => .ok (i, items)
    | .compressData bufValid => decodeCompressData bufValid items

/-! ## The flags word -/

/-- The five fields of the flags word, bit 0 first (R95). -/
def decodeFlags (flags : BitVec 16) : List Instr :=
  [.flagProbes (flags.extractLsb' 0 12), .flagZlib (flags.getLsbD 12), .flagBit13 (flags.getLsbD 13),
    .flagGreedy (flags.getLsbD 14), .flagNondet (flags.getLsbD 15)]

/-! ## The LZ token stream -/

/-- One token: `isMatch` is its flag bit (R100, R102, R103). A match whose third byte has bit 7 set is outside the
format (R104). -/
def decodeToken : (isMatch : Bool) → List Byte → Option Instr
  | false, [v] => some (.lzLiteral v)
  | true, [b0, b1, b2] => if b2.getLsbD 7 then none else some (.lzMatch b0 (b2.extractLsb' 0 7 ++ b1))
  | _, _ => none

/-! ## Fixed wire fields -/

/-- The 17 header bits, bit 0 emitted first (R110, R281); `BTYPE` other than 2 is never produced (R122). -/
def decodeBlockHeader (w : BitVec 17) : Option Instr :=
  if w.extractLsb' 1 2 = 2#2 then
    some (.blockHeader (w.getLsbD 0) (w.extractLsb' 3 5) (w.extractLsb' 8 5) (w.extractLsb' 13 4))
  else none

/-- The two zlib header bytes (R119). -/
def decodeZlibHeader (cmf flg : Byte) : Option Instr :=
  if cmf = 0x78#8 ∧ flg = 0x01#8 then some .zlibHeader else none

/-! ## Encoding -/

/-- The encoded forms of spec/30_encoding.md. -/
inductive Encoded where
  /-- Items of the host port (R90 to R94). -/
  | host (items : List HostItem)
  /-- A field of the flags word, in place, under its mask (R95). -/
  | flagField (mask value : BitVec 16)
  /-- A flag byte of the LZ stream (R101). -/
  | lzFlag (f : Byte)
  /-- A token of the LZ stream with its flag bit (R102, R103). -/
  | lzToken (isMatch : Bool) (bytes : List Byte)
  /-- The 17 header bits of a block (R281). -/
  | header (w : BitVec 17)
  /-- The two zlib header bytes (R119). -/
  | zlibBytes (cmf flg : Byte)
  /-- Bits that depend on the tables or registers of the state (R113 to R118, R120, R282). -/
  | fromState
  /-- An internal operation, or the call on the sink port: no bits stand for it. -/
  | internal
deriving DecidableEq, Repr

/-- A command word from its fields (R90): bits 31:20, 19:4, 3, 2 and 1:0. -/
def packWord (high : BitVec 12) (flags : BitVec 16) (bit3 p : Bool) (op : BitVec 2) : Word :=
  high ++ flags ++ BitVec.ofBool bit3 ++ BitVec.ofBool p ++ op

/-- The `op` field of a word that is neither `op` = 2 nor `op` = 3. -/
def opField (op0 : Bool) : BitVec 2 := 0#1 ++ BitVec.ofBool op0

/-- The items of a host command (R90 to R94, R126). -/
def encodeHost : Instr → List HostItem
  | .init p flags => [.word (packWord 0#12 flags false p 0#2)]
  | .feed data => .word (packWord 0#12 0#16 false true 1#2) :: .word (BitVec.ofNat 32 data.length) :: data.map .byte
  | .finish => [.word (packWord 0#12 0#16 false false 1#2), .word 0#32]
  | .badarg len => [.word (packWord 0#12 0#16 false false 1#2), .word len]
  | .reservedOp2 rest => [.word (rest ++ 2#2)]
  | .reservedOp3 rest => [.word (rest ++ 3#2)]
  | .reservedBit3 op0 p rest => [.word (rest ++ 1#1 ++ BitVec.ofBool p ++ opField op0)]
  | .reservedHigh op0 p flags high => [.word (packWord high flags false p (opField op0))]
  | .reservedCdFlags p flags => [.word (packWord 0#12 flags false p 1#2)]
  | .sinkPut _ => []
  | .flagProbes _ => []
  | .flagZlib _ => []
  | .flagBit13 _ => []
  | .flagGreedy _ => []
  | .flagNondet _ => []
  | .putBits _ _ => []
  | .outByte _ => []
  | .drain => []
  | .align => []
  | .feedByte _ => []
  | .hash3 _ _ _ => []
  | .findMatch _ _ _ _ _ => []
  | .parseStep => []
  | .idleLiteral => []
  | .idleCommit _ _ => []
  | .idleDefer _ _ => []
  | .deferredLongerLong _ _ => []
  | .deferredLongerShort _ _ => []
  | .deferredCommit => []
  | .savedMatchFlush => []
  | .lzReset => []
  | .recordLiteral _ => []
  | .recordMatch _ _ => []
  | .lzAfterRecord _ => []
  | .optimize _ => []
  | .huffDepths _ => []
  | .rev _ _ => []
  | .flushBlock _ => []
  | .tokens _ => []
  | .rlePack _ => []
  | .lenSym _ => []
  | .distSym _ => []
  | .adlerUpdate _ => []
  | .lzFlag _ => []
  | .lzLiteral _ => []
  | .lzMatch _ _ => []
  | .blockHeader _ _ _ _ => []
  | .clLengths _ => []
  | .cl0 => []
  | .cl1 => []
  | .cl2 => []
  | .cl3 => []
  | .cl4 => []
  | .cl5 => []
  | .cl6 => []
  | .cl7 => []
  | .cl8 => []
  | .cl9 => []
  | .cl10 => []
  | .cl11 => []
  | .cl12 => []
  | .cl13 => []
  | .cl14 => []
  | .cl15 => []
  | .cl16 _ => []
  | .cl17 _ => []
  | .cl18 _ => []
  | .llLiteral _ => []
  | .llEob => []
  | .len257 => []
  | .len258 => []
  | .len259 => []
  | .len260 => []
  | .len261 => []
  | .len262 => []
  | .len263 => []
  | .len264 => []
  | .len265 _ => []
  | .len266 _ => []
  | .len267 _ => []
  | .len268 _ => []
  | .len269 _ => []
  | .len270 _ => []
  | .len271 _ => []
  | .len272 _ => []
  | .len273 _ => []
  | .len274 _ => []
  | .len275 _ => []
  | .len276 _ => []
  | .len277 _ => []
  | .len278 _ => []
  | .len279 _ => []
  | .len280 _ => []
  | .len281 _ => []
  | .len282 _ => []
  | .len283 _ => []
  | .len284 _ => []
  | .len285 => []
  | .dist0 => []
  | .dist1 => []
  | .dist2 => []
  | .dist3 => []
  | .dist4 _ => []
  | .dist5 _ => []
  | .dist6 _ => []
  | .dist7 _ => []
  | .dist8 _ => []
  | .dist9 _ => []
  | .dist10 _ => []
  | .dist11 _ => []
  | .dist12 _ => []
  | .dist13 _ => []
  | .dist14 _ => []
  | .dist15 _ => []
  | .dist16 _ => []
  | .dist17 _ => []
  | .dist18 _ => []
  | .dist19 _ => []
  | .dist20 _ => []
  | .dist21 _ => []
  | .dist22 _ => []
  | .dist23 _ => []
  | .dist24 _ => []
  | .dist25 _ => []
  | .dist26 _ => []
  | .dist27 _ => []
  | .dist28 _ => []
  | .dist29 _ => []
  | .zlibHeader => []
  | .zlibTrailer => []

/-- The encoding of an instruction (spec/30_encoding.md). -/
def encode (i : Instr) : Encoded :=
  match i with
  | .init _ _ => .host (encodeHost i)
  | .feed _ => .host (encodeHost i)
  | .finish => .host (encodeHost i)
  | .badarg _ => .host (encodeHost i)
  | .reservedOp2 _ => .host (encodeHost i)
  | .reservedOp3 _ => .host (encodeHost i)
  | .reservedBit3 _ _ _ => .host (encodeHost i)
  | .reservedHigh _ _ _ _ => .host (encodeHost i)
  | .reservedCdFlags _ _ => .host (encodeHost i)
  | .sinkPut _ => .internal
  | .flagProbes v => .flagField 0x0FFF#16 (v.zeroExtend 16)
  | .flagZlib b => .flagField 0x1000#16 (if b then 0x1000#16 else 0#16)
  | .flagBit13 b => .flagField 0x2000#16 (if b then 0x2000#16 else 0#16)
  | .flagGreedy b => .flagField 0x4000#16 (if b then 0x4000#16 else 0#16)
  | .flagNondet b => .flagField 0x8000#16 (if b then 0x8000#16 else 0#16)
  | .putBits _ _ => .internal
  | .outByte _ => .internal
  | .drain => .internal
  | .align => .internal
  | .feedByte _ => .internal
  | .hash3 _ _ _ => .internal
  | .findMatch _ _ _ _ _ => .internal
  | .parseStep => .internal
  | .idleLiteral => .internal
  | .idleCommit _ _ => .internal
  | .idleDefer _ _ => .internal
  | .deferredLongerLong _ _ => .internal
  | .deferredLongerShort _ _ => .internal
  | .deferredCommit => .internal
  | .savedMatchFlush => .internal
  | .lzReset => .internal
  | .recordLiteral _ => .internal
  | .recordMatch _ _ => .internal
  | .lzAfterRecord _ => .internal
  | .optimize _ => .internal
  | .huffDepths _ => .internal
  | .rev _ _ => .internal
  | .flushBlock _ => .internal
  | .tokens _ => .internal
  | .rlePack _ => .internal
  | .lenSym _ => .internal
  | .distSym _ => .internal
  | .adlerUpdate _ => .internal
  | .lzFlag f => .lzFlag f
  | .lzLiteral v => .lzToken false [v]
  | .lzMatch l d => .lzToken true [l, d.extractLsb' 0 8, 0#1 ++ d.extractLsb' 8 7]
  | .blockHeader bfinal hlit hdist hclen => .header (hclen ++ hdist ++ hlit ++ 2#2 ++ BitVec.ofBool bfinal)
  | .clLengths _ => .fromState
  | .cl0 => .fromState
  | .cl1 => .fromState
  | .cl2 => .fromState
  | .cl3 => .fromState
  | .cl4 => .fromState
  | .cl5 => .fromState
  | .cl6 => .fromState
  | .cl7 => .fromState
  | .cl8 => .fromState
  | .cl9 => .fromState
  | .cl10 => .fromState
  | .cl11 => .fromState
  | .cl12 => .fromState
  | .cl13 => .fromState
  | .cl14 => .fromState
  | .cl15 => .fromState
  | .cl16 _ => .fromState
  | .cl17 _ => .fromState
  | .cl18 _ => .fromState
  | .llLiteral _ => .fromState
  | .llEob => .fromState
  | .len257 => .fromState
  | .len258 => .fromState
  | .len259 => .fromState
  | .len260 => .fromState
  | .len261 => .fromState
  | .len262 => .fromState
  | .len263 => .fromState
  | .len264 => .fromState
  | .len265 _ => .fromState
  | .len266 _ => .fromState
  | .len267 _ => .fromState
  | .len268 _ => .fromState
  | .len269 _ => .fromState
  | .len270 _ => .fromState
  | .len271 _ => .fromState
  | .len272 _ => .fromState
  | .len273 _ => .fromState
  | .len274 _ => .fromState
  | .len275 _ => .fromState
  | .len276 _ => .fromState
  | .len277 _ => .fromState
  | .len278 _ => .fromState
  | .len279 _ => .fromState
  | .len280 _ => .fromState
  | .len281 _ => .fromState
  | .len282 _ => .fromState
  | .len283 _ => .fromState
  | .len284 _ => .fromState
  | .len285 => .fromState
  | .dist0 => .fromState
  | .dist1 => .fromState
  | .dist2 => .fromState
  | .dist3 => .fromState
  | .dist4 _ => .fromState
  | .dist5 _ => .fromState
  | .dist6 _ => .fromState
  | .dist7 _ => .fromState
  | .dist8 _ => .fromState
  | .dist9 _ => .fromState
  | .dist10 _ => .fromState
  | .dist11 _ => .fromState
  | .dist12 _ => .fromState
  | .dist13 _ => .fromState
  | .dist14 _ => .fromState
  | .dist15 _ => .fromState
  | .dist16 _ => .fromState
  | .dist17 _ => .fromState
  | .dist18 _ => .fromState
  | .dist19 _ => .fromState
  | .dist20 _ => .fromState
  | .dist21 _ => .fromState
  | .dist22 _ => .fromState
  | .dist23 _ => .fromState
  | .dist24 _ => .fromState
  | .dist25 _ => .fromState
  | .dist26 _ => .fromState
  | .dist27 _ => .fromState
  | .dist28 _ => .fromState
  | .dist29 _ => .fromState
  | .zlibHeader => .zlibBytes 0x78#8 0x01#8
  | .zlibTrailer => .fromState

/-- Decoding of an encoded form; `none` where the form carries no instruction of its own. -/
def decode : Encoded → Option Instr
  | .host items =>
    match decodeHost items with
    | .ok (i, []) => some i
    | _ => none
  | .flagField mask value =>
    if mask = 0x0FFF#16 ∧ value &&& mask = value then some (.flagProbes (value.extractLsb' 0 12))
    else if mask = 0x1000#16 ∧ value &&& mask = value then some (.flagZlib (value.getLsbD 12))
    else if mask = 0x2000#16 ∧ value &&& mask = value then some (.flagBit13 (value.getLsbD 13))
    else if mask = 0x4000#16 ∧ value &&& mask = value then some (.flagGreedy (value.getLsbD 14))
    else if mask = 0x8000#16 ∧ value &&& mask = value then some (.flagNondet (value.getLsbD 15))
    else none
  | .lzFlag f => some (.lzFlag f)
  | .lzToken isMatch bytes => decodeToken isMatch bytes
  | .header w => decodeBlockHeader w
  | .zlibBytes cmf flg => decodeZlibHeader cmf flg
  | .fromState => none
  | .internal => none

/-! ## Words as spec/opcode_table.json numbers them -/

/-- The items at the host port whose bits are `w`: the command word, `len`, and for a `FEED` its `len` data bytes
(R92); a reserved word stands alone. -/
def tableItems (w : Nat) : List HostItem :=
  let first : Word := BitVec.ofNat 32 w
  let second : Word := BitVec.ofNat 32 (w >>> 32)
  match decodeWord first with
  | .whole _ => [.word first]
  | .compressData true =>
    [.word first, .word second] ++ (List.range second.toNat).map fun k => .byte (BitVec.ofNat 8 (w >>> (64 + 8 * k)))
  | .compressData false => [.word first, .word second]

/-- The encoded form a table row's bits stand for, by the width the table gives the row: 32 bits or more are host
words; 24 bits are the 17 header bits of a block, where they read as one, else an LZ match token with its first
byte highest; 16 bits are the zlib header with its first byte highest; 8 bits are an LZ literal (log 9). -/
def tableForm (nbits w : Nat) : Encoded :=
  if 32 ≤ nbits then .host (tableItems w)
  else if nbits = 24 then
    if w < 2 ^ 17 ∧ (decodeBlockHeader (BitVec.ofNat 17 w)).isSome then .header (BitVec.ofNat 17 w)
    else .lzToken true [BitVec.ofNat 8 (w >>> 16), BitVec.ofNat 8 (w >>> 8), BitVec.ofNat 8 w]
  else if nbits = 16 then .zlibBytes (BitVec.ofNat 8 (w >>> 8)) (BitVec.ofNat 8 w)
  else if nbits = 8 then .lzToken false [BitVec.ofNat 8 w]
  else .internal

/-- The instruction the decoder reads from a table row's bits. -/
def decodeTableWord (nbits w : Nat) : Option Instr := decode (tableForm nbits w)

end Sys2Proof
end

