-- ==== Sys2Proof/Machine/State.lean ====
section
/-! DEFINITION. The state of the CORE (spec/10_state.md R20 to R39) as plain data, the reasons a step can stop, and
the state after hardware reset (R39, spec/70_reset_and_hazards.md R370). -/

namespace Sys2Proof.Machine

/-- A memory or table of `w`-bit entries. `cells` lists the entries that hold something other than `fill`, indices
strictly rising; `fill` is what every other entry holds, `none` where nothing has written it since hardware reset
(log 2). -/
structure Mem (w : Nat) where
  fill : Option (BitVec w)
  cells : List (Nat × BitVec w)
deriving DecidableEq, Repr

/-- One element of the builder's sorted array: the frequency, later the depth, and the symbol (R35, R240). -/
structure SymKey where
  key : BitVec 16
  sym : BitVec 9
deriving DecidableEq, Repr

/-- One entry of the packed code-length list (R35, R113, R278). -/
structure PackedEntry where
  sym : Nat
  extraBits : Nat
  extra : Nat
deriving DecidableEq, Repr

/-- One call on the sink port and its answer (R97). -/
structure PutCall where
  bytes : List Byte
  accepted : Bool
deriving DecidableEq, Repr

/-- The value an internal operation yields (the model's own record of it, log 11). -/
inductive OpResult where
  | none
  | flag (b : Bool)
  | value (n : Nat)
  | found (dist len : Nat)
  | symbol (sym extraBits base : Nat)
  | tokens (ts : List Token)
deriving DecidableEq, Repr

/-- Why the machine stops with a fault: a violated precondition of spec/60_exceptions.md R360, which the hardware
cannot meet (log 7). Every one is safe: the model stops, it makes up no value. -/
inductive Fault where
  /-- `PUT_BITS` with `n > 16` or `value >= 2^n`, on a failed session too (R140, R360). Safe. -/
  | putBitsOperand (value n : Nat)
  /-- `PUT_BITS` entered with `bits_in > 7` (R31, R140). Safe. -/
  | bitsInRange
  /-- An index outside its memory (R63). Safe. -/
  | indexOutside (space : Space) (i : Nat)
  /-- `put` of a length outside 1..4096 (R97). Safe. -/
  | putLength (n : Nat)
  /-- `FEED_BYTE` with a full lookahead (R160). Safe. -/
  | lookaheadFull
  /-- `PARSE_STEP` with an empty lookahead (R201, R360). Safe. -/
  | lookaheadEmpty
  /-- A transition that would advance by 0 or past the lookahead (R215). Safe. -/
  | advanceRange (adv : Nat)
  /-- `FIND_MATCH` outside its contract: `max_len` over 258, or `match_len` below 2 (R180, R181). Safe. -/
  | findMatchContract
  /-- `RECORD_MATCH` outside `3 <= l <= 258`, `1 <= d <= 32768` (R223, R360). Safe. -/
  | recordMatchOperand (d l : Nat)
  /-- `flags_left` outside 1..8 (R30). Safe. -/
  | flagsLeftRange
  /-- `FLUSH_BLOCK` with `lz_pos` = 0 (R30, R271). Safe. -/
  | lzPosRange
  /-- `LEN_SYM` outside 3..258 (R289). Safe. -/
  | lengthRange (l : Nat)
  /-- `DIST_SYM` outside 1..32768 (R104, R290). Safe. -/
  | distanceRange (d : Nat)
  /-- A code depth above 32 (R254). Safe. -/
  | depthAbove32
  /-- A substitute for R246 returned depths that R258 does not allow. Safe. -/
  | substituteDepths
  /-- The repair loop found no shorter code to lengthen (R249). Safe. -/
  | noShorterCode
  /-- `HUFF_DEPTHS` with `n` over 288, past the end of `syms[0..287]` (R35, R63, R360). Safe. -/
  | sortedArrayRange
  /-- BLOCK.CL_LENGTHS with `hclen` over 19, past the end of `SWIZZLE[0..18]` (R112, R282, R360). Safe. -/
  | swizzleRange (hclen : Nat)
  /-- `RLE_PACK` of a sequence whose packed list is past the end of `packed[0..319]` (R35, R360). Safe. -/
  | packedRange (length : Nat)
deriving DecidableEq, Repr

/-- Why a step is refused. -/
inductive Refusal where
  /-- Raised by an arm of `exec` that has no meaning yet (none has this now). Safe. -/
  | notModelled (mnemonic : String)
  /-- Raised by `step` where the host presents a byte for a word or a word for a byte: R92 fixes the order and the
  spec gives no effect to another (log 4). Safe. -/
  | hostOutOfOrder
deriving DecidableEq, Repr

/-- Why a command is turned away (spec/60_exceptions.md R342 to R345, R348). -/
inductive RefusalCause where
  /-- `INIT` without a sink (R342). -/
  | sinkMissing
  /-- `COMPRESS_DATA` without a buffer and with `len` not 0 (R343). -/
  | badArgument
  /-- `COMPRESS_DATA` while `closed` = 1 (R344). -/
  | sessionClosed
  /-- `COMPRESS_DATA` while `failed` = 1 (R345). -/
  | sessionFailed
  /-- A reserved command word (R348). -/
  | reservedWord
deriving DecidableEq, Repr

/-- The state. The first part is the spec's (R21 to R35), the second the model's own. -/
structure State where
  /-- 1..4095 (R21). -/
  maxProbes : BitVec 12
  greedy : Bool
  nondet : Bool
  zlib : Bool
  /-- Sticky failure flag (R22). -/
  failed : Bool
  /-- Terminal flush done, or no session (R22). -/
  closed : Bool
  /-- Running Adler-32 (R23). -/
  adler : BitVec 32
  lookaheadPos : BitVec 15
  lookaheadSize : BitVec 9
  dictSize : BitVec 16
  /-- 33025 bytes (R26). -/
  dict : Mem 8
  /-- 4096 entries (R27). -/
  head : Mem 16
  /-- 32768 entries (R28). -/
  prev : Mem 16
  savedLit : BitVec 8
  savedMatchDist : BitVec 16
  savedMatchLen : BitVec 9
  /-- 24576 bytes (R30). -/
  lzBuf : Mem 8
  lzPos : BitVec 16
  lzFlagsPos : BitVec 15
  flagsLeft : BitVec 4
  bitBuffer : BitVec 24
  bitsIn : BitVec 5
  /-- 4096 bytes (R32). -/
  outBuf : Mem 8
  outPos : BitVec 13
  litFreq : Mem 16
  distFreq : Mem 16
  clFreq : Mem 16
  llLen : Mem 4
  llCode : Mem 15
  dLen : Mem 4
  dCode : Mem 15
  clLen : Mem 4
  clCode : Mem 7
  /-- The sorted array, indices 0..287 (R35, R240). -/
  syms : List SymKey
  /-- Indices 0..32 (R35). -/
  numCodes : List (BitVec 9)
  /-- Indices 0..15 (R35). -/
  nextCode : List (BitVec 16)
  packed : List PackedEntry
  /-- Open parameters; no operation writes them (log 6). -/
  params : Params
  /-- What the host presents and the CORE has not taken yet (log 4). -/
  hostIn : List HostItem
  /-- The bits returned to the host, oldest first (R96, log 12). -/
  returns : List Bool
  /-- The calls made on the sink port, oldest first (R97, log 12). -/
  sinkLog : List PutCall
  /-- The sink answers the environment has ready, next first (R146, log 3). -/
  sinkAnswers : List Bool
  /-- How many answers were drawn from `Config.sinkAnswer` (log 3). -/
  sinkDraws : Nat
  /-- How many hardware resets followed the first (log 2). -/
  resets : Nat
  /-- Internal operations to be performed before the next host command; no command fills it (log 5). -/
  sequencer : List Instr
  /-- The value the last internal operation that yields one was asked for (log 11). -/
  opResult : OpResult
deriving DecidableEq, Repr

/-- A memory whose contents hardware reset leaves unspecified (R370). -/
def Mem.unspecified {w : Nat} : Mem w := { fill := none, cells := [] }

/-- A table or memory whose every entry holds `v`. -/
def Mem.filled {w : Nat} (v : BitVec w) : Mem w := { fill := some v, cells := [] }

/-- The machine right after hardware reset (R39, R370): `closed` = 1, `failed` = 0; the other registers hold the
values log 1 names, the memories are unspecified (log 2), and the host has presented nothing. -/
def State.reset : State where
  maxProbes := 1#12
  greedy := false
  nondet := false
  zlib := false
  failed := false
  closed := true
  adler := 1#32
  lookaheadPos := 0#15
  lookaheadSize := 0#9
  dictSize := 0#16
  dict := Mem.unspecified
  head := Mem.unspecified
  prev := Mem.unspecified
  savedLit := 0#8
  savedMatchDist := 0#16
  savedMatchLen := 0#9
  lzBuf := Mem.unspecified
  lzPos := 1#16
  lzFlagsPos := 0#15
  flagsLeft := 8#4
  bitBuffer := 0#24
  bitsIn := 0#5
  outBuf := Mem.unspecified
  outPos := 0#13
  litFreq := Mem.filled 0#16
  distFreq := Mem.filled 0#16
  clFreq := Mem.filled 0#16
  llLen := Mem.filled 0#4
  llCode := Mem.filled 0#15
  dLen := Mem.filled 0#4
  dCode := Mem.filled 0#15
  clLen := Mem.filled 0#4
  clCode := Mem.filled 0#7
  syms := List.replicate 288 ⟨0#16, 0#9⟩
  numCodes := List.replicate 33 0#9
  nextCode := List.replicate 16 0#16
  packed := []
  params := Params.standard
  hostIn := []
  returns := []
  sinkLog := []
  sinkAnswers := []
  sinkDraws := 0
  resets := 0
  sequencer := []
  opResult := .none

end Sys2Proof.Machine
end

