-- ==== Sys2Proof/Machine/Ops.lean ====
section
/-! DEFINITION. The named operations over memories and registers, and the refusal of a command, which stands for
taking an exception on this hardware (spec/60_exceptions.md R350). -/

namespace Sys2Proof.Machine

/-! ## One memory -/

/-- The value listed at index `i`. -/
def cellFind {w : Nat} : List (Nat × BitVec w) → Nat → Option (BitVec w)
  | [], _ => none
  | (a, v) :: rest, i => if a = i then some v else cellFind rest i

/-- The list with `v` at index `i`, in rising order. -/
def cellInsert {w : Nat} : List (Nat × BitVec w) → Nat → BitVec w → List (Nat × BitVec w)
  | [], i, v => [(i, v)]
  | (a, x) :: rest, i, v =>
    if i < a then (i, v) :: (a, x) :: rest
    else if i = a then (i, v) :: rest
    else (a, x) :: cellInsert rest i v

/-- The list without an entry at index `i`. -/
def cellErase {w : Nat} : List (Nat × BitVec w) → Nat → List (Nat × BitVec w)
  | [], _ => []
  | (a, x) :: rest, i => if a = i then cellErase rest i else (a, x) :: cellErase rest i

/-- What entry `i` holds; `none` where nothing has written it since hardware reset. -/
def Mem.get? {w : Nat} (m : Mem w) (i : Nat) : Option (BitVec w) :=
  match cellFind m.cells i with
  | some v => some v
  | none => m.fill

/-- `m[i] <- v` (R14); a value equal to `fill` is not listed. -/
def Mem.set {w : Nat} (m : Mem w) (i : Nat) (v : BitVec w) : Mem w :=
  if m.fill = some v then { m with cells := cellErase m.cells i }
  else { m with cells := cellInsert m.cells i v }

/-- Entry `i` of a table, as a number. -/
def Mem.entry {w : Nat} (m : Mem w) (i : Nat) : Nat := ((m.get? i).getD 0#w).toNat

/-- The indices of a cell list rise strictly. -/
def cellsRising {w : Nat} : List (Nat × BitVec w) → Bool
  | [] => true
  | [_] => true
  | a :: b :: rest => decide (a.1 < b.1) && cellsRising (b :: rest)

/-- The canonical form: indices strictly rising and inside the space of `size` entries, no entry equal to `fill`. -/
def Mem.wf {w : Nat} (size : Nat) (m : Mem w) : Bool :=
  cellsRising m.cells && m.cells.all fun c => decide (c.1 < size) && decide (m.fill ≠ some c.2)

/-! ## Reading one entry of each memory (R60, R66); an entry nothing has written is a free value (log 2) -/

/-- `dict[i]`. -/
def State.dictByte (s : State) (i : Nat) : Byte := (s.dict.get? i).getD (Config.powerOnByte .dict s.resets i)

/-- `head[i]`. -/
def State.headEntry (s : State) (i : Nat) : Entry := (s.head.get? i).getD (Config.powerOnEntry .head s.resets i)

/-- `prev[i]`. -/
def State.prevEntry (s : State) (i : Nat) : Entry := (s.prev.get? i).getD (Config.powerOnEntry .prev s.resets i)

/-- `lz_buf[i]`. -/
def State.lzByte (s : State) (i : Nat) : Byte := (s.lzBuf.get? i).getD (Config.powerOnByte .lzBuf s.resets i)

/-- `out_buf[i]`. -/
def State.outBufByte (s : State) (i : Nat) : Byte := (s.outBuf.get? i).getD (Config.powerOnByte .outBuf s.resets i)

/-! ## Register updates -/

/-- The command returns `b` to the host (R96). -/
def State.reply (s : State) (b : Bool) : State := { s with returns := s.returns ++ [b] }
def State.setFailed (s : State) (b : Bool) : State := { s with failed := b }
def State.setClosed (s : State) (b : Bool) : State := { s with closed := b }
def State.setMaxProbes (s : State) (v : BitVec 12) : State := { s with maxProbes := v }
def State.setZlib (s : State) (b : Bool) : State := { s with zlib := b }
def State.setGreedy (s : State) (b : Bool) : State := { s with greedy := b }
def State.setNondet (s : State) (b : Bool) : State := { s with nondet := b }
def State.setAdler (s : State) (v : BitVec 32) : State := { s with adler := v }
/-- `lookahead_pos`, `lookahead_size` and `dict_size` (R25). -/
def State.setCursors (s : State) (pos : BitVec 15) (size : BitVec 9) (history : BitVec 16) : State :=
  { s with lookaheadPos := pos, lookaheadSize := size, dictSize := history }
def State.setDict (s : State) (m : Mem 8) : State := { s with dict := m }
def State.setHead (s : State) (m : Mem 16) : State := { s with head := m }
def State.setPrev (s : State) (m : Mem 16) : State := { s with prev := m }
/-- The parser's saved match (R29). -/
def State.setSaved (s : State) (lit : BitVec 8) (dist : BitVec 16) (len : BitVec 9) : State :=
  { s with savedLit := lit, savedMatchDist := dist, savedMatchLen := len }
def State.setLzBuf (s : State) (m : Mem 8) : State := { s with lzBuf := m }
/-- The cursors of the LZ code buffer (R30). -/
def State.setLzCursors (s : State) (pos : BitVec 16) (flagsPos : BitVec 15) (left : BitVec 4) : State :=
  { s with lzPos := pos, lzFlagsPos := flagsPos, flagsLeft := left }
/-- The bit accumulator (R31). -/
def State.setBits (s : State) (buffer : BitVec 24) (count : BitVec 5) : State :=
  { s with bitBuffer := buffer, bitsIn := count }
/-- The staging buffer (R32). -/
def State.setOut (s : State) (m : Mem 8) (pos : BitVec 13) : State := { s with outBuf := m, outPos := pos }
/-- A call on the sink port (R97) and what is left of the environment's answers. -/
def State.logPut (s : State) (call : PutCall) (answers : List Bool) (draws : Nat) : State :=
  { s with sinkLog := s.sinkLog ++ [call], sinkAnswers := answers, sinkDraws := draws }
/-- The frequency tables of the first two alphabets (R33). -/
def State.setFreqs (s : State) (lit dist : Mem 16) : State := { s with litFreq := lit, distFreq := dist }
/-- The frequency table of the code-length alphabet (R33) and the packed list it counts (R35). -/
def State.setPacked (s : State) (packed : List PackedEntry) (freq : Mem 16) : State :=
  { s with packed := packed, clFreq := freq }
def State.setLitLenCodes (s : State) (len : Mem 4) (code : Mem 15) : State := { s with llLen := len, llCode := code }
def State.setDistCodes (s : State) (len : Mem 4) (code : Mem 15) : State := { s with dLen := len, dCode := code }
def State.setCodeLenCodes (s : State) (len : Mem 4) (code : Mem 7) : State := { s with clLen := len, clCode := code }
/-- The builder's scratch arrays (R35). -/
def State.setScratch (s : State) (syms : List SymKey) (numCodes : List (BitVec 9)) (nextCode : List (BitVec 16)) : State :=
  { s with syms := syms, numCodes := numCodes, nextCode := nextCode }
def State.setResult (s : State) (r : OpResult) : State := { s with opResult := r }
def State.setHostIn (s : State) (items : List HostItem) : State := { s with hostIn := items }
def State.setSequencer (s : State) (ops : List Instr) : State := { s with sequencer := ops }

/-! ## Writing one entry; an index outside the space is a model fault (R63) -/

/-- `dict[i] <- v`; every caller's index is inside (R162). -/
def State.writeDict (s : State) (i : Nat) (v : Byte) : State := s.setDict (s.dict.set i v)

/-- `head[i] <- v`; the index is a 12-bit hash. -/
def State.writeHead (s : State) (i : BitVec 12) (v : Entry) : State := s.setHead (s.head.set i.toNat v)

/-- `prev[i] <- v`; the index is a window index. -/
def State.writePrev (s : State) (i : BitVec 15) (v : Entry) : State := s.setPrev (s.prev.set i.toNat v)

/-- `lz_buf[i]`, checked. -/
def readLz (s : State) (i : Nat) : Except Fault Byte :=
  if i < Config.LZ_SIZE then .ok (s.lzByte i) else .error (.indexOutside .lzBuf i)

/-- `lz_buf[i] <- v`, checked. -/
def writeLz (s : State) (i : Nat) (v : Byte) : Except Fault State :=
  if i < Config.LZ_SIZE then .ok (s.setLzBuf (s.lzBuf.set i v)) else .error (.indexOutside .lzBuf i)

/-- Bytes stored from index `i` upward, checked. -/
def writeLzBytes (s : State) (i : Nat) : List Byte → Except Fault State
  | [] => .ok s
  | b :: bs => do
    let t ← writeLz s i b
    writeLzBytes t (i + 1) bs

/-! ## Refusing a command: what stands for an exception (R350), and what stands for the return from one (R351) -/

/-- A command is turned away: `false` is returned, nothing is saved anywhere, and only the flag the cause names
changes (R342 to R345, R348, R350). There is no return from it: only `INIT` starts a new session (R351). -/
def refuseCommand (cause : RefusalCause) (s : State) : State :=
  match cause with
  | .sinkMissing => (s.setClosed true).reply false
  | .badArgument => (s.setFailed true).reply false
  | .sessionClosed => s.reply false
  | .sessionFailed => s.reply false
  | .reservedWord => s.reply false

/-- The first two tests of `COMPRESS_DATA`, in their order (R314, R349). -/
def sessionGate (s : State) : Option RefusalCause :=
  if s.closed then some .sessionClosed
  else if s.failed then some .sessionFailed
  else none

/-- The outcome of a meaning that runs in `Except Fault`. -/
def ofRun (r : Except Fault State) : Host.Outcome State Fault Refusal :=
  match r with
  | .ok s => .next s
  | .error f => .fault f

/-- Hardware reset: the state of `State.reset` with stale contents drawn afresh; what lies outside
the CORE (the host's items, both logs, the sink's answers) and the machine's parameters stay (R370, R371; log 10). -/
def hardwareReset (s : State) : State :=
  { State.reset with
    params := s.params
    hostIn := s.hostIn
    returns := s.returns
    sinkLog := s.sinkLog
    sinkAnswers := s.sinkAnswers
    sinkDraws := s.sinkDraws
    resets := s.resets + 1 }

/-- Hardware reset inside work that leads from `s` to `t`: before that work's sink call number `puts` + 1, or at its
end where `puts` is `none` or no smaller than its calls. The sink keeps the calls made until then, the CORE keeps
nothing, and no bit is returned (R371, R383; log 10). -/
def resetInside (puts : Option Nat) (s t : State) : State :=
  let calls := t.sinkLog.drop s.sinkLog.length
  let made := calls.take (puts.getD calls.length)
  hardwareReset { s with
    sinkLog := s.sinkLog ++ made
    sinkAnswers := s.sinkAnswers.drop made.length
    sinkDraws := s.sinkDraws + (made.length - s.sinkAnswers.length) }

/-- The outcome of a command performed on `s` that a hardware reset strikes (R371). -/
def strike (puts : Nat) (s : State) (outcome : Host.Outcome State Fault Refusal) : Host.Outcome State Fault Refusal :=
  match outcome with
  | .next t => .next (resetInside (some puts) s t)
  | .fault f => .fault f
  | .refused r => .refused r

/-! ## What the host presents next -/

/-- The next thing at the host port (R24, R92). -/
inductive Fetched where
  | waiting
  | command (i : Instr) (rest : List HostItem)
  | reset (rest : List HostItem)
  /-- A command that a hardware reset strikes after `puts` sink calls (R371). -/
  | struck (i : Instr) (puts : Nat) (rest : List HostItem)
  /-- A hardware reset before a command is all there; `data` are the bytes of a `FEED` presented before it, `puts`
  says after how many of their sink calls it strikes, `none` after all (R371). -/
  | broken (puts : Option Nat) (data : List Byte) (rest : List HostItem)
  | outOfOrder
deriving DecidableEq, Repr

/-- The data bytes in front of a hardware reset that comes before the `n`-th of them is presented (R371). -/
def bytesBeforeReset : List HostItem → Nat → Option (List Byte × List HostItem)
  | _, 0 => none
  | [], _ + 1 => none
  | .word _ :: _, _ + 1 => none
  | .hardwareReset :: rest, _ + 1 => some ([], rest)
  | .resetDuring _ :: _, _ + 1 => none
  | .byte b :: items, n + 1 =>
    match bytesBeforeReset items n with
    | some (bs, rest) => some (b :: bs, rest)
    | none => none

/-- A hardware reset that takes the place of the `len` word or of a data byte of `COMPRESS_DATA` (R371; log 10). -/
def findResetInside : List HostItem → Option (List Byte × List HostItem)
  | .word w :: .hardwareReset :: rest =>
    match decodeWord w with
    | .whole _ => none
    | .compressData _ => some ([], rest)
  | .word w :: .word len :: items =>
    match decodeWord w with
    | .whole _ => none
    | .compressData bufValid => if bufValid then bytesBeforeReset items len.toNat else none
  | _ => none

/-- The next command, from items that begin with no reset; a command that is not all there yet makes the CORE wait
(R355). -/
def fetchCommand (items : List HostItem) : Fetched :=
  match decodeHost items with
  | .ok (i, rest) => .command i rest
  | .error .noWord => .waiting
  | .error .noLen => .waiting
  | .error .noData => .waiting
  | .error .outOfOrder =>
    match findResetInside items with
    | some (data, rest) => .broken none data rest
    | none => .outOfOrder

/-- The command that a hardware reset strikes after `puts` sink calls; where no command comes before the next
hardware reset, nothing is struck (R371; log 10). -/
def struckBy (puts : Nat) (f : Fetched) : Fetched :=
  match f with
  | .command i rest => .struck i puts rest
  | .broken _ data rest => .broken (some puts) data rest
  | .waiting => .waiting
  | .reset rest => .reset rest
  | .struck i later rest => .struck i (min puts later) rest
  | .outOfOrder => .outOfOrder

/-- What is to be done next at the host port (R12, R92, R355, R371). -/
def fetch : List HostItem → Fetched
  | .hardwareReset :: rest => .reset rest
  | .resetDuring puts :: rest => struckBy puts (fetch rest)
  | items => fetchCommand items

end Sys2Proof.Machine
end

