-- ==== Sys2Proof/Machine/Operands.lean ====
section
/-! DEFINITION. Operand forms: the read-only tables (spec/10_state.md R36, spec/45_block_encoder.md R289 to R291,
spec/30_encoding.md R112, R113), the bytes of a match token (R103) and the hash of a triplet
(spec/41_dictionary_hash.md R161). -/

namespace Sys2Proof.Machine

/-- One row of the length or distance table: the symbol, its extra bits, the first and the last value. -/
structure SymbolRow where
  sym : Nat
  extraBits : Nat
  base : Nat
  last : Nat
deriving DecidableEq, Repr

/-- The length table (R289). -/
def lenRows : List SymbolRow :=
  [⟨257, 0, 3, 3⟩, ⟨258, 0, 4, 4⟩, ⟨259, 0, 5, 5⟩, ⟨260, 0, 6, 6⟩, ⟨261, 0, 7, 7⟩, ⟨262, 0, 8, 8⟩,
    ⟨263, 0, 9, 9⟩, ⟨264, 0, 10, 10⟩, ⟨265, 1, 11, 12⟩, ⟨266, 1, 13, 14⟩, ⟨267, 1, 15, 16⟩,
    ⟨268, 1, 17, 18⟩, ⟨269, 2, 19, 22⟩, ⟨270, 2, 23, 26⟩, ⟨271, 2, 27, 30⟩, ⟨272, 2, 31, 34⟩,
    ⟨273, 3, 35, 42⟩, ⟨274, 3, 43, 50⟩, ⟨275, 3, 51, 58⟩, ⟨276, 3, 59, 66⟩, ⟨277, 4, 67, 82⟩,
    ⟨278, 4, 83, 98⟩, ⟨279, 4, 99, 114⟩, ⟨280, 4, 115, 130⟩, ⟨281, 5, 131, 162⟩, ⟨282, 5, 163, 194⟩,
    ⟨283, 5, 195, 226⟩, ⟨284, 5, 227, 257⟩, ⟨285, 0, 258, 258⟩]

/-- The distance table (R290). -/
def distRows : List SymbolRow :=
  [⟨0, 0, 1, 1⟩, ⟨1, 0, 2, 2⟩, ⟨2, 0, 3, 3⟩, ⟨3, 0, 4, 4⟩, ⟨4, 1, 5, 6⟩, ⟨5, 1, 7, 8⟩, ⟨6, 2, 9, 12⟩,
    ⟨7, 2, 13, 16⟩, ⟨8, 3, 17, 24⟩, ⟨9, 3, 25, 32⟩, ⟨10, 4, 33, 48⟩, ⟨11, 4, 49, 64⟩, ⟨12, 5, 65, 96⟩,
    ⟨13, 5, 97, 128⟩, ⟨14, 6, 129, 192⟩, ⟨15, 6, 193, 256⟩, ⟨16, 7, 257, 384⟩, ⟨17, 7, 385, 512⟩,
    ⟨18, 8, 513, 768⟩, ⟨19, 8, 769, 1024⟩, ⟨20, 9, 1025, 1536⟩, ⟨21, 9, 1537, 2048⟩,
    ⟨22, 10, 2049, 3072⟩, ⟨23, 10, 3073, 4096⟩, ⟨24, 11, 4097, 6144⟩, ⟨25, 11, 6145, 8192⟩,
    ⟨26, 12, 8193, 12288⟩, ⟨27, 12, 12289, 16384⟩, ⟨28, 13, 16385, 24576⟩, ⟨29, 13, 24577, 32768⟩]

/-- The row of a table that contains `v`. -/
def rowOf (rows : List SymbolRow) (v : Nat) : Option SymbolRow :=
  rows.find? fun r => decide (r.base ≤ v) && decide (v ≤ r.last)

/-- `LEN_SYM(l)` with its extra bits and base (R289). -/
def lenRow (l : Nat) : Except Fault SymbolRow :=
  match rowOf lenRows l with
  | some r => .ok r
  | none => .error (.lengthRange l)

/-- `DIST_SYM(d)` with its extra bits and base (R290). -/
def distRow (d : Nat) : Except Fault SymbolRow :=
  match rowOf distRows d with
  | some r => .ok r
  | none => .error (.distanceRange d)

/-- The swizzle order (R112). -/
def swizzle : List Nat := [16, 17, 18, 0, 8, 7, 9, 6, 10, 5, 11, 4, 12, 3, 13, 2, 14, 1, 15]

/-- `SWIZZLE[i]`. -/
def swizzleAt (i : Nat) : Nat := swizzle.getD i 0

/-- The three bytes of a match token (R103). -/
def matchBytes (d l : Nat) : List Byte :=
  [BitVec.ofNat 8 (l - Config.M), BitVec.ofNat 8 (d - 1), BitVec.ofNat 8 ((d - 1) / 256)]

/-- The match a token's three bytes stand for (R103, R272). -/
def matchToken (b0 b1 b2 : Byte) : Token :=
  .copy (b0.toNat + Config.M) (b1.toNat + 256 * b2.toNat + 1)

/-- One step of the hash (R161): shift by four, mix in a byte, keep 12 bits. -/
def hashStep (h : BitVec 12) (b : Byte) : BitVec 12 := (h <<< 4) ^^^ b.zeroExtend 12

/-- `HASH3(b0, b1, b2)` (R161). -/
def hash3 (b0 b1 b2 : Byte) : BitVec 12 := hashStep (hashStep (hashStep 0#12 b0) b1) b2

/-- The number of symbols of each alphabet (R8, R240). -/
def tableSymbols : HuffTable → Nat
  | .litLen => 288
  | .dist => 32
  | .codeLen => 19

/-- The code-length cap of each table (R8, R240). -/
def tableCap : HuffTable → Nat
  | .litLen => 15
  | .dist => 15
  | .codeLen => 7

end Sys2Proof.Machine
end

