-- ==== Sys2Proof/Machine/Flags.lean ====
section
/-! DEFINITION. Flag computations: the fields of the flags word (spec/30_encoding.md R95), the probe budget
(spec/46_session.md R311), the flag byte of a token group (R101) and the lifecycle the status flags encode (R319). -/

namespace Sys2Proof.Machine

/-- The probe budget from `flags[11:0]` (R9, R311): the value itself or `(v + 2) div 3`, with a floor of 1. -/
def probeBudget (map : ProbeMap) (v : BitVec 12) : BitVec 12 :=
  match map with
  | .direct => BitVec.ofNat 12 (max 1 v.toNat)
  | .divided => BitVec.ofNat 12 (max 1 ((v.toNat + 2) / 3))

/-- Recording a token shifts the flag byte right and sets bit 7 for a match (R101, R224). -/
def shiftInFlag (f : Byte) (isMatch : Bool) : Byte := (f >>> 1) ||| (if isMatch then 0x80#8 else 0#8)

/-- Closing a group moves its flags down by the tokens that are missing (R101, R271). -/
def alignFlags (f : Byte) (left : Nat) : Byte := f >>> left

/-- Lifecycle states (R319). -/
inductive Lifecycle where
  | closed
  | opened
  | failed
deriving DecidableEq, Repr

/-- The lifecycle state the two status flags encode (R319). -/
def State.lifecycle (s : State) : Lifecycle :=
  if s.closed then .closed else if s.failed then .failed else .opened

end Sys2Proof.Machine
end

