-- ==== Sys2Proof/Machine/Huffman.lean ====
section
/-! DEFINITION. HuffmanBuilder (spec/44_huffman_builder.md): collect, sort, depths, cap and repair, canonical codes. -/

namespace Sys2Proof.Machine

/-! ## Steps 1 and 2: collect and sort -/

/-- The pairs of symbols with a nonzero frequency, ascending symbols (R241). -/
def collect (freq : Mem 16) (nsyms : Nat) : List SymKey :=
  (List.range nsyms).filterMap fun s =>
    if freq.entry s = 0 then none else some ⟨BitVec.ofNat 16 (freq.entry s), BitVec.ofNat 9 s⟩

/-- Insertion in front of the first pair whose key is not smaller. -/
def insertByKey (p : SymKey) : List SymKey → List SymKey
  | [] => [p]
  | q :: rest => if p.key.toNat ≤ q.key.toNat then p :: q :: rest else q :: insertByKey p rest

/-- The stable ascending sort by key (R242); the radix passes are not architectural (R243, R244). -/
def sortByKey (ps : List SymKey) : List SymKey := ps.foldr insertByKey []

/-! ## Step 3: depths -/

/-- The array being built by phase 1 of R246: the array, `root` and `leaf`. -/
structure TreeScan where
  a : List Nat
  root : Nat
  leaf : Nat
deriving DecidableEq, Repr

/-- First child of internal node `node` (R246, phase 1). -/
def firstChild (n node : Nat) (t : TreeScan) : TreeScan :=
  if n ≤ t.leaf ∨ t.a.getD t.root 0 < t.a.getD t.leaf 0 then
    { a := (t.a.set node (t.a.getD t.root 0)).set t.root node, root := t.root + 1, leaf := t.leaf }
  else { a := t.a.set node (t.a.getD t.leaf 0), root := t.root, leaf := t.leaf + 1 }

/-- Second child of internal node `node` (R246, phase 1). -/
def secondChild (n node : Nat) (t : TreeScan) : TreeScan :=
  if n ≤ t.leaf ∨ (t.root < node ∧ t.a.getD t.root 0 < t.a.getD t.leaf 0) then
    { a := (t.a.set node (t.a.getD node 0 + t.a.getD t.root 0)).set t.root node, root := t.root + 1, leaf := t.leaf }
  else { a := t.a.set node (t.a.getD node 0 + t.a.getD t.leaf 0), root := t.root, leaf := t.leaf + 1 }

/-- Phase 1 of R246 for `steps` internal nodes from `node` on. -/
def buildTree (n : Nat) : (steps node : Nat) → TreeScan → TreeScan
  | 0, _, t => t
  | k + 1, node, t => buildTree n k (node + 1) (secondChild n node (firstChild n node t))

/-- Phase 2 of R246: parent indices become internal depths, from index `k - 1` down to 0. -/
def internalDepths : (k : Nat) → List Nat → List Nat
  | 0, a => a
  | k + 1, a => internalDepths k (a.set k (a.getD (a.getD k 0) 0 + 1))

/-- How many of `a[root-1], a[root-2], ...` equal `depth` (R246, phase 3; `root` counts what is left). -/
def countAtDepth (a : List Nat) (depth : Nat) : (root : Nat) → Nat
  | 0 => 0
  | r + 1 => if a.getD r 0 = depth then countAtDepth a depth r + 1 else 0

/-- `depth` written to the `k` entries below index `next` (R246, phase 3). -/
def fillLeaves (depth : Nat) : (k next : Nat) → List Nat → List Nat
  | 0, _, a => a
  | k + 1, next, a => fillLeaves depth k (next - 1) (a.set (next - 1) depth)

/-- Phase 3 of R246: one turn per depth, at most `turns` of them; `root` and `next` count the entries left. -/
def leafDepths : (turns avbl depth root next : Nat) → List Nat → List Nat
  | 0, _, _, _, _, a => a
  | t + 1, avbl, depth, root, next, a =>
    if avbl = 0 then a
    else
      let used := countAtDepth a depth root
      leafDepths t (2 * used) (depth + 1) (root - used) (next - (avbl - used)) (fillLeaves depth (avbl - used) next a)

/-- The in-place algorithm of R246, with the base cases of R245. The loop of phase 3 turns at most once per depth
0..n-1. -/
def moffatKatajainen (keys : List Nat) : List Nat :=
  match keys with
  | [] => []
  | [_] => [1]
  | k0 :: k1 :: rest =>
    let n := rest.length + 2
    let start : TreeScan := { a := (k0 + k1) :: k1 :: rest, root := 0, leaf := 2 }
    let tree := buildTree n (n - 2) 1 start
    let inner := internalDepths (n - 2) (tree.a.set (n - 2) 0)
    leafDepths n 1 0 (n - 1) n inner

/-- Entries never grow. -/
def nonIncreasing : List Nat → Bool
  | [] => true
  | [_] => true
  | a :: b :: rest => decide (b ≤ a) && nonIncreasing (b :: rest)

/-- What R258 demands of a substitute for R246: depths in 1..32, one per key, non-increasing, with Kraft equality. -/
def depthsLegal (n : Nat) (depths : List Nat) : Bool :=
  match n with
  | 0 => depths.isEmpty
  | 1 => depths == [1]
  | _ =>
    decide (depths.length = n) && depths.all (fun d => decide (1 ≤ d) && decide (d ≤ Config.MAX_HUFF_LEN)) &&
      nonIncreasing depths &&
      decide ((depths.map fun d => 2 ^ (Config.MAX_HUFF_LEN - d)).sum = 2 ^ Config.MAX_HUFF_LEN)

/-- `HUFF_DEPTHS` (R10, R245, R246, R254, R258). -/
def huffDepths (algorithm : DepthAlgorithm) (keys : List Nat) : Except Fault (List Nat) :=
  match algorithm with
  | .moffatKatajainen =>
    if (moffatKatajainen keys).all (fun d => decide (d ≤ Config.MAX_HUFF_LEN)) then .ok (moffatKatajainen keys)
    else .error .depthAbove32
  | .substitute =>
    if depthsLegal keys.length (Config.substituteDepths keys) then .ok (Config.substituteDepths keys)
    else .error .substituteDepths

/-! ## Steps 4 and 5: histogram, fold, repair -/

/-- `num_codes[0..32]`: how many symbols have each depth (R247). -/
def histogram (depths : List Nat) : List Nat :=
  depths.foldl (fun h d => h.set d (h.getD d 0 + 1)) (List.replicate 33 0)

/-- Depths above `cap` are counted at `cap` (R248). -/
def foldDeep (cap : Nat) (h : List Nat) : List Nat := h.take cap ++ (h.drop cap).sum :: List.replicate (32 - cap) 0

/-- `sum over i in 1..cap of num_codes[i] << (cap - i)` (R249). -/
def kraftSum (cap : Nat) (h : List Nat) : Nat :=
  ((List.range cap).map fun k => h.getD (k + 1) 0 <<< (cap - (k + 1))).sum

/-- The largest index below `cap` with a code (R249). -/
def longestShorter (h : List Nat) : (cap : Nat) → Option Nat
  | 0 => none
  | i + 1 => if 0 < h.getD i 0 then some i else longestShorter h i

/-- One turn of the repair loop (R249). -/
def repairTurn (cap : Nat) (h : List Nat) : Except Fault (List Nat) :=
  let h1 := h.set cap (h.getD cap 0 - 1)
  match longestShorter h1 cap with
  | none => .error .noShorterCode
  | some i =>
    let h2 := h1.set i (h1.getD i 0 - 1)
    .ok (h2.set (i + 1) (h2.getD (i + 1) 0 + 2))

/-- The repair loop: each turn lowers the sum by one, so it turns as often as the sum exceeds `2^cap` (R249). -/
def repair (cap : Nat) : (turns : Nat) → List Nat → Except Fault (List Nat)
  | 0, h => .ok h
  | t + 1, h => do
    let h' ← repairTurn cap h
    repair cap t h'

/-- Steps 4 and 5 of `OPTIMIZE` (R247 to R249). -/
def cappedHistogram (cap : Nat) (depths : List Nat) : Except Fault (List Nat) :=
  let h := foldDeep cap (histogram depths)
  repair cap (kraftSum cap h - 2 ^ cap) h

/-! ## Steps 6 and 7: lengths and codes -/

/-- The lengths 1, 2, ..., `cap`, each as often as the histogram says (R250). -/
def dealtLengths (cap : Nat) (h : List Nat) : List Nat :=
  (List.range cap).flatMap fun k => List.replicate (h.getD (k + 1) 0) (k + 1)

/-- Each length is given to the next symbol from the high-frequency end of the sorted array (R250); every other
entry is 0 (R253). -/
def dealLengths (sorted : List SymKey) (lengths : List Nat) : Mem 4 :=
  (sorted.reverse.zip lengths).foldl (fun m p => m.set p.1.sym.toNat (BitVec.ofNat 4 p.2)) (Mem.filled 0#4)

/-- `next_code[d]` before any code is given out (R251). -/
def firstCode (h : List Nat) : Nat → Nat
  | 0 => 0
  | 1 => 0
  | d + 2 => (firstCode h (d + 1) + h.getD (d + 1) 0) <<< 1

/-- The array `next_code`: entries 1..cap from R251, the others as they were. -/
def firstCodes (cap : Nat) (h : List Nat) (old : List Nat) : List Nat :=
  (List.range 16).map fun d => if 1 ≤ d ∧ d ≤ cap then firstCode h d else old.getD d 0

/-- `REV(c, n)` (R252): bit `k` of the result is bit `n - 1 - k` of `c`. -/
def rev (c : Nat) : Nat → Nat
  | 0 => 0
  | n + 1 => (c % 2) <<< n + rev (c / 2) n

/-- Step 7 (R251): the symbols in ascending order each take the next code of their length, stored reversed; yields
the final `next_code` and the codes. -/
def assignCodes (len : Mem 4) : List Nat → List Nat → List (Nat × Nat) → List Nat × List (Nat × Nat)
  | [], next, codes => (next, codes.reverse)
  | s :: rest, next, codes =>
    let l := len.entry s
    if l = 0 then assignCodes len rest next codes
    else assignCodes len rest (next.set l (next.getD l 0 + 1)) ((s, rev (next.getD l 0) l) :: codes)

/-- The table of the codes (R253: every other entry is 0). -/
def codeTable (w : Nat) (codes : List (Nat × Nat)) : Mem w :=
  codes.foldl (fun m p => m.set p.1 (BitVec.ofNat w p.2)) (Mem.filled 0#w)

/-! ## The whole operation -/

/-- What one `OPTIMIZE` computes: the scratch arrays as it leaves them, the lengths, the codes. -/
structure Built where
  syms : List SymKey
  numCodes : List Nat
  nextCode : List Nat
  len : Mem 4
  codes : List (Nat × Nat)
deriving DecidableEq, Repr

/-- The sorted array with the depths stored back into the key field (R240, step 3). -/
def storeDepths (sorted : List SymKey) (depths : List Nat) : List SymKey :=
  List.zipWith (fun p d => { p with key := BitVec.ofNat 16 d }) sorted depths

/-- The sorted array after its first elements are written; the others keep what they hold (R35, R240). -/
def overlay (live old : List SymKey) : List SymKey := live ++ old.drop live.length

/-- `OPTIMIZE` as a computation on one frequency table (R240). -/
def buildCodes (algorithm : DepthAlgorithm) (freq : Mem 16) (nsyms cap : Nat) (oldNext : List Nat) : Except Fault Built := do
  let sorted := sortByKey (collect freq nsyms)
  let depths ← huffDepths algorithm (sorted.map fun p => p.key.toNat)
  let h ← cappedHistogram cap depths
  let len := dealLengths sorted (dealtLengths cap h)
  let given := assignCodes len (List.range nsyms) (firstCodes cap h oldNext) []
  pure { syms := storeDepths sorted depths, numCodes := h, nextCode := given.1, len := len, codes := given.2 }

/-- The frequency table of an alphabet (R33). -/
def State.freqTable (s : State) : HuffTable → Mem 16
  | .litLen => s.litFreq
  | .dist => s.distFreq
  | .codeLen => s.clFreq

/-- The length and code tables of an alphabet are written (R34, R253). -/
def storeCodes (t : HuffTable) (b : Built) (s : State) : State :=
  match t with
  | .litLen => s.setLitLenCodes b.len (codeTable 15 b.codes)
  | .dist => s.setDistCodes b.len (codeTable 15 b.codes)
  | .codeLen => s.setCodeLenCodes b.len (codeTable 7 b.codes)

/-- `OPTIMIZE` on one of its three tables (R240). -/
def optimize (t : HuffTable) (s : State) : Except Fault State := do
  let b ← buildCodes s.params.depths (s.freqTable t) (tableSymbols t) (tableCap t) (s.nextCode.map fun c => c.toNat)
  pure ((storeCodes t b s).setScratch (overlay b.syms s.syms) (b.numCodes.map (BitVec.ofNat 9)) (b.nextCode.map (BitVec.ofNat 16)))

/-! ## Meanings -/

/-- OPTIMIZE(freq,len,code,nsyms,cap) (R240). -/
def execOptimize (t : HuffTable) (s : State) : Host.Outcome State Fault Refusal := ofRun (optimize t s)

/-- HUFF_DEPTHS(A,n) on the key field of the first `n` elements of the sorted array, in place (R245, R246). The array
has 288 elements (R35); an `n` past them is a fault (R63, R360). -/
def execHuffDepths (n : BitVec 9) (s : State) : Host.Outcome State Fault Refusal :=
  if tableSymbols .litLen < n.toNat then .fault .sortedArrayRange
  else
    ofRun do
      let depths ← huffDepths s.params.depths ((s.syms.take n.toNat).map fun p => p.key.toNat)
      pure (s.setScratch (overlay (storeDepths (s.syms.take n.toNat) depths) s.syms) s.numCodes s.nextCode)

/-- REV(c,n) (R252). -/
def execRev (c : BitVec 15) (n : BitVec 4) (s : State) : Host.Outcome State Fault Refusal :=
  .next (s.setResult (.value (rev c.toNat n.toNat)))

end Sys2Proof.Machine
end

