-- ==== Sys2Proof/Machine/BitSink.lean ====
section
/-! DEFINITION. BitSink and OutputBuffer driver (spec/40_bitsink.md): the sink port, `DRAIN`, `OUT_BYTE`, `PUT_BITS`,
`ALIGN`. -/

namespace Sys2Proof.Machine

/-- One call on the sink port (R97, R146): the environment's next answer, or a free one where it has fixed none
(log 3). -/
def sinkCall (bytes : List Byte) (s : State) : State × Bool :=
  match s.sinkAnswers with
  | answer :: later => (s.logPut ⟨bytes, answer⟩ later s.sinkDraws, answer)
  | [] =>
    (s.logPut ⟨bytes, Config.sinkAnswer s.sinkDraws⟩ [] (s.sinkDraws + 1), Config.sinkAnswer s.sinkDraws)

/-- `out_buf[0 .. n-1]` in index order (R97). -/
def stagedBytes (s : State) (n : Nat) : List Byte := (List.range n).map s.outBufByte

/-- A rejected call latches `failed` (R97, R142); an accepted one changes nothing else. -/
def latchRejection (r : State × Bool) : State := if r.2 then r.1 else r.1.setFailed true

/-- `DRAIN` (R142). -/
def drain (s : State) : Except Fault State :=
  if s.failed then .ok s
  else if s.outPos = 0#13 then .ok s
  else if Config.OUT_SIZE < s.outPos.toNat then .error (.indexOutside .outBuf (s.outPos.toNat - 1))
  else
    let r := sinkCall (stagedBytes s s.outPos.toNat) s
    .ok (latchRejection (r.1.setOut r.1.outBuf 0#13, r.2))

/-- `OUT_BYTE(b)` (R141). -/
def outByte (b : Byte) (s : State) : Except Fault State :=
  if s.failed then .ok s
  else if s.outPos.toNat < Config.OUT_SIZE then
    let t := s.setOut (s.outBuf.set s.outPos.toNat b) (s.outPos + 1#13)
    if t.outPos.toNat = Config.OUT_SIZE then drain t else .ok t
  else .error (.indexOutside .outBuf s.outPos.toNat)

/-- The loop of `PUT_BITS` (R140): whole bytes leave the low end; at most `k` turns. -/
def spill : Nat → State → Except Fault State
  | 0, s => .ok s
  | k + 1, s =>
    if s.bitsIn.toNat < 8 then .ok s
    else do
      let t ← outByte (s.bitBuffer.truncate 8) s
      spill k (t.setBits (t.bitBuffer >>> 8) (t.bitsIn - 8#5))

/-- `PUT_BITS(value, n)` (R140). Its precondition is tested first, so a violation is a fault on a failed session too
(R360). At most 23 bits are held, so the loop turns at most twice. -/
def putBits (value n : Nat) (s : State) : Except Fault State :=
  if Config.PUT_MAX < n ∨ 2 ^ n ≤ value then .error (.putBitsOperand value n)
  else if s.failed then .ok s
  else if 7 < s.bitsIn.toNat then .error .bitsInRange
  else
    spill 2
      (s.setBits (s.bitBuffer ||| BitVec.ofNat 24 (value <<< s.bitsIn.toNat)) (s.bitsIn + BitVec.ofNat 5 n))

/-- A list of `PUT_BITS(value, n)` in order: how every field of the stream is emitted (R110). -/
def putFields : List (Nat × Nat) → State → Except Fault State
  | [], s => .ok s
  | (value, n) :: rest, s => do
    let t ← putBits value n s
    putFields rest t

/-- `ALIGN` (R143). -/
def align (s : State) : Except Fault State :=
  if s.bitsIn = 0#5 then .ok s else putBits 0 (8 - s.bitsIn.toNat) s

/-! ## Meanings -/

/-- put: `put(out_buf[0..length-1], length)` (R97, R146). After a rejection of this session the sink is not called
again (R144); a rejection latches `failed` (R97). -/
def execSinkPut (length : BitVec 13) (s : State) : Host.Outcome State Fault Refusal :=
  if length.toNat = 0 ∨ Config.OUT_SIZE < length.toNat then .fault (.putLength length.toNat)
  else if s.failed then .next s
  else
    let r := sinkCall (stagedBytes s length.toNat) s
    .next (latchRejection (r.1.setResult (.flag r.2), r.2))

/-- PUT_BITS(value,n) (R140). -/
def execPutBits (value n : Nat) (s : State) : Host.Outcome State Fault Refusal := ofRun (putBits value n s)

/-- OUT_BYTE(b) (R141). -/
def execOutByte (b : Byte) (s : State) : Host.Outcome State Fault Refusal := ofRun (outByte b s)

/-- DRAIN() (R142). -/
def execDrain (s : State) : Host.Outcome State Fault Refusal := ofRun (drain s)

/-- ALIGN() (R143). -/
def execAlign (s : State) : Host.Outcome State Fault Refusal := ofRun (align s)

end Sys2Proof.Machine
end

