-- ==== Sys2Proof/Machine/Wire.lean ====
section
/-! DEFINITION. The wire format (spec/30_encoding.md R110 to R121): each field as the list of `PUT_BITS(value, n)` it
is, computed from the code tables of the state (R34), and the instruction that emits it. -/

namespace Sys2Proof.Machine

/-! ## Fields -/

/-- A Huffman code, then its extra field where it has one (R113, R115 to R118, R283, R285, R286). -/
def codedField (code len extraBits extra : Nat) : List (Nat × Nat) :=
  (code, len) :: (if extraBits = 0 then [] else [(extra, extraBits)])

/-- One packed entry: code-length symbol `sym` and its extra field (R113, R283). -/
def clField (s : State) (sym extraBits extra : Nat) : List (Nat × Nat) :=
  codedField (s.clCode.entry sym) (s.clLen.entry sym) extraBits extra

/-- A literal/length symbol and its extra field (R114, R115, R284, R285, R287). -/
def llField (s : State) (sym extraBits extra : Nat) : List (Nat × Nat) :=
  codedField (s.llCode.entry sym) (s.llLen.entry sym) extraBits extra

/-- A distance symbol and its extra field (R116, R286). -/
def distField (s : State) (sym extraBits extra : Nat) : List (Nat × Nat) :=
  codedField (s.dCode.entry sym) (s.dLen.entry sym) extraBits extra

/-- The five header fields of a block, 17 bits (R110, R281). -/
def headerFields (bfinal hlitMinus257 hdistMinus1 hclenMinus4 : Nat) : List (Nat × Nat) :=
  [(bfinal, 1), (2, 2), (hlitMinus257, 5), (hdistMinus1, 5), (hclenMinus4, 4)]

/-- The first `hclen` code lengths of the code-length alphabet in swizzle order, 3 bits each (R112, R282).
`hclen` is at most 19 wherever this is used. -/
def clLengthFields (s : State) (hclen : Nat) : List (Nat × Nat) :=
  (swizzle.take hclen).map fun sym => (s.clLen.entry sym, 3)

/-- The zlib header, when framing is on (R119, R313). -/
def zlibHeaderFields (s : State) : List (Nat × Nat) := if s.zlib then [(0x78, 8), (0x01, 8)] else []

/-- The zlib trailer, most significant byte first, when framing is on (R120, R317). -/
def zlibTrailerFields (s : State) : List (Nat × Nat) :=
  if s.zlib then
    [((s.adler.extractLsb' 24 8).toNat, 8), ((s.adler.extractLsb' 16 8).toNat, 8),
      ((s.adler.extractLsb' 8 8).toNat, 8), ((s.adler.extractLsb' 0 8).toNat, 8)]
  else []

/-- The fields of one token (R284 to R286). -/
def tokenFields (s : State) : Token → Except Fault (List (Nat × Nat))
  | .literal v => .ok (llField s v.toNat 0 0)
  | .copy l d => do
    let lr ← lenRow l
    let dr ← distRow d
    pure (llField s lr.sym lr.extraBits (l - lr.base) ++ distField s dr.sym dr.extraBits (d - dr.base))

/-- The fields of a token list (R284 to R286). -/
def tokensFields (s : State) : List Token → Except Fault (List (Nat × Nat))
  | [] => .ok []
  | t :: ts => do
    let f ← tokenFields s t
    let fs ← tokensFields s ts
    pure (f ++ fs)

/-! ## Meanings -/

/-- BLOCK.HEADER (R110, R281). A count field of 30 or 31, which no HLIT or HDIST of R111 gives, goes out as it is:
DESIGN CHOICE, log 17. -/
def execBlockHeader (bfinal : Bool) (hlitMinus257 hdistMinus1 : BitVec 5) (hclenMinus4 : BitVec 4) (s : State) :
    Host.Outcome State Fault Refusal :=
  ofRun (putFields (headerFields bfinal.toNat hlitMinus257.toNat hdistMinus1.toNat hclenMinus4.toNat) s)

/-- BLOCK.CL_LENGTHS (R282). SWIZZLE has 19 entries, so an `hclen` past them is a fault (R112, R360). An `hclen` below
the 4 of R111 emits that many lengths: DESIGN CHOICE, log 17. -/
def execClLengths (hclen : BitVec 5) (s : State) : Host.Outcome State Fault Refusal :=
  if swizzle.length < hclen.toNat then .fault (.swizzleRange hclen.toNat)
  else ofRun (putFields (clLengthFields s hclen.toNat) s)

/-- CL.0: Packed entry: code-length symbol 0 (R113, R283). -/
def execCl0 (s : State) : Host.Outcome State Fault Refusal := ofRun (putFields (clField s 0 0 0) s)

/-- CL.1: Packed entry: code-length symbol 1 (R113, R283). -/
def execCl1 (s : State) : Host.Outcome State Fault Refusal := ofRun (putFields (clField s 1 0 0) s)

/-- CL.2: Packed entry: code-length symbol 2 (R113, R283). -/
def execCl2 (s : State) : Host.Outcome State Fault Refusal := ofRun (putFields (clField s 2 0 0) s)

/-- CL.3: Packed entry: code-length symbol 3 (R113, R283). -/
def execCl3 (s : State) : Host.Outcome State Fault Refusal := ofRun (putFields (clField s 3 0 0) s)

/-- CL.4: Packed entry: code-length symbol 4 (R113, R283). -/
def execCl4 (s : State) : Host.Outcome State Fault Refusal := ofRun (putFields (clField s 4 0 0) s)

/-- CL.5: Packed entry: code-length symbol 5 (R113, R283). -/
def execCl5 (s : State) : Host.Outcome State Fault Refusal := ofRun (putFields (clField s 5 0 0) s)

/-- CL.6: Packed entry: code-length symbol 6 (R113, R283). -/
def execCl6 (s : State) : Host.Outcome State Fault Refusal := ofRun (putFields (clField s 6 0 0) s)

/-- CL.7: Packed entry: code-length symbol 7 (R113, R283). -/
def execCl7 (s : State) : Host.Outcome State Fault Refusal := ofRun (putFields (clField s 7 0 0) s)

/-- CL.8: Packed entry: code-length symbol 8 (R113, R283). -/
def execCl8 (s : State) : Host.Outcome State Fault Refusal := ofRun (putFields (clField s 8 0 0) s)

/-- CL.9: Packed entry: code-length symbol 9 (R113, R283). -/
def execCl9 (s : State) : Host.Outcome State Fault Refusal := ofRun (putFields (clField s 9 0 0) s)

/-- CL.10: Packed entry: code-length symbol 10 (R113, R283). -/
def execCl10 (s : State) : Host.Outcome State Fault Refusal := ofRun (putFields (clField s 10 0 0) s)

/-- CL.11: Packed entry: code-length symbol 11 (R113, R283). -/
def execCl11 (s : State) : Host.Outcome State Fault Refusal := ofRun (putFields (clField s 11 0 0) s)

/-- CL.12: Packed entry: code-length symbol 12 (R113, R283). -/
def execCl12 (s : State) : Host.Outcome State Fault Refusal := ofRun (putFields (clField s 12 0 0) s)

/-- CL.13: Packed entry: code-length symbol 13 (R113, R283). -/
def execCl13 (s : State) : Host.Outcome State Fault Refusal := ofRun (putFields (clField s 13 0 0) s)

/-- CL.14: Packed entry: code-length symbol 14 (R113, R283). -/
def execCl14 (s : State) : Host.Outcome State Fault Refusal := ofRun (putFields (clField s 14 0 0) s)

/-- CL.15: Packed entry: code-length symbol 15 (R113, R283). -/
def execCl15 (s : State) : Host.Outcome State Fault Refusal := ofRun (putFields (clField s 15 0 0) s)

/-- CL.16: Packed entry: code-length symbol 16 with its 2 extra bits (R113, R283). -/
def execCl16 (x : BitVec 2) (s : State) : Host.Outcome State Fault Refusal :=
  ofRun (putFields (clField s 16 2 x.toNat) s)

/-- CL.17: Packed entry: code-length symbol 17 with its 3 extra bits (R113, R283). -/
def execCl17 (x : BitVec 3) (s : State) : Host.Outcome State Fault Refusal :=
  ofRun (putFields (clField s 17 3 x.toNat) s)

/-- CL.18: Packed entry: code-length symbol 18 with its 7 extra bits (R113, R283). -/
def execCl18 (x : BitVec 7) (s : State) : Host.Outcome State Fault Refusal :=
  ofRun (putFields (clField s 18 7 x.toNat) s)

/-- LL.LITERAL: a literal on the wire (R114, R284). -/
def execLlLiteral (v : Byte) (s : State) : Host.Outcome State Fault Refusal := ofRun (putFields (llField s v.toNat 0 0) s)

/-- LL.EOB: end of block on the wire (R114, R287). -/
def execLlEob (s : State) : Host.Outcome State Fault Refusal := ofRun (putFields (llField s 256 0 0) s)

/-- LL.LEN257: Match length 3 on the wire: symbol 257 (R115, R285). -/
def execLen257 (s : State) : Host.Outcome State Fault Refusal := ofRun (putFields (llField s 257 0 0) s)

/-- LL.LEN258: Match length 4 on the wire: symbol 258 (R115, R285). -/
def execLen258 (s : State) : Host.Outcome State Fault Refusal := ofRun (putFields (llField s 258 0 0) s)

/-- LL.LEN259: Match length 5 on the wire: symbol 259 (R115, R285). -/
def execLen259 (s : State) : Host.Outcome State Fault Refusal := ofRun (putFields (llField s 259 0 0) s)

/-- LL.LEN260: Match length 6 on the wire: symbol 260 (R115, R285). -/
def execLen260 (s : State) : Host.Outcome State Fault Refusal := ofRun (putFields (llField s 260 0 0) s)

/-- LL.LEN261: Match length 7 on the wire: symbol 261 (R115, R285). -/
def execLen261 (s : State) : Host.Outcome State Fault Refusal := ofRun (putFields (llField s 261 0 0) s)

/-- LL.LEN262: Match length 8 on the wire: symbol 262 (R115, R285). -/
def execLen262 (s : State) : Host.Outcome State Fault Refusal := ofRun (putFields (llField s 262 0 0) s)

/-- LL.LEN263: Match length 9 on the wire: symbol 263 (R115, R285). -/
def execLen263 (s : State) : Host.Outcome State Fault Refusal := ofRun (putFields (llField s 263 0 0) s)

/-- LL.LEN264: Match length 10 on the wire: symbol 264 (R115, R285). -/
def execLen264 (s : State) : Host.Outcome State Fault Refusal := ofRun (putFields (llField s 264 0 0) s)

/-- LL.LEN265: Match length 11 to 12 on the wire: symbol 265, extra value `x` (R115, R285). -/
def execLen265 (x : BitVec 1) (s : State) : Host.Outcome State Fault Refusal :=
  ofRun (putFields (llField s 265 1 x.toNat) s)

/-- LL.LEN266: Match length 13 to 14 on the wire: symbol 266, extra value `x` (R115, R285). -/
def execLen266 (x : BitVec 1) (s : State) : Host.Outcome State Fault Refusal :=
  ofRun (putFields (llField s 266 1 x.toNat) s)

/-- LL.LEN267: Match length 15 to 16 on the wire: symbol 267, extra value `x` (R115, R285). -/
def execLen267 (x : BitVec 1) (s : State) : Host.Outcome State Fault Refusal :=
  ofRun (putFields (llField s 267 1 x.toNat) s)

/-- LL.LEN268: Match length 17 to 18 on the wire: symbol 268, extra value `x` (R115, R285). -/
def execLen268 (x : BitVec 1) (s : State) : Host.Outcome State Fault Refusal :=
  ofRun (putFields (llField s 268 1 x.toNat) s)

/-- LL.LEN269: Match length 19 to 22 on the wire: symbol 269, extra value `x` (R115, R285). -/
def execLen269 (x : BitVec 2) (s : State) : Host.Outcome State Fault Refusal :=
  ofRun (putFields (llField s 269 2 x.toNat) s)

/-- LL.LEN270: Match length 23 to 26 on the wire: symbol 270, extra value `x` (R115, R285). -/
def execLen270 (x : BitVec 2) (s : State) : Host.Outcome State Fault Refusal :=
  ofRun (putFields (llField s 270 2 x.toNat) s)

/-- LL.LEN271: Match length 27 to 30 on the wire: symbol 271, extra value `x` (R115, R285). -/
def execLen271 (x : BitVec 2) (s : State) : Host.Outcome State Fault Refusal :=
  ofRun (putFields (llField s 271 2 x.toNat) s)

/-- LL.LEN272: Match length 31 to 34 on the wire: symbol 272, extra value `x` (R115, R285). -/
def execLen272 (x : BitVec 2) (s : State) : Host.Outcome State Fault Refusal :=
  ofRun (putFields (llField s 272 2 x.toNat) s)

/-- LL.LEN273: Match length 35 to 42 on the wire: symbol 273, extra value `x` (R115, R285). -/
def execLen273 (x : BitVec 3) (s : State) : Host.Outcome State Fault Refusal :=
  ofRun (putFields (llField s 273 3 x.toNat) s)

/-- LL.LEN274: Match length 43 to 50 on the wire: symbol 274, extra value `x` (R115, R285). -/
def execLen274 (x : BitVec 3) (s : State) : Host.Outcome State Fault Refusal :=
  ofRun (putFields (llField s 274 3 x.toNat) s)

/-- LL.LEN275: Match length 51 to 58 on the wire: symbol 275, extra value `x` (R115, R285). -/
def execLen275 (x : BitVec 3) (s : State) : Host.Outcome State Fault Refusal :=
  ofRun (putFields (llField s 275 3 x.toNat) s)

/-- LL.LEN276: Match length 59 to 66 on the wire: symbol 276, extra value `x` (R115, R285). -/
def execLen276 (x : BitVec 3) (s : State) : Host.Outcome State Fault Refusal :=
  ofRun (putFields (llField s 276 3 x.toNat) s)

/-- LL.LEN277: Match length 67 to 82 on the wire: symbol 277, extra value `x` (R115, R285). -/
def execLen277 (x : BitVec 4) (s : State) : Host.Outcome State Fault Refusal :=
  ofRun (putFields (llField s 277 4 x.toNat) s)

/-- LL.LEN278: Match length 83 to 98 on the wire: symbol 278, extra value `x` (R115, R285). -/
def execLen278 (x : BitVec 4) (s : State) : Host.Outcome State Fault Refusal :=
  ofRun (putFields (llField s 278 4 x.toNat) s)

/-- LL.LEN279: Match length 99 to 114 on the wire: symbol 279, extra value `x` (R115, R285). -/
def execLen279 (x : BitVec 4) (s : State) : Host.Outcome State Fault Refusal :=
  ofRun (putFields (llField s 279 4 x.toNat) s)

/-- LL.LEN280: Match length 115 to 130 on the wire: symbol 280, extra value `x` (R115, R285). -/
def execLen280 (x : BitVec 4) (s : State) : Host.Outcome State Fault Refusal :=
  ofRun (putFields (llField s 280 4 x.toNat) s)

/-- LL.LEN281: Match length 131 to 162 on the wire: symbol 281, extra value `x` (R115, R285). -/
def execLen281 (x : BitVec 5) (s : State) : Host.Outcome State Fault Refusal :=
  ofRun (putFields (llField s 281 5 x.toNat) s)

/-- LL.LEN282: Match length 163 to 194 on the wire: symbol 282, extra value `x` (R115, R285). -/
def execLen282 (x : BitVec 5) (s : State) : Host.Outcome State Fault Refusal :=
  ofRun (putFields (llField s 282 5 x.toNat) s)

/-- LL.LEN283: Match length 195 to 226 on the wire: symbol 283, extra value `x` (R115, R285). -/
def execLen283 (x : BitVec 5) (s : State) : Host.Outcome State Fault Refusal :=
  ofRun (putFields (llField s 283 5 x.toNat) s)

/-- LL.LEN284: Match length 227 to 257 on the wire: symbol 284, extra value `x` (R115, R285). An `x` of 31, which
no length gives, goes out as it is: DESIGN CHOICE, log 17. -/
def execLen284 (x : BitVec 5) (s : State) : Host.Outcome State Fault Refusal :=
  ofRun (putFields (llField s 284 5 x.toNat) s)

/-- LL.LEN285: Match length 258 on the wire: symbol 285 (R115, R285). -/
def execLen285 (s : State) : Host.Outcome State Fault Refusal := ofRun (putFields (llField s 285 0 0) s)

/-- D.DIST0: Match distance 1 on the wire: symbol 0 (R116, R286). -/
def execDist0 (s : State) : Host.Outcome State Fault Refusal := ofRun (putFields (distField s 0 0 0) s)

/-- D.DIST1: Match distance 2 on the wire: symbol 1 (R116, R286). -/
def execDist1 (s : State) : Host.Outcome State Fault Refusal := ofRun (putFields (distField s 1 0 0) s)

/-- D.DIST2: Match distance 3 on the wire: symbol 2 (R116, R286). -/
def execDist2 (s : State) : Host.Outcome State Fault Refusal := ofRun (putFields (distField s 2 0 0) s)

/-- D.DIST3: Match distance 4 on the wire: symbol 3 (R116, R286). -/
def execDist3 (s : State) : Host.Outcome State Fault Refusal := ofRun (putFields (distField s 3 0 0) s)

/-- D.DIST4: Match distance 5 to 6 on the wire: symbol 4, extra value `x` (R116, R286). -/
def execDist4 (x : BitVec 1) (s : State) : Host.Outcome State Fault Refusal :=
  ofRun (putFields (distField s 4 1 x.toNat) s)

/-- D.DIST5: Match distance 7 to 8 on the wire: symbol 5, extra value `x` (R116, R286). -/
def execDist5 (x : BitVec 1) (s : State) : Host.Outcome State Fault Refusal :=
  ofRun (putFields (distField s 5 1 x.toNat) s)

/-- D.DIST6: Match distance 9 to 12 on the wire: symbol 6, extra value `x` (R116, R286). -/
def execDist6 (x : BitVec 2) (s : State) : Host.Outcome State Fault Refusal :=
  ofRun (putFields (distField s 6 2 x.toNat) s)

/-- D.DIST7: Match distance 13 to 16 on the wire: symbol 7, extra value `x` (R116, R286). -/
def execDist7 (x : BitVec 2) (s : State) : Host.Outcome State Fault Refusal :=
  ofRun (putFields (distField s 7 2 x.toNat) s)

/-- D.DIST8: Match distance 17 to 24 on the wire: symbol 8, extra value `x` (R116, R286). -/
def execDist8 (x : BitVec 3) (s : State) : Host.Outcome State Fault Refusal :=
  ofRun (putFields (distField s 8 3 x.toNat) s)

/-- D.DIST9: Match distance 25 to 32 on the wire: symbol 9, extra value `x` (R116, R286). -/
def execDist9 (x : BitVec 3) (s : State) : Host.Outcome State Fault Refusal :=
  ofRun (putFields (distField s 9 3 x.toNat) s)

/-- D.DIST10: Match distance 33 to 48 on the wire: symbol 10, extra value `x` (R116, R286). -/
def execDist10 (x : BitVec 4) (s : State) : Host.Outcome State Fault Refusal :=
  ofRun (putFields (distField s 10 4 x.toNat) s)

/-- D.DIST11: Match distance 49 to 64 on the wire: symbol 11, extra value `x` (R116, R286). -/
def execDist11 (x : BitVec 4) (s : State) : Host.Outcome State Fault Refusal :=
  ofRun (putFields (distField s 11 4 x.toNat) s)

/-- D.DIST12: Match distance 65 to 96 on the wire: symbol 12, extra value `x` (R116, R286). -/
def execDist12 (x : BitVec 5) (s : State) : Host.Outcome State Fault Refusal :=
  ofRun (putFields (distField s 12 5 x.toNat) s)

/-- D.DIST13: Match distance 97 to 128 on the wire: symbol 13, extra value `x` (R116, R286). -/
def execDist13 (x : BitVec 5) (s : State) : Host.Outcome State Fault Refusal :=
  ofRun (putFields (distField s 13 5 x.toNat) s)

/-- D.DIST14: Match distance 129 to 192 on the wire: symbol 14, extra value `x` (R116, R286). -/
def execDist14 (x : BitVec 6) (s : State) : Host.Outcome State Fault Refusal :=
  ofRun (putFields (distField s 14 6 x.toNat) s)

/-- D.DIST15: Match distance 193 to 256 on the wire: symbol 15, extra value `x` (R116, R286). -/
def execDist15 (x : BitVec 6) (s : State) : Host.Outcome State Fault Refusal :=
  ofRun (putFields (distField s 15 6 x.toNat) s)

/-- D.DIST16: Match distance 257 to 384 on the wire: symbol 16, extra value `x` (R116, R286). -/
def execDist16 (x : BitVec 7) (s : State) : Host.Outcome State Fault Refusal :=
  ofRun (putFields (distField s 16 7 x.toNat) s)

/-- D.DIST17: Match distance 385 to 512 on the wire: symbol 17, extra value `x` (R116, R286). -/
def execDist17 (x : BitVec 7) (s : State) : Host.Outcome State Fault Refusal :=
  ofRun (putFields (distField s 17 7 x.toNat) s)

/-- D.DIST18: Match distance 513 to 768 on the wire: symbol 18, extra value `x` (R116, R286). -/
def execDist18 (x : BitVec 8) (s : State) : Host.Outcome State Fault Refusal :=
  ofRun (putFields (distField s 18 8 x.toNat) s)

/-- D.DIST19: Match distance 769 to 1024 on the wire: symbol 19, extra value `x` (R116, R286). -/
def execDist19 (x : BitVec 8) (s : State) : Host.Outcome State Fault Refusal :=
  ofRun (putFields (distField s 19 8 x.toNat) s)

/-- D.DIST20: Match distance 1025 to 1536 on the wire: symbol 20, extra value `x` (R116, R286). -/
def execDist20 (x : BitVec 9) (s : State) : Host.Outcome State Fault Refusal :=
  ofRun (putFields (distField s 20 9 x.toNat) s)

/-- D.DIST21: Match distance 1537 to 2048 on the wire: symbol 21, extra value `x` (R116, R286). -/
def execDist21 (x : BitVec 9) (s : State) : Host.Outcome State Fault Refusal :=
  ofRun (putFields (distField s 21 9 x.toNat) s)

/-- D.DIST22: Match distance 2049 to 3072 on the wire: symbol 22, extra value `x` (R116, R286). -/
def execDist22 (x : BitVec 10) (s : State) : Host.Outcome State Fault Refusal :=
  ofRun (putFields (distField s 22 10 x.toNat) s)

/-- D.DIST23: Match distance 3073 to 4096 on the wire: symbol 23, extra value `x` (R116, R286). -/
def execDist23 (x : BitVec 10) (s : State) : Host.Outcome State Fault Refusal :=
  ofRun (putFields (distField s 23 10 x.toNat) s)

/-- D.DIST24: Match distance 4097 to 6144 on the wire: symbol 24, extra value `x` (R116, R286). -/
def execDist24 (x : BitVec 11) (s : State) : Host.Outcome State Fault Refusal :=
  ofRun (putFields (distField s 24 11 x.toNat) s)

/-- D.DIST25: Match distance 6145 to 8192 on the wire: symbol 25, extra value `x` (R116, R286). -/
def execDist25 (x : BitVec 11) (s : State) : Host.Outcome State Fault Refusal :=
  ofRun (putFields (distField s 25 11 x.toNat) s)

/-- D.DIST26: Match distance 8193 to 12288 on the wire: symbol 26, extra value `x` (R116, R286). -/
def execDist26 (x : BitVec 12) (s : State) : Host.Outcome State Fault Refusal :=
  ofRun (putFields (distField s 26 12 x.toNat) s)

/-- D.DIST27: Match distance 12289 to 16384 on the wire: symbol 27, extra value `x` (R116, R286). -/
def execDist27 (x : BitVec 12) (s : State) : Host.Outcome State Fault Refusal :=
  ofRun (putFields (distField s 27 12 x.toNat) s)

/-- D.DIST28: Match distance 16385 to 24576 on the wire: symbol 28, extra value `x` (R116, R286). -/
def execDist28 (x : BitVec 13) (s : State) : Host.Outcome State Fault Refusal :=
  ofRun (putFields (distField s 28 13 x.toNat) s)

/-- D.DIST29: Match distance 24577 to 32768 on the wire: symbol 29, extra value `x` (R116, R286). -/
def execDist29 (x : BitVec 13) (s : State) : Host.Outcome State Fault Refusal :=
  ofRun (putFields (distField s 29 13 x.toNat) s)

/-- ZLIB.HEADER: nothing unless framing is on (R119, R313). -/
def execZlibHeader (s : State) : Host.Outcome State Fault Refusal := ofRun (putFields (zlibHeaderFields s) s)

/-- ZLIB.TRAILER: nothing unless framing is on (R120, R317). -/
def execZlibTrailer (s : State) : Host.Outcome State Fault Refusal := ofRun (putFields (zlibTrailerFields s) s)

end Sys2Proof.Machine
end

