-- ==== Sys2Proof/Machine/BlockEncoder.lean ====
section
/-! DEFINITION. DynamicBlockEncoder (spec/45_block_encoder.md): the token walk, the run-length packing, `LZ_RESET`
and `FLUSH_BLOCK`. -/

namespace Sys2Proof.Machine

/-- `LZ_RESET` (R221). -/
def lzReset (s : State) : State := (s.setLzBuf (s.lzBuf.set 0 0#8)).setLzCursors 1#16 0#15 8#4

/-! ## The token walk -/

/-- `TOKENS(stop)` from index `i`, with `k` tokens of the current group read and its flag byte `f` (R272); `k` = 8
where the next byte is a flag byte. Every turn takes at least one byte, so `stop` turns are enough. -/
def tokenWalk (s : State) (stop : Nat) : (turns i k : Nat) → (f : Byte) → Except Fault (List Token)
  | 0, _, _, _ => .ok []
  | t + 1, i, k, f =>
    if stop ≤ i then .ok []
    else if k = 8 then do
      let f' ← readLz s i
      tokenWalk s stop t (i + 1) 0 f'
    else if f.getLsbD k then do
      let b0 ← readLz s i
      let b1 ← readLz s (i + 1)
      let b2 ← readLz s (i + 2)
      let rest ← tokenWalk s stop t (i + 3) (k + 1) f
      pure (matchToken b0 b1 b2 :: rest)
    else do
      let v ← readLz s i
      let rest ← tokenWalk s stop t (i + 1) (k + 1) f
      pure (.literal v :: rest)

/-- `TOKENS(stop)` (R272). -/
def lzTokens (s : State) (stop : Nat) : Except Fault (List Token) := tokenWalk s stop stop 0 8 0#8

/-! ## Run-length packing (R278) -/

/-- The registers of `RLE_PACK`: the entries so far (last first), pending zeros, pending repeats, previous value. -/
structure RleState where
  out : List PackedEntry
  zeros : Nat
  rep : Nat
  prev : Nat
deriving DecidableEq, Repr

/-- `FLUSH_REP` (R278). -/
def flushRep (r : RleState) : RleState :=
  if r.rep = 0 then r
  else if r.rep < 3 then { r with out := List.replicate r.rep ⟨r.prev, 0, 0⟩ ++ r.out, rep := 0 }
  else { r with out := ⟨16, 2, r.rep - 3⟩ :: r.out, rep := 0 }

/-- `FLUSH_ZERO` (R278). -/
def flushZero (r : RleState) : RleState :=
  if r.zeros = 0 then r
  else if r.zeros < 3 then { r with out := List.replicate r.zeros ⟨0, 0, 0⟩ ++ r.out, zeros := 0 }
  else if r.zeros ≤ 10 then { r with out := ⟨17, 3, r.zeros - 3⟩ :: r.out, zeros := 0 }
  else { r with out := ⟨18, 7, r.zeros - 11⟩ :: r.out, zeros := 0 }

/-- One code length is taken in (R278). -/
def rleStep (r : RleState) (c : Nat) : RleState :=
  if c = 0 then
    let a := flushRep r
    let b := { a with zeros := a.zeros + 1 }
    let d := if b.zeros = 138 then flushZero b else b
    { d with prev := c }
  else
    let a := flushZero r
    if c ≠ a.prev then
      let b := flushRep a
      { b with out := ⟨c, 0, 0⟩ :: b.out, prev := c }
    else
      let b := { a with rep := a.rep + 1 }
      let d := if b.rep = 6 then flushRep b else b
      { d with prev := c }

/-- `RLE_PACK(seq)` (R278). -/
def rlePack (seq : List Nat) : List PackedEntry :=
  let r := seq.foldl rleStep { out := [], zeros := 0, rep := 0, prev := 0xFF }
  (if r.rep ≠ 0 then flushRep r else flushZero r).out.reverse

/-! ## Pass 1 -/

/-- One more occurrence of symbol `i`, in 16 bits (R33, R255). -/
def countSymbol (m : Mem 16) (i : Nat) : Mem 16 := m.set i (BitVec.ofNat 16 (m.entry i + 1))

/-- The tally of the tokens over the two frequency tables (R270, R272). -/
def tallyTokens : List Token → (lit dist : Mem 16) → Except Fault (Mem 16 × Mem 16)
  | [], lit, dist => .ok (lit, dist)
  | .literal v :: ts, lit, dist => tallyTokens ts (countSymbol lit v.toNat) dist
  | .copy l d :: ts, lit, dist => do
    let lr ← lenRow l
    let dr ← distRow d
    tallyTokens ts (countSymbol lit lr.sym) (countSymbol dist dr.sym)

/-- The largest count `n`, at least `least` and at most `most`, with `used (n - 1)`; `least` where there is none
(R275, R276, R280). -/
def trimCount (used : Nat → Bool) (least : Nat) : (most : Nat) → Nat
  | 0 => 0
  | n + 1 => if least < n + 1 && !(used n) then trimCount used least n else n + 1

/-- `HLIT` (R275). -/
def hlit (s : State) : Nat := trimCount (fun i => decide (s.llLen.entry i ≠ 0)) 257 286

/-- `HDIST` (R276). -/
def hdist (s : State) : Nat := trimCount (fun i => decide (s.dLen.entry i ≠ 0)) 1 30

/-- `HCLEN` (R280). -/
def hclen (s : State) : Nat := trimCount (fun i => decide (s.clLen.entry (swizzleAt i) ≠ 0)) 4 19

/-- The code-length sequence `seq` (R277). -/
def codeLengthSeq (s : State) : List Nat :=
  (List.range (hlit s)).map s.llLen.entry ++ (List.range (hdist s)).map s.dLen.entry

/-- One count per packed entry by its symbol, extras not counted (R279). -/
def packedFreq (packed : List PackedEntry) : Mem 16 := packed.foldl (fun m p => countSymbol m p.sym) (Mem.filled 0#16)

/-- The token stream is closed (R271): the flag byte of the open group is moved down, and an empty group is not part
of the stream. Yields the state and where the stream stops. -/
def closeTokenStream (s : State) : Except Fault (State × Nat) :=
  if s.lzPos = 0#16 then .error .lzPosRange
  else if s.flagsLeft.toNat = 0 ∨ 8 < s.flagsLeft.toNat then .error .flagsLeftRange
  else do
    let f ← readLz s s.lzFlagsPos.toNat
    let t ← writeLz s s.lzFlagsPos.toNat (alignFlags f s.flagsLeft.toNat)
    pure (t, s.lzPos.toNat - (if s.flagsLeft = 8#4 then 1 else 0))

/-- Pass 1 of `FLUSH_BLOCK` (R272 to R280): tally, two tables, packed code lengths, third table. -/
def buildTables (ts : List Token) (s : State) : Except Fault State := do
  let counts ← tallyTokens ts (Mem.filled 0#16) (Mem.filled 0#16)
  let s1 ← optimize .litLen (s.setFreqs (countSymbol counts.1 256) counts.2)
  let s2 ← optimize .dist s1
  let packed := rlePack (codeLengthSeq s2)
  optimize .codeLen (s2.setPacked packed (packedFreq packed))

/-! ## Pass 2 -/

/-- Every field of the block before and after the tokens, in the order of R110, from the tables of `s` (R281 to
R287). -/
def blockFields (last : Bool) (ts : List Token) (s : State) : Except Fault (List (Nat × Nat)) := do
  let body ← tokensFields s ts
  pure (headerFields last.toNat (hlit s - 257) (hdist s - 1) (hclen s - 4) ++ clLengthFields s (hclen s) ++
    (s.packed.flatMap fun p => clField s p.sym p.extraBits p.extra) ++ body ++ llField s 256 0 0)

/-- `FLUSH_BLOCK(last)` (R270). -/
def flushBlock (last : Bool) (s : State) : Except Fault State := do
  let closed ← closeTokenStream s
  let ts ← lzTokens closed.1 closed.2
  let built ← buildTables ts closed.1
  let fields ← blockFields last ts built
  let sent ← putFields fields built
  pure (lzReset sent)

/-! ## Meanings -/

/-- LZ_RESET() (R221). -/
def execLzReset (s : State) : Host.Outcome State Fault Refusal := .next (lzReset s)

/-- TOKENS(end) (R272). -/
def execTokens (stop : BitVec 16) (s : State) : Host.Outcome State Fault Refusal :=
  ofRun do
    let ts ← lzTokens s stop.toNat
    pure (s.setResult (.tokens ts))

/-- RLE_PACK(seq) (R278): the packed list is the scratch array of R35. A list past the 320 entries of
`packed[0..319]` is a fault (R35, R360). That a `seq` outside the 258..316 entries of R277 is packed where its list
fits: DESIGN CHOICE, log 17. -/
def execRlePack (seq : List (BitVec 4)) (s : State) : Host.Outcome State Fault Refusal :=
  let packed := rlePack (seq.map fun c => c.toNat)
  if Config.PACKED_LEN < packed.length then .fault (.packedRange packed.length) else .next (s.setPacked packed s.clFreq)

/-- FLUSH_BLOCK(last) (R270). -/
def execFlushBlock (last : Bool) (s : State) : Host.Outcome State Fault Refusal := ofRun (flushBlock last s)

/-- LEN_SYM(l) (R289). -/
def execLenSym (l : BitVec 9) (s : State) : Host.Outcome State Fault Refusal :=
  ofRun do
    let r ← lenRow l.toNat
    pure (s.setResult (.symbol r.sym r.extraBits r.base))

/-- DIST_SYM(d) (R290). -/
def execDistSym (d : BitVec 16) (s : State) : Host.Outcome State Fault Refusal :=
  ofRun do
    let r ← distRow d.toNat
    pure (s.setResult (.symbol r.sym r.extraBits r.base))

end Sys2Proof.Machine
end

