-- ==== Sys2Proof/Machine/LzBuffer.lean ====
section
/-! DEFINITION. LZCodeBuffer (spec/43_parser_lzbuf.md R220 to R226): recording tokens, the flag byte, the flush
threshold, and the token format as it stands in `lz_buf` (spec/30_encoding.md R100 to R104). -/

namespace Sys2Proof.Machine

/-- The bytes of a token stored at the next free index, which moves past them (R222, R223). -/
def appendLz (bytes : List Byte) (s : State) : Except Fault State := do
  let t ← writeLzBytes s s.lzPos.toNat bytes
  pure (t.setLzCursors (BitVec.ofNat 16 (s.lzPos.toNat + bytes.length)) s.lzFlagsPos s.flagsLeft)

/-- A full group: a new flag byte slot is allocated and written 0 (R224). -/
def rollGroup (s : State) : Except Fault State :=
  if s.flagsLeft = 0#4 then do
    let t ← writeLz s s.lzPos.toNat 0#8
    pure (t.setLzCursors (s.lzPos + 1#16) (BitVec.ofNat 15 s.lzPos.toNat) 8#4)
  else .ok s

/-- The token's flag enters the flag byte and one token fewer fits (R101, R224). -/
def enterFlag (isMatch : Bool) (s : State) : Except Fault State :=
  if s.flagsLeft.toNat = 0 ∨ 8 < s.flagsLeft.toNat then .error .flagsLeftRange
  else do
    let f ← readLz s s.lzFlagsPos.toNat
    let t ← writeLz s s.lzFlagsPos.toNat (shiftInFlag f isMatch)
    pure (t.setLzCursors t.lzPos t.lzFlagsPos (t.flagsLeft - 1#4))

/-- `LZ_AFTER_RECORD(is_match)` (R224, R225). -/
def lzAfterRecord (isMatch : Bool) (s : State) : Except Fault State := do
  let t ← enterFlag isMatch s
  let u ← rollGroup t
  if Config.LZ_SIZE - u.lzPos.toNat < 4 then flushBlock false u else .ok u

/-- `RECORD_LITERAL(v)` (R222). -/
def recordLiteral (v : Byte) (s : State) : Except Fault State := do
  let t ← appendLz [v] s
  lzAfterRecord false t

/-- `RECORD_MATCH(d, l)` (R223). -/
def recordMatch (d l : Nat) (s : State) : Except Fault State :=
  if Config.M ≤ l ∧ l ≤ Config.L ∧ 1 ≤ d ∧ d ≤ Config.W then do
    let t ← appendLz (matchBytes d l) s
    lzAfterRecord true t
  else .error (.recordMatchOperand d l)

/-! ## Meanings -/

/-- RECORD_LITERAL(v) (R222). -/
def execRecordLiteral (v : Byte) (s : State) : Host.Outcome State Fault Refusal := ofRun (recordLiteral v s)

/-- RECORD_MATCH(d,l) (R223). -/
def execRecordMatch (d : BitVec 16) (l : BitVec 9) (s : State) : Host.Outcome State Fault Refusal :=
  ofRun (recordMatch d.toNat l.toNat s)

/-- LZ_AFTER_RECORD(is_match) (R224). -/
def execLzAfterRecord (isMatch : Bool) (s : State) : Host.Outcome State Fault Refusal := ofRun (lzAfterRecord isMatch s)

/-- LZ.FLAG: the flag byte of the current group's slot (R100, R101; log 13). -/
def execLzFlag (f : Byte) (s : State) : Host.Outcome State Fault Refusal := ofRun (writeLz s s.lzFlagsPos.toNat f)

/-- LZ.LITERAL: the token's byte at the next free index (R102; log 13). -/
def execLzLiteral (v : Byte) (s : State) : Host.Outcome State Fault Refusal := ofRun (appendLz [v] s)

/-- LZ.MATCH: the token's three bytes at the next free index (R103; log 13). -/
def execLzMatch (lenMinus3 : Byte) (distMinus1 : BitVec 15) (s : State) : Host.Outcome State Fault Refusal :=
  ofRun (appendLz (matchBytes (distMinus1.toNat + 1) (lenMinus3.toNat + Config.M)) s)

end Sys2Proof.Machine
end

