-- ==== Sys2Proof/Machine/MatchFinder.lean ====
section
/-! DEFINITION. MatchFinder (spec/42_match_finder.md): the walk of a hash chain under a probe budget. -/

namespace Sys2Proof.Machine

/-- Circular distance `(pos - cand) mod W` (R186). -/
def circularDist (pos cand : Nat) : Nat := (pos + Config.W - cand) % Config.W

/-- The number of leading positions, at most the third argument, at which the bytes from `a` and from `b` agree
(R188). -/
def commonLength (s : State) : (a b : Nat) → Nat → Nat
  | _, _, 0 => 0
  | a, b, k + 1 => if s.dictByte a = s.dictByte b then commonLength s (a + 1) (b + 1) k + 1 else 0

/-- The result of a walk: the pair, and the entry of `prev` to be marked terminal, if any (R183, R185). -/
structure Found where
  dist : Nat
  len : Nat
  mark : Option Nat
deriving DecidableEq, Repr

/-- The probe loop (R183): `probes` links may still be fetched, the next one from `cur`; `prevDist` is the distance
of the last candidate that passed step 2, `(dist, len)` the best pair so far. -/
def walkChain (s : State) (pos maxDist maxLen : Nat) : (probes cur prevDist dist len : Nat) → Found
  | 0, _, _, dist, len => ⟨dist, len, none⟩
  | k + 1, cur, prevDist, dist, len =>
    let cand := (s.prevEntry cur).toNat
    if Config.W ≤ cand then ⟨dist, len, none⟩
    else
      let d := circularDist pos cand
      if maxDist < d ∨ d ≤ prevDist then ⟨dist, len, some cur⟩
      else if s.dictByte (cand + len) ≠ s.dictByte (pos + len) ∨
          s.dictByte (cand + len - 1) ≠ s.dictByte (pos + len - 1) then
        walkChain s pos maxDist maxLen k cand d dist len
      else
        let n := commonLength s cand pos maxLen
        if len < n then
          if n = maxLen then ⟨d, n, none⟩ else walkChain s pos maxDist maxLen k cand d d n
        else walkChain s pos maxDist maxLen k cand d dist len

/-- The terminal mark `prev[cur] <- 0xFFFF` (R185). -/
def applyMark (mark : Option Nat) (s : State) : State :=
  match mark with
  | none => s
  | some i => s.writePrev (BitVec.ofNat 15 i) Config.SENTINEL

/-- `FIND_MATCH` (R180 to R190). Past the early return (R181) every index is inside `dict` because `pos < W` and
`maxLen <= L`; a call outside that contract is a fault. -/
def findMatch (pos : BitVec 15) (maxDist maxLen dist len : Nat) (s : State) : Except Fault (State × Nat × Nat) :=
  if maxLen ≤ len then .ok (s, dist, len)
  else if Config.L < maxLen ∨ len < Config.M - 1 then .error .findMatchContract
  else
    let f := walkChain s pos.toNat maxDist maxLen s.maxProbes.toNat pos.toNat 0 dist len
    .ok (applyMark f.mark s, f.dist, f.len)

/-! ## Meanings -/

/-- FIND_MATCH(pos,max_dist,max_len,match_dist,match_len) (R180). -/
def execFindMatch (pos : BitVec 15) (maxDist : BitVec 16) (maxLen : BitVec 9) (matchDist : BitVec 16)
    (matchLen : BitVec 9) (s : State) : Host.Outcome State Fault Refusal :=
  ofRun do
    let r ← findMatch pos maxDist.toNat maxLen.toNat matchDist.toNat matchLen.toNat s
    pure (r.1.setResult (.found r.2.1 r.2.2))

end Sys2Proof.Machine
end

