-- ==== Sys2Proof/Machine/Parser.lean ====
section
/-! DEFINITION. Parser (spec/43_parser_lzbuf.md R200 to R216): `PARSE_STEP` and its six transitions. -/

namespace Sys2Proof.Machine

/-- The advance after a transition (R215): `adv` bytes leave the lookahead and become history. -/
def advance (adv : Nat) (s : State) : Except Fault State :=
  if 1 ≤ adv ∧ adv ≤ s.lookaheadSize.toNat then
    .ok (s.setCursors (BitVec.ofNat 15 (s.lookaheadPos.toNat + adv)) (BitVec.ofNat 9 (s.lookaheadSize.toNat - adv))
      (BitVec.ofNat 16 (min (s.dictSize.toNat + adv) Config.W)))
  else .error (.advanceRange adv)

/-- The byte at the parse point, `dict[lookahead_pos]`. -/
def State.parseByte (s : State) : Byte := s.dictByte s.lookaheadPos.toNat

/-- `Idle`, no match (R205). -/
def idleLiteral (s : State) : Except Fault State := do
  let t ← recordLiteral s.parseByte s
  advance 1 t

/-- `Idle`, commit (R206). -/
def idleCommit (d l : Nat) (s : State) : Except Fault State := do
  let t ← recordMatch d l s
  advance l t

/-- `Idle`, defer (R207). -/
def idleDefer (d l : Nat) (s : State) : Except Fault State :=
  advance 1 (s.setSaved s.parseByte (BitVec.ofNat 16 d) (BitVec.ofNat 9 l))

/-- `Deferred`, longer and at least 64 (R208): two tokens, literal then match. -/
def deferredLongerLong (d l : Nat) (s : State) : Except Fault State := do
  let t ← recordLiteral s.savedLit s
  let u ← recordMatch d l t
  advance l (u.setSaved u.savedLit u.savedMatchDist 0#9)

/-- `Deferred`, longer and at most 63 (R209). -/
def deferredLongerShort (d l : Nat) (s : State) : Except Fault State := do
  let t ← recordLiteral s.savedLit s
  advance 1 (t.setSaved s.parseByte (BitVec.ofNat 16 d) (BitVec.ofNat 9 l))

/-- `Deferred`, not longer (R210). -/
def deferredCommit (s : State) : Except Fault State := do
  let t ← recordMatch s.savedMatchDist.toNat s.savedMatchLen.toNat s
  advance (s.savedMatchLen.toNat - 1) (t.setSaved t.savedLit t.savedMatchDist 0#9)

/-- The floor a match must beat (R203). -/
def matchFloor (s : State) : Nat := if s.savedMatchLen = 0#9 then Config.M - 1 else s.savedMatchLen.toNat

/-- The distance bound (R202). -/
def distanceBound (s : State) : Nat := min s.dictSize.toNat (Config.W - s.lookaheadSize.toNat)

/-- Whether the finder's pair is an acceptable improvement (R204). -/
def improved (reject3Dist floor d l : Nat) : Bool := decide (floor < l) && !(decide (l = Config.M) && decide (reject3Dist ≤ d))

/-- The transition table (R212). -/
def parseTransition (d l : Nat) (better : Bool) (s : State) : Except Fault State :=
  if s.savedMatchLen = 0#9 then
    if better then
      if s.greedy ∨ Config.LONG_COMMIT ≤ l then idleCommit d l s else idleDefer d l s
    else idleLiteral s
  else if better then
    if Config.LONG_COMMIT ≤ l then deferredLongerLong d l s else deferredLongerShort d l s
  else deferredCommit s

/-- `PARSE_STEP` (R201). -/
def parseStep (s : State) : Except Fault State :=
  if s.lookaheadSize = 0#9 then .error .lookaheadEmpty
  else do
    let r ← findMatch s.lookaheadPos (distanceBound s) s.lookaheadSize.toNat 0 (matchFloor s) s
    parseTransition r.2.1 r.2.2 (improved s.params.reject3Dist (matchFloor s) r.2.1 r.2.2) r.1

/-- `while lookahead_size > 0: PARSE_STEP()` (R316); every step takes at least one byte, so `lookahead_size` turns
are enough. -/
def parseAll : (turns : Nat) → State → Except Fault State
  | 0, s => .ok s
  | k + 1, s =>
    if s.lookaheadSize = 0#9 then .ok s
    else do
      let t ← parseStep s
      parseAll k t

/-- A match still saved at the terminal flush is recorded (R211). -/
def savedMatchFlush (s : State) : Except Fault State :=
  if s.savedMatchLen = 0#9 then .ok s
  else do
    let t ← recordMatch s.savedMatchDist.toNat s.savedMatchLen.toNat s
    pure (t.setSaved t.savedLit t.savedMatchDist 0#9)

/-! ## Meanings -/

/-- PARSE_STEP() (R201). -/
def execParseStep (s : State) : Host.Outcome State Fault Refusal := ofRun (parseStep s)

/-- PARSE_STEP.IDLE_LITERAL (R205, R215). -/
def execIdleLiteral (s : State) : Host.Outcome State Fault Refusal := ofRun (idleLiteral s)

/-- PARSE_STEP.IDLE_COMMIT (R206, R215). -/
def execIdleCommit (d : BitVec 16) (l : BitVec 9) (s : State) : Host.Outcome State Fault Refusal :=
  ofRun (idleCommit d.toNat l.toNat s)

/-- PARSE_STEP.IDLE_DEFER (R207, R215). -/
def execIdleDefer (d : BitVec 16) (l : BitVec 9) (s : State) : Host.Outcome State Fault Refusal :=
  ofRun (idleDefer d.toNat l.toNat s)

/-- PARSE_STEP.DEFERRED_LONGER_LONG (R208, R215). -/
def execDeferredLongerLong (d : BitVec 16) (l : BitVec 9) (s : State) : Host.Outcome State Fault Refusal :=
  ofRun (deferredLongerLong d.toNat l.toNat s)

/-- PARSE_STEP.DEFERRED_LONGER_SHORT (R209, R215). -/
def execDeferredLongerShort (d : BitVec 16) (l : BitVec 9) (s : State) : Host.Outcome State Fault Refusal :=
  ofRun (deferredLongerShort d.toNat l.toNat s)

/-- PARSE_STEP.DEFERRED_COMMIT (R210, R215). -/
def execDeferredCommit (s : State) : Host.Outcome State Fault Refusal := ofRun (deferredCommit s)

/-- FINISH.SAVED_MATCH_FLUSH (R211). -/
def execSavedMatchFlush (s : State) : Host.Outcome State Fault Refusal := ofRun (savedMatchFlush s)

end Sys2Proof.Machine
end

