-- ==== Sys2Proof/Machine/Dictionary.lean ====
section
/-! DEFINITION. Dictionary and HashChains (spec/41_dictionary_hash.md): `FEED_BYTE`, `HASH3`, and the checksum step
every fed byte takes first (spec/46_session.md R318). -/

namespace Sys2Proof.Machine

/-- The low half of the checksum after byte `b` (R318). -/
def adlerLow (a : BitVec 32) (b : Byte) : Nat := ((a.extractLsb' 0 16).toNat + b.toNat) % Config.ADLER_MOD

/-- The high half of the checksum after byte `b` (R318). -/
def adlerHigh (a : BitVec 32) (b : Byte) : Nat := ((a.extractLsb' 16 16).toNat + adlerLow a b) % Config.ADLER_MOD

/-- `ADLER_UPDATE(b)` (R318). -/
def adlerUpdate (b : Byte) (s : State) : State :=
  s.setAdler (BitVec.ofNat 16 (adlerHigh s.adler b) ++ BitVec.ofNat 16 (adlerLow s.adler b))

/-- The slot of the next fed byte (R163). -/
def feedSlot (s : State) : Nat := (s.lookaheadPos.toNat + s.lookaheadSize.toNat) % Config.W

/-- The byte is written to its slot and, in the first 257 slots, to the mirror (R162). -/
def storeDictByte (q : Nat) (b : Byte) (s : State) : State :=
  if q < Config.L - 1 then (s.writeDict q b).writeDict (q + Config.W) b else s.writeDict q b

/-- The position of the triplet that the byte at slot `q` completes (R164). -/
def tripletPos (q : Nat) : Nat := (q + Config.W - 2) % Config.W

/-- The hash of the triplet at window index `i` (R161, R164). -/
def tripletHash (s : State) (i : Nat) : BitVec 12 := hash3 (s.dictByte i) (s.dictByte (i + 1)) (s.dictByte (i + 2))

/-- Position `i` enters the chain of its hash (R164). -/
def insertPosition (i : Nat) (s : State) : State :=
  let h := tripletHash s i
  (s.writePrev (BitVec.ofNat 15 i) (s.headEntry h.toNat)).writeHead h (BitVec.ofNat 16 i)

/-- `FEED_BYTE(b)` up to the parse trigger: checksum, byte and mirror, count, insertion (R160). -/
def takeByte (b : Byte) (s : State) : State :=
  let q := feedSlot s
  let s1 := storeDictByte q b (adlerUpdate b s)
  let s2 := s1.setCursors s1.lookaheadPos (s1.lookaheadSize + 1#9) s1.dictSize
  if Config.M ≤ s2.dictSize.toNat + s2.lookaheadSize.toNat then insertPosition (tripletPos q) s2 else s2

/-- `FEED_BYTE(b)` (R160): a full lookahead triggers one `PARSE_STEP` (R167). -/
def feedByte (b : Byte) (s : State) : Except Fault State :=
  if Config.L ≤ s.lookaheadSize.toNat then .error .lookaheadFull
  else
    let t := takeByte b s
    if t.lookaheadSize.toNat = Config.L then parseStep t else .ok t

/-- The bytes of a buffer in order (R315). -/
def feedBytes : List Byte → State → Except Fault State
  | [], s => .ok s
  | b :: bs, s => do
    let t ← feedByte b s
    feedBytes bs t

/-! ## Meanings -/

/-- FEED_BYTE(b) (R160). -/
def execFeedByte (b : Byte) (s : State) : Host.Outcome State Fault Refusal := ofRun (feedByte b s)

/-- HASH3(b0,b1,b2) (R161). -/
def execHash3 (b0 b1 b2 : Byte) (s : State) : Host.Outcome State Fault Refusal :=
  .next (s.setResult (.value (hash3 b0 b1 b2).toNat))

/-- ADLER_UPDATE(b) (R318). -/
def execAdlerUpdate (b : Byte) (s : State) : Host.Outcome State Fault Refusal := .next (adlerUpdate b s)

end Sys2Proof.Machine
end

