-- ==== Sys2Proof/Machine/FlagFields.lean ====
section
/-! DEFINITION. The five fields of the flags word as `INIT` takes them (spec/30_encoding.md R95, spec/46_session.md
R310, R311). -/

namespace Sys2Proof.Machine

/-- Every entry of `head` becomes the sentinel (R27, R310). -/
def clearHead (s : State) : State := s.setHead (Mem.filled Config.SENTINEL)

/-- `PROBES`: the probe budget (R311). -/
def takeProbes (v : BitVec 12) (s : State) : State := s.setMaxProbes (probeBudget s.params.probeMap v)

/-- `NONDET`: the bit, and with the bit clear the clearing of `head` (R310, R374). -/
def takeNondet (b : Bool) (s : State) : State := if b then s.setNondet true else clearHead (s.setNondet false)

/-- All five fields of the flags word (R95, R310); bit 13 has no effect. -/
def takeFlags (flags : BitVec 16) (s : State) : State :=
  takeNondet (flags.getLsbD 15)
    (((takeProbes (flags.extractLsb' 0 12) s).setZlib (flags.getLsbD 12)).setGreedy (flags.getLsbD 14))

/-! ## Meanings -/

/-- FLAG.PROBES (R95, R311). -/
def execFlagProbes (v : BitVec 12) (s : State) : Host.Outcome State Fault Refusal := .next (takeProbes v s)

/-- FLAG.ZLIB (R95, R313). -/
def execFlagZlib (b : Bool) (s : State) : Host.Outcome State Fault Refusal := .next (s.setZlib b)

/-- FLAG.BIT13: "not recognised; ignored, any value" (R95). -/
def execFlagBit13 (s : State) : Host.Outcome State Fault Refusal := .next s

/-- FLAG.GREEDY (R95, R206). -/
def execFlagGreedy (b : Bool) (s : State) : Host.Outcome State Fault Refusal := .next (s.setGreedy b)

/-- FLAG.NONDET (R95, R374). -/
def execFlagNondet (b : Bool) (s : State) : Host.Outcome State Fault Refusal := .next (takeNondet b s)

end Sys2Proof.Machine
end

