-- ==== Sys2Proof/Machine/Session.lean ====
section
/-! DEFINITION. Session (spec/46_session.md): the host commands, and the reserved command words
(spec/60_exceptions.md R348). -/

namespace Sys2Proof.Machine

/-- The registers a new session starts with, besides those of the flags word (R310, R312). -/
def clearSession (s : State) : State :=
  ((((((lzReset (s.setCursors 0#15 0#9 0#16)).setAdler 1#32).setSaved 0#8 0#16 0#9).setBits 0#24 0#5).setOut s.outBuf
    0#13).setFailed false).setClosed false

/-- `INIT` with a sink (R310 to R313). -/
def initSession (flags : BitVec 16) (s : State) : Except Fault State :=
  let t := clearSession (takeFlags flags s)
  putFields (zlibHeaderFields t) t

/-- `FINISH` on an open session (R316). -/
def finishSession (s : State) : Except Fault State := do
  let parsed ← parseAll s.lookaheadSize.toNat s
  let flushed ← savedMatchFlush parsed
  let emitted ← flushBlock true flushed
  let aligned ← align emitted
  let trailed ← putFields (zlibTrailerFields aligned) aligned
  let drained ← drain trailed
  pure (drained.setClosed true)

/-- The command ends: `true` exactly where `failed` is 0 (R314, R316, R320). -/
def replyHealth (s : State) : State := s.reply (!s.failed)

/-- Hardware reset before a `COMPRESS_DATA` is all there: the data bytes presented before it are taken as the `FEED`
takes them, as far as the reset lets them, nothing is returned, and the session is abandoned (R371; log 10). -/
def resetDuringCommand (puts : Option Nat) (data : List Byte) (s : State) : Except Fault State :=
  match sessionGate s with
  | some _ => .ok (hardwareReset s)
  | none => do
    let t ← feedBytes data s
    pure (resetInside puts s t)

/-! ## Meanings -/

/-- INIT (R310). -/
def execInit (sinkPresent : Bool) (flags : BitVec 16) (s : State) : Host.Outcome State Fault Refusal :=
  if sinkPresent then
    ofRun do
      let t ← initSession flags s
      pure (t.reply true)
  else .next (refuseCommand .sinkMissing s)

/-- COMPRESS_DATA.FEED (R314, R315). -/
def execFeed (data : List Byte) (s : State) : Host.Outcome State Fault Refusal :=
  match sessionGate s with
  | some cause => .next (refuseCommand cause s)
  | none =>
    ofRun do
      let t ← feedBytes data s
      pure (replyHealth t)

/-- COMPRESS_DATA.FINISH (R314, R316). -/
def execFinish (s : State) : Host.Outcome State Fault Refusal :=
  match sessionGate s with
  | some cause => .next (refuseCommand cause s)
  | none =>
    ofRun do
      let t ← finishSession s
      pure (replyHealth t)

/-- COMPRESS_DATA.BADARG (R314, R343). -/
def execBadarg (s : State) : Host.Outcome State Fault Refusal :=
  match sessionGate s with
  | some cause => .next (refuseCommand cause s)
  | none => .next (refuseCommand .badArgument s)

/-- RESERVED.OP2 (R94, R348). -/
def execReservedOp2 (s : State) : Host.Outcome State Fault Refusal := .next (refuseCommand .reservedWord s)

/-- RESERVED.OP3 (R94, R348). -/
def execReservedOp3 (s : State) : Host.Outcome State Fault Refusal := .next (refuseCommand .reservedWord s)

/-- RESERVED.BIT3 (R94, R348). -/
def execReservedBit3 (s : State) : Host.Outcome State Fault Refusal := .next (refuseCommand .reservedWord s)

/-- RESERVED.HIGH (R94, R348). -/
def execReservedHigh (s : State) : Host.Outcome State Fault Refusal := .next (refuseCommand .reservedWord s)

/-- RESERVED.CD_FLAGS (R94, R348). -/
def execReservedCdFlags (s : State) : Host.Outcome State Fault Refusal := .next (refuseCommand .reservedWord s)

end Sys2Proof.Machine
end

