-- ==== Sys2Proof/Machine/Dispatch.lean ====
section
/-! DEFINITION. One arm per constructor of Instr, each one direct call of its meaning. -/

namespace Sys2Proof.Machine

def exec (i : Instr) (s : State) : Host.Outcome State Fault Refusal :=
  match i with
  | .init sinkPresent flags => Sys2Proof.Machine.execInit sinkPresent flags s
  | .feed data => Sys2Proof.Machine.execFeed data s
  | .finish => Sys2Proof.Machine.execFinish s
  | .badarg _ => Sys2Proof.Machine.execBadarg s
  | .reservedOp2 _ => Sys2Proof.Machine.execReservedOp2 s
  | .reservedOp3 _ => Sys2Proof.Machine.execReservedOp3 s
  | .reservedBit3 _ _ _ => Sys2Proof.Machine.execReservedBit3 s
  | .reservedHigh _ _ _ _ => Sys2Proof.Machine.execReservedHigh s
  | .reservedCdFlags _ _ => Sys2Proof.Machine.execReservedCdFlags s
  | .sinkPut length => Sys2Proof.Machine.execSinkPut length s
  | .flagProbes v => Sys2Proof.Machine.execFlagProbes v s
  | .flagZlib b => Sys2Proof.Machine.execFlagZlib b s
  | .flagBit13 _ => Sys2Proof.Machine.execFlagBit13 s
  | .flagGreedy b => Sys2Proof.Machine.execFlagGreedy b s
  | .flagNondet b => Sys2Proof.Machine.execFlagNondet b s
  | .putBits value n => Sys2Proof.Machine.execPutBits value n s
  | .outByte b => Sys2Proof.Machine.execOutByte b s
  | .drain => Sys2Proof.Machine.execDrain s
  | .align => Sys2Proof.Machine.execAlign s
  | .feedByte b => Sys2Proof.Machine.execFeedByte b s
  | .hash3 b0 b1 b2 => Sys2Proof.Machine.execHash3 b0 b1 b2 s
  | .findMatch pos maxDist maxLen matchDist matchLen => Sys2Proof.Machine.execFindMatch pos maxDist maxLen matchDist matchLen s
  | .parseStep => Sys2Proof.Machine.execParseStep s
  | .idleLiteral => Sys2Proof.Machine.execIdleLiteral s
  | .idleCommit d l => Sys2Proof.Machine.execIdleCommit d l s
  | .idleDefer d l => Sys2Proof.Machine.execIdleDefer d l s
  | .deferredLongerLong d l => Sys2Proof.Machine.execDeferredLongerLong d l s
  | .deferredLongerShort d l => Sys2Proof.Machine.execDeferredLongerShort d l s
  | .deferredCommit => Sys2Proof.Machine.execDeferredCommit s
  | .savedMatchFlush => Sys2Proof.Machine.execSavedMatchFlush s
  | .lzReset => Sys2Proof.Machine.execLzReset s
  | .recordLiteral v => Sys2Proof.Machine.execRecordLiteral v s
  | .recordMatch d l => Sys2Proof.Machine.execRecordMatch d l s
  | .lzAfterRecord isMatch => Sys2Proof.Machine.execLzAfterRecord isMatch s
  | .optimize t => Sys2Proof.Machine.execOptimize t s
  | .huffDepths n => Sys2Proof.Machine.execHuffDepths n s
  | .rev c n => Sys2Proof.Machine.execRev c n s
  | .flushBlock last => Sys2Proof.Machine.execFlushBlock last s
  | .tokens stop => Sys2Proof.Machine.execTokens stop s
  | .rlePack seq => Sys2Proof.Machine.execRlePack seq s
  | .lenSym l => Sys2Proof.Machine.execLenSym l s
  | .distSym d => Sys2Proof.Machine.execDistSym d s
  | .adlerUpdate b => Sys2Proof.Machine.execAdlerUpdate b s
  | .lzFlag f => Sys2Proof.Machine.execLzFlag f s
  | .lzLiteral v => Sys2Proof.Machine.execLzLiteral v s
  | .lzMatch lenMinus3 distMinus1 => Sys2Proof.Machine.execLzMatch lenMinus3 distMinus1 s
  | .blockHeader bfinal hlitMinus257 hdistMinus1 hclenMinus4 => Sys2Proof.Machine.execBlockHeader bfinal hlitMinus257 hdistMinus1 hclenMinus4 s
  | .clLengths hclen => Sys2Proof.Machine.execClLengths hclen s
  | .cl0 => Sys2Proof.Machine.execCl0 s
  | .cl1 => Sys2Proof.Machine.execCl1 s
  | .cl2 => Sys2Proof.Machine.execCl2 s
  | .cl3 => Sys2Proof.Machine.execCl3 s
  | .cl4 => Sys2Proof.Machine.execCl4 s
  | .cl5 => Sys2Proof.Machine.execCl5 s
  | .cl6 => Sys2Proof.Machine.execCl6 s
  | .cl7 => Sys2Proof.Machine.execCl7 s
  | .cl8 => Sys2Proof.Machine.execCl8 s
  | .cl9 => Sys2Proof.Machine.execCl9 s
  | .cl10 => Sys2Proof.Machine.execCl10 s
  | .cl11 => Sys2Proof.Machine.execCl11 s
  | .cl12 => Sys2Proof.Machine.execCl12 s
  | .cl13 => Sys2Proof.Machine.execCl13 s
  | .cl14 => Sys2Proof.Machine.execCl14 s
  | .cl15 => Sys2Proof.Machine.execCl15 s
  | .cl16 x => Sys2Proof.Machine.execCl16 x s
  | .cl17 x => Sys2Proof.Machine.execCl17 x s
  | .cl18 x => Sys2Proof.Machine.execCl18 x s
  | .llLiteral v => Sys2Proof.Machine.execLlLiteral v s
  | .llEob => Sys2Proof.Machine.execLlEob s
  | .len257 => Sys2Proof.Machine.execLen257 s
  | .len258 => Sys2Proof.Machine.execLen258 s
  | .len259 => Sys2Proof.Machine.execLen259 s
  | .len260 => Sys2Proof.Machine.execLen260 s
  | .len261 => Sys2Proof.Machine.execLen261 s
  | .len262 => Sys2Proof.Machine.execLen262 s
  | .len263 => Sys2Proof.Machine.execLen263 s
  | .len264 => Sys2Proof.Machine.execLen264 s
  | .len265 x => Sys2Proof.Machine.execLen265 x s
  | .len266 x => Sys2Proof.Machine.execLen266 x s
  | .len267 x => Sys2Proof.Machine.execLen267 x s
  | .len268 x => Sys2Proof.Machine.execLen268 x s
  | .len269 x => Sys2Proof.Machine.execLen269 x s
  | .len270 x => Sys2Proof.Machine.execLen270 x s
  | .len271 x => Sys2Proof.Machine.execLen271 x s
  | .len272 x => Sys2Proof.Machine.execLen272 x s
  | .len273 x => Sys2Proof.Machine.execLen273 x s
  | .len274 x => Sys2Proof.Machine.execLen274 x s
  | .len275 x => Sys2Proof.Machine.execLen275 x s
  | .len276 x => Sys2Proof.Machine.execLen276 x s
  | .len277 x => Sys2Proof.Machine.execLen277 x s
  | .len278 x => Sys2Proof.Machine.execLen278 x s
  | .len279 x => Sys2Proof.Machine.execLen279 x s
  | .len280 x => Sys2Proof.Machine.execLen280 x s
  | .len281 x => Sys2Proof.Machine.execLen281 x s
  | .len282 x => Sys2Proof.Machine.execLen282 x s
  | .len283 x => Sys2Proof.Machine.execLen283 x s
  | .len284 x => Sys2Proof.Machine.execLen284 x s
  | .len285 => Sys2Proof.Machine.execLen285 s
  | .dist0 => Sys2Proof.Machine.execDist0 s
  | .dist1 => Sys2Proof.Machine.execDist1 s
  | .dist2 => Sys2Proof.Machine.execDist2 s
  | .dist3 => Sys2Proof.Machine.execDist3 s
  | .dist4 x => Sys2Proof.Machine.execDist4 x s
  | .dist5 x => Sys2Proof.Machine.execDist5 x s
  | .dist6 x => Sys2Proof.Machine.execDist6 x s
  | .dist7 x => Sys2Proof.Machine.execDist7 x s
  | .dist8 x => Sys2Proof.Machine.execDist8 x s
  | .dist9 x => Sys2Proof.Machine.execDist9 x s
  | .dist10 x => Sys2Proof.Machine.execDist10 x s
  | .dist11 x => Sys2Proof.Machine.execDist11 x s
  | .dist12 x => Sys2Proof.Machine.execDist12 x s
  | .dist13 x => Sys2Proof.Machine.execDist13 x s
  | .dist14 x => Sys2Proof.Machine.execDist14 x s
  | .dist15 x => Sys2Proof.Machine.execDist15 x s
  | .dist16 x => Sys2Proof.Machine.execDist16 x s
  | .dist17 x => Sys2Proof.Machine.execDist17 x s
  | .dist18 x => Sys2Proof.Machine.execDist18 x s
  | .dist19 x => Sys2Proof.Machine.execDist19 x s
  | .dist20 x => Sys2Proof.Machine.execDist20 x s
  | .dist21 x => Sys2Proof.Machine.execDist21 x s
  | .dist22 x => Sys2Proof.Machine.execDist22 x s
  | .dist23 x => Sys2Proof.Machine.execDist23 x s
  | .dist24 x => Sys2Proof.Machine.execDist24 x s
  | .dist25 x => Sys2Proof.Machine.execDist25 x s
  | .dist26 x => Sys2Proof.Machine.execDist26 x s
  | .dist27 x => Sys2Proof.Machine.execDist27 x s
  | .dist28 x => Sys2Proof.Machine.execDist28 x s
  | .dist29 x => Sys2Proof.Machine.execDist29 x s
  | .zlibHeader => Sys2Proof.Machine.execZlibHeader s
  | .zlibTrailer => Sys2Proof.Machine.execZlibTrailer s

end Sys2Proof.Machine
end

