-- ==== Sys2Proof/Machine/Step.lean ====
section
/-! DEFINITION. One step: an internal operation of the sequencer if there is one (log 5), else one host command, whole
(spec/00_scope.md R12, spec/70_reset_and_hazards.md R380), else a hardware reset, between commands or inside one
(R370, R371), else waiting (R355). -/

namespace Sys2Proof.Machine

/-- One step of the CORE. -/
def step (s : State) : Host.Outcome State Fault Refusal :=
  match s.sequencer with
  | i :: rest => exec i (s.setSequencer rest)
  | [] =>
    match fetch s.hostIn with
    | .waiting => .next s
    | .command i rest => exec i (s.setHostIn rest)
    | .reset rest => .next (hardwareReset (s.setHostIn rest))
    | .struck i puts rest => strike puts (s.setHostIn rest) (exec i (s.setHostIn rest))
    | .broken puts data rest => ofRun (resetDuringCommand puts data (s.setHostIn rest))
    | .outOfOrder => .refused .hostOutOfOrder

/-- The state in which the next step runs the instruction of a table row's bits: host words are placed at the host
port, every other encoded form is handed to the sequencer as the instruction the decoder reads from it (logs 4, 5,
9). -/
def State.withFetchWord (s : State) (nbits w : Nat) : State :=
  match tableForm nbits w with
  | .host items => (s.setSequencer []).setHostIn items
  | form => s.setSequencer (decode form).toList

end Sys2Proof.Machine
end

