-- ==== Sys2Proof/Safety.lean ====
section
/-! DEFINITION. What the statements about runs and states are said with: safe runs, the properties a state keeps
between operations (spec/10_state.md R38), the output stream as bits (spec/40_bitsink.md R140), and the effect of one
recorded token (spec/43_parser_lzbuf.md R222 to R224). -/

namespace Sys2Proof.Machine

/-! ## Safe runs -/

/-- `n` steps lead from `s` to `t`; none of them faults or is refused. -/
def runsTo : Nat → State → State → Prop
  | 0, s, t => s = t
  | n + 1, s, t => ∃ u, step s = .next u ∧ runsTo n u t

/-- None of the next `n` steps faults or is refused. -/
def SafeFor (n : Nat) (s : State) : Prop := ∃ t, runsTo n s t

/-- The commands of a list, performed one after the other. -/
def execAll : List Instr → State → Host.Outcome State Fault Refusal
  | [], s => .next s
  | i :: rest, s =>
    match exec i s with
    | .next t => execAll rest t
    | .fault f => .fault f
    | .refused r => .refused r

/-- The three forms of `COMPRESS_DATA` (R93). -/
def isCompressData (i : Instr) : Prop := (∃ data, i = .feed data) ∨ i = .finish ∨ ∃ len, i = .badarg len

/-! ## What holds between operations -/

/-- Every memory and table is in canonical form and inside its index range, and the sorted array has its 288 elements
(R60, R33, R34, R35; log 2, log 14). -/
def MemoriesOk (s : State) : Prop :=
  s.dict.wf Config.DICT_LEN = true ∧ s.head.wf Config.H = true ∧ s.prev.wf Config.W = true ∧
    s.lzBuf.wf Config.LZ_SIZE = true ∧ s.outBuf.wf Config.OUT_SIZE = true ∧
    s.litFreq.wf 288 = true ∧ s.distFreq.wf 32 = true ∧ s.clFreq.wf 19 = true ∧
    s.llLen.wf 288 = true ∧ s.llCode.wf 288 = true ∧ s.dLen.wf 32 = true ∧ s.dCode.wf 32 = true ∧
    s.clLen.wf 19 = true ∧ s.clCode.wf 19 = true ∧ s.syms.length = 288

/-- The mirror relation of `dict` (R62). -/
def MirrorOk (s : State) : Prop := ∀ j, j < Config.L - 1 → s.dict.get? (Config.W + j) = s.dict.get? j

/-- Both halves of `adler` are reduced (R23). -/
def AdlerOk (s : State) : Prop :=
  (s.adler.extractLsb' 0 16).toNat < Config.ADLER_MOD ∧ (s.adler.extractLsb' 16 16).toNat < Config.ADLER_MOD

/-- The cursors of the dictionary and the saved match (R38, R207, R209). -/
def ParserOk (s : State) : Prop :=
  s.lookaheadSize.toNat ≤ Config.L - 1 ∧ s.dictSize.toNat ≤ Config.W ∧
    (s.savedMatchLen = 0#9 ∨
      (Config.M ≤ s.savedMatchLen.toNat ∧ s.savedMatchLen.toNat < Config.LONG_COMMIT ∧
        1 ≤ s.savedMatchDist.toNat ∧ s.savedMatchDist.toNat ≤ Config.W ∧
        2 ≤ s.lookaheadSize.toNat ∧ s.savedMatchLen.toNat - 1 ≤ s.lookaheadSize.toNat))

/-- The cursors of the LZ code buffer (R30, R38, R225). -/
def LzOk (s : State) : Prop :=
  1 ≤ s.lzPos.toNat ∧ s.lzPos.toNat ≤ Config.LZ_SIZE - 4 ∧ s.lzFlagsPos.toNat < s.lzPos.toNat ∧
    1 ≤ s.flagsLeft.toNat ∧ s.flagsLeft.toNat ≤ 8

/-- The bit accumulator and the staging buffer (R31, R32, R38, R140). -/
def BitsOk (s : State) : Prop :=
  s.bitsIn.toNat ≤ 7 ∧ s.bitBuffer.toNat < 2 ^ s.bitsIn.toNat ∧ s.outPos.toNat < Config.OUT_SIZE

/-- What holds after every command (R38). -/
def SessionOk (s : State) : Prop :=
  s.sequencer = [] ∧ 1 ≤ s.maxProbes.toNat ∧ AdlerOk s ∧ ParserOk s ∧ LzOk s ∧ BitsOk s

/-- A session is open and has not failed (R319). -/
def OpenSession (s : State) : Prop := s.closed = false ∧ s.failed = false

/-! ## The input stream behind the dictionary -/

/-- The bytes fed since `INIT` are `fed`: the cursors stand where so many bytes put them, and `dict` holds the last
32768 of them, each in its slot and, for the first 257 slots, in the mirror too (R25, R38, R62, R162). -/
def HistoryOk (fed : List Byte) (s : State) : Prop :=
  s.lookaheadSize.toNat ≤ fed.length ∧
    s.lookaheadPos.toNat = (fed.length - s.lookaheadSize.toNat) % Config.W ∧
    s.dictSize.toNat = min (fed.length - s.lookaheadSize.toNat) Config.W ∧
    ∀ k, k < fed.length → fed.length - k ≤ Config.W →
      some (s.dictByte (k % Config.W)) = fed[k]? ∧
        (k % Config.W < Config.L - 1 → some (s.dictByte (Config.W + k % Config.W)) = fed[k]?)

/-- What R38 says of the dictionary after the bytes `fed`: the counts add up, the lookahead bytes read with and without
wrap, and the history bytes. -/
def WindowReads (fed : List Byte) (s : State) : Prop :=
  let parsed := fed.length - s.lookaheadSize.toNat
  (fed.length < Config.W → s.dictSize.toNat + s.lookaheadSize.toNat = fed.length) ∧
    (∀ j, j < s.lookaheadSize.toNat →
      some (s.dictByte ((s.lookaheadPos.toNat + j) % Config.W)) = fed[parsed + j]? ∧
        some (s.dictByte (s.lookaheadPos.toNat + j)) = fed[parsed + j]?) ∧
    ∀ d, 1 ≤ d → d ≤ s.dictSize.toNat → d ≤ Config.W - s.lookaheadSize.toNat →
      some (s.dictByte ((s.lookaheadPos.toNat + Config.W - d) % Config.W)) = fed[parsed - d]?

/-! ## The output stream as bits -/

/-- The `n` low bits of `v`, bit 0 first (R140). -/
def bitsOf (n v : Nat) : List Bool := (List.range n).map v.testBit

/-- The bits of bytes, bit 0 of each first (R64). -/
def bytesBits (bs : List Byte) : List Bool := bs.flatMap fun b => bitsOf 8 b.toNat

/-- The bits of fields given as (value, width), in order. -/
def fieldBits (fields : List (Nat × Nat)) : List Bool := fields.flatMap fun f => bitsOf f.2 f.1

/-- The number of bits of the fields. -/
def fieldWidth (fields : List (Nat × Nat)) : Nat := (fields.map fun f => f.2).sum

/-- Every field meets the precondition of `PUT_BITS` (R140, R293). -/
def FieldsOk (fields : List (Nat × Nat)) : Prop := ∀ f ∈ fields, f.2 ≤ Config.PUT_MAX ∧ f.1 < 2 ^ f.2

/-- Every bit of output so far: handed to the sink, staged, or still in the accumulator (R37, R140, R142). -/
def streamBits (s : State) : List Bool :=
  (s.sinkLog.flatMap fun c => bytesBits c.bytes) ++ bytesBits (stagedBytes s s.outPos.toNat) ++
    bitsOf s.bitsIn.toNat s.bitBuffer.toNat

/-- `t` differs from `s` at most in the BitSink, the staging buffer, `failed` and the sink port (R144). -/
def OnlySinkChanged (s t : State) : Prop :=
  t = { s with
    bitBuffer := t.bitBuffer
    bitsIn := t.bitsIn
    outBuf := t.outBuf
    outPos := t.outPos
    failed := t.failed
    sinkLog := t.sinkLog
    sinkAnswers := t.sinkAnswers
    sinkDraws := t.sinkDraws }

/-- `n` bytes were staged from `s` to `t`: every other index of `out_buf` reads as before (R141). -/
def OnlyStaged (n : Nat) (s t : State) : Prop :=
  ∀ i, (∀ j, j < n → i ≠ (s.outPos.toNat + j) % Config.OUT_SIZE) → t.outBufByte i = s.outBufByte i

/-- The calls made on the sink port from `s` to `t`: each carries 4096 bytes, none follows a rejected one, and
`failed` says whether one was rejected (R97, R141, R144). -/
def FullBuffersPut (s t : State) : Prop :=
  ∃ calls, t.sinkLog = s.sinkLog ++ calls ∧ (∀ c ∈ calls, c.bytes.length = Config.OUT_SIZE) ∧
    (∀ c ∈ calls.dropLast, c.accepted = true) ∧ (t.failed = true ↔ ∃ c ∈ calls, c.accepted = false)

/-- From `s` to `t`, the fields were appended to the output stream and nothing else happened (R110, R140). After a
rejection the stream is not continued (R144). -/
def Emits (fields : List (Nat × Nat)) (s t : State) : Prop :=
  OnlySinkChanged s t ∧ BitsOk t ∧
    (t.failed = false →
      streamBits t = streamBits s ++ fieldBits fields ∧
        t.bitsIn.toNat = (s.bitsIn.toNat + fieldWidth fields) % 8 ∧
        t.outPos.toNat = (s.outPos.toNat + (s.bitsIn.toNat + fieldWidth fields) / 8) % Config.OUT_SIZE) ∧
    FullBuffersPut s t ∧ OnlyStaged ((s.bitsIn.toNat + fieldWidth fields) / 8) s t

/-! ## One recorded token -/

/-- Whether a token of `k` bytes can be recorded without a block emission: 4 bytes are still free after it and after
the flag byte slot it may open (R224, R225). -/
def RoomFor (k : Nat) (s : State) : Prop :=
  LzOk s ∧ s.lzPos.toNat + k + (if s.flagsLeft = 1#4 then 1 else 0) ≤ Config.LZ_SIZE - 4

/-- From `s` to `t`, `LZ_AFTER_RECORD` did its work on a token whose bytes end below index `stop`, without a block
emission (R224). -/
def FlagEntered (stop : Nat) (isMatch : Bool) (s t : State) : Prop :=
  t.lzPos.toNat = (if s.flagsLeft = 1#4 then stop + 1 else stop) ∧
    t.lzFlagsPos.toNat = (if s.flagsLeft = 1#4 then stop else s.lzFlagsPos.toNat) ∧
    t.flagsLeft.toNat = (if s.flagsLeft = 1#4 then 8 else s.flagsLeft.toNat - 1) ∧
    t.lzByte s.lzFlagsPos.toNat = (s.lzByte s.lzFlagsPos.toNat >>> 1) ||| (if isMatch then 0x80#8 else 0#8) ∧
    (s.flagsLeft = 1#4 → t.lzByte stop = 0#8)

/-- From `s` to `t`, one token was recorded in `lz_buf` without a block emission (R222 to R224). -/
def Recorded (bytes : List Byte) (isMatch : Bool) (s t : State) : Prop :=
  FlagEntered (s.lzPos.toNat + bytes.length) isMatch s t ∧
    (∀ j, j < bytes.length → some (t.lzByte (s.lzPos.toNat + j)) = bytes[j]?) ∧
    ∀ i, i ≠ s.lzFlagsPos.toNat → (i < s.lzPos.toNat ∨ t.lzPos.toNat ≤ i) → t.lzByte i = s.lzByte i

/-- `t` differs from `s` at most in `lz_buf` and its cursors. -/
def OnlyLzChanged (s t : State) : Prop :=
  t = { s with lzBuf := t.lzBuf, lzPos := t.lzPos, lzFlagsPos := t.lzFlagsPos, flagsLeft := t.flagsLeft }

/-- `t` differs from `s` at most in `lz_buf` and its cursors, the dictionary cursors and the saved match. -/
def OnlyParserChanged (s t : State) : Prop :=
  t = { s with
    lzBuf := t.lzBuf
    lzPos := t.lzPos
    lzFlagsPos := t.lzFlagsPos
    flagsLeft := t.flagsLeft
    lookaheadPos := t.lookaheadPos
    lookaheadSize := t.lookaheadSize
    dictSize := t.dictSize
    savedLit := t.savedLit
    savedMatchDist := t.savedMatchDist
    savedMatchLen := t.savedMatchLen }

/-- `t` differs from `s` at most in what `FLUSH_BLOCK` writes: `lz_buf` and its cursors, the BitSink and the sink port,
the three tables and the builder's scratch (R270). -/
def OnlyBlockChanged (s t : State) : Prop :=
  t = { s with
    lzBuf := t.lzBuf
    lzPos := t.lzPos
    lzFlagsPos := t.lzFlagsPos
    flagsLeft := t.flagsLeft
    bitBuffer := t.bitBuffer
    bitsIn := t.bitsIn
    outBuf := t.outBuf
    outPos := t.outPos
    failed := t.failed
    sinkLog := t.sinkLog
    sinkAnswers := t.sinkAnswers
    sinkDraws := t.sinkDraws
    litFreq := t.litFreq
    distFreq := t.distFreq
    clFreq := t.clFreq
    llLen := t.llLen
    llCode := t.llCode
    dLen := t.dLen
    dCode := t.dCode
    clLen := t.clLen
    clCode := t.clCode
    syms := t.syms
    numCodes := t.numCodes
    nextCode := t.nextCode
    packed := t.packed }

/-- The registers and memories that no input byte changes: those only `INIT`, hardware reset, the host or an internal
operation issued singly writes, `closed` and the returned bits among them. -/
def SameSettings (s t : State) : Prop :=
  t.maxProbes = s.maxProbes ∧ t.greedy = s.greedy ∧ t.nondet = s.nondet ∧ t.zlib = s.zlib ∧ t.params = s.params ∧
    t.hostIn = s.hostIn ∧ t.resets = s.resets ∧ t.sequencer = s.sequencer ∧ t.opResult = s.opResult

/-- The bytes of `lz_buf` and its cursors are the same in both states. -/
def SameLz (s t : State) : Prop :=
  t.lzPos = s.lzPos ∧ t.lzFlagsPos = s.lzFlagsPos ∧ t.flagsLeft = s.flagsLeft ∧ ∀ i, t.lzByte i = s.lzByte i

/-- The parser advanced over `adv` bytes (R215). -/
def Advanced (adv : Nat) (s t : State) : Prop :=
  t.lookaheadPos.toNat = (s.lookaheadPos.toNat + adv) % Config.W ∧
    t.lookaheadSize.toNat = s.lookaheadSize.toNat - adv ∧
    t.dictSize.toNat = min (s.dictSize.toNat + adv) Config.W

/-- The saved match of `t` (R29). -/
def Saved (lit : Byte) (dist len : Nat) (t : State) : Prop :=
  t.savedLit = lit ∧ t.savedMatchDist.toNat = dist ∧ t.savedMatchLen.toNat = len

/-! ## The token stream -/

/-- The bytes of one token (R102, R103). -/
def tokenBytes : Token → List Byte
  | .literal v => [v]
  | .copy l d => [BitVec.ofNat 8 (l - 3), BitVec.ofNat 8 ((d - 1) % 256), BitVec.ofNat 8 ((d - 1) / 256)]

/-- The flag byte of a group, bit `k` for its token `k` (R100, R101). -/
def groupFlag : List Token → Nat
  | [] => 0
  | .literal _ :: rest => 2 * groupFlag rest
  | .copy _ _ :: rest => 1 + 2 * groupFlag rest

/-- At most `groups` groups of up to 8 tokens, each led by its flag byte (R100). -/
def tokenGroups : (groups : Nat) → List Token → List Byte
  | 0, _ => []
  | _ + 1, [] => []
  | k + 1, x :: rest =>
    BitVec.ofNat 8 (groupFlag ((x :: rest).take 8)) :: ((x :: rest).take 8).flatMap tokenBytes ++
      tokenGroups k ((x :: rest).drop 8)

/-- The LZ token stream of a token list (R100 to R103). -/
def tokenStream (ts : List Token) : List Byte := tokenGroups ts.length ts

/-- A token within the ranges of the format (R104). -/
def tokenInRange : Token → Prop
  | .literal _ => True
  | .copy l d => Config.M ≤ l ∧ l ≤ Config.L ∧ 1 ≤ d ∧ d ≤ Config.W

/-- The LZ code buffer holds the tokens `ts`: the cursors stand behind their stream, the flag byte of the open group
is still to be moved down (R101, R220 to R224, R271). -/
def HoldsTokens (ts : List Token) (s : State) : Prop :=
  (∀ x ∈ ts, tokenInRange x) ∧ s.flagsLeft.toNat = 8 - ts.length % 8 ∧
    s.lzFlagsPos.toNat = (tokenStream (ts.take (8 * (ts.length / 8)))).length ∧
    s.lzPos.toNat = (tokenStream ts).length + (if ts.length % 8 = 0 then 1 else 0) ∧
    ∀ j, j < (tokenStream ts).length →
      some (if j = s.lzFlagsPos.toNat then s.lzByte j >>> s.flagsLeft.toNat else s.lzByte j) = (tokenStream ts)[j]?

/-- `count` bytes copied one after the other from `dist` bytes back. -/
def copyBytes (dist : Nat) : (count : Nat) → List Byte → List Byte
  | 0, out => out
  | k + 1, out => copyBytes dist k (out ++ [out.getD (out.length - dist) 0#8])

/-- What a decoder makes of one token after the bytes `out`. -/
def expandToken (out : List Byte) : Token → List Byte
  | .literal v => out ++ [v]
  | .copy l d => copyBytes d l out

/-- The bytes a token list stands for (R216). -/
def expand (ts : List Token) : List Byte := ts.foldl expandToken []

/-- Every match reaches back at most to the first byte of the stream, and at most 32767 bytes (R216). -/
def DistancesOk (ts : List Token) : Prop :=
  ∀ earlier l d later, ts = earlier ++ .copy l d :: later → 1 ≤ d ∧ d ≤ (expand earlier).length ∧ d ≤ Config.W - 1

/-- The tokens `ts` of a session cover the parsed part of the bytes `fed` exactly once; in `Deferred` the byte before
the parse point is covered by the saved literal, or by the saved match with the bytes after it (R208 to R210, R216). -/
def Covered (fed : List Byte) (ts : List Token) (s : State) : Prop :=
  let parsed := fed.length - s.lookaheadSize.toNat
  HistoryOk fed s ∧ DistancesOk ts ∧
    if s.savedMatchLen = 0#9 then expand ts = fed.take parsed
    else
      let withMatch := ts ++ [.copy s.savedMatchLen.toNat s.savedMatchDist.toNat]
      1 ≤ parsed ∧ expand ts = fed.take (parsed - 1) ∧ some s.savedLit = fed[parsed - 1]? ∧
        expand withMatch = fed.take (parsed - 1 + s.savedMatchLen.toNat) ∧ DistancesOk withMatch

/-! ## The hash chains -/

/-- The `k`-th position on the chain that starts at `pos`: `pos` itself, then one link of `prev` after the other
(R182, R183). -/
def chainLink (s : State) (pos : Nat) : Nat → Nat
  | 0 => pos
  | k + 1 => (s.prevEntry (chainLink s pos k)).toNat

/-- How far the `k`-th position on the chain is from `pos` (R186). -/
def chainDist (s : State) (pos k : Nat) : Nat := (pos + Config.W - chainLink s pos k) % Config.W

/-- The candidate behind link `k` is a window index, near enough and farther than the one before (R184, R185). -/
def Qualified (s : State) (pos maxDist k : Nat) : Prop :=
  chainLink s pos (k + 1) < Config.W ∧ chainDist s pos (k + 1) ≤ maxDist ∧ chainDist s pos k < chainDist s pos (k + 1)

/-- The first `n` bytes of the candidate behind link `k` agree with those at `pos` (R188). -/
def Agrees (s : State) (pos k n : Nat) : Prop :=
  ∀ i, i < n → s.dictByte (chainLink s pos (k + 1) + i) = s.dictByte (pos + i)

/-! ## Code tables -/

/-- The keys `HUFF_DEPTHS` is given for an alphabet: its nonzero frequencies, ascending (R241, R242). -/
def sortedKeys (s : State) (x : HuffTable) : List Nat :=
  (sortByKey (collect (s.freqTable x) (tableSymbols x))).map fun p => p.key.toNat

/-- The depths the machine's algorithm gives to these keys (R10, R246). -/
def chosenDepths (s : State) (keys : List Nat) : List Nat :=
  match s.params.depths with
  | .moffatKatajainen => moffatKatajainen keys
  | .substitute => Config.substituteDepths keys

/-- The depths of an alphabet are such as R258 allows. -/
def LegalDepths (s : State) (x : HuffTable) : Prop :=
  depthsLegal (sortedKeys s x).length (chosenDepths s (sortedKeys s x)) = true

/-- How many of the symbols below `n` have length `l`. -/
def lengthCount (len : Nat → Nat) (n l : Nat) : Nat := ((List.range n).filter fun i => decide (len i = l)).length

/-- The canonical code of the first symbol of length `l` among `n` symbols (R251). -/
def firstOfLength (len : Nat → Nat) (n : Nat) : (l : Nat) → Nat
  | 0 => 0
  | l + 1 => 2 * (firstOfLength len n l + if l = 0 then 0 else lengthCount len n l)

/-- The canonical code of symbol `i`: equal lengths in symbol order (R251). -/
def canonicalCode (len : Nat → Nat) (n i : Nat) : Nat := firstOfLength len n (len i) + lengthCount len i (len i)

/-- The three tables of a block with the tokens `ts` have depths such as R258 allows: each alphabet's where its table
is built (R272 to R279). -/
def BlockTablesLegal (ts : List Token) (s : State) : Prop :=
  ∀ counts, tallyTokens ts (Mem.filled 0#16) (Mem.filled 0#16) = .ok counts →
    let tallied := s.setFreqs (countSymbol counts.1 256) counts.2
    LegalDepths tallied .litLen ∧ LegalDepths tallied .dist ∧
      ∀ a b, exec (.optimize .litLen) tallied = .next a → exec (.optimize .dist) a = .next b →
        LegalDepths (b.setPacked (rlePack (codeLengthSeq b)) (packedFreq (rlePack (codeLengthSeq b)))) .codeLen

/-- The fields of one token, from the code tables of `t` and the symbols LEN_SYM and DIST_SYM give (R284 to R286). -/
def tokenWire (t : State) : Token → List (Nat × Nat)
  | .literal v => [(t.llCode.entry v.toNat, t.llLen.entry v.toNat)]
  | .copy l d =>
    match exec (.lenSym (BitVec.ofNat 9 l)) t, exec (.distSym (BitVec.ofNat 16 d)) t with
    | .next a, .next b =>
      match a.opResult, b.opResult with
      | .symbol ls le lbase, .symbol ds de dbase =>
        [(t.llCode.entry ls, t.llLen.entry ls), (l - lbase, le), (t.dCode.entry ds, t.dLen.entry ds), (d - dbase, de)]
      | _, _ => []
    | _, _ => []

/-- The count a block sends for an alphabet: the least from `least` on, at most `most`, beyond which every code length
is 0 (R275, R276, R280). -/
def SentCount (len : Nat → Nat) (least most n : Nat) : Prop :=
  least ≤ n ∧ n ≤ most ∧ (∀ i, n ≤ i → i < most → len i = 0) ∧ (n = least ∨ len (n - 1) ≠ 0)

/-- The fields of a block in the order of R110, from the tables of `t` and the tokens `ts`. -/
def blockWire (last : Bool) (hlit hdist hclen : Nat) (ts : List Token) (t : State) : List (Nat × Nat) :=
  [(if last then 1 else 0, 1), (2, 2), (hlit - 257, 5), (hdist - 1, 5), (hclen - 4, 4)] ++
    (List.range hclen).map (fun i => (t.clLen.entry (swizzleAt i), 3)) ++
    t.packed.flatMap (fun p => [(t.clCode.entry p.sym, t.clLen.entry p.sym), (p.extra, p.extraBits)]) ++
    ts.flatMap (tokenWire t) ++ [(t.llCode.entry 256, t.llLen.entry 256)]

/-! ## The wire symbols by number (R113, R289, R290) -/

/-- The code-length symbols without an extra field. -/
def plainCodeLengthSymbols : List (Instr × Nat) :=
  [(.cl0, 0), (.cl1, 1), (.cl2, 2), (.cl3, 3), (.cl4, 4), (.cl5, 5), (.cl6, 6), (.cl7, 7), (.cl8, 8), (.cl9, 9),
    (.cl10, 10), (.cl11, 11), (.cl12, 12), (.cl13, 13), (.cl14, 14), (.cl15, 15)]

/-- The code-length symbols with an extra field: the instruction for extra value `x`, the symbol, the width. -/
def extraCodeLengthSymbols (x : Nat) : List (Instr × Nat × Nat) :=
  [(.cl16 (BitVec.ofNat 2 x), 16, 2), (.cl17 (BitVec.ofNat 3 x), 17, 3), (.cl18 (BitVec.ofNat 7 x), 18, 7)]

/-- The length symbols without an extra field. -/
def plainLengthSymbols : List (Instr × Nat) :=
  [(.len257, 257), (.len258, 258), (.len259, 259), (.len260, 260), (.len261, 261), (.len262, 262), (.len263, 263),
    (.len264, 264), (.len285, 285)]

/-- The length symbols with an extra field: the instruction for extra value `x`, the symbol, the width. -/
def extraLengthSymbols (x : Nat) : List (Instr × Nat × Nat) :=
  [(.len265 (BitVec.ofNat 1 x), 265, 1), (.len266 (BitVec.ofNat 1 x), 266, 1), (.len267 (BitVec.ofNat 1 x), 267, 1),
    (.len268 (BitVec.ofNat 1 x), 268, 1), (.len269 (BitVec.ofNat 2 x), 269, 2), (.len270 (BitVec.ofNat 2 x), 270, 2),
    (.len271 (BitVec.ofNat 2 x), 271, 2), (.len272 (BitVec.ofNat 2 x), 272, 2), (.len273 (BitVec.ofNat 3 x), 273, 3),
    (.len274 (BitVec.ofNat 3 x), 274, 3), (.len275 (BitVec.ofNat 3 x), 275, 3), (.len276 (BitVec.ofNat 3 x), 276, 3),
    (.len277 (BitVec.ofNat 4 x), 277, 4), (.len278 (BitVec.ofNat 4 x), 278, 4), (.len279 (BitVec.ofNat 4 x), 279, 4),
    (.len280 (BitVec.ofNat 4 x), 280, 4), (.len281 (BitVec.ofNat 5 x), 281, 5), (.len282 (BitVec.ofNat 5 x), 282, 5),
    (.len283 (BitVec.ofNat 5 x), 283, 5), (.len284 (BitVec.ofNat 5 x), 284, 5)]

/-- The distance symbols without an extra field. -/
def plainDistanceSymbols : List (Instr × Nat) := [(.dist0, 0), (.dist1, 1), (.dist2, 2), (.dist3, 3)]

/-- The distance symbols with an extra field: the instruction for extra value `x`, the symbol, the width. -/
def extraDistanceSymbols (x : Nat) : List (Instr × Nat × Nat) :=
  [(.dist4 (BitVec.ofNat 1 x), 4, 1), (.dist5 (BitVec.ofNat 1 x), 5, 1), (.dist6 (BitVec.ofNat 2 x), 6, 2),
    (.dist7 (BitVec.ofNat 2 x), 7, 2), (.dist8 (BitVec.ofNat 3 x), 8, 3), (.dist9 (BitVec.ofNat 3 x), 9, 3),
    (.dist10 (BitVec.ofNat 4 x), 10, 4), (.dist11 (BitVec.ofNat 4 x), 11, 4), (.dist12 (BitVec.ofNat 5 x), 12, 5),
    (.dist13 (BitVec.ofNat 5 x), 13, 5), (.dist14 (BitVec.ofNat 6 x), 14, 6), (.dist15 (BitVec.ofNat 6 x), 15, 6),
    (.dist16 (BitVec.ofNat 7 x), 16, 7), (.dist17 (BitVec.ofNat 7 x), 17, 7), (.dist18 (BitVec.ofNat 8 x), 18, 8),
    (.dist19 (BitVec.ofNat 8 x), 19, 8), (.dist20 (BitVec.ofNat 9 x), 20, 9), (.dist21 (BitVec.ofNat 9 x), 21, 9),
    (.dist22 (BitVec.ofNat 10 x), 22, 10), (.dist23 (BitVec.ofNat 10 x), 23, 10), (.dist24 (BitVec.ofNat 11 x), 24, 11),
    (.dist25 (BitVec.ofNat 11 x), 25, 11), (.dist26 (BitVec.ofNat 12 x), 26, 12), (.dist27 (BitVec.ofNat 12 x), 27, 12),
    (.dist28 (BitVec.ofNat 13 x), 28, 13), (.dist29 (BitVec.ofNat 13 x), 29, 13)]

/-- The 92 bits of the empty terminal block, in order of emission (R295). -/
def emptyBlockBits : List Bool :=
  fieldBits
    ([(1, 1), (2, 2), (0, 5), (0, 5), (14, 4), (0, 3), (0, 3), (1, 3), (2, 3)] ++ List.replicate 13 (0, 3) ++
      [(2, 3), (0, 1), (127, 7), (0, 1), (107, 7), (3, 2), (1, 2), (0, 1)])

/-- The condition under which a command word is refused (R94). -/
def ReservedWord (w : Word) : Prop :=
  w.extractLsb' 0 2 = 2#2 ∨ w.extractLsb' 0 2 = 3#2 ∨ w.getLsbD 3 = true ∨ w.extractLsb' 20 12 ≠ 0#12 ∨
    (w.extractLsb' 0 2 = 1#2 ∧ w.extractLsb' 4 16 ≠ 0#16)

/-- From `s` to `t`, one input byte entered the dictionary and its triplet the hash chains; the parser did not run
(R160 to R165, R318). -/
def ByteTaken (b : Byte) (s t : State) : Prop :=
  let q := (s.lookaheadPos.toNat + s.lookaheadSize.toNat) % Config.W
  let i := (q + Config.W - 2) % Config.W
  let h := hash3 (t.dictByte i) (t.dictByte (i + 1)) (t.dictByte (i + 2))
  t = { s with
      adler := t.adler
      lookaheadSize := t.lookaheadSize
      dict := t.dict
      head := t.head
      prev := t.prev } ∧
    t.adler = (adlerUpdate b s).adler ∧ t.lookaheadSize.toNat = s.lookaheadSize.toNat + 1 ∧
    (∀ j, t.dictByte j = if j = q ∨ (q < Config.L - 1 ∧ j = q + Config.W) then b else s.dictByte j) ∧
    if Config.M ≤ s.dictSize.toNat + s.lookaheadSize.toNat + 1 then
      (∀ j, t.prevEntry j = if j = i then s.headEntry h.toNat else s.prevEntry j) ∧
        ∀ j, t.headEntry j = if j = h.toNat then BitVec.ofNat 16 i else s.headEntry j
    else (∀ j, t.prevEntry j = s.prevEntry j) ∧ ∀ j, t.headEntry j = s.headEntry j

/-- The row of the transition table that `PARSE_STEP` performs when the finder yields `(d, l)` (R212). -/
def transitionRow (s : State) (d l : Nat) : Instr :=
  let least := if s.savedMatchLen = 0#9 then Config.M - 1 else s.savedMatchLen.toNat
  if least < l ∧ ¬(l = Config.M ∧ s.params.reject3Dist ≤ d) then
    if s.savedMatchLen = 0#9 then
      if s.greedy ∨ Config.LONG_COMMIT ≤ l then .idleCommit (BitVec.ofNat 16 d) (BitVec.ofNat 9 l)
      else .idleDefer (BitVec.ofNat 16 d) (BitVec.ofNat 9 l)
    else if Config.LONG_COMMIT ≤ l then .deferredLongerLong (BitVec.ofNat 16 d) (BitVec.ofNat 9 l)
    else .deferredLongerShort (BitVec.ofNat 16 d) (BitVec.ofNat 9 l)
  else if s.savedMatchLen = 0#9 then .idleLiteral
  else .deferredCommit

/-- What a packed list of code lengths stands for (R113): the lengths read back, `before` being those read so far
(last first). A repeat with nothing before it stands for zeros. -/
def unpackAfter : List PackedEntry → (before : List Nat) → List Nat
  | [], before => before.reverse
  | p :: rest, before =>
    if p.sym = 16 then unpackAfter rest (List.replicate (p.extra + 3) (before.headD 0) ++ before)
    else if p.sym = 17 then unpackAfter rest (List.replicate (p.extra + 3) 0 ++ before)
    else if p.sym = 18 then unpackAfter rest (List.replicate (p.extra + 11) 0 ++ before)
    else unpackAfter rest (p.sym :: before)

/-- The operation that records a token (R222, R223). -/
def recordToken : Token → Instr
  | .literal v => .recordLiteral v
  | .copy l d => .recordMatch (BitVec.ofNat 16 d) (BitVec.ofNat 9 l)

end Sys2Proof.Machine
end

