-- ==== Sys2Proof/Certificates/Slice0/Obligations.lean ====
section
/-! DEFINITION. The statements for the provers. Each docstring names the rules of spec/ a statement formalises. -/

open Sys2Proof Sys2Proof.Machine

/-! ## Encoding -/

/-- Words and bytes of 95_test_vectors.md 2.1 and 30_encoding.md R104, R119, R295 decode to what they stand for. -/
def Obligations.SpecWordsDecode : Prop :=
  decodeHost [.word 0x00010804#32] = .ok (.init true 0x1080#16, []) ∧
    decodeHost [.word 0x0004FFF4#32] = .ok (.init true 0x4FFF#16, []) ∧
    decodeHost [.word 0x00000800#32] = .ok (.init false 0x0080#16, []) ∧
    decodeHost [.word 0x00000005#32, .word 3#32, .byte 0x61#8, .byte 0x62#8, .byte 0x63#8] =
      .ok (.feed [0x61#8, 0x62#8, 0x63#8], []) ∧
    decodeHost [.word 0x00000001#32, .word 0#32] = .ok (.finish, []) ∧
    decodeHost [.word 0x00000001#32, .word 5#32] = .ok (.badarg 5#32, []) ∧
    decodeHost [.word 0x00100000#32] = .ok (.reservedHigh false false 0#16 1#12, []) ∧
    decodeHost [.word 0x00000015#32] = .ok (.reservedCdFlags true 1#16, []) ∧
    decodeToken true [0x07#8, 0x2B#8, 0x01#8] = some (.lzMatch 7#8 299#15) ∧
    decodeToken true [0xFF#8, 0xFF#8, 0x7F#8] = some (.lzMatch 255#8 32767#15) ∧
    decodeBlockHeader 0x1C005#17 = some (.blockHeader true 0#5 0#5 14#4) ∧
    decodeZlibHeader 0x78#8 0x01#8 = some .zlibHeader

/-- Decoding undoes encoding, for every well-formed instruction that has bits of its own (R90 to R95, R101 to R104,
R119, R281). -/
def Obligations.DecodeUndoesEncode : Prop :=
  ∀ i : Instr, i.wf = true → encode i ≠ .fromState → encode i ≠ .internal → decode (encode i) = some i

/-- A host command is read back from its words and bytes whatever follows them; nothing that follows is consumed
(R90 to R94). -/
def Obligations.HostCommandIsReadBack : Prop :=
  ∀ (i : Instr) (rest : List HostItem), i.wf = true → encode i = .host (encodeHost i) →
    decodeHost (encodeHost i ++ rest) = .ok (i, rest)

/-- What the decoder takes from the host port is a well-formed command and exactly its encoding: no word has two
readings and no bit of it is dropped (R90 to R94). -/
def Obligations.HostDecodingKeepsEveryBit : Prop :=
  ∀ (items rest : List HostItem) (i : Instr), decodeHost items = .ok (i, rest) →
    i.wf = true ∧ encode i = .host (encodeHost i) ∧ encodeHost i ++ rest = items

/-! ## The step -/

/-- A step runs the decoded command on the state from which its words are taken (R11, R12). An internal operation in
the model's own `sequencer` field goes first (log 5). -/
def Obligations.StepRunsTheDecodedCommand : Prop :=
  ∀ (s : State) (i : Instr),
    (∀ rest, s.sequencer = [] → decodeHost s.hostIn = .ok (i, rest) → step s = exec i { s with hostIn := rest }) ∧
    (∀ rest, s.sequencer = i :: rest → step s = exec i { s with sequencer := rest })

/-- Hardware reset, presented between commands or inside one, leaves the CORE closed and not failed, with every memory
entry drawn afresh; the host's items and both logs stay (R370, R371; log 1, log 2 and log 10 for the rest). Inside a
command the sink keeps the calls made until the reset strikes and no bit is returned; a `FEED` broken off between its
data bytes has made the calls of the bytes presented (R371, R383). With nothing presented the CORE waits (R355). -/
def Obligations.HardwareResetClosesTheSession : Prop :=
  ∀ (s : State), s.sequencer = [] →
    let resetWith := fun (rest : List HostItem) (calls : List PutCall) (t : State) =>
      t.closed = true ∧ t.failed = false ∧ t.hostIn = rest ∧ t.returns = s.returns ∧ t.sinkLog = calls ∧
        t.params = s.params ∧ SessionOk t ∧ MemoriesOk t ∧
        (∀ i, t.dictByte i = Config.powerOnByte .dict (s.resets + 1) i) ∧
        (∀ i, t.headEntry i = Config.powerOnEntry .head (s.resets + 1) i) ∧
        (∀ i, t.prevEntry i = Config.powerOnEntry .prev (s.resets + 1) i) ∧
        (∀ i, t.lzByte i = Config.powerOnByte .lzBuf (s.resets + 1) i) ∧
        ∀ i, t.outBufByte i = Config.powerOnByte .outBuf (s.resets + 1) i
    (s.hostIn = [] → step s = .next s) ∧
    (∀ rest, s.hostIn = .hardwareReset :: rest → ∃ t, step s = .next t ∧ resetWith rest s.sinkLog t) ∧
    (∀ puts items i rest u, s.hostIn = .resetDuring puts :: items → decodeHost items = .ok (i, rest) →
      exec i { s with hostIn := rest } = .next u →
      ∃ t, step s = .next t ∧ resetWith rest (s.sinkLog ++ (u.sinkLog.drop s.sinkLog.length).take puts) t) ∧
    ∀ (len : Word) (data : List Byte) rest u,
      s.hostIn = .word 0x00000005#32 :: .word len :: (data.map HostItem.byte ++ .hardwareReset :: rest) →
      data.length < len.toNat → exec (.feed data) { s with hostIn := rest } = .next u →
      ∃ t, step s = .next t ∧ resetWith rest u.sinkLog t

/-! ## The host commands -/

/-- The state of the CORE right after hardware reset is `CLOSED`, and no `COMPRESS_DATA` has an effect in it but the
returned bit (R39, R370). -/
def Obligations.ResetStateRefusesCompressData : Prop :=
  State.reset.closed = true ∧ State.reset.failed = false ∧
    ∀ i, isCompressData i → exec i State.reset = .next { State.reset with returns := [false] }

/-- `INIT` with a sink opens a session in every state (R310, R311, R313). -/
def Obligations.InitOpensASession : Prop :=
  ∀ (flags : BitVec 16) (s : State), ∃ t, exec (.init true flags) s = .next t ∧
    t = { s with
      maxProbes := t.maxProbes
      zlib := flags.getLsbD 12
      greedy := flags.getLsbD 14
      nondet := flags.getLsbD 15
      head := t.head
      lookaheadPos := 0#15
      lookaheadSize := 0#9
      dictSize := 0#16
      lzBuf := t.lzBuf
      lzPos := 1#16
      lzFlagsPos := 0#15
      flagsLeft := 8#4
      adler := 1#32
      savedLit := 0#8
      savedMatchDist := 0#16
      savedMatchLen := 0#9
      bitBuffer := 0#24
      bitsIn := 0#5
      outBuf := t.outBuf
      outPos := t.outPos
      failed := false
      closed := false
      returns := s.returns ++ [true] } ∧
    (s.params.probeMap = .direct → t.maxProbes.toNat = max 1 (flags.extractLsb' 0 12).toNat) ∧
    (s.params.probeMap = .divided → t.maxProbes.toNat = max 1 (((flags.extractLsb' 0 12).toNat + 2) / 3)) ∧
    (∀ i, t.headEntry i = if flags.getLsbD 15 then s.headEntry i else 0xFFFF#16) ∧
    (∀ i, t.lzByte i = if i = 0 then 0#8 else s.lzByte i) ∧
    t.outPos = (if flags.getLsbD 12 then 2#13 else 0#13) ∧
    ∀ i, t.outBufByte i =
      if flags.getLsbD 12 then (if i = 0 then 0x78#8 else if i = 1 then 0x01#8 else s.outBufByte i) else s.outBufByte i

/-- `INIT` without a sink closes and returns `false` (R342). -/
def Obligations.InitWithoutASinkCloses : Prop :=
  ∀ (flags : BitVec 16) (s : State),
    exec (.init false flags) s = .next { s with closed := true, returns := s.returns ++ [false] }

/-- Every form of `COMPRESS_DATA` on a closed session changes nothing and returns `false` (R344). -/
def Obligations.ClosedSessionRefusesCompressData : Prop :=
  ∀ (i : Instr) (s : State), isCompressData i → s.closed = true →
    exec i s = .next { s with returns := s.returns ++ [false] }

/-- Every form of `COMPRESS_DATA` on a failed session changes nothing and returns `false` (R345). -/
def Obligations.FailedSessionRefusesCompressData : Prop :=
  ∀ (i : Instr) (s : State), isCompressData i → s.closed = false → s.failed = true →
    exec i s = .next { s with returns := s.returns ++ [false] }

/-- `BADARG` on an open session latches `failed`, changes nothing else and returns `false`; every later `COMPRESS_DATA`
is answered with `false` and changes nothing (R343). -/
def Obligations.BadArgumentLatchesFailed : Prop :=
  ∀ (len : Word) (s : State), len ≠ 0#32 → OpenSession s →
    exec (.badarg len) s = .next { s with failed := true, returns := s.returns ++ [false] } ∧
    ∀ later : List Instr, (∀ i ∈ later, isCompressData i) →
      execAll (.badarg len :: later) s =
        .next { s with failed := true, returns := s.returns ++ List.replicate (later.length + 1) false }

/-- Each of the five kinds of reserved word returns `false` and changes nothing else; the step that takes such a word
consumes no further one (R94, R348). -/
def Obligations.ReservedWordsChangeNothing : Prop :=
  (∀ (rest : BitVec 30) (rest' : BitVec 28) (high : BitVec 12) (flags : BitVec 16) (op0 p : Bool) (s : State),
    exec (.reservedOp2 rest) s = .next { s with returns := s.returns ++ [false] } ∧
    exec (.reservedOp3 rest) s = .next { s with returns := s.returns ++ [false] } ∧
    exec (.reservedBit3 op0 p rest') s = .next { s with returns := s.returns ++ [false] } ∧
    exec (.reservedHigh op0 p flags high) s = .next { s with returns := s.returns ++ [false] } ∧
    exec (.reservedCdFlags p flags) s = .next { s with returns := s.returns ++ [false] }) ∧
  ∀ (s : State) (w : Word) (items : List HostItem), s.sequencer = [] → s.hostIn = .word w :: items → ReservedWord w →
    step s = .next { s with hostIn := items, returns := s.returns ++ [false] }

/-- Once a session is closed or failed, every later sequence of `COMPRESS_DATA` commands is answered with `false` and
reaches neither the sink nor any other state (R351, R352). -/
def Obligations.RefusedSessionStaysRefused : Prop :=
  ∀ (commands : List Instr) (s : State), (∀ i ∈ commands, isCompressData i) → (s.closed = true ∨ s.failed = true) →
    execAll commands s = .next { s with returns := s.returns ++ List.replicate commands.length false }

/-- What `FEED` and `FINISH` on an open session leave of the lifecycle, what they return, and what they do not touch
(R314 to R316, R319, R320); `FEED` takes every byte into the checksum, once and in order, whatever else it triggers
(R318). Between commands the dictionary reads as R38 says of the bytes fed so far: `FEED` adds its bytes to them,
`FINISH` adds none and leaves the lookahead empty. -/
def Obligations.CompressDataLifecycle : Prop :=
  ∀ (data : List Byte) (s t : State), OpenSession s →
    (exec (.feed data) s = .next t →
      SameSettings s t ∧ t.returns = s.returns ++ [!t.failed] ∧
        t.lifecycle = (if t.failed then .failed else .opened) ∧
        t.adler = (data.foldl (fun u b => adlerUpdate b u) s).adler ∧ FullBuffersPut s t ∧
        ∀ fed, SessionOk s → HistoryOk fed s → HistoryOk (fed ++ data) t ∧ WindowReads (fed ++ data) t) ∧
    (exec .finish s = .next t →
      SameSettings s t ∧ t.returns = s.returns ++ [!t.failed] ∧ t.lifecycle = .closed ∧
        t.adler = s.adler ∧ t.lookaheadSize = 0#9 ∧ t.outPos = 0#13 ∧
        (t.failed = false → t.bitsIn = 0#5) ∧ (∀ i, t.dictByte i = s.dictByte i) ∧ (∀ i, t.headEntry i = s.headEntry i) ∧
        (∃ calls, t.sinkLog = s.sinkLog ++ calls ∧
          (∀ c ∈ calls.dropLast, c.bytes.length = Config.OUT_SIZE ∧ c.accepted = true) ∧
          (t.failed = true ↔ ∃ c ∈ calls, c.accepted = false)) ∧
        ∀ fed, SessionOk s → HistoryOk fed s → HistoryOk fed t)

/-- `FEED` runs to its end, keeps what holds between commands and returns `true` wherever the LZ code buffer has room
for the tokens of its bytes: a byte triggers at most one parser transition, which stores at most 5 bytes (R38, R167,
R201, R225, R315). No precondition of R360 is violated on the way. -/
def Obligations.FeedCompletesWithRoom : Prop :=
  ∀ (data : List Byte) (s : State), SessionOk s → OpenSession s →
    s.lzPos.toNat + 5 * data.length ≤ Config.LZ_SIZE - 4 →
    ∃ t, exec (.feed data) s = .next t ∧ SessionOk t ∧ OpenSession t ∧ t.returns = s.returns ++ [true] ∧
      t.sinkLog = s.sinkLog ∧ streamBits t = streamBits s ∧ SameSettings s t ∧
      t.lookaheadSize.toNat ≤ s.lookaheadSize.toNat + data.length

/-- How input bytes are split over `FEED` commands changes nothing but the number of returned bits: a `FEED` of two
chunks together, when no `put` is rejected, is the `FEED` of the first, its returned bit taken away, and then the
`FEED` of the second (R322). -/
def Obligations.FeedIsChunkIndependent : Prop :=
  ∀ (first second : List Byte) (s t : State), OpenSession s → exec (.feed (first ++ second)) s = .next t →
    t.failed = false →
    ∃ u, exec (.feed first) s = .next u ∧ OpenSession u ∧ u.returns = s.returns ++ [true] ∧
      exec (.feed second) { u with returns := s.returns } = .next t

/-- `FINISH` on an open session that has nothing left to parse and no token recorded emits the empty terminal block,
the padding and, with zlib framing, the trailer, hands all of it to the sink, closes and answers by `failed`
(R295, R316, R317, R320). On a session with bytes and tokens left, where the buffer has room for the tokens of the
lookahead, it parses the whole lookahead and, where the three tables have depths such as R258 allows, emits the
terminal block of all the tokens, then the padding and the trailer, and closes likewise. -/
def Obligations.FinishOfAnEmptySession : Prop :=
  ∀ (s : State), SessionOk s → OpenSession s →
    let ending := fun (held : Nat) => List.replicate ((8 - held) % 8) false ++
      (if s.zlib then
        bytesBits [s.adler.extractLsb' 24 8, s.adler.extractLsb' 16 8, s.adler.extractLsb' 8 8, s.adler.extractLsb' 0 8]
      else [])
    let closes := fun (t : State) => exec .finish s = .next t ∧ t.closed = true ∧ t.returns = s.returns ++ [!t.failed] ∧
      SameSettings s t ∧ t.lzPos = 1#16 ∧ t.flagsLeft = 8#4 ∧ t.outPos = 0#13 ∧ (t.failed = false → t.bitsIn = 0#5)
    (s.params.depths = .moffatKatajainen → s.lookaheadSize = 0#9 → s.lzPos = 1#16 → s.flagsLeft = 8#4 →
      ∃ t, closes t ∧ (t.failed = false →
        streamBits t = streamBits s ++ emptyBlockBits ++ ending ((s.bitsIn.toNat + 92) % 8))) ∧
    ∀ held, HoldsTokens held s → s.lzPos.toNat + 5 * s.lookaheadSize.toNat ≤ Config.LZ_SIZE - 4 →
      ∃ (k : Nat) (u : State) (new : List Token), k ≤ s.lookaheadSize.toNat ∧
        execAll (List.replicate k .parseStep) s = .next u ∧ u.lookaheadSize = 0#9 ∧ HoldsTokens (held ++ new) u ∧
        (BlockTablesLegal (held ++ new) u →
          ∃ w t, exec (.flushBlock true) u = .next w ∧ closes t ∧
            (t.failed = false → streamBits t = streamBits w ++ ending w.bitsIn.toNat))

/-! ## Flags word, checksum, hash -/

/-- The five FLAG rows, each performed by itself. The spec gives the fields' effect inside `INIT` only (R95, R310, R311);
that a row by itself sets its register as `INIT` does, and that FLAG.NONDET with 0 clears `head`, is the model's choice
(DESIGN CHOICE, log 13). -/
def Obligations.FlagFieldsSetTheirRegisters : Prop :=
  ∀ (v : BitVec 12) (b : Bool) (s : State),
    (∃ t, exec (.flagProbes v) s = .next t ∧ t = { s with maxProbes := t.maxProbes } ∧
      (s.params.probeMap = .direct → t.maxProbes.toNat = max 1 v.toNat) ∧
      (s.params.probeMap = .divided → t.maxProbes.toNat = max 1 ((v.toNat + 2) / 3))) ∧
    exec (.flagZlib b) s = .next { s with zlib := b } ∧
    exec (.flagBit13 b) s = .next s ∧
    exec (.flagGreedy b) s = .next { s with greedy := b } ∧
    ∃ t, exec (.flagNondet b) s = .next t ∧ t = { s with nondet := b, head := t.head } ∧
      ∀ i, t.headEntry i = if b then s.headEntry i else 0xFFFF#16

/-- One byte enters the checksum (R318). -/
def Obligations.AdlerUpdateAddsOneByte : Prop :=
  ∀ (b : Byte) (s : State), ∃ t, exec (.adlerUpdate b) s = .next t ∧ t = { s with adler := t.adler } ∧
    (t.adler.extractLsb' 0 16).toNat = ((s.adler.extractLsb' 0 16).toNat + b.toNat) % 65521 ∧
    (t.adler.extractLsb' 16 16).toNat =
      ((s.adler.extractLsb' 16 16).toNat + ((s.adler.extractLsb' 0 16).toNat + b.toNat) % 65521) % 65521

/-- The rolling mix is one formula of the three bytes (R161). -/
def Obligations.HashOfATriplet : Prop :=
  ∀ (b0 b1 b2 : Byte) (s : State), exec (.hash3 b0 b1 b2) s =
    .next { s with opResult := .value (((b0.toNat <<< 8) ^^^ (b1.toNat <<< 4) ^^^ b2.toNat) &&& 0xFFF) }

/-! ## BitSink -/

/-- `PUT_BITS(value, n)` appends the `n` low bits of `value`, bit 0 first, to the output stream (R140); a field that is
too wide, or a value that does not fit its field, is a fault and not a value, on a failed session too (R360). -/
def Obligations.PutBitsAppendsToTheStream : Prop :=
  ∀ (value n : Nat) (s : State),
    (s.failed = false → BitsOk s → n ≤ 16 → value < 2 ^ n →
      ∃ t, exec (.putBits value n) s = .next t ∧ Emits [(value, n)] s t) ∧
    (16 < n ∨ 2 ^ n ≤ value → exec (.putBits value n) s = .fault (.putBitsOperand value n))

/-- `OUT_BYTE` stages one byte and drains when that fills the buffer (R141). -/
def Obligations.OutByteStagesAndDrains : Prop :=
  ∀ (b : Byte) (s : State), s.failed = false →
    (s.outPos.toNat < 4095 →
      ∃ t, exec (.outByte b) s = .next t ∧ t = { s with outBuf := t.outBuf, outPos := t.outPos } ∧
        t.outPos.toNat = s.outPos.toNat + 1 ∧ ∀ i, t.outBufByte i = if i = s.outPos.toNat then b else s.outBufByte i) ∧
    (s.outPos.toNat = 4095 →
      ∃ (t : State) (answer : Bool), exec (.outByte b) s = .next t ∧ OnlySinkChanged s t ∧ t.outPos = 0#13 ∧
        t.bitBuffer = s.bitBuffer ∧ t.bitsIn = s.bitsIn ∧
        t.sinkLog = s.sinkLog ++ [⟨stagedBytes s 4095 ++ [b], answer⟩] ∧ t.failed = (!answer) ∧
        ∀ i, t.outBufByte i = if i = 4095 then b else s.outBufByte i)

/-- `DRAIN` hands the staged bytes to the sink in one call, clears the buffer, and latches a rejection; with nothing
staged it makes no call (R142). The answer is a free draw of the environment (R146); that it is the head of the list
`sinkAnswers`, and where that is empty the opaque `Config.sinkAnswer` of the counter `sinkDraws`, which then advances,
is the model's choice (DESIGN CHOICE, log 3). -/
def Obligations.DrainHandsOverTheStagedBytes : Prop :=
  ∀ (s : State), s.failed = false →
    (s.outPos = 0#13 → exec .drain s = .next s) ∧
    (1 ≤ s.outPos.toNat → s.outPos.toNat ≤ 4096 →
      ∃ (t : State) (answer : Bool), exec .drain s = .next t ∧
        t = { s with
          outPos := 0#13
          failed := !answer
          sinkLog := s.sinkLog ++ [⟨stagedBytes s s.outPos.toNat, answer⟩]
          sinkAnswers := s.sinkAnswers.drop 1
          sinkDraws := t.sinkDraws } ∧
        (∀ a later, s.sinkAnswers = a :: later → answer = a ∧ t.sinkDraws = s.sinkDraws) ∧
        (s.sinkAnswers = [] → answer = Config.sinkAnswer s.sinkDraws ∧ t.sinkDraws = s.sinkDraws + 1))

/-- `ALIGN` pads with zero bits to a byte boundary and leaves nothing in the accumulator (R143). -/
def Obligations.AlignPadsToAByteBoundary : Prop :=
  ∀ (s : State), s.failed = false → BitsOk s →
    ∃ t, exec .align s = .next t ∧ OnlySinkChanged s t ∧ FullBuffersPut s t ∧ OnlyStaged 1 s t ∧
      (s.bitsIn = 0#5 → t = s) ∧
      (t.failed = false →
        t.bitsIn = 0#5 ∧ t.bitBuffer = 0#24 ∧
          streamBits t = streamBits s ++ List.replicate ((8 - s.bitsIn.toNat) % 8) false)

/-- One call on the sink port: the bytes in index order, the answer, a rejection latched (R97, R146). -/
def Obligations.SinkPutIsOneCall : Prop :=
  ∀ (length : BitVec 13) (s : State), 1 ≤ length.toNat → length.toNat ≤ 4096 → s.failed = false →
    ∃ (t : State) (answer : Bool), exec (.sinkPut length) s = .next t ∧
      t = { s with
        failed := !answer
        sinkLog := s.sinkLog ++ [⟨(List.range length.toNat).map s.outBufByte, answer⟩]
        sinkAnswers := s.sinkAnswers.drop 1
        sinkDraws := t.sinkDraws
        opResult := .flag answer } ∧
      (∀ a later, s.sinkAnswers = a :: later → answer = a ∧ t.sinkDraws = s.sinkDraws) ∧
      (s.sinkAnswers = [] → answer = Config.sinkAnswer s.sinkDraws ∧ t.sinkDraws = s.sinkDraws + 1)

/-- Once `failed` is set every write to the output within the precondition of `PUT_BITS` does nothing: no bit, no
staged byte, no call (R144; outside the precondition `PUT_BITS` is a fault, R360). The model's choices in it (DESIGN
CHOICE): what `put` and the wire rows do when performed by themselves (log 13), and that header counts of 30 and 31, an
extra value of 31 for symbol 284 and fewer than 4 code lengths are taken as any other operand (log 17). -/
def Obligations.FailedSessionWritesNothing : Prop :=
  ∀ (s : State), s.failed = true →
    (∀ value n, n ≤ 16 → value < 2 ^ n → exec (.putBits value n) s = .next s) ∧
    (∀ b, exec (.outByte b) s = .next s) ∧
    exec .drain s = .next s ∧ exec .align s = .next s ∧
    (∀ length : BitVec 13, 1 ≤ length.toNat → length.toNat ≤ 4096 → exec (.sinkPut length) s = .next s) ∧
    (∀ x, ∀ p ∈ extraLengthSymbols x, s.llCode.entry p.2.1 < 2 ^ s.llLen.entry p.2.1 → exec p.1 s = .next s) ∧
    (∀ x, ∀ p ∈ extraDistanceSymbols x, s.dCode.entry p.2.1 < 2 ^ s.dLen.entry p.2.1 → exec p.1 s = .next s) ∧
    (∀ x, ∀ p ∈ extraCodeLengthSymbols x, s.clCode.entry p.2.1 < 2 ^ s.clLen.entry p.2.1 → exec p.1 s = .next s) ∧
    (∀ p ∈ plainLengthSymbols, s.llCode.entry p.2 < 2 ^ s.llLen.entry p.2 → exec p.1 s = .next s) ∧
    (∀ p ∈ plainDistanceSymbols, s.dCode.entry p.2 < 2 ^ s.dLen.entry p.2 → exec p.1 s = .next s) ∧
    (∀ p ∈ plainCodeLengthSymbols, s.clCode.entry p.2 < 2 ^ s.clLen.entry p.2 → exec p.1 s = .next s) ∧
    (∀ v : Byte, s.llCode.entry v.toNat < 2 ^ s.llLen.entry v.toNat → exec (.llLiteral v) s = .next s) ∧
    (s.llCode.entry 256 < 2 ^ s.llLen.entry 256 → exec .llEob s = .next s) ∧ exec .zlibHeader s = .next s ∧
    exec .zlibTrailer s = .next s ∧
    (∀ n : BitVec 5, n.toNat ≤ 19 → (∀ k, k ≤ 18 → s.clLen.entry k < 8) → exec (.clLengths n) s = .next s) ∧
    ∀ bfinal hlit hdist hclen, exec (.blockHeader bfinal hlit hdist hclen) s = .next s

/-! ## Wire format -/

/-- The block header is five fields, 17 bits: `BFINAL`, `BTYPE` = 2, the three counts (R110, R281); the code lengths of
the code-length alphabet follow in swizzle order, 3 bits each (R112, R282). An `hclen` past the
19 entries of SWIZZLE is a fault (R360). Header counts outside R111 and an `hclen` below 4 are included as the model's
choice (DESIGN CHOICE, log 17). -/
def Obligations.BlockHeaderOnTheWire : Prop :=
  (∀ (n : BitVec 5) (s : State), 19 < n.toNat → exec (.clLengths n) s = .fault (.swizzleRange n.toNat)) ∧
  ∀ (s : State), s.failed = false → BitsOk s →
    (∀ (bfinal : Bool) (hlit hdist : BitVec 5) (hclen : BitVec 4),
      ∃ t, exec (.blockHeader bfinal hlit hdist hclen) s = .next t ∧
        Emits [(if bfinal then 1 else 0, 1), (2, 2), (hlit.toNat, 5), (hdist.toNat, 5), (hclen.toNat, 4)] s t) ∧
    ∀ n : BitVec 5, n.toNat ≤ 19 → (∀ k, k ≤ 18 → s.clLen.entry k < 8) →
      ∃ t, exec (.clLengths n) s = .next t ∧
        Emits (([16, 17, 18, 0, 8, 7, 9, 6, 10, 5, 11, 4, 12, 3, 13, 2, 14, 1, 15].take n.toNat).map
          fun k => (s.clLen.entry k, 3)) s t

/-- A packed entry goes out as the code of its symbol, then its extra field (R113, R283). -/
def Obligations.CodeLengthSymbolsOnTheWire : Prop :=
  ∀ (s : State), s.failed = false → BitsOk s →
    (∀ p ∈ plainCodeLengthSymbols, s.clCode.entry p.2 < 2 ^ s.clLen.entry p.2 →
      ∃ t, exec p.1 s = .next t ∧ Emits [(s.clCode.entry p.2, s.clLen.entry p.2)] s t) ∧
    ∀ x, ∀ p ∈ extraCodeLengthSymbols x, x < 2 ^ p.2.2 → s.clCode.entry p.2.1 < 2 ^ s.clLen.entry p.2.1 →
      ∃ t, exec p.1 s = .next t ∧ Emits [(s.clCode.entry p.2.1, s.clLen.entry p.2.1), (x, p.2.2)] s t

/-- A literal and the end of block go out as their codes (R114, R284, R287). -/
def Obligations.LiteralsAndEndOfBlockOnTheWire : Prop :=
  ∀ (v : Byte) (s : State), s.failed = false → BitsOk s →
    (s.llCode.entry v.toNat < 2 ^ s.llLen.entry v.toNat →
      ∃ t, exec (.llLiteral v) s = .next t ∧ Emits [(s.llCode.entry v.toNat, s.llLen.entry v.toNat)] s t) ∧
    (s.llCode.entry 256 < 2 ^ s.llLen.entry 256 →
      ∃ t, exec .llEob s = .next t ∧ Emits [(s.llCode.entry 256, s.llLen.entry 256)] s t)

/-- A match length goes out as the code of its symbol, then its extra bits (R115, R285). The extra value 31 of symbol
284, which stands for no match length (R289), goes out as any other: the model's choice (DESIGN CHOICE, log 17). -/
def Obligations.LengthSymbolsOnTheWire : Prop :=
  ∀ (s : State), s.failed = false → BitsOk s →
    (∀ p ∈ plainLengthSymbols, s.llCode.entry p.2 < 2 ^ s.llLen.entry p.2 →
      ∃ t, exec p.1 s = .next t ∧ Emits [(s.llCode.entry p.2, s.llLen.entry p.2)] s t) ∧
    ∀ x, ∀ p ∈ extraLengthSymbols x, x < 2 ^ p.2.2 → s.llCode.entry p.2.1 < 2 ^ s.llLen.entry p.2.1 →
      ∃ t, exec p.1 s = .next t ∧ Emits [(s.llCode.entry p.2.1, s.llLen.entry p.2.1), (x, p.2.2)] s t

/-- A match distance goes out as the code of its symbol, then its extra bits (R116, R286). -/
def Obligations.DistanceSymbolsOnTheWire : Prop :=
  ∀ (s : State), s.failed = false → BitsOk s →
    (∀ p ∈ plainDistanceSymbols, s.dCode.entry p.2 < 2 ^ s.dLen.entry p.2 →
      ∃ t, exec p.1 s = .next t ∧ Emits [(s.dCode.entry p.2, s.dLen.entry p.2)] s t) ∧
    ∀ x, ∀ p ∈ extraDistanceSymbols x, x < 2 ^ p.2.2 → s.dCode.entry p.2.1 < 2 ^ s.dLen.entry p.2.1 →
      ∃ t, exec p.1 s = .next t ∧ Emits [(s.dCode.entry p.2.1, s.dLen.entry p.2.1), (x, p.2.2)] s t

/-- The zlib header and trailer, with framing on; with framing off neither emits anything (R119, R120, R317). -/
def Obligations.ZlibFramingOnTheWire : Prop :=
  ∀ (s : State), s.failed = false → BitsOk s →
    (s.zlib = true →
      (∃ t, exec .zlibHeader s = .next t ∧ Emits [(0x78, 8), (0x01, 8)] s t) ∧
      ∃ t, exec .zlibTrailer s = .next t ∧
        Emits [(s.adler.toNat / 2 ^ 24, 8), (s.adler.toNat / 2 ^ 16 % 256, 8), (s.adler.toNat / 2 ^ 8 % 256, 8),
          (s.adler.toNat % 256, 8)] s t) ∧
    (s.zlib = false → exec .zlibHeader s = .next s ∧ exec .zlibTrailer s = .next s)

/-! ## Dictionary and match finder -/

/-- `FEED_BYTE` stores the byte and its mirror, updates the checksum and the lookahead, inserts the triplet that became
readable, and runs the parser exactly when the lookahead is full (R160, R162, R164, R165, R167). -/
def Obligations.FeedByteEntersTheDictionary : Prop :=
  ∀ (b : Byte) (s : State), s.lookaheadSize.toNat ≤ Config.L - 1 →
    ∃ u, ByteTaken b s u ∧
      (s.lookaheadSize.toNat < Config.L - 1 → exec (.feedByte b) s = .next u) ∧
      (s.lookaheadSize.toNat = Config.L - 1 → exec (.feedByte b) s = exec .parseStep u)

/-- `FIND_MATCH` within its contract completes, for every content of `dict`, `head` and `prev`. Where no longer match
is possible it returns the pair at once (R181). Else it visits the candidates of the chain one after the other as long
as they qualify and the probe budget lasts (R183 to R186), and yields the longest match among those visited that beats
the incoming length, the nearest among equals, and the incoming pair where there is none (R187 to R191). Where a
candidate stops the walk by its distance, the entry it was fetched from becomes the sentinel (R185); nothing else is
written. -/
def Obligations.FindMatchYieldsARealMatch : Prop :=
  ∀ (pos : BitVec 15) (maxDist : BitVec 16) (maxLen : BitVec 9) (matchDist : BitVec 16) (matchLen : BitVec 9) (s : State),
    maxLen.toNat ≤ Config.L → 2 ≤ matchLen.toNat →
    ∃ (t : State) (d l : Nat), exec (.findMatch pos maxDist maxLen matchDist matchLen) s = .next t ∧
      t = { s with prev := t.prev, opResult := .found d l } ∧
      (maxLen.toNat ≤ matchLen.toNat → t = { s with opResult := .found matchDist.toNat matchLen.toNat }) ∧
      (matchLen.toNat < maxLen.toNat →
        ∃ visited, visited ≤ s.maxProbes.toNat ∧
          (∀ k, k < visited → Qualified s pos.toNat maxDist.toNat k) ∧
          (∀ k n, k < visited → n ≤ maxLen.toNat → Agrees s pos.toNat k n → n ≤ l) ∧
          (d = matchDist.toNat ∧ l = matchLen.toNat ∨
            ∃ k, k < visited ∧ d = chainDist s pos.toNat (k + 1) ∧ 1 ≤ d ∧ d ≤ maxDist.toNat ∧
              matchLen.toNat < l ∧ l ≤ maxLen.toNat ∧ Agrees s pos.toNat k l ∧
              ∀ j, j < k → ¬ Agrees s pos.toNat j l) ∧
          if visited < s.maxProbes.toNat ∧ l < maxLen.toNat ∧ chainLink s pos.toNat (visited + 1) < Config.W then
            ¬ Qualified s pos.toNat maxDist.toNat visited ∧
              ∀ j, t.prevEntry j = if j = chainLink s pos.toNat visited then 0xFFFF#16 else s.prevEntry j
          else ∀ j, t.prevEntry j = s.prevEntry j)

/-! ## Parser -/

/-- The three transition rows from `Idle`, each performed by itself, where no block emission intervenes: what R205, R206,
R207 and R215 say the transition does. That a row acts without testing its condition again (that the state is `Idle`,
on which side of 64 the length is) is the model's choice (DESIGN CHOICE, log 13); the case with a block emission is
left to the statements on recording. -/
def Obligations.IdleTransitions : Prop :=
  ∀ (d : BitVec 16) (l : BitVec 9) (s : State), matchInRange d l = true →
    (1 ≤ s.lookaheadSize.toNat → RoomFor 1 s →
      ∃ t, exec .idleLiteral s = .next t ∧ OnlyParserChanged s t ∧ Advanced 1 s t ∧
        Recorded [s.dictByte s.lookaheadPos.toNat] false s t ∧
        Saved s.savedLit s.savedMatchDist.toNat s.savedMatchLen.toNat t) ∧
    (l.toNat ≤ s.lookaheadSize.toNat → RoomFor 3 s →
      ∃ t, exec (.idleCommit d l) s = .next t ∧ OnlyParserChanged s t ∧ Advanced l.toNat s t ∧
        Recorded (matchBytes d.toNat l.toNat) true s t ∧
        Saved s.savedLit s.savedMatchDist.toNat s.savedMatchLen.toNat t) ∧
    (1 ≤ s.lookaheadSize.toNat →
      ∃ t, exec (.idleDefer d l) s = .next t ∧ OnlyParserChanged s t ∧ Advanced 1 s t ∧ SameLz s t ∧
        Saved (s.dictByte s.lookaheadPos.toNat) d.toNat l.toNat t)

/-- The three transition rows from `Deferred`, each performed by itself, where no block emission intervenes: what R208,
R209, R210 and R215 say the transition does. That a row acts without testing its condition again (that the state is
`Deferred`, on which side of 64 the length is) is the model's choice (DESIGN CHOICE, log 13); the case with a block
emission is left to the statements on recording. -/
def Obligations.DeferredTransitions : Prop :=
  ∀ (d : BitVec 16) (l : BitVec 9) (s : State), matchInRange d l = true →
    (l.toNat ≤ s.lookaheadSize.toNat → LzOk s → s.lzPos.toNat + 5 ≤ Config.LZ_SIZE - 4 →
      ∃ u t, exec (.deferredLongerLong d l) s = .next t ∧ OnlyParserChanged s t ∧ Advanced l.toNat s t ∧
        Recorded [s.savedLit] false s u ∧ Recorded (matchBytes d.toNat l.toNat) true u t ∧
        Saved s.savedLit s.savedMatchDist.toNat 0 t) ∧
    (1 ≤ s.lookaheadSize.toNat → RoomFor 1 s →
      ∃ t, exec (.deferredLongerShort d l) s = .next t ∧ OnlyParserChanged s t ∧ Advanced 1 s t ∧
        Recorded [s.savedLit] false s t ∧ Saved (s.dictByte s.lookaheadPos.toNat) d.toNat l.toNat t) ∧
    (matchInRange s.savedMatchDist s.savedMatchLen = true → s.savedMatchLen.toNat - 1 ≤ s.lookaheadSize.toNat →
      RoomFor 3 s →
      ∃ t, exec .deferredCommit s = .next t ∧ OnlyParserChanged s t ∧ Advanced (s.savedMatchLen.toNat - 1) s t ∧
        Recorded (matchBytes s.savedMatchDist.toNat s.savedMatchLen.toNat) true s t ∧
        Saved s.savedLit s.savedMatchDist.toNat 0 t)

/-- A match still saved at the terminal flush is recorded and cleared; with none saved nothing happens. Between
commands none is saved once the lookahead is empty (R211). -/
def Obligations.SavedMatchFlushRecordsTheMatch : Prop :=
  ∀ (s : State),
    (matchInRange s.savedMatchDist s.savedMatchLen = true → RoomFor 3 s →
      ∃ t, exec .savedMatchFlush s = .next t ∧ OnlyParserChanged s t ∧
        Recorded (matchBytes s.savedMatchDist.toNat s.savedMatchLen.toNat) true s t ∧
        Saved s.savedLit s.savedMatchDist.toNat 0 t ∧ t.lookaheadPos = s.lookaheadPos ∧
        t.lookaheadSize = s.lookaheadSize ∧ t.dictSize = s.dictSize) ∧
    (s.savedMatchLen = 0#9 → exec .savedMatchFlush s = .next s) ∧
    (ParserOk s → s.lookaheadSize = 0#9 → s.savedMatchLen = 0#9)

/-- `PARSE_STEP` asks the finder with the bounds of R202 and R203 and performs the row of the transition table that the
finder's pair selects (R201 to R204, R212). -/
def Obligations.ParseStepFollowsTheTransitionTable : Prop :=
  ∀ (s : State), 1 ≤ s.lookaheadSize.toNat → s.lookaheadSize.toNat ≤ Config.L → s.dictSize.toNat ≤ Config.W →
    (s.savedMatchLen = 0#9 ∨ Config.M ≤ s.savedMatchLen.toNat) →
    ∃ (u : State) (d l : Nat),
      exec (.findMatch s.lookaheadPos (BitVec.ofNat 16 (min s.dictSize.toNat (Config.W - s.lookaheadSize.toNat)))
        s.lookaheadSize 0#16 (if s.savedMatchLen = 0#9 then 2#9 else s.savedMatchLen)) s = .next u ∧
      u.opResult = .found d l ∧
      exec .parseStep s = exec (transitionRow s d l) { u with opResult := s.opResult }

/-- `PARSE_STEP` completes wherever the LZ code buffer has room for its tokens: it consumes at least one byte, keeps
the cursors in range, and touches neither the output nor the tables (R38, R201, R215). Its tokens join those of the
buffer, and with them the tokens of the session still cover the parsed input exactly once, every match within the bytes
before it (R216). -/
def Obligations.ParseStepConsumesLookahead : Prop :=
  ∀ (s : State), 1 ≤ s.lookaheadSize.toNat → s.lookaheadSize.toNat ≤ Config.L → s.dictSize.toNat ≤ Config.W →
    (s.savedMatchLen = 0#9 ∨
      (Config.M ≤ s.savedMatchLen.toNat ∧ s.savedMatchLen.toNat < Config.LONG_COMMIT ∧
        1 ≤ s.savedMatchDist.toNat ∧ s.savedMatchDist.toNat ≤ Config.W ∧ 2 ≤ s.lookaheadSize.toNat ∧
        s.savedMatchLen.toNat - 1 ≤ s.lookaheadSize.toNat)) →
    LzOk s → s.lzPos.toNat + 5 ≤ Config.LZ_SIZE - 4 →
    ∃ (t : State) (adv : Nat), exec .parseStep s = .next t ∧ 1 ≤ adv ∧ adv ≤ s.lookaheadSize.toNat ∧ Advanced adv s t ∧
      ParserOk t ∧ LzOk t ∧ t.lzPos.toNat ≤ s.lzPos.toNat + 5 ∧ OnlyParserChanged { s with prev := t.prev } t ∧
      ∃ new : List Token, new.length ≤ 2 ∧ (∀ held, HoldsTokens held s → HoldsTokens (held ++ new) t) ∧
        ∀ fed earlier, Covered fed earlier s → Covered fed (earlier ++ new) t

/-! ## LZ code buffer -/

/-- `LZ_RESET` begins the buffer with an empty flag byte slot (R221). -/
def Obligations.LzResetEmptiesTheBuffer : Prop :=
  ∀ (s : State), ∃ t, exec .lzReset s = .next t ∧
    t = { s with lzBuf := t.lzBuf, lzPos := 1#16, lzFlagsPos := 0#15, flagsLeft := 8#4 } ∧
    ∀ i, t.lzByte i = if i = 0 then 0#8 else s.lzByte i

/-- `RECORD_LITERAL` stores the byte, enters its flag, rolls the group over when it is full, and emits a block when
fewer than 4 bytes are left free (R222, R224, R225). -/
def Obligations.RecordLiteralStoresOneByte : Prop :=
  ∀ (v : Byte) (s : State), LzOk s →
    ∃ u, Recorded [v] false s u ∧ OnlyLzChanged s u ∧
      (RoomFor 1 s → exec (.recordLiteral v) s = .next u) ∧
      (¬ RoomFor 1 s → exec (.recordLiteral v) s = exec (.flushBlock false) u)

/-- `RECORD_MATCH` stores three bytes, enters its flag, rolls the group over when it is full, and emits a block when
fewer than 4 bytes are left free (R103, R223, R224, R225). -/
def Obligations.RecordMatchStoresThreeBytes : Prop :=
  ∀ (d : BitVec 16) (l : BitVec 9) (s : State), LzOk s →
    (matchInRange d l = true →
      ∃ u, Recorded [BitVec.ofNat 8 (l.toNat - 3), BitVec.ofNat 8 ((d.toNat - 1) % 256), BitVec.ofNat 8 ((d.toNat - 1) / 256)]
          true s u ∧ OnlyLzChanged s u ∧
        (RoomFor 3 s → exec (.recordMatch d l) s = .next u) ∧
        (¬ RoomFor 3 s → exec (.recordMatch d l) s = exec (.flushBlock false) u)) ∧
    (matchInRange d l = false → exec (.recordMatch d l) s = .fault (.recordMatchOperand d.toNat l.toNat))

/-- `LZ_AFTER_RECORD` enters the flag by right-shift-and-set, opens a new slot when 8 tokens are there, and emits a
block when fewer than 4 bytes are left free (R224, R225). -/
def Obligations.LzAfterRecordEntersTheFlag : Prop :=
  ∀ (isMatch : Bool) (s : State), s.lzFlagsPos.toNat < s.lzPos.toNat → s.lzPos.toNat < Config.LZ_SIZE →
    1 ≤ s.flagsLeft.toNat → s.flagsLeft.toNat ≤ 8 →
    ∃ u, FlagEntered s.lzPos.toNat isMatch s u ∧ OnlyLzChanged s u ∧
      (∀ i, i ≠ s.lzFlagsPos.toNat → (i ≠ s.lzPos.toNat ∨ s.flagsLeft ≠ 1#4) → u.lzByte i = s.lzByte i) ∧
      let slot := if s.flagsLeft = 1#4 then 1 else 0
      (s.lzPos.toNat + slot ≤ Config.LZ_SIZE - 4 → exec (.lzAfterRecord isMatch) s = .next u) ∧
      (Config.LZ_SIZE - 4 < s.lzPos.toNat + slot → exec (.lzAfterRecord isMatch) s = exec (.flushBlock false) u)

/-- The three encoded forms of the LZ stream as they stand in `lz_buf` (R101, R102, R103; what a row does by itself is
the model's reading, log 13). -/
def Obligations.LzFormsStoreTheirBytes : Prop :=
  ∀ (f v : Byte) (lenMinus3 : Byte) (distMinus1 : BitVec 15) (s : State),
    (s.lzFlagsPos.toNat < Config.LZ_SIZE →
      ∃ t, exec (.lzFlag f) s = .next t ∧ t = { s with lzBuf := t.lzBuf } ∧
        ∀ i, t.lzByte i = if i = s.lzFlagsPos.toNat then f else s.lzByte i) ∧
    (s.lzPos.toNat < Config.LZ_SIZE →
      ∃ t, exec (.lzLiteral v) s = .next t ∧ t = { s with lzBuf := t.lzBuf, lzPos := s.lzPos + 1#16 } ∧
        ∀ i, t.lzByte i = if i = s.lzPos.toNat then v else s.lzByte i) ∧
    (s.lzPos.toNat + 3 ≤ Config.LZ_SIZE →
      ∃ t, exec (.lzMatch lenMinus3 distMinus1) s = .next t ∧ t = { s with lzBuf := t.lzBuf, lzPos := s.lzPos + 3#16 } ∧
        ∀ i, t.lzByte i =
          if i = s.lzPos.toNat then lenMinus3
          else if i = s.lzPos.toNat + 1 then distMinus1.extractLsb' 0 8
          else if i = s.lzPos.toNat + 2 then 0#1 ++ distMinus1.extractLsb' 8 7
          else s.lzByte i)

/-! ## Block encoder -/

/-- The token walk over a stream that ends inside the buffer completes and changes nothing but the operation's result;
over the stream of any tokens within the ranges, up to the last index of the buffer, it yields those tokens
(R100 to R104, R272). -/
def Obligations.TokenWalkCompletes : Prop :=
  ∀ (stop : BitVec 16) (s : State),
    (stop.toNat ≤ Config.LZ_SIZE - 2 →
      ∃ ts, exec (.tokens stop) s = .next { s with opResult := .tokens ts } ∧ ts.length ≤ stop.toNat) ∧
    ∀ ts, (∀ x ∈ ts, tokenInRange x) → stop.toNat = (tokenStream ts).length → stop.toNat ≤ Config.LZ_SIZE →
      (∀ j, j < stop.toNat → some (s.lzByte j) = (tokenStream ts)[j]?) →
      exec (.tokens stop) s = .next { s with opResult := .tokens ts }

/-- What was recorded is what the token walk of the flush reads: any tokens that leave room, recorded into an empty
buffer, come back in order (R100 to R104, R222 to R224, R226, R271, R272). -/
def Obligations.RecordedTokensAreReadBack : Prop :=
  ∀ (ts : List Token) (s : State), (∀ x ∈ ts, tokenInRange x) →
    1 + ts.length + 2 * (ts.filter fun x => match x with
      | .literal _ => false
      | .copy _ _ => true).length + ts.length / 8 ≤ Config.LZ_SIZE - 4 →
    ∃ t u stop, execAll (.lzReset :: ts.map recordToken) s = .next t ∧ OnlyLzChanged s t ∧
      t.lzPos.toNat = 1 + ts.length + 2 * (ts.filter fun x => match x with
        | .literal _ => false
        | .copy _ _ => true).length + ts.length / 8 ∧
      closeTokenStream t = .ok (u, stop) ∧
      exec (.tokens (BitVec.ofNat 16 stop)) u = .next { u with opResult := .tokens ts }

/-- Run-length packing loses nothing: the packed entries read back as the sequence, each with a symbol of the
code-length alphabet and an extra value that fits its field, and none of them repeats a value before there is one
(R113, R122, R278). A list that does
not fit the 320 entries of `packed` is a fault (R35, R360); no sequence of up to 320 entries has such a list. That a
sequence outside the 258 to 316 entries of R277 is packed where its list fits is the model's choice (DESIGN CHOICE,
log 17). -/
def Obligations.RunLengthPackingReadsBack : Prop :=
  ∀ (seq : List (BitVec 4)) (s : State),
    let entries := (rlePack (seq.map fun c => c.toNat)).length
    (seq.length ≤ 320 → entries ≤ 320) ∧
    (320 < entries → exec (.rlePack seq) s = .fault (.packedRange entries)) ∧
    (entries ≤ 320 → ∃ t, exec (.rlePack seq) s = .next t ∧ t = { s with packed := t.packed } ∧
      unpackAfter t.packed [] = seq.map (fun c => c.toNat) ∧
      (∀ p ∈ t.packed, p.sym ≤ 18 ∧ p.extra < 2 ^ p.extraBits ∧
        p.extraBits = (if p.sym = 16 then 2 else if p.sym = 17 then 3 else if p.sym = 18 then 7 else 0)) ∧
      ∀ p, t.packed.head? = some p → p.sym ≠ 16)

/-- The length symbol of every match length, with its extra bits; outside 3..258 there is none (R289). -/
def Obligations.LengthSymbolTable : Prop :=
  ∀ (l : BitVec 9) (s : State),
    (3 ≤ l.toNat → l.toNat ≤ 258 →
      ∃ sym eb base, exec (.lenSym l) s = .next { s with opResult := .symbol sym eb base } ∧
        257 ≤ sym ∧ sym ≤ 285 ∧ base ≤ l.toNat ∧ l.toNat - base < 2 ^ eb ∧ l.toNat - base = (l.toNat - 3) % 2 ^ eb ∧
        (l.toNat = 258 ↔ sym = 285) ∧ (l.toNat = 258 → eb = 0) ∧ (l.toNat < 11 → sym = 254 + l.toNat ∧ eb = 0) ∧
        (11 ≤ l.toNat → l.toNat ≤ 257 → eb = (sym - 261) / 4 ∧ base = 3 + (4 + (sym - 261) % 4) * 2 ^ eb)) ∧
    (¬(3 ≤ l.toNat ∧ l.toNat ≤ 258) → exec (.lenSym l) s = .fault (.lengthRange l.toNat))

/-- The distance symbol of every match distance, with its extra bits; outside 1..32768 there is none (R290). -/
def Obligations.DistanceSymbolTable : Prop :=
  ∀ (d : BitVec 16) (s : State),
    (1 ≤ d.toNat → d.toNat ≤ 32768 →
      ∃ sym eb base, exec (.distSym d) s = .next { s with opResult := .symbol sym eb base } ∧
        sym ≤ 29 ∧ base ≤ d.toNat ∧ d.toNat - base < 2 ^ eb ∧ d.toNat - base = (d.toNat - 1) % 2 ^ eb ∧
        (d.toNat ≤ 4 → sym = d.toNat - 1 ∧ eb = 0) ∧
        (5 ≤ d.toNat → eb = sym / 2 - 1 ∧ base = 1 + (2 + sym % 2) * 2 ^ eb)) ∧
    (¬(1 ≤ d.toNat ∧ d.toNat ≤ 32768) → exec (.distSym d) s = .fault (.distanceRange d.toNat))

/-- `FLUSH_BLOCK` of an empty buffer emits a header, the tables and the end of block in 92 bits, builds the tables of
R295 and empties the buffer (R270, R295). `FLUSH_BLOCK` of a buffer that holds any tokens completes where the depths of
its three tables are such as R258 allows (R258, R270, R272). -/
def Obligations.FlushOfAnEmptyBuffer : Prop :=
  ∀ (last : Bool) (s : State), BitsOk s →
    (s.params.depths = .moffatKatajainen → s.failed = false → s.lzPos = 1#16 → s.lzFlagsPos = 0#15 →
      s.flagsLeft = 8#4 →
      ∃ t, exec (.flushBlock last) s = .next t ∧ OnlyBlockChanged s t ∧ BitsOk t ∧ FullBuffersPut s t ∧
        t.lzPos = 1#16 ∧ t.lzFlagsPos = 0#15 ∧ t.flagsLeft = 8#4 ∧ t.lzByte 0 = 0#8 ∧
        (∀ i, i ≠ 0 → t.lzByte i = s.lzByte i) ∧
        (∀ i, t.llLen.entry i = if i = 256 then 1 else 0) ∧ (∀ i, t.dLen.entry i = 0) ∧
        (∀ i, t.clLen.entry i = if i = 0 ∨ i = 1 then 2 else if i = 18 then 1 else 0) ∧
        t.packed = [⟨18, 7, 127⟩, ⟨18, 7, 107⟩, ⟨1, 0, 0⟩, ⟨0, 0, 0⟩] ∧
        (t.failed = false → streamBits t = streamBits s ++ last :: emptyBlockBits.drop 1)) ∧
    ∀ held, HoldsTokens held s → s.lzPos.toNat ≤ Config.LZ_SIZE → BlockTablesLegal held s →
      ∃ t, exec (.flushBlock last) s = .next t ∧ OnlyBlockChanged s t ∧ BitsOk t ∧
        t.lzPos = 1#16 ∧ t.lzFlagsPos = 0#15 ∧ t.flagsLeft = 8#4 ∧ (s.failed = false → FullBuffersPut s t)

/-- Every block is the fields of R110 in order, from the tables it was built with and the tokens of the closed stream:
`BFINAL`, `BTYPE` = 2, the three counts, the code lengths of the code-length alphabet, the packed code lengths, the
tokens, the code of symbol 256 (R122, R270 to R272, R275 to R287). The end of block is counted once, and wherever the
depths are such as R258 allows its code has at least one bit (R273). The emission leaves the LZ code buffer empty and
everything outside the block encoder alone (R288). -/
def Obligations.FlushedBlockShape : Prop :=
  ∀ (last : Bool) (s t : State), BitsOk s → exec (.flushBlock last) s = .next t →
    OnlyBlockChanged s t ∧ BitsOk t ∧ t.lzPos = 1#16 ∧ t.lzFlagsPos = 0#15 ∧ t.flagsLeft = 8#4 ∧
      t.litFreq.entry 256 = 1 ∧ (LegalDepths t .litLen → 1 ≤ t.llLen.entry 256) ∧
      ∃ (closed : State) (stop hlit hdist hclen : Nat) (ts : List Token),
        closeTokenStream s = .ok (closed, stop) ∧
        exec (.tokens (BitVec.ofNat 16 stop)) closed = .next { closed with opResult := .tokens ts } ∧
        SentCount t.llLen.entry 257 286 hlit ∧ SentCount t.dLen.entry 1 30 hdist ∧
        SentCount (fun i => t.clLen.entry (swizzleAt i)) 4 19 hclen ∧
        exec (.rlePack ((List.range hlit).map (fun i => BitVec.ofNat 4 (t.llLen.entry i)) ++
          (List.range hdist).map (fun i => BitVec.ofNat 4 (t.dLen.entry i)))) t = .next t ∧
        (t.failed = false →
          s.failed = false ∧ FullBuffersPut s t ∧
            streamBits t = streamBits s ++ fieldBits (blockWire last hlit hdist hclen ts t))

/-! ## Huffman builder -/

/-- `REV(c, n)` reverses the `n` low bits (R252). -/
def Obligations.RevReversesTheBits : Prop :=
  ∀ (c : BitVec 15) (n : BitVec 4) (s : State), ∃ r, exec (.rev c n) s = .next { s with opResult := .value r } ∧
    r < 2 ^ n.toNat ∧ ∀ k, k < n.toNat → r.testBit k = c.getLsbD (n.toNat - 1 - k)

/-- `HUFF_DEPTHS` on the first `n` sorted keys puts one depth in place of each key and leaves the symbols, the other
elements and everything else alone; 0 keys yield nothing and one key the depth 1 (R240, R245). Past the 288 elements of
the sorted array there is no key: such an `n` is a fault (R63, R360). -/
def Obligations.HuffDepthsInPlace : Prop :=
  ∀ (n : BitVec 9) (s : State),
    (n.toNat ≤ 288 → s.params.depths = .moffatKatajainen → s.syms.length = 288 →
      (∀ d ∈ moffatKatajainen ((s.syms.take n.toNat).map fun p => p.key.toNat), d ≤ Config.MAX_HUFF_LEN) →
      ∃ t, exec (.huffDepths n) s = .next t ∧ t = { s with syms := t.syms } ∧ t.syms.length = s.syms.length ∧
        t.syms.map (fun p => p.sym) = s.syms.map (fun p => p.sym) ∧ t.syms.drop n.toNat = s.syms.drop n.toNat ∧
        (t.syms.take n.toNat).map (fun p => p.key.toNat) =
          moffatKatajainen ((s.syms.take n.toNat).map fun p => p.key.toNat) ∧
        (n.toNat = 1 → ∃ p, t.syms.head? = some p ∧ p.key = 1#16)) ∧
    (288 < n.toNat → exec (.huffDepths n) s = .fault .sortedArrayRange)

/-- On ascending keys `HUFF_DEPTHS` yields what R258 demands of any algorithm: one depth per key, each in 1 to 32,
non-increasing along the array, with Kraft equality from two keys on; a single key gets depth 1 (R245, R246, R258). -/
def Obligations.HuffDepthsMeetTheConstraint : Prop :=
  ∀ (n : BitVec 9) (s t : State), s.syms.length = 288 → exec (.huffDepths n) s = .next t →
    ((s.syms.take n.toNat).map fun p => p.key.toNat).Pairwise (· ≤ ·) →
    let depths := (t.syms.take n.toNat).map fun p => p.key.toNat
    depths.length = n.toNat ∧ (∀ d ∈ depths, 1 ≤ d ∧ d ≤ 32) ∧ depths.Pairwise (· ≥ ·) ∧ (n.toNat = 1 → depths = [1]) ∧
      (2 ≤ n.toNat → (depths.map fun d => 2 ^ (32 - d)).sum = 2 ^ 32)

/-- `OPTIMIZE` on depths that R258 allows, by R246 or by a substitute, completes: the lengths obey the cap, are 0
exactly for the symbols that do not occur, and meet the Kraft equality; a single symbol gets length 1 and code 0; the
codes are the canonical ones, bit-reversed, and none is a prefix of another; nothing of an earlier block survives
(R10, R117, R240, R245, R249, R251 to R253, R256, R257). -/
def Obligations.OptimizeMeetsKraftWithinTheCap : Prop :=
  ∀ (x : HuffTable) (s : State), LegalDepths s x →
    ∃ t, exec (.optimize x) s = .next t ∧
      t = { s with
        llLen := t.llLen
        llCode := t.llCode
        dLen := t.dLen
        dCode := t.dCode
        clLen := t.clLen
        clCode := t.clCode
        syms := t.syms
        numCodes := t.numCodes
        nextCode := t.nextCode } ∧
      (x ≠ .litLen → t.llLen = s.llLen ∧ t.llCode = s.llCode) ∧ (x ≠ .dist → t.dLen = s.dLen ∧ t.dCode = s.dCode) ∧
      (x ≠ .codeLen → t.clLen = s.clLen ∧ t.clCode = s.clCode) ∧
      let len := fun i => match x with
        | .litLen => t.llLen.entry i
        | .dist => t.dLen.entry i
        | .codeLen => t.clLen.entry i
      let code := fun i => match x with
        | .litLen => t.llCode.entry i
        | .dist => t.dCode.entry i
        | .codeLen => t.clCode.entry i
      (∀ i, len i ≤ tableCap x ∧ code i < 2 ^ len i ∧ (tableSymbols x ≤ i → len i = 0)) ∧
      (∀ i, i < tableSymbols x → (len i = 0 ↔ (s.freqTable x).entry i = 0)) ∧
      (2 ≤ (sortedKeys s x).length →
        ((List.range (tableSymbols x)).map fun i => if len i = 0 then 0 else 2 ^ (tableCap x - len i)).sum =
          2 ^ tableCap x) ∧
      ((sortedKeys s x).length = 1 → ∀ i, len i ≠ 0 → len i = 1 ∧ code i = 0) ∧
      (∀ i, len i ≠ 0 → canonicalCode len (tableSymbols x) i < 2 ^ len i ∧
        ∀ k, k < len i →
          (code i).testBit k = (canonicalCode len (tableSymbols x) i).testBit (len i - 1 - k)) ∧
      ∀ i j, i ≠ j → len i ≠ 0 → len i ≤ len j → code j % 2 ^ len i ≠ code i

/-! ## Invariants -/

/-- Every step keeps every memory and table in canonical form and inside its index range (R60, R63; the form is the
model's, log 2). -/
def Obligations.StepKeepsMemoriesCanonical : Prop :=
  ∀ s t : State, MemoriesOk s → step s = .next t → MemoriesOk t

/-- Every step keeps the mirror relation of `dict` (R62, R162). -/
def Obligations.StepKeepsTheMirror : Prop :=
  ∀ s t : State, MirrorOk s → step s = .next t → MirrorOk t

/-- Every host command, hardware reset and wait keeps the ranges of the registers between commands: those R38 gives,
those of R21, R23 and R30, and the saved match within R207 and R209. What R38 says of the bytes in the dictionary is
said with `FEED` and `FINISH` (CompressDataLifecycle). -/
def Obligations.StepKeepsTheSessionInvariant : Prop :=
  ∀ s t : State, SessionOk s → step s = .next t → SessionOk t

/-- The reset state has all three (the values of the registers there are the model's choice, log 1 and log 2). -/
def Obligations.ResetHasTheInvariants : Prop :=
  MemoriesOk State.reset ∧ MirrorOk State.reset ∧ SessionOk State.reset
end

