-- ==== Sys2Proof/Laws/State.lean ====
section
/-! SUPPORT. What each named update does to each field, one lemma per field (true by definition), and the field
values of the reset state. -/

namespace Sys2Proof.Machine

variable (s : State)

@[simp] theorem State.reply_maxProbes (b : Bool) : (s.reply b).maxProbes = s.maxProbes := rfl
@[simp] theorem State.reply_greedy (b : Bool) : (s.reply b).greedy = s.greedy := rfl
@[simp] theorem State.reply_nondet (b : Bool) : (s.reply b).nondet = s.nondet := rfl
@[simp] theorem State.reply_zlib (b : Bool) : (s.reply b).zlib = s.zlib := rfl
@[simp] theorem State.reply_failed (b : Bool) : (s.reply b).failed = s.failed := rfl
@[simp] theorem State.reply_closed (b : Bool) : (s.reply b).closed = s.closed := rfl
@[simp] theorem State.reply_adler (b : Bool) : (s.reply b).adler = s.adler := rfl
@[simp] theorem State.reply_lookaheadPos (b : Bool) : (s.reply b).lookaheadPos = s.lookaheadPos := rfl
@[simp] theorem State.reply_lookaheadSize (b : Bool) : (s.reply b).lookaheadSize = s.lookaheadSize := rfl
@[simp] theorem State.reply_dictSize (b : Bool) : (s.reply b).dictSize = s.dictSize := rfl
@[simp] theorem State.reply_dict (b : Bool) : (s.reply b).dict = s.dict := rfl
@[simp] theorem State.reply_head (b : Bool) : (s.reply b).head = s.head := rfl
@[simp] theorem State.reply_prev (b : Bool) : (s.reply b).prev = s.prev := rfl
@[simp] theorem State.reply_savedLit (b : Bool) : (s.reply b).savedLit = s.savedLit := rfl
@[simp] theorem State.reply_savedMatchDist (b : Bool) : (s.reply b).savedMatchDist = s.savedMatchDist := rfl
@[simp] theorem State.reply_savedMatchLen (b : Bool) : (s.reply b).savedMatchLen = s.savedMatchLen := rfl
@[simp] theorem State.reply_lzBuf (b : Bool) : (s.reply b).lzBuf = s.lzBuf := rfl
@[simp] theorem State.reply_lzPos (b : Bool) : (s.reply b).lzPos = s.lzPos := rfl
@[simp] theorem State.reply_lzFlagsPos (b : Bool) : (s.reply b).lzFlagsPos = s.lzFlagsPos := rfl
@[simp] theorem State.reply_flagsLeft (b : Bool) : (s.reply b).flagsLeft = s.flagsLeft := rfl
@[simp] theorem State.reply_bitBuffer (b : Bool) : (s.reply b).bitBuffer = s.bitBuffer := rfl
@[simp] theorem State.reply_bitsIn (b : Bool) : (s.reply b).bitsIn = s.bitsIn := rfl
@[simp] theorem State.reply_outBuf (b : Bool) : (s.reply b).outBuf = s.outBuf := rfl
@[simp] theorem State.reply_outPos (b : Bool) : (s.reply b).outPos = s.outPos := rfl
@[simp] theorem State.reply_litFreq (b : Bool) : (s.reply b).litFreq = s.litFreq := rfl
@[simp] theorem State.reply_distFreq (b : Bool) : (s.reply b).distFreq = s.distFreq := rfl
@[simp] theorem State.reply_clFreq (b : Bool) : (s.reply b).clFreq = s.clFreq := rfl
@[simp] theorem State.reply_llLen (b : Bool) : (s.reply b).llLen = s.llLen := rfl
@[simp] theorem State.reply_llCode (b : Bool) : (s.reply b).llCode = s.llCode := rfl
@[simp] theorem State.reply_dLen (b : Bool) : (s.reply b).dLen = s.dLen := rfl
@[simp] theorem State.reply_dCode (b : Bool) : (s.reply b).dCode = s.dCode := rfl
@[simp] theorem State.reply_clLen (b : Bool) : (s.reply b).clLen = s.clLen := rfl
@[simp] theorem State.reply_clCode (b : Bool) : (s.reply b).clCode = s.clCode := rfl
@[simp] theorem State.reply_syms (b : Bool) : (s.reply b).syms = s.syms := rfl
@[simp] theorem State.reply_numCodes (b : Bool) : (s.reply b).numCodes = s.numCodes := rfl
@[simp] theorem State.reply_nextCode (b : Bool) : (s.reply b).nextCode = s.nextCode := rfl
@[simp] theorem State.reply_packed (b : Bool) : (s.reply b).packed = s.packed := rfl
@[simp] theorem State.reply_params (b : Bool) : (s.reply b).params = s.params := rfl
@[simp] theorem State.reply_hostIn (b : Bool) : (s.reply b).hostIn = s.hostIn := rfl
@[simp] theorem State.reply_returns (b : Bool) : (s.reply b).returns = s.returns ++ [b] := rfl
@[simp] theorem State.reply_sinkLog (b : Bool) : (s.reply b).sinkLog = s.sinkLog := rfl
@[simp] theorem State.reply_sinkAnswers (b : Bool) : (s.reply b).sinkAnswers = s.sinkAnswers := rfl
@[simp] theorem State.reply_sinkDraws (b : Bool) : (s.reply b).sinkDraws = s.sinkDraws := rfl
@[simp] theorem State.reply_resets (b : Bool) : (s.reply b).resets = s.resets := rfl
@[simp] theorem State.reply_sequencer (b : Bool) : (s.reply b).sequencer = s.sequencer := rfl
@[simp] theorem State.reply_opResult (b : Bool) : (s.reply b).opResult = s.opResult := rfl

@[simp] theorem State.setFailed_maxProbes (b : Bool) : (s.setFailed b).maxProbes = s.maxProbes := rfl
@[simp] theorem State.setFailed_greedy (b : Bool) : (s.setFailed b).greedy = s.greedy := rfl
@[simp] theorem State.setFailed_nondet (b : Bool) : (s.setFailed b).nondet = s.nondet := rfl
@[simp] theorem State.setFailed_zlib (b : Bool) : (s.setFailed b).zlib = s.zlib := rfl
@[simp] theorem State.setFailed_failed (b : Bool) : (s.setFailed b).failed = b := rfl
@[simp] theorem State.setFailed_closed (b : Bool) : (s.setFailed b).closed = s.closed := rfl
@[simp] theorem State.setFailed_adler (b : Bool) : (s.setFailed b).adler = s.adler := rfl
@[simp] theorem State.setFailed_lookaheadPos (b : Bool) : (s.setFailed b).lookaheadPos = s.lookaheadPos := rfl
@[simp] theorem State.setFailed_lookaheadSize (b : Bool) : (s.setFailed b).lookaheadSize = s.lookaheadSize := rfl
@[simp] theorem State.setFailed_dictSize (b : Bool) : (s.setFailed b).dictSize = s.dictSize := rfl
@[simp] theorem State.setFailed_dict (b : Bool) : (s.setFailed b).dict = s.dict := rfl
@[simp] theorem State.setFailed_head (b : Bool) : (s.setFailed b).head = s.head := rfl
@[simp] theorem State.setFailed_prev (b : Bool) : (s.setFailed b).prev = s.prev := rfl
@[simp] theorem State.setFailed_savedLit (b : Bool) : (s.setFailed b).savedLit = s.savedLit := rfl
@[simp] theorem State.setFailed_savedMatchDist (b : Bool) : (s.setFailed b).savedMatchDist = s.savedMatchDist := rfl
@[simp] theorem State.setFailed_savedMatchLen (b : Bool) : (s.setFailed b).savedMatchLen = s.savedMatchLen := rfl
@[simp] theorem State.setFailed_lzBuf (b : Bool) : (s.setFailed b).lzBuf = s.lzBuf := rfl
@[simp] theorem State.setFailed_lzPos (b : Bool) : (s.setFailed b).lzPos = s.lzPos := rfl
@[simp] theorem State.setFailed_lzFlagsPos (b : Bool) : (s.setFailed b).lzFlagsPos = s.lzFlagsPos := rfl
@[simp] theorem State.setFailed_flagsLeft (b : Bool) : (s.setFailed b).flagsLeft = s.flagsLeft := rfl
@[simp] theorem State.setFailed_bitBuffer (b : Bool) : (s.setFailed b).bitBuffer = s.bitBuffer := rfl
@[simp] theorem State.setFailed_bitsIn (b : Bool) : (s.setFailed b).bitsIn = s.bitsIn := rfl
@[simp] theorem State.setFailed_outBuf (b : Bool) : (s.setFailed b).outBuf = s.outBuf := rfl
@[simp] theorem State.setFailed_outPos (b : Bool) : (s.setFailed b).outPos = s.outPos := rfl
@[simp] theorem State.setFailed_litFreq (b : Bool) : (s.setFailed b).litFreq = s.litFreq := rfl
@[simp] theorem State.setFailed_distFreq (b : Bool) : (s.setFailed b).distFreq = s.distFreq := rfl
@[simp] theorem State.setFailed_clFreq (b : Bool) : (s.setFailed b).clFreq = s.clFreq := rfl
@[simp] theorem State.setFailed_llLen (b : Bool) : (s.setFailed b).llLen = s.llLen := rfl
@[simp] theorem State.setFailed_llCode (b : Bool) : (s.setFailed b).llCode = s.llCode := rfl
@[simp] theorem State.setFailed_dLen (b : Bool) : (s.setFailed b).dLen = s.dLen := rfl
@[simp] theorem State.setFailed_dCode (b : Bool) : (s.setFailed b).dCode = s.dCode := rfl
@[simp] theorem State.setFailed_clLen (b : Bool) : (s.setFailed b).clLen = s.clLen := rfl
@[simp] theorem State.setFailed_clCode (b : Bool) : (s.setFailed b).clCode = s.clCode := rfl
@[simp] theorem State.setFailed_syms (b : Bool) : (s.setFailed b).syms = s.syms := rfl
@[simp] theorem State.setFailed_numCodes (b : Bool) : (s.setFailed b).numCodes = s.numCodes := rfl
@[simp] theorem State.setFailed_nextCode (b : Bool) : (s.setFailed b).nextCode = s.nextCode := rfl
@[simp] theorem State.setFailed_packed (b : Bool) : (s.setFailed b).packed = s.packed := rfl
@[simp] theorem State.setFailed_params (b : Bool) : (s.setFailed b).params = s.params := rfl
@[simp] theorem State.setFailed_hostIn (b : Bool) : (s.setFailed b).hostIn = s.hostIn := rfl
@[simp] theorem State.setFailed_returns (b : Bool) : (s.setFailed b).returns = s.returns := rfl
@[simp] theorem State.setFailed_sinkLog (b : Bool) : (s.setFailed b).sinkLog = s.sinkLog := rfl
@[simp] theorem State.setFailed_sinkAnswers (b : Bool) : (s.setFailed b).sinkAnswers = s.sinkAnswers := rfl
@[simp] theorem State.setFailed_sinkDraws (b : Bool) : (s.setFailed b).sinkDraws = s.sinkDraws := rfl
@[simp] theorem State.setFailed_resets (b : Bool) : (s.setFailed b).resets = s.resets := rfl
@[simp] theorem State.setFailed_sequencer (b : Bool) : (s.setFailed b).sequencer = s.sequencer := rfl
@[simp] theorem State.setFailed_opResult (b : Bool) : (s.setFailed b).opResult = s.opResult := rfl

@[simp] theorem State.setClosed_maxProbes (b : Bool) : (s.setClosed b).maxProbes = s.maxProbes := rfl
@[simp] theorem State.setClosed_greedy (b : Bool) : (s.setClosed b).greedy = s.greedy := rfl
@[simp] theorem State.setClosed_nondet (b : Bool) : (s.setClosed b).nondet = s.nondet := rfl
@[simp] theorem State.setClosed_zlib (b : Bool) : (s.setClosed b).zlib = s.zlib := rfl
@[simp] theorem State.setClosed_failed (b : Bool) : (s.setClosed b).failed = s.failed := rfl
@[simp] theorem State.setClosed_closed (b : Bool) : (s.setClosed b).closed = b := rfl
@[simp] theorem State.setClosed_adler (b : Bool) : (s.setClosed b).adler = s.adler := rfl
@[simp] theorem State.setClosed_lookaheadPos (b : Bool) : (s.setClosed b).lookaheadPos = s.lookaheadPos := rfl
@[simp] theorem State.setClosed_lookaheadSize (b : Bool) : (s.setClosed b).lookaheadSize = s.lookaheadSize := rfl
@[simp] theorem State.setClosed_dictSize (b : Bool) : (s.setClosed b).dictSize = s.dictSize := rfl
@[simp] theorem State.setClosed_dict (b : Bool) : (s.setClosed b).dict = s.dict := rfl
@[simp] theorem State.setClosed_head (b : Bool) : (s.setClosed b).head = s.head := rfl
@[simp] theorem State.setClosed_prev (b : Bool) : (s.setClosed b).prev = s.prev := rfl
@[simp] theorem State.setClosed_savedLit (b : Bool) : (s.setClosed b).savedLit = s.savedLit := rfl
@[simp] theorem State.setClosed_savedMatchDist (b : Bool) : (s.setClosed b).savedMatchDist = s.savedMatchDist := rfl
@[simp] theorem State.setClosed_savedMatchLen (b : Bool) : (s.setClosed b).savedMatchLen = s.savedMatchLen := rfl
@[simp] theorem State.setClosed_lzBuf (b : Bool) : (s.setClosed b).lzBuf = s.lzBuf := rfl
@[simp] theorem State.setClosed_lzPos (b : Bool) : (s.setClosed b).lzPos = s.lzPos := rfl
@[simp] theorem State.setClosed_lzFlagsPos (b : Bool) : (s.setClosed b).lzFlagsPos = s.lzFlagsPos := rfl
@[simp] theorem State.setClosed_flagsLeft (b : Bool) : (s.setClosed b).flagsLeft = s.flagsLeft := rfl
@[simp] theorem State.setClosed_bitBuffer (b : Bool) : (s.setClosed b).bitBuffer = s.bitBuffer := rfl
@[simp] theorem State.setClosed_bitsIn (b : Bool) : (s.setClosed b).bitsIn = s.bitsIn := rfl
@[simp] theorem State.setClosed_outBuf (b : Bool) : (s.setClosed b).outBuf = s.outBuf := rfl
@[simp] theorem State.setClosed_outPos (b : Bool) : (s.setClosed b).outPos = s.outPos := rfl
@[simp] theorem State.setClosed_litFreq (b : Bool) : (s.setClosed b).litFreq = s.litFreq := rfl
@[simp] theorem State.setClosed_distFreq (b : Bool) : (s.setClosed b).distFreq = s.distFreq := rfl
@[simp] theorem State.setClosed_clFreq (b : Bool) : (s.setClosed b).clFreq = s.clFreq := rfl
@[simp] theorem State.setClosed_llLen (b : Bool) : (s.setClosed b).llLen = s.llLen := rfl
@[simp] theorem State.setClosed_llCode (b : Bool) : (s.setClosed b).llCode = s.llCode := rfl
@[simp] theorem State.setClosed_dLen (b : Bool) : (s.setClosed b).dLen = s.dLen := rfl
@[simp] theorem State.setClosed_dCode (b : Bool) : (s.setClosed b).dCode = s.dCode := rfl
@[simp] theorem State.setClosed_clLen (b : Bool) : (s.setClosed b).clLen = s.clLen := rfl
@[simp] theorem State.setClosed_clCode (b : Bool) : (s.setClosed b).clCode = s.clCode := rfl
@[simp] theorem State.setClosed_syms (b : Bool) : (s.setClosed b).syms = s.syms := rfl
@[simp] theorem State.setClosed_numCodes (b : Bool) : (s.setClosed b).numCodes = s.numCodes := rfl
@[simp] theorem State.setClosed_nextCode (b : Bool) : (s.setClosed b).nextCode = s.nextCode := rfl
@[simp] theorem State.setClosed_packed (b : Bool) : (s.setClosed b).packed = s.packed := rfl
@[simp] theorem State.setClosed_params (b : Bool) : (s.setClosed b).params = s.params := rfl
@[simp] theorem State.setClosed_hostIn (b : Bool) : (s.setClosed b).hostIn = s.hostIn := rfl
@[simp] theorem State.setClosed_returns (b : Bool) : (s.setClosed b).returns = s.returns := rfl
@[simp] theorem State.setClosed_sinkLog (b : Bool) : (s.setClosed b).sinkLog = s.sinkLog := rfl
@[simp] theorem State.setClosed_sinkAnswers (b : Bool) : (s.setClosed b).sinkAnswers = s.sinkAnswers := rfl
@[simp] theorem State.setClosed_sinkDraws (b : Bool) : (s.setClosed b).sinkDraws = s.sinkDraws := rfl
@[simp] theorem State.setClosed_resets (b : Bool) : (s.setClosed b).resets = s.resets := rfl
@[simp] theorem State.setClosed_sequencer (b : Bool) : (s.setClosed b).sequencer = s.sequencer := rfl
@[simp] theorem State.setClosed_opResult (b : Bool) : (s.setClosed b).opResult = s.opResult := rfl

@[simp] theorem State.setMaxProbes_maxProbes (v : BitVec 12) : (s.setMaxProbes v).maxProbes = v := rfl
@[simp] theorem State.setMaxProbes_greedy (v : BitVec 12) : (s.setMaxProbes v).greedy = s.greedy := rfl
@[simp] theorem State.setMaxProbes_nondet (v : BitVec 12) : (s.setMaxProbes v).nondet = s.nondet := rfl
@[simp] theorem State.setMaxProbes_zlib (v : BitVec 12) : (s.setMaxProbes v).zlib = s.zlib := rfl
@[simp] theorem State.setMaxProbes_failed (v : BitVec 12) : (s.setMaxProbes v).failed = s.failed := rfl
@[simp] theorem State.setMaxProbes_closed (v : BitVec 12) : (s.setMaxProbes v).closed = s.closed := rfl
@[simp] theorem State.setMaxProbes_adler (v : BitVec 12) : (s.setMaxProbes v).adler = s.adler := rfl
@[simp] theorem State.setMaxProbes_lookaheadPos (v : BitVec 12) : (s.setMaxProbes v).lookaheadPos = s.lookaheadPos := rfl
@[simp] theorem State.setMaxProbes_lookaheadSize (v : BitVec 12) : (s.setMaxProbes v).lookaheadSize = s.lookaheadSize := rfl
@[simp] theorem State.setMaxProbes_dictSize (v : BitVec 12) : (s.setMaxProbes v).dictSize = s.dictSize := rfl
@[simp] theorem State.setMaxProbes_dict (v : BitVec 12) : (s.setMaxProbes v).dict = s.dict := rfl
@[simp] theorem State.setMaxProbes_head (v : BitVec 12) : (s.setMaxProbes v).head = s.head := rfl
@[simp] theorem State.setMaxProbes_prev (v : BitVec 12) : (s.setMaxProbes v).prev = s.prev := rfl
@[simp] theorem State.setMaxProbes_savedLit (v : BitVec 12) : (s.setMaxProbes v).savedLit = s.savedLit := rfl
@[simp] theorem State.setMaxProbes_savedMatchDist (v : BitVec 12) : (s.setMaxProbes v).savedMatchDist = s.savedMatchDist := rfl
@[simp] theorem State.setMaxProbes_savedMatchLen (v : BitVec 12) : (s.setMaxProbes v).savedMatchLen = s.savedMatchLen := rfl
@[simp] theorem State.setMaxProbes_lzBuf (v : BitVec 12) : (s.setMaxProbes v).lzBuf = s.lzBuf := rfl
@[simp] theorem State.setMaxProbes_lzPos (v : BitVec 12) : (s.setMaxProbes v).lzPos = s.lzPos := rfl
@[simp] theorem State.setMaxProbes_lzFlagsPos (v : BitVec 12) : (s.setMaxProbes v).lzFlagsPos = s.lzFlagsPos := rfl
@[simp] theorem State.setMaxProbes_flagsLeft (v : BitVec 12) : (s.setMaxProbes v).flagsLeft = s.flagsLeft := rfl
@[simp] theorem State.setMaxProbes_bitBuffer (v : BitVec 12) : (s.setMaxProbes v).bitBuffer = s.bitBuffer := rfl
@[simp] theorem State.setMaxProbes_bitsIn (v : BitVec 12) : (s.setMaxProbes v).bitsIn = s.bitsIn := rfl
@[simp] theorem State.setMaxProbes_outBuf (v : BitVec 12) : (s.setMaxProbes v).outBuf = s.outBuf := rfl
@[simp] theorem State.setMaxProbes_outPos (v : BitVec 12) : (s.setMaxProbes v).outPos = s.outPos := rfl
@[simp] theorem State.setMaxProbes_litFreq (v : BitVec 12) : (s.setMaxProbes v).litFreq = s.litFreq := rfl
@[simp] theorem State.setMaxProbes_distFreq (v : BitVec 12) : (s.setMaxProbes v).distFreq = s.distFreq := rfl
@[simp] theorem State.setMaxProbes_clFreq (v : BitVec 12) : (s.setMaxProbes v).clFreq = s.clFreq := rfl
@[simp] theorem State.setMaxProbes_llLen (v : BitVec 12) : (s.setMaxProbes v).llLen = s.llLen := rfl
@[simp] theorem State.setMaxProbes_llCode (v : BitVec 12) : (s.setMaxProbes v).llCode = s.llCode := rfl
@[simp] theorem State.setMaxProbes_dLen (v : BitVec 12) : (s.setMaxProbes v).dLen = s.dLen := rfl
@[simp] theorem State.setMaxProbes_dCode (v : BitVec 12) : (s.setMaxProbes v).dCode = s.dCode := rfl
@[simp] theorem State.setMaxProbes_clLen (v : BitVec 12) : (s.setMaxProbes v).clLen = s.clLen := rfl
@[simp] theorem State.setMaxProbes_clCode (v : BitVec 12) : (s.setMaxProbes v).clCode = s.clCode := rfl
@[simp] theorem State.setMaxProbes_syms (v : BitVec 12) : (s.setMaxProbes v).syms = s.syms := rfl
@[simp] theorem State.setMaxProbes_numCodes (v : BitVec 12) : (s.setMaxProbes v).numCodes = s.numCodes := rfl
@[simp] theorem State.setMaxProbes_nextCode (v : BitVec 12) : (s.setMaxProbes v).nextCode = s.nextCode := rfl
@[simp] theorem State.setMaxProbes_packed (v : BitVec 12) : (s.setMaxProbes v).packed = s.packed := rfl
@[simp] theorem State.setMaxProbes_params (v : BitVec 12) : (s.setMaxProbes v).params = s.params := rfl
@[simp] theorem State.setMaxProbes_hostIn (v : BitVec 12) : (s.setMaxProbes v).hostIn = s.hostIn := rfl
@[simp] theorem State.setMaxProbes_returns (v : BitVec 12) : (s.setMaxProbes v).returns = s.returns := rfl
@[simp] theorem State.setMaxProbes_sinkLog (v : BitVec 12) : (s.setMaxProbes v).sinkLog = s.sinkLog := rfl
@[simp] theorem State.setMaxProbes_sinkAnswers (v : BitVec 12) : (s.setMaxProbes v).sinkAnswers = s.sinkAnswers := rfl
@[simp] theorem State.setMaxProbes_sinkDraws (v : BitVec 12) : (s.setMaxProbes v).sinkDraws = s.sinkDraws := rfl
@[simp] theorem State.setMaxProbes_resets (v : BitVec 12) : (s.setMaxProbes v).resets = s.resets := rfl
@[simp] theorem State.setMaxProbes_sequencer (v : BitVec 12) : (s.setMaxProbes v).sequencer = s.sequencer := rfl
@[simp] theorem State.setMaxProbes_opResult (v : BitVec 12) : (s.setMaxProbes v).opResult = s.opResult := rfl

@[simp] theorem State.setZlib_maxProbes (b : Bool) : (s.setZlib b).maxProbes = s.maxProbes := rfl
@[simp] theorem State.setZlib_greedy (b : Bool) : (s.setZlib b).greedy = s.greedy := rfl
@[simp] theorem State.setZlib_nondet (b : Bool) : (s.setZlib b).nondet = s.nondet := rfl
@[simp] theorem State.setZlib_zlib (b : Bool) : (s.setZlib b).zlib = b := rfl
@[simp] theorem State.setZlib_failed (b : Bool) : (s.setZlib b).failed = s.failed := rfl
@[simp] theorem State.setZlib_closed (b : Bool) : (s.setZlib b).closed = s.closed := rfl
@[simp] theorem State.setZlib_adler (b : Bool) : (s.setZlib b).adler = s.adler := rfl
@[simp] theorem State.setZlib_lookaheadPos (b : Bool) : (s.setZlib b).lookaheadPos = s.lookaheadPos := rfl
@[simp] theorem State.setZlib_lookaheadSize (b : Bool) : (s.setZlib b).lookaheadSize = s.lookaheadSize := rfl
@[simp] theorem State.setZlib_dictSize (b : Bool) : (s.setZlib b).dictSize = s.dictSize := rfl
@[simp] theorem State.setZlib_dict (b : Bool) : (s.setZlib b).dict = s.dict := rfl
@[simp] theorem State.setZlib_head (b : Bool) : (s.setZlib b).head = s.head := rfl
@[simp] theorem State.setZlib_prev (b : Bool) : (s.setZlib b).prev = s.prev := rfl
@[simp] theorem State.setZlib_savedLit (b : Bool) : (s.setZlib b).savedLit = s.savedLit := rfl
@[simp] theorem State.setZlib_savedMatchDist (b : Bool) : (s.setZlib b).savedMatchDist = s.savedMatchDist := rfl
@[simp] theorem State.setZlib_savedMatchLen (b : Bool) : (s.setZlib b).savedMatchLen = s.savedMatchLen := rfl
@[simp] theorem State.setZlib_lzBuf (b : Bool) : (s.setZlib b).lzBuf = s.lzBuf := rfl
@[simp] theorem State.setZlib_lzPos (b : Bool) : (s.setZlib b).lzPos = s.lzPos := rfl
@[simp] theorem State.setZlib_lzFlagsPos (b : Bool) : (s.setZlib b).lzFlagsPos = s.lzFlagsPos := rfl
@[simp] theorem State.setZlib_flagsLeft (b : Bool) : (s.setZlib b).flagsLeft = s.flagsLeft := rfl
@[simp] theorem State.setZlib_bitBuffer (b : Bool) : (s.setZlib b).bitBuffer = s.bitBuffer := rfl
@[simp] theorem State.setZlib_bitsIn (b : Bool) : (s.setZlib b).bitsIn = s.bitsIn := rfl
@[simp] theorem State.setZlib_outBuf (b : Bool) : (s.setZlib b).outBuf = s.outBuf := rfl
@[simp] theorem State.setZlib_outPos (b : Bool) : (s.setZlib b).outPos = s.outPos := rfl
@[simp] theorem State.setZlib_litFreq (b : Bool) : (s.setZlib b).litFreq = s.litFreq := rfl
@[simp] theorem State.setZlib_distFreq (b : Bool) : (s.setZlib b).distFreq = s.distFreq := rfl
@[simp] theorem State.setZlib_clFreq (b : Bool) : (s.setZlib b).clFreq = s.clFreq := rfl
@[simp] theorem State.setZlib_llLen (b : Bool) : (s.setZlib b).llLen = s.llLen := rfl
@[simp] theorem State.setZlib_llCode (b : Bool) : (s.setZlib b).llCode = s.llCode := rfl
@[simp] theorem State.setZlib_dLen (b : Bool) : (s.setZlib b).dLen = s.dLen := rfl
@[simp] theorem State.setZlib_dCode (b : Bool) : (s.setZlib b).dCode = s.dCode := rfl
@[simp] theorem State.setZlib_clLen (b : Bool) : (s.setZlib b).clLen = s.clLen := rfl
@[simp] theorem State.setZlib_clCode (b : Bool) : (s.setZlib b).clCode = s.clCode := rfl
@[simp] theorem State.setZlib_syms (b : Bool) : (s.setZlib b).syms = s.syms := rfl
@[simp] theorem State.setZlib_numCodes (b : Bool) : (s.setZlib b).numCodes = s.numCodes := rfl
@[simp] theorem State.setZlib_nextCode (b : Bool) : (s.setZlib b).nextCode = s.nextCode := rfl
@[simp] theorem State.setZlib_packed (b : Bool) : (s.setZlib b).packed = s.packed := rfl
@[simp] theorem State.setZlib_params (b : Bool) : (s.setZlib b).params = s.params := rfl
@[simp] theorem State.setZlib_hostIn (b : Bool) : (s.setZlib b).hostIn = s.hostIn := rfl
@[simp] theorem State.setZlib_returns (b : Bool) : (s.setZlib b).returns = s.returns := rfl
@[simp] theorem State.setZlib_sinkLog (b : Bool) : (s.setZlib b).sinkLog = s.sinkLog := rfl
@[simp] theorem State.setZlib_sinkAnswers (b : Bool) : (s.setZlib b).sinkAnswers = s.sinkAnswers := rfl
@[simp] theorem State.setZlib_sinkDraws (b : Bool) : (s.setZlib b).sinkDraws = s.sinkDraws := rfl
@[simp] theorem State.setZlib_resets (b : Bool) : (s.setZlib b).resets = s.resets := rfl
@[simp] theorem State.setZlib_sequencer (b : Bool) : (s.setZlib b).sequencer = s.sequencer := rfl
@[simp] theorem State.setZlib_opResult (b : Bool) : (s.setZlib b).opResult = s.opResult := rfl

@[simp] theorem State.setGreedy_maxProbes (b : Bool) : (s.setGreedy b).maxProbes = s.maxProbes := rfl
@[simp] theorem State.setGreedy_greedy (b : Bool) : (s.setGreedy b).greedy = b := rfl
@[simp] theorem State.setGreedy_nondet (b : Bool) : (s.setGreedy b).nondet = s.nondet := rfl
@[simp] theorem State.setGreedy_zlib (b : Bool) : (s.setGreedy b).zlib = s.zlib := rfl
@[simp] theorem State.setGreedy_failed (b : Bool) : (s.setGreedy b).failed = s.failed := rfl
@[simp] theorem State.setGreedy_closed (b : Bool) : (s.setGreedy b).closed = s.closed := rfl
@[simp] theorem State.setGreedy_adler (b : Bool) : (s.setGreedy b).adler = s.adler := rfl
@[simp] theorem State.setGreedy_lookaheadPos (b : Bool) : (s.setGreedy b).lookaheadPos = s.lookaheadPos := rfl
@[simp] theorem State.setGreedy_lookaheadSize (b : Bool) : (s.setGreedy b).lookaheadSize = s.lookaheadSize := rfl
@[simp] theorem State.setGreedy_dictSize (b : Bool) : (s.setGreedy b).dictSize = s.dictSize := rfl
@[simp] theorem State.setGreedy_dict (b : Bool) : (s.setGreedy b).dict = s.dict := rfl
@[simp] theorem State.setGreedy_head (b : Bool) : (s.setGreedy b).head = s.head := rfl
@[simp] theorem State.setGreedy_prev (b : Bool) : (s.setGreedy b).prev = s.prev := rfl
@[simp] theorem State.setGreedy_savedLit (b : Bool) : (s.setGreedy b).savedLit = s.savedLit := rfl
@[simp] theorem State.setGreedy_savedMatchDist (b : Bool) : (s.setGreedy b).savedMatchDist = s.savedMatchDist := rfl
@[simp] theorem State.setGreedy_savedMatchLen (b : Bool) : (s.setGreedy b).savedMatchLen = s.savedMatchLen := rfl
@[simp] theorem State.setGreedy_lzBuf (b : Bool) : (s.setGreedy b).lzBuf = s.lzBuf := rfl
@[simp] theorem State.setGreedy_lzPos (b : Bool) : (s.setGreedy b).lzPos = s.lzPos := rfl
@[simp] theorem State.setGreedy_lzFlagsPos (b : Bool) : (s.setGreedy b).lzFlagsPos = s.lzFlagsPos := rfl
@[simp] theorem State.setGreedy_flagsLeft (b : Bool) : (s.setGreedy b).flagsLeft = s.flagsLeft := rfl
@[simp] theorem State.setGreedy_bitBuffer (b : Bool) : (s.setGreedy b).bitBuffer = s.bitBuffer := rfl
@[simp] theorem State.setGreedy_bitsIn (b : Bool) : (s.setGreedy b).bitsIn = s.bitsIn := rfl
@[simp] theorem State.setGreedy_outBuf (b : Bool) : (s.setGreedy b).outBuf = s.outBuf := rfl
@[simp] theorem State.setGreedy_outPos (b : Bool) : (s.setGreedy b).outPos = s.outPos := rfl
@[simp] theorem State.setGreedy_litFreq (b : Bool) : (s.setGreedy b).litFreq = s.litFreq := rfl
@[simp] theorem State.setGreedy_distFreq (b : Bool) : (s.setGreedy b).distFreq = s.distFreq := rfl
@[simp] theorem State.setGreedy_clFreq (b : Bool) : (s.setGreedy b).clFreq = s.clFreq := rfl
@[simp] theorem State.setGreedy_llLen (b : Bool) : (s.setGreedy b).llLen = s.llLen := rfl
@[simp] theorem State.setGreedy_llCode (b : Bool) : (s.setGreedy b).llCode = s.llCode := rfl
@[simp] theorem State.setGreedy_dLen (b : Bool) : (s.setGreedy b).dLen = s.dLen := rfl
@[simp] theorem State.setGreedy_dCode (b : Bool) : (s.setGreedy b).dCode = s.dCode := rfl
@[simp] theorem State.setGreedy_clLen (b : Bool) : (s.setGreedy b).clLen = s.clLen := rfl
@[simp] theorem State.setGreedy_clCode (b : Bool) : (s.setGreedy b).clCode = s.clCode := rfl
@[simp] theorem State.setGreedy_syms (b : Bool) : (s.setGreedy b).syms = s.syms := rfl
@[simp] theorem State.setGreedy_numCodes (b : Bool) : (s.setGreedy b).numCodes = s.numCodes := rfl
@[simp] theorem State.setGreedy_nextCode (b : Bool) : (s.setGreedy b).nextCode = s.nextCode := rfl
@[simp] theorem State.setGreedy_packed (b : Bool) : (s.setGreedy b).packed = s.packed := rfl
@[simp] theorem State.setGreedy_params (b : Bool) : (s.setGreedy b).params = s.params := rfl
@[simp] theorem State.setGreedy_hostIn (b : Bool) : (s.setGreedy b).hostIn = s.hostIn := rfl
@[simp] theorem State.setGreedy_returns (b : Bool) : (s.setGreedy b).returns = s.returns := rfl
@[simp] theorem State.setGreedy_sinkLog (b : Bool) : (s.setGreedy b).sinkLog = s.sinkLog := rfl
@[simp] theorem State.setGreedy_sinkAnswers (b : Bool) : (s.setGreedy b).sinkAnswers = s.sinkAnswers := rfl
@[simp] theorem State.setGreedy_sinkDraws (b : Bool) : (s.setGreedy b).sinkDraws = s.sinkDraws := rfl
@[simp] theorem State.setGreedy_resets (b : Bool) : (s.setGreedy b).resets = s.resets := rfl
@[simp] theorem State.setGreedy_sequencer (b : Bool) : (s.setGreedy b).sequencer = s.sequencer := rfl
@[simp] theorem State.setGreedy_opResult (b : Bool) : (s.setGreedy b).opResult = s.opResult := rfl

@[simp] theorem State.setNondet_maxProbes (b : Bool) : (s.setNondet b).maxProbes = s.maxProbes := rfl
@[simp] theorem State.setNondet_greedy (b : Bool) : (s.setNondet b).greedy = s.greedy := rfl
@[simp] theorem State.setNondet_nondet (b : Bool) : (s.setNondet b).nondet = b := rfl
@[simp] theorem State.setNondet_zlib (b : Bool) : (s.setNondet b).zlib = s.zlib := rfl
@[simp] theorem State.setNondet_failed (b : Bool) : (s.setNondet b).failed = s.failed := rfl
@[simp] theorem State.setNondet_closed (b : Bool) : (s.setNondet b).closed = s.closed := rfl
@[simp] theorem State.setNondet_adler (b : Bool) : (s.setNondet b).adler = s.adler := rfl
@[simp] theorem State.setNondet_lookaheadPos (b : Bool) : (s.setNondet b).lookaheadPos = s.lookaheadPos := rfl
@[simp] theorem State.setNondet_lookaheadSize (b : Bool) : (s.setNondet b).lookaheadSize = s.lookaheadSize := rfl
@[simp] theorem State.setNondet_dictSize (b : Bool) : (s.setNondet b).dictSize = s.dictSize := rfl
@[simp] theorem State.setNondet_dict (b : Bool) : (s.setNondet b).dict = s.dict := rfl
@[simp] theorem State.setNondet_head (b : Bool) : (s.setNondet b).head = s.head := rfl
@[simp] theorem State.setNondet_prev (b : Bool) : (s.setNondet b).prev = s.prev := rfl
@[simp] theorem State.setNondet_savedLit (b : Bool) : (s.setNondet b).savedLit = s.savedLit := rfl
@[simp] theorem State.setNondet_savedMatchDist (b : Bool) : (s.setNondet b).savedMatchDist = s.savedMatchDist := rfl
@[simp] theorem State.setNondet_savedMatchLen (b : Bool) : (s.setNondet b).savedMatchLen = s.savedMatchLen := rfl
@[simp] theorem State.setNondet_lzBuf (b : Bool) : (s.setNondet b).lzBuf = s.lzBuf := rfl
@[simp] theorem State.setNondet_lzPos (b : Bool) : (s.setNondet b).lzPos = s.lzPos := rfl
@[simp] theorem State.setNondet_lzFlagsPos (b : Bool) : (s.setNondet b).lzFlagsPos = s.lzFlagsPos := rfl
@[simp] theorem State.setNondet_flagsLeft (b : Bool) : (s.setNondet b).flagsLeft = s.flagsLeft := rfl
@[simp] theorem State.setNondet_bitBuffer (b : Bool) : (s.setNondet b).bitBuffer = s.bitBuffer := rfl
@[simp] theorem State.setNondet_bitsIn (b : Bool) : (s.setNondet b).bitsIn = s.bitsIn := rfl
@[simp] theorem State.setNondet_outBuf (b : Bool) : (s.setNondet b).outBuf = s.outBuf := rfl
@[simp] theorem State.setNondet_outPos (b : Bool) : (s.setNondet b).outPos = s.outPos := rfl
@[simp] theorem State.setNondet_litFreq (b : Bool) : (s.setNondet b).litFreq = s.litFreq := rfl
@[simp] theorem State.setNondet_distFreq (b : Bool) : (s.setNondet b).distFreq = s.distFreq := rfl
@[simp] theorem State.setNondet_clFreq (b : Bool) : (s.setNondet b).clFreq = s.clFreq := rfl
@[simp] theorem State.setNondet_llLen (b : Bool) : (s.setNondet b).llLen = s.llLen := rfl
@[simp] theorem State.setNondet_llCode (b : Bool) : (s.setNondet b).llCode = s.llCode := rfl
@[simp] theorem State.setNondet_dLen (b : Bool) : (s.setNondet b).dLen = s.dLen := rfl
@[simp] theorem State.setNondet_dCode (b : Bool) : (s.setNondet b).dCode = s.dCode := rfl
@[simp] theorem State.setNondet_clLen (b : Bool) : (s.setNondet b).clLen = s.clLen := rfl
@[simp] theorem State.setNondet_clCode (b : Bool) : (s.setNondet b).clCode = s.clCode := rfl
@[simp] theorem State.setNondet_syms (b : Bool) : (s.setNondet b).syms = s.syms := rfl
@[simp] theorem State.setNondet_numCodes (b : Bool) : (s.setNondet b).numCodes = s.numCodes := rfl
@[simp] theorem State.setNondet_nextCode (b : Bool) : (s.setNondet b).nextCode = s.nextCode := rfl
@[simp] theorem State.setNondet_packed (b : Bool) : (s.setNondet b).packed = s.packed := rfl
@[simp] theorem State.setNondet_params (b : Bool) : (s.setNondet b).params = s.params := rfl
@[simp] theorem State.setNondet_hostIn (b : Bool) : (s.setNondet b).hostIn = s.hostIn := rfl
@[simp] theorem State.setNondet_returns (b : Bool) : (s.setNondet b).returns = s.returns := rfl
@[simp] theorem State.setNondet_sinkLog (b : Bool) : (s.setNondet b).sinkLog = s.sinkLog := rfl
@[simp] theorem State.setNondet_sinkAnswers (b : Bool) : (s.setNondet b).sinkAnswers = s.sinkAnswers := rfl
@[simp] theorem State.setNondet_sinkDraws (b : Bool) : (s.setNondet b).sinkDraws = s.sinkDraws := rfl
@[simp] theorem State.setNondet_resets (b : Bool) : (s.setNondet b).resets = s.resets := rfl
@[simp] theorem State.setNondet_sequencer (b : Bool) : (s.setNondet b).sequencer = s.sequencer := rfl
@[simp] theorem State.setNondet_opResult (b : Bool) : (s.setNondet b).opResult = s.opResult := rfl

@[simp] theorem State.setAdler_maxProbes (v : BitVec 32) : (s.setAdler v).maxProbes = s.maxProbes := rfl
@[simp] theorem State.setAdler_greedy (v : BitVec 32) : (s.setAdler v).greedy = s.greedy := rfl
@[simp] theorem State.setAdler_nondet (v : BitVec 32) : (s.setAdler v).nondet = s.nondet := rfl
@[simp] theorem State.setAdler_zlib (v : BitVec 32) : (s.setAdler v).zlib = s.zlib := rfl
@[simp] theorem State.setAdler_failed (v : BitVec 32) : (s.setAdler v).failed = s.failed := rfl
@[simp] theorem State.setAdler_closed (v : BitVec 32) : (s.setAdler v).closed = s.closed := rfl
@[simp] theorem State.setAdler_adler (v : BitVec 32) : (s.setAdler v).adler = v := rfl
@[simp] theorem State.setAdler_lookaheadPos (v : BitVec 32) : (s.setAdler v).lookaheadPos = s.lookaheadPos := rfl
@[simp] theorem State.setAdler_lookaheadSize (v : BitVec 32) : (s.setAdler v).lookaheadSize = s.lookaheadSize := rfl
@[simp] theorem State.setAdler_dictSize (v : BitVec 32) : (s.setAdler v).dictSize = s.dictSize := rfl
@[simp] theorem State.setAdler_dict (v : BitVec 32) : (s.setAdler v).dict = s.dict := rfl
@[simp] theorem State.setAdler_head (v : BitVec 32) : (s.setAdler v).head = s.head := rfl
@[simp] theorem State.setAdler_prev (v : BitVec 32) : (s.setAdler v).prev = s.prev := rfl
@[simp] theorem State.setAdler_savedLit (v : BitVec 32) : (s.setAdler v).savedLit = s.savedLit := rfl
@[simp] theorem State.setAdler_savedMatchDist (v : BitVec 32) : (s.setAdler v).savedMatchDist = s.savedMatchDist := rfl
@[simp] theorem State.setAdler_savedMatchLen (v : BitVec 32) : (s.setAdler v).savedMatchLen = s.savedMatchLen := rfl
@[simp] theorem State.setAdler_lzBuf (v : BitVec 32) : (s.setAdler v).lzBuf = s.lzBuf := rfl
@[simp] theorem State.setAdler_lzPos (v : BitVec 32) : (s.setAdler v).lzPos = s.lzPos := rfl
@[simp] theorem State.setAdler_lzFlagsPos (v : BitVec 32) : (s.setAdler v).lzFlagsPos = s.lzFlagsPos := rfl
@[simp] theorem State.setAdler_flagsLeft (v : BitVec 32) : (s.setAdler v).flagsLeft = s.flagsLeft := rfl
@[simp] theorem State.setAdler_bitBuffer (v : BitVec 32) : (s.setAdler v).bitBuffer = s.bitBuffer := rfl
@[simp] theorem State.setAdler_bitsIn (v : BitVec 32) : (s.setAdler v).bitsIn = s.bitsIn := rfl
@[simp] theorem State.setAdler_outBuf (v : BitVec 32) : (s.setAdler v).outBuf = s.outBuf := rfl
@[simp] theorem State.setAdler_outPos (v : BitVec 32) : (s.setAdler v).outPos = s.outPos := rfl
@[simp] theorem State.setAdler_litFreq (v : BitVec 32) : (s.setAdler v).litFreq = s.litFreq := rfl
@[simp] theorem State.setAdler_distFreq (v : BitVec 32) : (s.setAdler v).distFreq = s.distFreq := rfl
@[simp] theorem State.setAdler_clFreq (v : BitVec 32) : (s.setAdler v).clFreq = s.clFreq := rfl
@[simp] theorem State.setAdler_llLen (v : BitVec 32) : (s.setAdler v).llLen = s.llLen := rfl
@[simp] theorem State.setAdler_llCode (v : BitVec 32) : (s.setAdler v).llCode = s.llCode := rfl
@[simp] theorem State.setAdler_dLen (v : BitVec 32) : (s.setAdler v).dLen = s.dLen := rfl
@[simp] theorem State.setAdler_dCode (v : BitVec 32) : (s.setAdler v).dCode = s.dCode := rfl
@[simp] theorem State.setAdler_clLen (v : BitVec 32) : (s.setAdler v).clLen = s.clLen := rfl
@[simp] theorem State.setAdler_clCode (v : BitVec 32) : (s.setAdler v).clCode = s.clCode := rfl
@[simp] theorem State.setAdler_syms (v : BitVec 32) : (s.setAdler v).syms = s.syms := rfl
@[simp] theorem State.setAdler_numCodes (v : BitVec 32) : (s.setAdler v).numCodes = s.numCodes := rfl
@[simp] theorem State.setAdler_nextCode (v : BitVec 32) : (s.setAdler v).nextCode = s.nextCode := rfl
@[simp] theorem State.setAdler_packed (v : BitVec 32) : (s.setAdler v).packed = s.packed := rfl
@[simp] theorem State.setAdler_params (v : BitVec 32) : (s.setAdler v).params = s.params := rfl
@[simp] theorem State.setAdler_hostIn (v : BitVec 32) : (s.setAdler v).hostIn = s.hostIn := rfl
@[simp] theorem State.setAdler_returns (v : BitVec 32) : (s.setAdler v).returns = s.returns := rfl
@[simp] theorem State.setAdler_sinkLog (v : BitVec 32) : (s.setAdler v).sinkLog = s.sinkLog := rfl
@[simp] theorem State.setAdler_sinkAnswers (v : BitVec 32) : (s.setAdler v).sinkAnswers = s.sinkAnswers := rfl
@[simp] theorem State.setAdler_sinkDraws (v : BitVec 32) : (s.setAdler v).sinkDraws = s.sinkDraws := rfl
@[simp] theorem State.setAdler_resets (v : BitVec 32) : (s.setAdler v).resets = s.resets := rfl
@[simp] theorem State.setAdler_sequencer (v : BitVec 32) : (s.setAdler v).sequencer = s.sequencer := rfl
@[simp] theorem State.setAdler_opResult (v : BitVec 32) : (s.setAdler v).opResult = s.opResult := rfl

@[simp] theorem State.setCursors_maxProbes (p : BitVec 15) (z : BitVec 9) (h : BitVec 16) : (s.setCursors p z h).maxProbes = s.maxProbes := rfl
@[simp] theorem State.setCursors_greedy (p : BitVec 15) (z : BitVec 9) (h : BitVec 16) : (s.setCursors p z h).greedy = s.greedy := rfl
@[simp] theorem State.setCursors_nondet (p : BitVec 15) (z : BitVec 9) (h : BitVec 16) : (s.setCursors p z h).nondet = s.nondet := rfl
@[simp] theorem State.setCursors_zlib (p : BitVec 15) (z : BitVec 9) (h : BitVec 16) : (s.setCursors p z h).zlib = s.zlib := rfl
@[simp] theorem State.setCursors_failed (p : BitVec 15) (z : BitVec 9) (h : BitVec 16) : (s.setCursors p z h).failed = s.failed := rfl
@[simp] theorem State.setCursors_closed (p : BitVec 15) (z : BitVec 9) (h : BitVec 16) : (s.setCursors p z h).closed = s.closed := rfl
@[simp] theorem State.setCursors_adler (p : BitVec 15) (z : BitVec 9) (h : BitVec 16) : (s.setCursors p z h).adler = s.adler := rfl
@[simp] theorem State.setCursors_lookaheadPos (p : BitVec 15) (z : BitVec 9) (h : BitVec 16) : (s.setCursors p z h).lookaheadPos = p := rfl
@[simp] theorem State.setCursors_lookaheadSize (p : BitVec 15) (z : BitVec 9) (h : BitVec 16) : (s.setCursors p z h).lookaheadSize = z := rfl
@[simp] theorem State.setCursors_dictSize (p : BitVec 15) (z : BitVec 9) (h : BitVec 16) : (s.setCursors p z h).dictSize = h := rfl
@[simp] theorem State.setCursors_dict (p : BitVec 15) (z : BitVec 9) (h : BitVec 16) : (s.setCursors p z h).dict = s.dict := rfl
@[simp] theorem State.setCursors_head (p : BitVec 15) (z : BitVec 9) (h : BitVec 16) : (s.setCursors p z h).head = s.head := rfl
@[simp] theorem State.setCursors_prev (p : BitVec 15) (z : BitVec 9) (h : BitVec 16) : (s.setCursors p z h).prev = s.prev := rfl
@[simp] theorem State.setCursors_savedLit (p : BitVec 15) (z : BitVec 9) (h : BitVec 16) : (s.setCursors p z h).savedLit = s.savedLit := rfl
@[simp] theorem State.setCursors_savedMatchDist (p : BitVec 15) (z : BitVec 9) (h : BitVec 16) : (s.setCursors p z h).savedMatchDist = s.savedMatchDist := rfl
@[simp] theorem State.setCursors_savedMatchLen (p : BitVec 15) (z : BitVec 9) (h : BitVec 16) : (s.setCursors p z h).savedMatchLen = s.savedMatchLen := rfl
@[simp] theorem State.setCursors_lzBuf (p : BitVec 15) (z : BitVec 9) (h : BitVec 16) : (s.setCursors p z h).lzBuf = s.lzBuf := rfl
@[simp] theorem State.setCursors_lzPos (p : BitVec 15) (z : BitVec 9) (h : BitVec 16) : (s.setCursors p z h).lzPos = s.lzPos := rfl
@[simp] theorem State.setCursors_lzFlagsPos (p : BitVec 15) (z : BitVec 9) (h : BitVec 16) : (s.setCursors p z h).lzFlagsPos = s.lzFlagsPos := rfl
@[simp] theorem State.setCursors_flagsLeft (p : BitVec 15) (z : BitVec 9) (h : BitVec 16) : (s.setCursors p z h).flagsLeft = s.flagsLeft := rfl
@[simp] theorem State.setCursors_bitBuffer (p : BitVec 15) (z : BitVec 9) (h : BitVec 16) : (s.setCursors p z h).bitBuffer = s.bitBuffer := rfl
@[simp] theorem State.setCursors_bitsIn (p : BitVec 15) (z : BitVec 9) (h : BitVec 16) : (s.setCursors p z h).bitsIn = s.bitsIn := rfl
@[simp] theorem State.setCursors_outBuf (p : BitVec 15) (z : BitVec 9) (h : BitVec 16) : (s.setCursors p z h).outBuf = s.outBuf := rfl
@[simp] theorem State.setCursors_outPos (p : BitVec 15) (z : BitVec 9) (h : BitVec 16) : (s.setCursors p z h).outPos = s.outPos := rfl
@[simp] theorem State.setCursors_litFreq (p : BitVec 15) (z : BitVec 9) (h : BitVec 16) : (s.setCursors p z h).litFreq = s.litFreq := rfl
@[simp] theorem State.setCursors_distFreq (p : BitVec 15) (z : BitVec 9) (h : BitVec 16) : (s.setCursors p z h).distFreq = s.distFreq := rfl
@[simp] theorem State.setCursors_clFreq (p : BitVec 15) (z : BitVec 9) (h : BitVec 16) : (s.setCursors p z h).clFreq = s.clFreq := rfl
@[simp] theorem State.setCursors_llLen (p : BitVec 15) (z : BitVec 9) (h : BitVec 16) : (s.setCursors p z h).llLen = s.llLen := rfl
@[simp] theorem State.setCursors_llCode (p : BitVec 15) (z : BitVec 9) (h : BitVec 16) : (s.setCursors p z h).llCode = s.llCode := rfl
@[simp] theorem State.setCursors_dLen (p : BitVec 15) (z : BitVec 9) (h : BitVec 16) : (s.setCursors p z h).dLen = s.dLen := rfl
@[simp] theorem State.setCursors_dCode (p : BitVec 15) (z : BitVec 9) (h : BitVec 16) : (s.setCursors p z h).dCode = s.dCode := rfl
@[simp] theorem State.setCursors_clLen (p : BitVec 15) (z : BitVec 9) (h : BitVec 16) : (s.setCursors p z h).clLen = s.clLen := rfl
@[simp] theorem State.setCursors_clCode (p : BitVec 15) (z : BitVec 9) (h : BitVec 16) : (s.setCursors p z h).clCode = s.clCode := rfl
@[simp] theorem State.setCursors_syms (p : BitVec 15) (z : BitVec 9) (h : BitVec 16) : (s.setCursors p z h).syms = s.syms := rfl
@[simp] theorem State.setCursors_numCodes (p : BitVec 15) (z : BitVec 9) (h : BitVec 16) : (s.setCursors p z h).numCodes = s.numCodes := rfl
@[simp] theorem State.setCursors_nextCode (p : BitVec 15) (z : BitVec 9) (h : BitVec 16) : (s.setCursors p z h).nextCode = s.nextCode := rfl
@[simp] theorem State.setCursors_packed (p : BitVec 15) (z : BitVec 9) (h : BitVec 16) : (s.setCursors p z h).packed = s.packed := rfl
@[simp] theorem State.setCursors_params (p : BitVec 15) (z : BitVec 9) (h : BitVec 16) : (s.setCursors p z h).params = s.params := rfl
@[simp] theorem State.setCursors_hostIn (p : BitVec 15) (z : BitVec 9) (h : BitVec 16) : (s.setCursors p z h).hostIn = s.hostIn := rfl
@[simp] theorem State.setCursors_returns (p : BitVec 15) (z : BitVec 9) (h : BitVec 16) : (s.setCursors p z h).returns = s.returns := rfl
@[simp] theorem State.setCursors_sinkLog (p : BitVec 15) (z : BitVec 9) (h : BitVec 16) : (s.setCursors p z h).sinkLog = s.sinkLog := rfl
@[simp] theorem State.setCursors_sinkAnswers (p : BitVec 15) (z : BitVec 9) (h : BitVec 16) : (s.setCursors p z h).sinkAnswers = s.sinkAnswers := rfl
@[simp] theorem State.setCursors_sinkDraws (p : BitVec 15) (z : BitVec 9) (h : BitVec 16) : (s.setCursors p z h).sinkDraws = s.sinkDraws := rfl
@[simp] theorem State.setCursors_resets (p : BitVec 15) (z : BitVec 9) (h : BitVec 16) : (s.setCursors p z h).resets = s.resets := rfl
@[simp] theorem State.setCursors_sequencer (p : BitVec 15) (z : BitVec 9) (h : BitVec 16) : (s.setCursors p z h).sequencer = s.sequencer := rfl
@[simp] theorem State.setCursors_opResult (p : BitVec 15) (z : BitVec 9) (h : BitVec 16) : (s.setCursors p z h).opResult = s.opResult := rfl

@[simp] theorem State.setDict_maxProbes (m : Mem 8) : (s.setDict m).maxProbes = s.maxProbes := rfl
@[simp] theorem State.setDict_greedy (m : Mem 8) : (s.setDict m).greedy = s.greedy := rfl
@[simp] theorem State.setDict_nondet (m : Mem 8) : (s.setDict m).nondet = s.nondet := rfl
@[simp] theorem State.setDict_zlib (m : Mem 8) : (s.setDict m).zlib = s.zlib := rfl
@[simp] theorem State.setDict_failed (m : Mem 8) : (s.setDict m).failed = s.failed := rfl
@[simp] theorem State.setDict_closed (m : Mem 8) : (s.setDict m).closed = s.closed := rfl
@[simp] theorem State.setDict_adler (m : Mem 8) : (s.setDict m).adler = s.adler := rfl
@[simp] theorem State.setDict_lookaheadPos (m : Mem 8) : (s.setDict m).lookaheadPos = s.lookaheadPos := rfl
@[simp] theorem State.setDict_lookaheadSize (m : Mem 8) : (s.setDict m).lookaheadSize = s.lookaheadSize := rfl
@[simp] theorem State.setDict_dictSize (m : Mem 8) : (s.setDict m).dictSize = s.dictSize := rfl
@[simp] theorem State.setDict_dict (m : Mem 8) : (s.setDict m).dict = m := rfl
@[simp] theorem State.setDict_head (m : Mem 8) : (s.setDict m).head = s.head := rfl
@[simp] theorem State.setDict_prev (m : Mem 8) : (s.setDict m).prev = s.prev := rfl
@[simp] theorem State.setDict_savedLit (m : Mem 8) : (s.setDict m).savedLit = s.savedLit := rfl
@[simp] theorem State.setDict_savedMatchDist (m : Mem 8) : (s.setDict m).savedMatchDist = s.savedMatchDist := rfl
@[simp] theorem State.setDict_savedMatchLen (m : Mem 8) : (s.setDict m).savedMatchLen = s.savedMatchLen := rfl
@[simp] theorem State.setDict_lzBuf (m : Mem 8) : (s.setDict m).lzBuf = s.lzBuf := rfl
@[simp] theorem State.setDict_lzPos (m : Mem 8) : (s.setDict m).lzPos = s.lzPos := rfl
@[simp] theorem State.setDict_lzFlagsPos (m : Mem 8) : (s.setDict m).lzFlagsPos = s.lzFlagsPos := rfl
@[simp] theorem State.setDict_flagsLeft (m : Mem 8) : (s.setDict m).flagsLeft = s.flagsLeft := rfl
@[simp] theorem State.setDict_bitBuffer (m : Mem 8) : (s.setDict m).bitBuffer = s.bitBuffer := rfl
@[simp] theorem State.setDict_bitsIn (m : Mem 8) : (s.setDict m).bitsIn = s.bitsIn := rfl
@[simp] theorem State.setDict_outBuf (m : Mem 8) : (s.setDict m).outBuf = s.outBuf := rfl
@[simp] theorem State.setDict_outPos (m : Mem 8) : (s.setDict m).outPos = s.outPos := rfl
@[simp] theorem State.setDict_litFreq (m : Mem 8) : (s.setDict m).litFreq = s.litFreq := rfl
@[simp] theorem State.setDict_distFreq (m : Mem 8) : (s.setDict m).distFreq = s.distFreq := rfl
@[simp] theorem State.setDict_clFreq (m : Mem 8) : (s.setDict m).clFreq = s.clFreq := rfl
@[simp] theorem State.setDict_llLen (m : Mem 8) : (s.setDict m).llLen = s.llLen := rfl
@[simp] theorem State.setDict_llCode (m : Mem 8) : (s.setDict m).llCode = s.llCode := rfl
@[simp] theorem State.setDict_dLen (m : Mem 8) : (s.setDict m).dLen = s.dLen := rfl
@[simp] theorem State.setDict_dCode (m : Mem 8) : (s.setDict m).dCode = s.dCode := rfl
@[simp] theorem State.setDict_clLen (m : Mem 8) : (s.setDict m).clLen = s.clLen := rfl
@[simp] theorem State.setDict_clCode (m : Mem 8) : (s.setDict m).clCode = s.clCode := rfl
@[simp] theorem State.setDict_syms (m : Mem 8) : (s.setDict m).syms = s.syms := rfl
@[simp] theorem State.setDict_numCodes (m : Mem 8) : (s.setDict m).numCodes = s.numCodes := rfl
@[simp] theorem State.setDict_nextCode (m : Mem 8) : (s.setDict m).nextCode = s.nextCode := rfl
@[simp] theorem State.setDict_packed (m : Mem 8) : (s.setDict m).packed = s.packed := rfl
@[simp] theorem State.setDict_params (m : Mem 8) : (s.setDict m).params = s.params := rfl
@[simp] theorem State.setDict_hostIn (m : Mem 8) : (s.setDict m).hostIn = s.hostIn := rfl
@[simp] theorem State.setDict_returns (m : Mem 8) : (s.setDict m).returns = s.returns := rfl
@[simp] theorem State.setDict_sinkLog (m : Mem 8) : (s.setDict m).sinkLog = s.sinkLog := rfl
@[simp] theorem State.setDict_sinkAnswers (m : Mem 8) : (s.setDict m).sinkAnswers = s.sinkAnswers := rfl
@[simp] theorem State.setDict_sinkDraws (m : Mem 8) : (s.setDict m).sinkDraws = s.sinkDraws := rfl
@[simp] theorem State.setDict_resets (m : Mem 8) : (s.setDict m).resets = s.resets := rfl
@[simp] theorem State.setDict_sequencer (m : Mem 8) : (s.setDict m).sequencer = s.sequencer := rfl
@[simp] theorem State.setDict_opResult (m : Mem 8) : (s.setDict m).opResult = s.opResult := rfl

@[simp] theorem State.setHead_maxProbes (m : Mem 16) : (s.setHead m).maxProbes = s.maxProbes := rfl
@[simp] theorem State.setHead_greedy (m : Mem 16) : (s.setHead m).greedy = s.greedy := rfl
@[simp] theorem State.setHead_nondet (m : Mem 16) : (s.setHead m).nondet = s.nondet := rfl
@[simp] theorem State.setHead_zlib (m : Mem 16) : (s.setHead m).zlib = s.zlib := rfl
@[simp] theorem State.setHead_failed (m : Mem 16) : (s.setHead m).failed = s.failed := rfl
@[simp] theorem State.setHead_closed (m : Mem 16) : (s.setHead m).closed = s.closed := rfl
@[simp] theorem State.setHead_adler (m : Mem 16) : (s.setHead m).adler = s.adler := rfl
@[simp] theorem State.setHead_lookaheadPos (m : Mem 16) : (s.setHead m).lookaheadPos = s.lookaheadPos := rfl
@[simp] theorem State.setHead_lookaheadSize (m : Mem 16) : (s.setHead m).lookaheadSize = s.lookaheadSize := rfl
@[simp] theorem State.setHead_dictSize (m : Mem 16) : (s.setHead m).dictSize = s.dictSize := rfl
@[simp] theorem State.setHead_dict (m : Mem 16) : (s.setHead m).dict = s.dict := rfl
@[simp] theorem State.setHead_head (m : Mem 16) : (s.setHead m).head = m := rfl
@[simp] theorem State.setHead_prev (m : Mem 16) : (s.setHead m).prev = s.prev := rfl
@[simp] theorem State.setHead_savedLit (m : Mem 16) : (s.setHead m).savedLit = s.savedLit := rfl
@[simp] theorem State.setHead_savedMatchDist (m : Mem 16) : (s.setHead m).savedMatchDist = s.savedMatchDist := rfl
@[simp] theorem State.setHead_savedMatchLen (m : Mem 16) : (s.setHead m).savedMatchLen = s.savedMatchLen := rfl
@[simp] theorem State.setHead_lzBuf (m : Mem 16) : (s.setHead m).lzBuf = s.lzBuf := rfl
@[simp] theorem State.setHead_lzPos (m : Mem 16) : (s.setHead m).lzPos = s.lzPos := rfl
@[simp] theorem State.setHead_lzFlagsPos (m : Mem 16) : (s.setHead m).lzFlagsPos = s.lzFlagsPos := rfl
@[simp] theorem State.setHead_flagsLeft (m : Mem 16) : (s.setHead m).flagsLeft = s.flagsLeft := rfl
@[simp] theorem State.setHead_bitBuffer (m : Mem 16) : (s.setHead m).bitBuffer = s.bitBuffer := rfl
@[simp] theorem State.setHead_bitsIn (m : Mem 16) : (s.setHead m).bitsIn = s.bitsIn := rfl
@[simp] theorem State.setHead_outBuf (m : Mem 16) : (s.setHead m).outBuf = s.outBuf := rfl
@[simp] theorem State.setHead_outPos (m : Mem 16) : (s.setHead m).outPos = s.outPos := rfl
@[simp] theorem State.setHead_litFreq (m : Mem 16) : (s.setHead m).litFreq = s.litFreq := rfl
@[simp] theorem State.setHead_distFreq (m : Mem 16) : (s.setHead m).distFreq = s.distFreq := rfl
@[simp] theorem State.setHead_clFreq (m : Mem 16) : (s.setHead m).clFreq = s.clFreq := rfl
@[simp] theorem State.setHead_llLen (m : Mem 16) : (s.setHead m).llLen = s.llLen := rfl
@[simp] theorem State.setHead_llCode (m : Mem 16) : (s.setHead m).llCode = s.llCode := rfl
@[simp] theorem State.setHead_dLen (m : Mem 16) : (s.setHead m).dLen = s.dLen := rfl
@[simp] theorem State.setHead_dCode (m : Mem 16) : (s.setHead m).dCode = s.dCode := rfl
@[simp] theorem State.setHead_clLen (m : Mem 16) : (s.setHead m).clLen = s.clLen := rfl
@[simp] theorem State.setHead_clCode (m : Mem 16) : (s.setHead m).clCode = s.clCode := rfl
@[simp] theorem State.setHead_syms (m : Mem 16) : (s.setHead m).syms = s.syms := rfl
@[simp] theorem State.setHead_numCodes (m : Mem 16) : (s.setHead m).numCodes = s.numCodes := rfl
@[simp] theorem State.setHead_nextCode (m : Mem 16) : (s.setHead m).nextCode = s.nextCode := rfl
@[simp] theorem State.setHead_packed (m : Mem 16) : (s.setHead m).packed = s.packed := rfl
@[simp] theorem State.setHead_params (m : Mem 16) : (s.setHead m).params = s.params := rfl
@[simp] theorem State.setHead_hostIn (m : Mem 16) : (s.setHead m).hostIn = s.hostIn := rfl
@[simp] theorem State.setHead_returns (m : Mem 16) : (s.setHead m).returns = s.returns := rfl
@[simp] theorem State.setHead_sinkLog (m : Mem 16) : (s.setHead m).sinkLog = s.sinkLog := rfl
@[simp] theorem State.setHead_sinkAnswers (m : Mem 16) : (s.setHead m).sinkAnswers = s.sinkAnswers := rfl
@[simp] theorem State.setHead_sinkDraws (m : Mem 16) : (s.setHead m).sinkDraws = s.sinkDraws := rfl
@[simp] theorem State.setHead_resets (m : Mem 16) : (s.setHead m).resets = s.resets := rfl
@[simp] theorem State.setHead_sequencer (m : Mem 16) : (s.setHead m).sequencer = s.sequencer := rfl
@[simp] theorem State.setHead_opResult (m : Mem 16) : (s.setHead m).opResult = s.opResult := rfl

@[simp] theorem State.setPrev_maxProbes (m : Mem 16) : (s.setPrev m).maxProbes = s.maxProbes := rfl
@[simp] theorem State.setPrev_greedy (m : Mem 16) : (s.setPrev m).greedy = s.greedy := rfl
@[simp] theorem State.setPrev_nondet (m : Mem 16) : (s.setPrev m).nondet = s.nondet := rfl
@[simp] theorem State.setPrev_zlib (m : Mem 16) : (s.setPrev m).zlib = s.zlib := rfl
@[simp] theorem State.setPrev_failed (m : Mem 16) : (s.setPrev m).failed = s.failed := rfl
@[simp] theorem State.setPrev_closed (m : Mem 16) : (s.setPrev m).closed = s.closed := rfl
@[simp] theorem State.setPrev_adler (m : Mem 16) : (s.setPrev m).adler = s.adler := rfl
@[simp] theorem State.setPrev_lookaheadPos (m : Mem 16) : (s.setPrev m).lookaheadPos = s.lookaheadPos := rfl
@[simp] theorem State.setPrev_lookaheadSize (m : Mem 16) : (s.setPrev m).lookaheadSize = s.lookaheadSize := rfl
@[simp] theorem State.setPrev_dictSize (m : Mem 16) : (s.setPrev m).dictSize = s.dictSize := rfl
@[simp] theorem State.setPrev_dict (m : Mem 16) : (s.setPrev m).dict = s.dict := rfl
@[simp] theorem State.setPrev_head (m : Mem 16) : (s.setPrev m).head = s.head := rfl
@[simp] theorem State.setPrev_prev (m : Mem 16) : (s.setPrev m).prev = m := rfl
@[simp] theorem State.setPrev_savedLit (m : Mem 16) : (s.setPrev m).savedLit = s.savedLit := rfl
@[simp] theorem State.setPrev_savedMatchDist (m : Mem 16) : (s.setPrev m).savedMatchDist = s.savedMatchDist := rfl
@[simp] theorem State.setPrev_savedMatchLen (m : Mem 16) : (s.setPrev m).savedMatchLen = s.savedMatchLen := rfl
@[simp] theorem State.setPrev_lzBuf (m : Mem 16) : (s.setPrev m).lzBuf = s.lzBuf := rfl
@[simp] theorem State.setPrev_lzPos (m : Mem 16) : (s.setPrev m).lzPos = s.lzPos := rfl
@[simp] theorem State.setPrev_lzFlagsPos (m : Mem 16) : (s.setPrev m).lzFlagsPos = s.lzFlagsPos := rfl
@[simp] theorem State.setPrev_flagsLeft (m : Mem 16) : (s.setPrev m).flagsLeft = s.flagsLeft := rfl
@[simp] theorem State.setPrev_bitBuffer (m : Mem 16) : (s.setPrev m).bitBuffer = s.bitBuffer := rfl
@[simp] theorem State.setPrev_bitsIn (m : Mem 16) : (s.setPrev m).bitsIn = s.bitsIn := rfl
@[simp] theorem State.setPrev_outBuf (m : Mem 16) : (s.setPrev m).outBuf = s.outBuf := rfl
@[simp] theorem State.setPrev_outPos (m : Mem 16) : (s.setPrev m).outPos = s.outPos := rfl
@[simp] theorem State.setPrev_litFreq (m : Mem 16) : (s.setPrev m).litFreq = s.litFreq := rfl
@[simp] theorem State.setPrev_distFreq (m : Mem 16) : (s.setPrev m).distFreq = s.distFreq := rfl
@[simp] theorem State.setPrev_clFreq (m : Mem 16) : (s.setPrev m).clFreq = s.clFreq := rfl
@[simp] theorem State.setPrev_llLen (m : Mem 16) : (s.setPrev m).llLen = s.llLen := rfl
@[simp] theorem State.setPrev_llCode (m : Mem 16) : (s.setPrev m).llCode = s.llCode := rfl
@[simp] theorem State.setPrev_dLen (m : Mem 16) : (s.setPrev m).dLen = s.dLen := rfl
@[simp] theorem State.setPrev_dCode (m : Mem 16) : (s.setPrev m).dCode = s.dCode := rfl
@[simp] theorem State.setPrev_clLen (m : Mem 16) : (s.setPrev m).clLen = s.clLen := rfl
@[simp] theorem State.setPrev_clCode (m : Mem 16) : (s.setPrev m).clCode = s.clCode := rfl
@[simp] theorem State.setPrev_syms (m : Mem 16) : (s.setPrev m).syms = s.syms := rfl
@[simp] theorem State.setPrev_numCodes (m : Mem 16) : (s.setPrev m).numCodes = s.numCodes := rfl
@[simp] theorem State.setPrev_nextCode (m : Mem 16) : (s.setPrev m).nextCode = s.nextCode := rfl
@[simp] theorem State.setPrev_packed (m : Mem 16) : (s.setPrev m).packed = s.packed := rfl
@[simp] theorem State.setPrev_params (m : Mem 16) : (s.setPrev m).params = s.params := rfl
@[simp] theorem State.setPrev_hostIn (m : Mem 16) : (s.setPrev m).hostIn = s.hostIn := rfl
@[simp] theorem State.setPrev_returns (m : Mem 16) : (s.setPrev m).returns = s.returns := rfl
@[simp] theorem State.setPrev_sinkLog (m : Mem 16) : (s.setPrev m).sinkLog = s.sinkLog := rfl
@[simp] theorem State.setPrev_sinkAnswers (m : Mem 16) : (s.setPrev m).sinkAnswers = s.sinkAnswers := rfl
@[simp] theorem State.setPrev_sinkDraws (m : Mem 16) : (s.setPrev m).sinkDraws = s.sinkDraws := rfl
@[simp] theorem State.setPrev_resets (m : Mem 16) : (s.setPrev m).resets = s.resets := rfl
@[simp] theorem State.setPrev_sequencer (m : Mem 16) : (s.setPrev m).sequencer = s.sequencer := rfl
@[simp] theorem State.setPrev_opResult (m : Mem 16) : (s.setPrev m).opResult = s.opResult := rfl

@[simp] theorem State.setSaved_maxProbes (v : BitVec 8) (d : BitVec 16) (l : BitVec 9) : (s.setSaved v d l).maxProbes = s.maxProbes := rfl
@[simp] theorem State.setSaved_greedy (v : BitVec 8) (d : BitVec 16) (l : BitVec 9) : (s.setSaved v d l).greedy = s.greedy := rfl
@[simp] theorem State.setSaved_nondet (v : BitVec 8) (d : BitVec 16) (l : BitVec 9) : (s.setSaved v d l).nondet = s.nondet := rfl
@[simp] theorem State.setSaved_zlib (v : BitVec 8) (d : BitVec 16) (l : BitVec 9) : (s.setSaved v d l).zlib = s.zlib := rfl
@[simp] theorem State.setSaved_failed (v : BitVec 8) (d : BitVec 16) (l : BitVec 9) : (s.setSaved v d l).failed = s.failed := rfl
@[simp] theorem State.setSaved_closed (v : BitVec 8) (d : BitVec 16) (l : BitVec 9) : (s.setSaved v d l).closed = s.closed := rfl
@[simp] theorem State.setSaved_adler (v : BitVec 8) (d : BitVec 16) (l : BitVec 9) : (s.setSaved v d l).adler = s.adler := rfl
@[simp] theorem State.setSaved_lookaheadPos (v : BitVec 8) (d : BitVec 16) (l : BitVec 9) : (s.setSaved v d l).lookaheadPos = s.lookaheadPos := rfl
@[simp] theorem State.setSaved_lookaheadSize (v : BitVec 8) (d : BitVec 16) (l : BitVec 9) : (s.setSaved v d l).lookaheadSize = s.lookaheadSize := rfl
@[simp] theorem State.setSaved_dictSize (v : BitVec 8) (d : BitVec 16) (l : BitVec 9) : (s.setSaved v d l).dictSize = s.dictSize := rfl
@[simp] theorem State.setSaved_dict (v : BitVec 8) (d : BitVec 16) (l : BitVec 9) : (s.setSaved v d l).dict = s.dict := rfl
@[simp] theorem State.setSaved_head (v : BitVec 8) (d : BitVec 16) (l : BitVec 9) : (s.setSaved v d l).head = s.head := rfl
@[simp] theorem State.setSaved_prev (v : BitVec 8) (d : BitVec 16) (l : BitVec 9) : (s.setSaved v d l).prev = s.prev := rfl
@[simp] theorem State.setSaved_savedLit (v : BitVec 8) (d : BitVec 16) (l : BitVec 9) : (s.setSaved v d l).savedLit = v := rfl
@[simp] theorem State.setSaved_savedMatchDist (v : BitVec 8) (d : BitVec 16) (l : BitVec 9) : (s.setSaved v d l).savedMatchDist = d := rfl
@[simp] theorem State.setSaved_savedMatchLen (v : BitVec 8) (d : BitVec 16) (l : BitVec 9) : (s.setSaved v d l).savedMatchLen = l := rfl
@[simp] theorem State.setSaved_lzBuf (v : BitVec 8) (d : BitVec 16) (l : BitVec 9) : (s.setSaved v d l).lzBuf = s.lzBuf := rfl
@[simp] theorem State.setSaved_lzPos (v : BitVec 8) (d : BitVec 16) (l : BitVec 9) : (s.setSaved v d l).lzPos = s.lzPos := rfl
@[simp] theorem State.setSaved_lzFlagsPos (v : BitVec 8) (d : BitVec 16) (l : BitVec 9) : (s.setSaved v d l).lzFlagsPos = s.lzFlagsPos := rfl
@[simp] theorem State.setSaved_flagsLeft (v : BitVec 8) (d : BitVec 16) (l : BitVec 9) : (s.setSaved v d l).flagsLeft = s.flagsLeft := rfl
@[simp] theorem State.setSaved_bitBuffer (v : BitVec 8) (d : BitVec 16) (l : BitVec 9) : (s.setSaved v d l).bitBuffer = s.bitBuffer := rfl
@[simp] theorem State.setSaved_bitsIn (v : BitVec 8) (d : BitVec 16) (l : BitVec 9) : (s.setSaved v d l).bitsIn = s.bitsIn := rfl
@[simp] theorem State.setSaved_outBuf (v : BitVec 8) (d : BitVec 16) (l : BitVec 9) : (s.setSaved v d l).outBuf = s.outBuf := rfl
@[simp] theorem State.setSaved_outPos (v : BitVec 8) (d : BitVec 16) (l : BitVec 9) : (s.setSaved v d l).outPos = s.outPos := rfl
@[simp] theorem State.setSaved_litFreq (v : BitVec 8) (d : BitVec 16) (l : BitVec 9) : (s.setSaved v d l).litFreq = s.litFreq := rfl
@[simp] theorem State.setSaved_distFreq (v : BitVec 8) (d : BitVec 16) (l : BitVec 9) : (s.setSaved v d l).distFreq = s.distFreq := rfl
@[simp] theorem State.setSaved_clFreq (v : BitVec 8) (d : BitVec 16) (l : BitVec 9) : (s.setSaved v d l).clFreq = s.clFreq := rfl
@[simp] theorem State.setSaved_llLen (v : BitVec 8) (d : BitVec 16) (l : BitVec 9) : (s.setSaved v d l).llLen = s.llLen := rfl
@[simp] theorem State.setSaved_llCode (v : BitVec 8) (d : BitVec 16) (l : BitVec 9) : (s.setSaved v d l).llCode = s.llCode := rfl
@[simp] theorem State.setSaved_dLen (v : BitVec 8) (d : BitVec 16) (l : BitVec 9) : (s.setSaved v d l).dLen = s.dLen := rfl
@[simp] theorem State.setSaved_dCode (v : BitVec 8) (d : BitVec 16) (l : BitVec 9) : (s.setSaved v d l).dCode = s.dCode := rfl
@[simp] theorem State.setSaved_clLen (v : BitVec 8) (d : BitVec 16) (l : BitVec 9) : (s.setSaved v d l).clLen = s.clLen := rfl
@[simp] theorem State.setSaved_clCode (v : BitVec 8) (d : BitVec 16) (l : BitVec 9) : (s.setSaved v d l).clCode = s.clCode := rfl
@[simp] theorem State.setSaved_syms (v : BitVec 8) (d : BitVec 16) (l : BitVec 9) : (s.setSaved v d l).syms = s.syms := rfl
@[simp] theorem State.setSaved_numCodes (v : BitVec 8) (d : BitVec 16) (l : BitVec 9) : (s.setSaved v d l).numCodes = s.numCodes := rfl
@[simp] theorem State.setSaved_nextCode (v : BitVec 8) (d : BitVec 16) (l : BitVec 9) : (s.setSaved v d l).nextCode = s.nextCode := rfl
@[simp] theorem State.setSaved_packed (v : BitVec 8) (d : BitVec 16) (l : BitVec 9) : (s.setSaved v d l).packed = s.packed := rfl
@[simp] theorem State.setSaved_params (v : BitVec 8) (d : BitVec 16) (l : BitVec 9) : (s.setSaved v d l).params = s.params := rfl
@[simp] theorem State.setSaved_hostIn (v : BitVec 8) (d : BitVec 16) (l : BitVec 9) : (s.setSaved v d l).hostIn = s.hostIn := rfl
@[simp] theorem State.setSaved_returns (v : BitVec 8) (d : BitVec 16) (l : BitVec 9) : (s.setSaved v d l).returns = s.returns := rfl
@[simp] theorem State.setSaved_sinkLog (v : BitVec 8) (d : BitVec 16) (l : BitVec 9) : (s.setSaved v d l).sinkLog = s.sinkLog := rfl
@[simp] theorem State.setSaved_sinkAnswers (v : BitVec 8) (d : BitVec 16) (l : BitVec 9) : (s.setSaved v d l).sinkAnswers = s.sinkAnswers := rfl
@[simp] theorem State.setSaved_sinkDraws (v : BitVec 8) (d : BitVec 16) (l : BitVec 9) : (s.setSaved v d l).sinkDraws = s.sinkDraws := rfl
@[simp] theorem State.setSaved_resets (v : BitVec 8) (d : BitVec 16) (l : BitVec 9) : (s.setSaved v d l).resets = s.resets := rfl
@[simp] theorem State.setSaved_sequencer (v : BitVec 8) (d : BitVec 16) (l : BitVec 9) : (s.setSaved v d l).sequencer = s.sequencer := rfl
@[simp] theorem State.setSaved_opResult (v : BitVec 8) (d : BitVec 16) (l : BitVec 9) : (s.setSaved v d l).opResult = s.opResult := rfl

@[simp] theorem State.setLzBuf_maxProbes (m : Mem 8) : (s.setLzBuf m).maxProbes = s.maxProbes := rfl
@[simp] theorem State.setLzBuf_greedy (m : Mem 8) : (s.setLzBuf m).greedy = s.greedy := rfl
@[simp] theorem State.setLzBuf_nondet (m : Mem 8) : (s.setLzBuf m).nondet = s.nondet := rfl
@[simp] theorem State.setLzBuf_zlib (m : Mem 8) : (s.setLzBuf m).zlib = s.zlib := rfl
@[simp] theorem State.setLzBuf_failed (m : Mem 8) : (s.setLzBuf m).failed = s.failed := rfl
@[simp] theorem State.setLzBuf_closed (m : Mem 8) : (s.setLzBuf m).closed = s.closed := rfl
@[simp] theorem State.setLzBuf_adler (m : Mem 8) : (s.setLzBuf m).adler = s.adler := rfl
@[simp] theorem State.setLzBuf_lookaheadPos (m : Mem 8) : (s.setLzBuf m).lookaheadPos = s.lookaheadPos := rfl
@[simp] theorem State.setLzBuf_lookaheadSize (m : Mem 8) : (s.setLzBuf m).lookaheadSize = s.lookaheadSize := rfl
@[simp] theorem State.setLzBuf_dictSize (m : Mem 8) : (s.setLzBuf m).dictSize = s.dictSize := rfl
@[simp] theorem State.setLzBuf_dict (m : Mem 8) : (s.setLzBuf m).dict = s.dict := rfl
@[simp] theorem State.setLzBuf_head (m : Mem 8) : (s.setLzBuf m).head = s.head := rfl
@[simp] theorem State.setLzBuf_prev (m : Mem 8) : (s.setLzBuf m).prev = s.prev := rfl
@[simp] theorem State.setLzBuf_savedLit (m : Mem 8) : (s.setLzBuf m).savedLit = s.savedLit := rfl
@[simp] theorem State.setLzBuf_savedMatchDist (m : Mem 8) : (s.setLzBuf m).savedMatchDist = s.savedMatchDist := rfl
@[simp] theorem State.setLzBuf_savedMatchLen (m : Mem 8) : (s.setLzBuf m).savedMatchLen = s.savedMatchLen := rfl
@[simp] theorem State.setLzBuf_lzBuf (m : Mem 8) : (s.setLzBuf m).lzBuf = m := rfl
@[simp] theorem State.setLzBuf_lzPos (m : Mem 8) : (s.setLzBuf m).lzPos = s.lzPos := rfl
@[simp] theorem State.setLzBuf_lzFlagsPos (m : Mem 8) : (s.setLzBuf m).lzFlagsPos = s.lzFlagsPos := rfl
@[simp] theorem State.setLzBuf_flagsLeft (m : Mem 8) : (s.setLzBuf m).flagsLeft = s.flagsLeft := rfl
@[simp] theorem State.setLzBuf_bitBuffer (m : Mem 8) : (s.setLzBuf m).bitBuffer = s.bitBuffer := rfl
@[simp] theorem State.setLzBuf_bitsIn (m : Mem 8) : (s.setLzBuf m).bitsIn = s.bitsIn := rfl
@[simp] theorem State.setLzBuf_outBuf (m : Mem 8) : (s.setLzBuf m).outBuf = s.outBuf := rfl
@[simp] theorem State.setLzBuf_outPos (m : Mem 8) : (s.setLzBuf m).outPos = s.outPos := rfl
@[simp] theorem State.setLzBuf_litFreq (m : Mem 8) : (s.setLzBuf m).litFreq = s.litFreq := rfl
@[simp] theorem State.setLzBuf_distFreq (m : Mem 8) : (s.setLzBuf m).distFreq = s.distFreq := rfl
@[simp] theorem State.setLzBuf_clFreq (m : Mem 8) : (s.setLzBuf m).clFreq = s.clFreq := rfl
@[simp] theorem State.setLzBuf_llLen (m : Mem 8) : (s.setLzBuf m).llLen = s.llLen := rfl
@[simp] theorem State.setLzBuf_llCode (m : Mem 8) : (s.setLzBuf m).llCode = s.llCode := rfl
@[simp] theorem State.setLzBuf_dLen (m : Mem 8) : (s.setLzBuf m).dLen = s.dLen := rfl
@[simp] theorem State.setLzBuf_dCode (m : Mem 8) : (s.setLzBuf m).dCode = s.dCode := rfl
@[simp] theorem State.setLzBuf_clLen (m : Mem 8) : (s.setLzBuf m).clLen = s.clLen := rfl
@[simp] theorem State.setLzBuf_clCode (m : Mem 8) : (s.setLzBuf m).clCode = s.clCode := rfl
@[simp] theorem State.setLzBuf_syms (m : Mem 8) : (s.setLzBuf m).syms = s.syms := rfl
@[simp] theorem State.setLzBuf_numCodes (m : Mem 8) : (s.setLzBuf m).numCodes = s.numCodes := rfl
@[simp] theorem State.setLzBuf_nextCode (m : Mem 8) : (s.setLzBuf m).nextCode = s.nextCode := rfl
@[simp] theorem State.setLzBuf_packed (m : Mem 8) : (s.setLzBuf m).packed = s.packed := rfl
@[simp] theorem State.setLzBuf_params (m : Mem 8) : (s.setLzBuf m).params = s.params := rfl
@[simp] theorem State.setLzBuf_hostIn (m : Mem 8) : (s.setLzBuf m).hostIn = s.hostIn := rfl
@[simp] theorem State.setLzBuf_returns (m : Mem 8) : (s.setLzBuf m).returns = s.returns := rfl
@[simp] theorem State.setLzBuf_sinkLog (m : Mem 8) : (s.setLzBuf m).sinkLog = s.sinkLog := rfl
@[simp] theorem State.setLzBuf_sinkAnswers (m : Mem 8) : (s.setLzBuf m).sinkAnswers = s.sinkAnswers := rfl
@[simp] theorem State.setLzBuf_sinkDraws (m : Mem 8) : (s.setLzBuf m).sinkDraws = s.sinkDraws := rfl
@[simp] theorem State.setLzBuf_resets (m : Mem 8) : (s.setLzBuf m).resets = s.resets := rfl
@[simp] theorem State.setLzBuf_sequencer (m : Mem 8) : (s.setLzBuf m).sequencer = s.sequencer := rfl
@[simp] theorem State.setLzBuf_opResult (m : Mem 8) : (s.setLzBuf m).opResult = s.opResult := rfl

@[simp] theorem State.setLzCursors_maxProbes (p : BitVec 16) (f : BitVec 15) (n : BitVec 4) : (s.setLzCursors p f n).maxProbes = s.maxProbes := rfl
@[simp] theorem State.setLzCursors_greedy (p : BitVec 16) (f : BitVec 15) (n : BitVec 4) : (s.setLzCursors p f n).greedy = s.greedy := rfl
@[simp] theorem State.setLzCursors_nondet (p : BitVec 16) (f : BitVec 15) (n : BitVec 4) : (s.setLzCursors p f n).nondet = s.nondet := rfl
@[simp] theorem State.setLzCursors_zlib (p : BitVec 16) (f : BitVec 15) (n : BitVec 4) : (s.setLzCursors p f n).zlib = s.zlib := rfl
@[simp] theorem State.setLzCursors_failed (p : BitVec 16) (f : BitVec 15) (n : BitVec 4) : (s.setLzCursors p f n).failed = s.failed := rfl
@[simp] theorem State.setLzCursors_closed (p : BitVec 16) (f : BitVec 15) (n : BitVec 4) : (s.setLzCursors p f n).closed = s.closed := rfl
@[simp] theorem State.setLzCursors_adler (p : BitVec 16) (f : BitVec 15) (n : BitVec 4) : (s.setLzCursors p f n).adler = s.adler := rfl
@[simp] theorem State.setLzCursors_lookaheadPos (p : BitVec 16) (f : BitVec 15) (n : BitVec 4) : (s.setLzCursors p f n).lookaheadPos = s.lookaheadPos := rfl
@[simp] theorem State.setLzCursors_lookaheadSize (p : BitVec 16) (f : BitVec 15) (n : BitVec 4) : (s.setLzCursors p f n).lookaheadSize = s.lookaheadSize := rfl
@[simp] theorem State.setLzCursors_dictSize (p : BitVec 16) (f : BitVec 15) (n : BitVec 4) : (s.setLzCursors p f n).dictSize = s.dictSize := rfl
@[simp] theorem State.setLzCursors_dict (p : BitVec 16) (f : BitVec 15) (n : BitVec 4) : (s.setLzCursors p f n).dict = s.dict := rfl
@[simp] theorem State.setLzCursors_head (p : BitVec 16) (f : BitVec 15) (n : BitVec 4) : (s.setLzCursors p f n).head = s.head := rfl
@[simp] theorem State.setLzCursors_prev (p : BitVec 16) (f : BitVec 15) (n : BitVec 4) : (s.setLzCursors p f n).prev = s.prev := rfl
@[simp] theorem State.setLzCursors_savedLit (p : BitVec 16) (f : BitVec 15) (n : BitVec 4) : (s.setLzCursors p f n).savedLit = s.savedLit := rfl
@[simp] theorem State.setLzCursors_savedMatchDist (p : BitVec 16) (f : BitVec 15) (n : BitVec 4) : (s.setLzCursors p f n).savedMatchDist = s.savedMatchDist := rfl
@[simp] theorem State.setLzCursors_savedMatchLen (p : BitVec 16) (f : BitVec 15) (n : BitVec 4) : (s.setLzCursors p f n).savedMatchLen = s.savedMatchLen := rfl
@[simp] theorem State.setLzCursors_lzBuf (p : BitVec 16) (f : BitVec 15) (n : BitVec 4) : (s.setLzCursors p f n).lzBuf = s.lzBuf := rfl
@[simp] theorem State.setLzCursors_lzPos (p : BitVec 16) (f : BitVec 15) (n : BitVec 4) : (s.setLzCursors p f n).lzPos = p := rfl
@[simp] theorem State.setLzCursors_lzFlagsPos (p : BitVec 16) (f : BitVec 15) (n : BitVec 4) : (s.setLzCursors p f n).lzFlagsPos = f := rfl
@[simp] theorem State.setLzCursors_flagsLeft (p : BitVec 16) (f : BitVec 15) (n : BitVec 4) : (s.setLzCursors p f n).flagsLeft = n := rfl
@[simp] theorem State.setLzCursors_bitBuffer (p : BitVec 16) (f : BitVec 15) (n : BitVec 4) : (s.setLzCursors p f n).bitBuffer = s.bitBuffer := rfl
@[simp] theorem State.setLzCursors_bitsIn (p : BitVec 16) (f : BitVec 15) (n : BitVec 4) : (s.setLzCursors p f n).bitsIn = s.bitsIn := rfl
@[simp] theorem State.setLzCursors_outBuf (p : BitVec 16) (f : BitVec 15) (n : BitVec 4) : (s.setLzCursors p f n).outBuf = s.outBuf := rfl
@[simp] theorem State.setLzCursors_outPos (p : BitVec 16) (f : BitVec 15) (n : BitVec 4) : (s.setLzCursors p f n).outPos = s.outPos := rfl
@[simp] theorem State.setLzCursors_litFreq (p : BitVec 16) (f : BitVec 15) (n : BitVec 4) : (s.setLzCursors p f n).litFreq = s.litFreq := rfl
@[simp] theorem State.setLzCursors_distFreq (p : BitVec 16) (f : BitVec 15) (n : BitVec 4) : (s.setLzCursors p f n).distFreq = s.distFreq := rfl
@[simp] theorem State.setLzCursors_clFreq (p : BitVec 16) (f : BitVec 15) (n : BitVec 4) : (s.setLzCursors p f n).clFreq = s.clFreq := rfl
@[simp] theorem State.setLzCursors_llLen (p : BitVec 16) (f : BitVec 15) (n : BitVec 4) : (s.setLzCursors p f n).llLen = s.llLen := rfl
@[simp] theorem State.setLzCursors_llCode (p : BitVec 16) (f : BitVec 15) (n : BitVec 4) : (s.setLzCursors p f n).llCode = s.llCode := rfl
@[simp] theorem State.setLzCursors_dLen (p : BitVec 16) (f : BitVec 15) (n : BitVec 4) : (s.setLzCursors p f n).dLen = s.dLen := rfl
@[simp] theorem State.setLzCursors_dCode (p : BitVec 16) (f : BitVec 15) (n : BitVec 4) : (s.setLzCursors p f n).dCode = s.dCode := rfl
@[simp] theorem State.setLzCursors_clLen (p : BitVec 16) (f : BitVec 15) (n : BitVec 4) : (s.setLzCursors p f n).clLen = s.clLen := rfl
@[simp] theorem State.setLzCursors_clCode (p : BitVec 16) (f : BitVec 15) (n : BitVec 4) : (s.setLzCursors p f n).clCode = s.clCode := rfl
@[simp] theorem State.setLzCursors_syms (p : BitVec 16) (f : BitVec 15) (n : BitVec 4) : (s.setLzCursors p f n).syms = s.syms := rfl
@[simp] theorem State.setLzCursors_numCodes (p : BitVec 16) (f : BitVec 15) (n : BitVec 4) : (s.setLzCursors p f n).numCodes = s.numCodes := rfl
@[simp] theorem State.setLzCursors_nextCode (p : BitVec 16) (f : BitVec 15) (n : BitVec 4) : (s.setLzCursors p f n).nextCode = s.nextCode := rfl
@[simp] theorem State.setLzCursors_packed (p : BitVec 16) (f : BitVec 15) (n : BitVec 4) : (s.setLzCursors p f n).packed = s.packed := rfl
@[simp] theorem State.setLzCursors_params (p : BitVec 16) (f : BitVec 15) (n : BitVec 4) : (s.setLzCursors p f n).params = s.params := rfl
@[simp] theorem State.setLzCursors_hostIn (p : BitVec 16) (f : BitVec 15) (n : BitVec 4) : (s.setLzCursors p f n).hostIn = s.hostIn := rfl
@[simp] theorem State.setLzCursors_returns (p : BitVec 16) (f : BitVec 15) (n : BitVec 4) : (s.setLzCursors p f n).returns = s.returns := rfl
@[simp] theorem State.setLzCursors_sinkLog (p : BitVec 16) (f : BitVec 15) (n : BitVec 4) : (s.setLzCursors p f n).sinkLog = s.sinkLog := rfl
@[simp] theorem State.setLzCursors_sinkAnswers (p : BitVec 16) (f : BitVec 15) (n : BitVec 4) : (s.setLzCursors p f n).sinkAnswers = s.sinkAnswers := rfl
@[simp] theorem State.setLzCursors_sinkDraws (p : BitVec 16) (f : BitVec 15) (n : BitVec 4) : (s.setLzCursors p f n).sinkDraws = s.sinkDraws := rfl
@[simp] theorem State.setLzCursors_resets (p : BitVec 16) (f : BitVec 15) (n : BitVec 4) : (s.setLzCursors p f n).resets = s.resets := rfl
@[simp] theorem State.setLzCursors_sequencer (p : BitVec 16) (f : BitVec 15) (n : BitVec 4) : (s.setLzCursors p f n).sequencer = s.sequencer := rfl
@[simp] theorem State.setLzCursors_opResult (p : BitVec 16) (f : BitVec 15) (n : BitVec 4) : (s.setLzCursors p f n).opResult = s.opResult := rfl

@[simp] theorem State.setBits_maxProbes (b : BitVec 24) (n : BitVec 5) : (s.setBits b n).maxProbes = s.maxProbes := rfl
@[simp] theorem State.setBits_greedy (b : BitVec 24) (n : BitVec 5) : (s.setBits b n).greedy = s.greedy := rfl
@[simp] theorem State.setBits_nondet (b : BitVec 24) (n : BitVec 5) : (s.setBits b n).nondet = s.nondet := rfl
@[simp] theorem State.setBits_zlib (b : BitVec 24) (n : BitVec 5) : (s.setBits b n).zlib = s.zlib := rfl
@[simp] theorem State.setBits_failed (b : BitVec 24) (n : BitVec 5) : (s.setBits b n).failed = s.failed := rfl
@[simp] theorem State.setBits_closed (b : BitVec 24) (n : BitVec 5) : (s.setBits b n).closed = s.closed := rfl
@[simp] theorem State.setBits_adler (b : BitVec 24) (n : BitVec 5) : (s.setBits b n).adler = s.adler := rfl
@[simp] theorem State.setBits_lookaheadPos (b : BitVec 24) (n : BitVec 5) : (s.setBits b n).lookaheadPos = s.lookaheadPos := rfl
@[simp] theorem State.setBits_lookaheadSize (b : BitVec 24) (n : BitVec 5) : (s.setBits b n).lookaheadSize = s.lookaheadSize := rfl
@[simp] theorem State.setBits_dictSize (b : BitVec 24) (n : BitVec 5) : (s.setBits b n).dictSize = s.dictSize := rfl
@[simp] theorem State.setBits_dict (b : BitVec 24) (n : BitVec 5) : (s.setBits b n).dict = s.dict := rfl
@[simp] theorem State.setBits_head (b : BitVec 24) (n : BitVec 5) : (s.setBits b n).head = s.head := rfl
@[simp] theorem State.setBits_prev (b : BitVec 24) (n : BitVec 5) : (s.setBits b n).prev = s.prev := rfl
@[simp] theorem State.setBits_savedLit (b : BitVec 24) (n : BitVec 5) : (s.setBits b n).savedLit = s.savedLit := rfl
@[simp] theorem State.setBits_savedMatchDist (b : BitVec 24) (n : BitVec 5) : (s.setBits b n).savedMatchDist = s.savedMatchDist := rfl
@[simp] theorem State.setBits_savedMatchLen (b : BitVec 24) (n : BitVec 5) : (s.setBits b n).savedMatchLen = s.savedMatchLen := rfl
@[simp] theorem State.setBits_lzBuf (b : BitVec 24) (n : BitVec 5) : (s.setBits b n).lzBuf = s.lzBuf := rfl
@[simp] theorem State.setBits_lzPos (b : BitVec 24) (n : BitVec 5) : (s.setBits b n).lzPos = s.lzPos := rfl
@[simp] theorem State.setBits_lzFlagsPos (b : BitVec 24) (n : BitVec 5) : (s.setBits b n).lzFlagsPos = s.lzFlagsPos := rfl
@[simp] theorem State.setBits_flagsLeft (b : BitVec 24) (n : BitVec 5) : (s.setBits b n).flagsLeft = s.flagsLeft := rfl
@[simp] theorem State.setBits_bitBuffer (b : BitVec 24) (n : BitVec 5) : (s.setBits b n).bitBuffer = b := rfl
@[simp] theorem State.setBits_bitsIn (b : BitVec 24) (n : BitVec 5) : (s.setBits b n).bitsIn = n := rfl
@[simp] theorem State.setBits_outBuf (b : BitVec 24) (n : BitVec 5) : (s.setBits b n).outBuf = s.outBuf := rfl
@[simp] theorem State.setBits_outPos (b : BitVec 24) (n : BitVec 5) : (s.setBits b n).outPos = s.outPos := rfl
@[simp] theorem State.setBits_litFreq (b : BitVec 24) (n : BitVec 5) : (s.setBits b n).litFreq = s.litFreq := rfl
@[simp] theorem State.setBits_distFreq (b : BitVec 24) (n : BitVec 5) : (s.setBits b n).distFreq = s.distFreq := rfl
@[simp] theorem State.setBits_clFreq (b : BitVec 24) (n : BitVec 5) : (s.setBits b n).clFreq = s.clFreq := rfl
@[simp] theorem State.setBits_llLen (b : BitVec 24) (n : BitVec 5) : (s.setBits b n).llLen = s.llLen := rfl
@[simp] theorem State.setBits_llCode (b : BitVec 24) (n : BitVec 5) : (s.setBits b n).llCode = s.llCode := rfl
@[simp] theorem State.setBits_dLen (b : BitVec 24) (n : BitVec 5) : (s.setBits b n).dLen = s.dLen := rfl
@[simp] theorem State.setBits_dCode (b : BitVec 24) (n : BitVec 5) : (s.setBits b n).dCode = s.dCode := rfl
@[simp] theorem State.setBits_clLen (b : BitVec 24) (n : BitVec 5) : (s.setBits b n).clLen = s.clLen := rfl
@[simp] theorem State.setBits_clCode (b : BitVec 24) (n : BitVec 5) : (s.setBits b n).clCode = s.clCode := rfl
@[simp] theorem State.setBits_syms (b : BitVec 24) (n : BitVec 5) : (s.setBits b n).syms = s.syms := rfl
@[simp] theorem State.setBits_numCodes (b : BitVec 24) (n : BitVec 5) : (s.setBits b n).numCodes = s.numCodes := rfl
@[simp] theorem State.setBits_nextCode (b : BitVec 24) (n : BitVec 5) : (s.setBits b n).nextCode = s.nextCode := rfl
@[simp] theorem State.setBits_packed (b : BitVec 24) (n : BitVec 5) : (s.setBits b n).packed = s.packed := rfl
@[simp] theorem State.setBits_params (b : BitVec 24) (n : BitVec 5) : (s.setBits b n).params = s.params := rfl
@[simp] theorem State.setBits_hostIn (b : BitVec 24) (n : BitVec 5) : (s.setBits b n).hostIn = s.hostIn := rfl
@[simp] theorem State.setBits_returns (b : BitVec 24) (n : BitVec 5) : (s.setBits b n).returns = s.returns := rfl
@[simp] theorem State.setBits_sinkLog (b : BitVec 24) (n : BitVec 5) : (s.setBits b n).sinkLog = s.sinkLog := rfl
@[simp] theorem State.setBits_sinkAnswers (b : BitVec 24) (n : BitVec 5) : (s.setBits b n).sinkAnswers = s.sinkAnswers := rfl
@[simp] theorem State.setBits_sinkDraws (b : BitVec 24) (n : BitVec 5) : (s.setBits b n).sinkDraws = s.sinkDraws := rfl
@[simp] theorem State.setBits_resets (b : BitVec 24) (n : BitVec 5) : (s.setBits b n).resets = s.resets := rfl
@[simp] theorem State.setBits_sequencer (b : BitVec 24) (n : BitVec 5) : (s.setBits b n).sequencer = s.sequencer := rfl
@[simp] theorem State.setBits_opResult (b : BitVec 24) (n : BitVec 5) : (s.setBits b n).opResult = s.opResult := rfl

@[simp] theorem State.setOut_maxProbes (m : Mem 8) (p : BitVec 13) : (s.setOut m p).maxProbes = s.maxProbes := rfl
@[simp] theorem State.setOut_greedy (m : Mem 8) (p : BitVec 13) : (s.setOut m p).greedy = s.greedy := rfl
@[simp] theorem State.setOut_nondet (m : Mem 8) (p : BitVec 13) : (s.setOut m p).nondet = s.nondet := rfl
@[simp] theorem State.setOut_zlib (m : Mem 8) (p : BitVec 13) : (s.setOut m p).zlib = s.zlib := rfl
@[simp] theorem State.setOut_failed (m : Mem 8) (p : BitVec 13) : (s.setOut m p).failed = s.failed := rfl
@[simp] theorem State.setOut_closed (m : Mem 8) (p : BitVec 13) : (s.setOut m p).closed = s.closed := rfl
@[simp] theorem State.setOut_adler (m : Mem 8) (p : BitVec 13) : (s.setOut m p).adler = s.adler := rfl
@[simp] theorem State.setOut_lookaheadPos (m : Mem 8) (p : BitVec 13) : (s.setOut m p).lookaheadPos = s.lookaheadPos := rfl
@[simp] theorem State.setOut_lookaheadSize (m : Mem 8) (p : BitVec 13) : (s.setOut m p).lookaheadSize = s.lookaheadSize := rfl
@[simp] theorem State.setOut_dictSize (m : Mem 8) (p : BitVec 13) : (s.setOut m p).dictSize = s.dictSize := rfl
@[simp] theorem State.setOut_dict (m : Mem 8) (p : BitVec 13) : (s.setOut m p).dict = s.dict := rfl
@[simp] theorem State.setOut_head (m : Mem 8) (p : BitVec 13) : (s.setOut m p).head = s.head := rfl
@[simp] theorem State.setOut_prev (m : Mem 8) (p : BitVec 13) : (s.setOut m p).prev = s.prev := rfl
@[simp] theorem State.setOut_savedLit (m : Mem 8) (p : BitVec 13) : (s.setOut m p).savedLit = s.savedLit := rfl
@[simp] theorem State.setOut_savedMatchDist (m : Mem 8) (p : BitVec 13) : (s.setOut m p).savedMatchDist = s.savedMatchDist := rfl
@[simp] theorem State.setOut_savedMatchLen (m : Mem 8) (p : BitVec 13) : (s.setOut m p).savedMatchLen = s.savedMatchLen := rfl
@[simp] theorem State.setOut_lzBuf (m : Mem 8) (p : BitVec 13) : (s.setOut m p).lzBuf = s.lzBuf := rfl
@[simp] theorem State.setOut_lzPos (m : Mem 8) (p : BitVec 13) : (s.setOut m p).lzPos = s.lzPos := rfl
@[simp] theorem State.setOut_lzFlagsPos (m : Mem 8) (p : BitVec 13) : (s.setOut m p).lzFlagsPos = s.lzFlagsPos := rfl
@[simp] theorem State.setOut_flagsLeft (m : Mem 8) (p : BitVec 13) : (s.setOut m p).flagsLeft = s.flagsLeft := rfl
@[simp] theorem State.setOut_bitBuffer (m : Mem 8) (p : BitVec 13) : (s.setOut m p).bitBuffer = s.bitBuffer := rfl
@[simp] theorem State.setOut_bitsIn (m : Mem 8) (p : BitVec 13) : (s.setOut m p).bitsIn = s.bitsIn := rfl
@[simp] theorem State.setOut_outBuf (m : Mem 8) (p : BitVec 13) : (s.setOut m p).outBuf = m := rfl
@[simp] theorem State.setOut_outPos (m : Mem 8) (p : BitVec 13) : (s.setOut m p).outPos = p := rfl
@[simp] theorem State.setOut_litFreq (m : Mem 8) (p : BitVec 13) : (s.setOut m p).litFreq = s.litFreq := rfl
@[simp] theorem State.setOut_distFreq (m : Mem 8) (p : BitVec 13) : (s.setOut m p).distFreq = s.distFreq := rfl
@[simp] theorem State.setOut_clFreq (m : Mem 8) (p : BitVec 13) : (s.setOut m p).clFreq = s.clFreq := rfl
@[simp] theorem State.setOut_llLen (m : Mem 8) (p : BitVec 13) : (s.setOut m p).llLen = s.llLen := rfl
@[simp] theorem State.setOut_llCode (m : Mem 8) (p : BitVec 13) : (s.setOut m p).llCode = s.llCode := rfl
@[simp] theorem State.setOut_dLen (m : Mem 8) (p : BitVec 13) : (s.setOut m p).dLen = s.dLen := rfl
@[simp] theorem State.setOut_dCode (m : Mem 8) (p : BitVec 13) : (s.setOut m p).dCode = s.dCode := rfl
@[simp] theorem State.setOut_clLen (m : Mem 8) (p : BitVec 13) : (s.setOut m p).clLen = s.clLen := rfl
@[simp] theorem State.setOut_clCode (m : Mem 8) (p : BitVec 13) : (s.setOut m p).clCode = s.clCode := rfl
@[simp] theorem State.setOut_syms (m : Mem 8) (p : BitVec 13) : (s.setOut m p).syms = s.syms := rfl
@[simp] theorem State.setOut_numCodes (m : Mem 8) (p : BitVec 13) : (s.setOut m p).numCodes = s.numCodes := rfl
@[simp] theorem State.setOut_nextCode (m : Mem 8) (p : BitVec 13) : (s.setOut m p).nextCode = s.nextCode := rfl
@[simp] theorem State.setOut_packed (m : Mem 8) (p : BitVec 13) : (s.setOut m p).packed = s.packed := rfl
@[simp] theorem State.setOut_params (m : Mem 8) (p : BitVec 13) : (s.setOut m p).params = s.params := rfl
@[simp] theorem State.setOut_hostIn (m : Mem 8) (p : BitVec 13) : (s.setOut m p).hostIn = s.hostIn := rfl
@[simp] theorem State.setOut_returns (m : Mem 8) (p : BitVec 13) : (s.setOut m p).returns = s.returns := rfl
@[simp] theorem State.setOut_sinkLog (m : Mem 8) (p : BitVec 13) : (s.setOut m p).sinkLog = s.sinkLog := rfl
@[simp] theorem State.setOut_sinkAnswers (m : Mem 8) (p : BitVec 13) : (s.setOut m p).sinkAnswers = s.sinkAnswers := rfl
@[simp] theorem State.setOut_sinkDraws (m : Mem 8) (p : BitVec 13) : (s.setOut m p).sinkDraws = s.sinkDraws := rfl
@[simp] theorem State.setOut_resets (m : Mem 8) (p : BitVec 13) : (s.setOut m p).resets = s.resets := rfl
@[simp] theorem State.setOut_sequencer (m : Mem 8) (p : BitVec 13) : (s.setOut m p).sequencer = s.sequencer := rfl
@[simp] theorem State.setOut_opResult (m : Mem 8) (p : BitVec 13) : (s.setOut m p).opResult = s.opResult := rfl

@[simp] theorem State.logPut_maxProbes (c : PutCall) (a : List Bool) (n : Nat) : (s.logPut c a n).maxProbes = s.maxProbes := rfl
@[simp] theorem State.logPut_greedy (c : PutCall) (a : List Bool) (n : Nat) : (s.logPut c a n).greedy = s.greedy := rfl
@[simp] theorem State.logPut_nondet (c : PutCall) (a : List Bool) (n : Nat) : (s.logPut c a n).nondet = s.nondet := rfl
@[simp] theorem State.logPut_zlib (c : PutCall) (a : List Bool) (n : Nat) : (s.logPut c a n).zlib = s.zlib := rfl
@[simp] theorem State.logPut_failed (c : PutCall) (a : List Bool) (n : Nat) : (s.logPut c a n).failed = s.failed := rfl
@[simp] theorem State.logPut_closed (c : PutCall) (a : List Bool) (n : Nat) : (s.logPut c a n).closed = s.closed := rfl
@[simp] theorem State.logPut_adler (c : PutCall) (a : List Bool) (n : Nat) : (s.logPut c a n).adler = s.adler := rfl
@[simp] theorem State.logPut_lookaheadPos (c : PutCall) (a : List Bool) (n : Nat) : (s.logPut c a n).lookaheadPos = s.lookaheadPos := rfl
@[simp] theorem State.logPut_lookaheadSize (c : PutCall) (a : List Bool) (n : Nat) : (s.logPut c a n).lookaheadSize = s.lookaheadSize := rfl
@[simp] theorem State.logPut_dictSize (c : PutCall) (a : List Bool) (n : Nat) : (s.logPut c a n).dictSize = s.dictSize := rfl
@[simp] theorem State.logPut_dict (c : PutCall) (a : List Bool) (n : Nat) : (s.logPut c a n).dict = s.dict := rfl
@[simp] theorem State.logPut_head (c : PutCall) (a : List Bool) (n : Nat) : (s.logPut c a n).head = s.head := rfl
@[simp] theorem State.logPut_prev (c : PutCall) (a : List Bool) (n : Nat) : (s.logPut c a n).prev = s.prev := rfl
@[simp] theorem State.logPut_savedLit (c : PutCall) (a : List Bool) (n : Nat) : (s.logPut c a n).savedLit = s.savedLit := rfl
@[simp] theorem State.logPut_savedMatchDist (c : PutCall) (a : List Bool) (n : Nat) : (s.logPut c a n).savedMatchDist = s.savedMatchDist := rfl
@[simp] theorem State.logPut_savedMatchLen (c : PutCall) (a : List Bool) (n : Nat) : (s.logPut c a n).savedMatchLen = s.savedMatchLen := rfl
@[simp] theorem State.logPut_lzBuf (c : PutCall) (a : List Bool) (n : Nat) : (s.logPut c a n).lzBuf = s.lzBuf := rfl
@[simp] theorem State.logPut_lzPos (c : PutCall) (a : List Bool) (n : Nat) : (s.logPut c a n).lzPos = s.lzPos := rfl
@[simp] theorem State.logPut_lzFlagsPos (c : PutCall) (a : List Bool) (n : Nat) : (s.logPut c a n).lzFlagsPos = s.lzFlagsPos := rfl
@[simp] theorem State.logPut_flagsLeft (c : PutCall) (a : List Bool) (n : Nat) : (s.logPut c a n).flagsLeft = s.flagsLeft := rfl
@[simp] theorem State.logPut_bitBuffer (c : PutCall) (a : List Bool) (n : Nat) : (s.logPut c a n).bitBuffer = s.bitBuffer := rfl
@[simp] theorem State.logPut_bitsIn (c : PutCall) (a : List Bool) (n : Nat) : (s.logPut c a n).bitsIn = s.bitsIn := rfl
@[simp] theorem State.logPut_outBuf (c : PutCall) (a : List Bool) (n : Nat) : (s.logPut c a n).outBuf = s.outBuf := rfl
@[simp] theorem State.logPut_outPos (c : PutCall) (a : List Bool) (n : Nat) : (s.logPut c a n).outPos = s.outPos := rfl
@[simp] theorem State.logPut_litFreq (c : PutCall) (a : List Bool) (n : Nat) : (s.logPut c a n).litFreq = s.litFreq := rfl
@[simp] theorem State.logPut_distFreq (c : PutCall) (a : List Bool) (n : Nat) : (s.logPut c a n).distFreq = s.distFreq := rfl
@[simp] theorem State.logPut_clFreq (c : PutCall) (a : List Bool) (n : Nat) : (s.logPut c a n).clFreq = s.clFreq := rfl
@[simp] theorem State.logPut_llLen (c : PutCall) (a : List Bool) (n : Nat) : (s.logPut c a n).llLen = s.llLen := rfl
@[simp] theorem State.logPut_llCode (c : PutCall) (a : List Bool) (n : Nat) : (s.logPut c a n).llCode = s.llCode := rfl
@[simp] theorem State.logPut_dLen (c : PutCall) (a : List Bool) (n : Nat) : (s.logPut c a n).dLen = s.dLen := rfl
@[simp] theorem State.logPut_dCode (c : PutCall) (a : List Bool) (n : Nat) : (s.logPut c a n).dCode = s.dCode := rfl
@[simp] theorem State.logPut_clLen (c : PutCall) (a : List Bool) (n : Nat) : (s.logPut c a n).clLen = s.clLen := rfl
@[simp] theorem State.logPut_clCode (c : PutCall) (a : List Bool) (n : Nat) : (s.logPut c a n).clCode = s.clCode := rfl
@[simp] theorem State.logPut_syms (c : PutCall) (a : List Bool) (n : Nat) : (s.logPut c a n).syms = s.syms := rfl
@[simp] theorem State.logPut_numCodes (c : PutCall) (a : List Bool) (n : Nat) : (s.logPut c a n).numCodes = s.numCodes := rfl
@[simp] theorem State.logPut_nextCode (c : PutCall) (a : List Bool) (n : Nat) : (s.logPut c a n).nextCode = s.nextCode := rfl
@[simp] theorem State.logPut_packed (c : PutCall) (a : List Bool) (n : Nat) : (s.logPut c a n).packed = s.packed := rfl
@[simp] theorem State.logPut_params (c : PutCall) (a : List Bool) (n : Nat) : (s.logPut c a n).params = s.params := rfl
@[simp] theorem State.logPut_hostIn (c : PutCall) (a : List Bool) (n : Nat) : (s.logPut c a n).hostIn = s.hostIn := rfl
@[simp] theorem State.logPut_returns (c : PutCall) (a : List Bool) (n : Nat) : (s.logPut c a n).returns = s.returns := rfl
@[simp] theorem State.logPut_sinkLog (c : PutCall) (a : List Bool) (n : Nat) : (s.logPut c a n).sinkLog = s.sinkLog ++ [c] := rfl
@[simp] theorem State.logPut_sinkAnswers (c : PutCall) (a : List Bool) (n : Nat) : (s.logPut c a n).sinkAnswers = a := rfl
@[simp] theorem State.logPut_sinkDraws (c : PutCall) (a : List Bool) (n : Nat) : (s.logPut c a n).sinkDraws = n := rfl
@[simp] theorem State.logPut_resets (c : PutCall) (a : List Bool) (n : Nat) : (s.logPut c a n).resets = s.resets := rfl
@[simp] theorem State.logPut_sequencer (c : PutCall) (a : List Bool) (n : Nat) : (s.logPut c a n).sequencer = s.sequencer := rfl
@[simp] theorem State.logPut_opResult (c : PutCall) (a : List Bool) (n : Nat) : (s.logPut c a n).opResult = s.opResult := rfl

@[simp] theorem State.setFreqs_maxProbes (m k : Mem 16) : (s.setFreqs m k).maxProbes = s.maxProbes := rfl
@[simp] theorem State.setFreqs_greedy (m k : Mem 16) : (s.setFreqs m k).greedy = s.greedy := rfl
@[simp] theorem State.setFreqs_nondet (m k : Mem 16) : (s.setFreqs m k).nondet = s.nondet := rfl
@[simp] theorem State.setFreqs_zlib (m k : Mem 16) : (s.setFreqs m k).zlib = s.zlib := rfl
@[simp] theorem State.setFreqs_failed (m k : Mem 16) : (s.setFreqs m k).failed = s.failed := rfl
@[simp] theorem State.setFreqs_closed (m k : Mem 16) : (s.setFreqs m k).closed = s.closed := rfl
@[simp] theorem State.setFreqs_adler (m k : Mem 16) : (s.setFreqs m k).adler = s.adler := rfl
@[simp] theorem State.setFreqs_lookaheadPos (m k : Mem 16) : (s.setFreqs m k).lookaheadPos = s.lookaheadPos := rfl
@[simp] theorem State.setFreqs_lookaheadSize (m k : Mem 16) : (s.setFreqs m k).lookaheadSize = s.lookaheadSize := rfl
@[simp] theorem State.setFreqs_dictSize (m k : Mem 16) : (s.setFreqs m k).dictSize = s.dictSize := rfl
@[simp] theorem State.setFreqs_dict (m k : Mem 16) : (s.setFreqs m k).dict = s.dict := rfl
@[simp] theorem State.setFreqs_head (m k : Mem 16) : (s.setFreqs m k).head = s.head := rfl
@[simp] theorem State.setFreqs_prev (m k : Mem 16) : (s.setFreqs m k).prev = s.prev := rfl
@[simp] theorem State.setFreqs_savedLit (m k : Mem 16) : (s.setFreqs m k).savedLit = s.savedLit := rfl
@[simp] theorem State.setFreqs_savedMatchDist (m k : Mem 16) : (s.setFreqs m k).savedMatchDist = s.savedMatchDist := rfl
@[simp] theorem State.setFreqs_savedMatchLen (m k : Mem 16) : (s.setFreqs m k).savedMatchLen = s.savedMatchLen := rfl
@[simp] theorem State.setFreqs_lzBuf (m k : Mem 16) : (s.setFreqs m k).lzBuf = s.lzBuf := rfl
@[simp] theorem State.setFreqs_lzPos (m k : Mem 16) : (s.setFreqs m k).lzPos = s.lzPos := rfl
@[simp] theorem State.setFreqs_lzFlagsPos (m k : Mem 16) : (s.setFreqs m k).lzFlagsPos = s.lzFlagsPos := rfl
@[simp] theorem State.setFreqs_flagsLeft (m k : Mem 16) : (s.setFreqs m k).flagsLeft = s.flagsLeft := rfl
@[simp] theorem State.setFreqs_bitBuffer (m k : Mem 16) : (s.setFreqs m k).bitBuffer = s.bitBuffer := rfl
@[simp] theorem State.setFreqs_bitsIn (m k : Mem 16) : (s.setFreqs m k).bitsIn = s.bitsIn := rfl
@[simp] theorem State.setFreqs_outBuf (m k : Mem 16) : (s.setFreqs m k).outBuf = s.outBuf := rfl
@[simp] theorem State.setFreqs_outPos (m k : Mem 16) : (s.setFreqs m k).outPos = s.outPos := rfl
@[simp] theorem State.setFreqs_litFreq (m k : Mem 16) : (s.setFreqs m k).litFreq = m := rfl
@[simp] theorem State.setFreqs_distFreq (m k : Mem 16) : (s.setFreqs m k).distFreq = k := rfl
@[simp] theorem State.setFreqs_clFreq (m k : Mem 16) : (s.setFreqs m k).clFreq = s.clFreq := rfl
@[simp] theorem State.setFreqs_llLen (m k : Mem 16) : (s.setFreqs m k).llLen = s.llLen := rfl
@[simp] theorem State.setFreqs_llCode (m k : Mem 16) : (s.setFreqs m k).llCode = s.llCode := rfl
@[simp] theorem State.setFreqs_dLen (m k : Mem 16) : (s.setFreqs m k).dLen = s.dLen := rfl
@[simp] theorem State.setFreqs_dCode (m k : Mem 16) : (s.setFreqs m k).dCode = s.dCode := rfl
@[simp] theorem State.setFreqs_clLen (m k : Mem 16) : (s.setFreqs m k).clLen = s.clLen := rfl
@[simp] theorem State.setFreqs_clCode (m k : Mem 16) : (s.setFreqs m k).clCode = s.clCode := rfl
@[simp] theorem State.setFreqs_syms (m k : Mem 16) : (s.setFreqs m k).syms = s.syms := rfl
@[simp] theorem State.setFreqs_numCodes (m k : Mem 16) : (s.setFreqs m k).numCodes = s.numCodes := rfl
@[simp] theorem State.setFreqs_nextCode (m k : Mem 16) : (s.setFreqs m k).nextCode = s.nextCode := rfl
@[simp] theorem State.setFreqs_packed (m k : Mem 16) : (s.setFreqs m k).packed = s.packed := rfl
@[simp] theorem State.setFreqs_params (m k : Mem 16) : (s.setFreqs m k).params = s.params := rfl
@[simp] theorem State.setFreqs_hostIn (m k : Mem 16) : (s.setFreqs m k).hostIn = s.hostIn := rfl
@[simp] theorem State.setFreqs_returns (m k : Mem 16) : (s.setFreqs m k).returns = s.returns := rfl
@[simp] theorem State.setFreqs_sinkLog (m k : Mem 16) : (s.setFreqs m k).sinkLog = s.sinkLog := rfl
@[simp] theorem State.setFreqs_sinkAnswers (m k : Mem 16) : (s.setFreqs m k).sinkAnswers = s.sinkAnswers := rfl
@[simp] theorem State.setFreqs_sinkDraws (m k : Mem 16) : (s.setFreqs m k).sinkDraws = s.sinkDraws := rfl
@[simp] theorem State.setFreqs_resets (m k : Mem 16) : (s.setFreqs m k).resets = s.resets := rfl
@[simp] theorem State.setFreqs_sequencer (m k : Mem 16) : (s.setFreqs m k).sequencer = s.sequencer := rfl
@[simp] theorem State.setFreqs_opResult (m k : Mem 16) : (s.setFreqs m k).opResult = s.opResult := rfl

@[simp] theorem State.setPacked_maxProbes (p : List PackedEntry) (m : Mem 16) : (s.setPacked p m).maxProbes = s.maxProbes := rfl
@[simp] theorem State.setPacked_greedy (p : List PackedEntry) (m : Mem 16) : (s.setPacked p m).greedy = s.greedy := rfl
@[simp] theorem State.setPacked_nondet (p : List PackedEntry) (m : Mem 16) : (s.setPacked p m).nondet = s.nondet := rfl
@[simp] theorem State.setPacked_zlib (p : List PackedEntry) (m : Mem 16) : (s.setPacked p m).zlib = s.zlib := rfl
@[simp] theorem State.setPacked_failed (p : List PackedEntry) (m : Mem 16) : (s.setPacked p m).failed = s.failed := rfl
@[simp] theorem State.setPacked_closed (p : List PackedEntry) (m : Mem 16) : (s.setPacked p m).closed = s.closed := rfl
@[simp] theorem State.setPacked_adler (p : List PackedEntry) (m : Mem 16) : (s.setPacked p m).adler = s.adler := rfl
@[simp] theorem State.setPacked_lookaheadPos (p : List PackedEntry) (m : Mem 16) : (s.setPacked p m).lookaheadPos = s.lookaheadPos := rfl
@[simp] theorem State.setPacked_lookaheadSize (p : List PackedEntry) (m : Mem 16) : (s.setPacked p m).lookaheadSize = s.lookaheadSize := rfl
@[simp] theorem State.setPacked_dictSize (p : List PackedEntry) (m : Mem 16) : (s.setPacked p m).dictSize = s.dictSize := rfl
@[simp] theorem State.setPacked_dict (p : List PackedEntry) (m : Mem 16) : (s.setPacked p m).dict = s.dict := rfl
@[simp] theorem State.setPacked_head (p : List PackedEntry) (m : Mem 16) : (s.setPacked p m).head = s.head := rfl
@[simp] theorem State.setPacked_prev (p : List PackedEntry) (m : Mem 16) : (s.setPacked p m).prev = s.prev := rfl
@[simp] theorem State.setPacked_savedLit (p : List PackedEntry) (m : Mem 16) : (s.setPacked p m).savedLit = s.savedLit := rfl
@[simp] theorem State.setPacked_savedMatchDist (p : List PackedEntry) (m : Mem 16) : (s.setPacked p m).savedMatchDist = s.savedMatchDist := rfl
@[simp] theorem State.setPacked_savedMatchLen (p : List PackedEntry) (m : Mem 16) : (s.setPacked p m).savedMatchLen = s.savedMatchLen := rfl
@[simp] theorem State.setPacked_lzBuf (p : List PackedEntry) (m : Mem 16) : (s.setPacked p m).lzBuf = s.lzBuf := rfl
@[simp] theorem State.setPacked_lzPos (p : List PackedEntry) (m : Mem 16) : (s.setPacked p m).lzPos = s.lzPos := rfl
@[simp] theorem State.setPacked_lzFlagsPos (p : List PackedEntry) (m : Mem 16) : (s.setPacked p m).lzFlagsPos = s.lzFlagsPos := rfl
@[simp] theorem State.setPacked_flagsLeft (p : List PackedEntry) (m : Mem 16) : (s.setPacked p m).flagsLeft = s.flagsLeft := rfl
@[simp] theorem State.setPacked_bitBuffer (p : List PackedEntry) (m : Mem 16) : (s.setPacked p m).bitBuffer = s.bitBuffer := rfl
@[simp] theorem State.setPacked_bitsIn (p : List PackedEntry) (m : Mem 16) : (s.setPacked p m).bitsIn = s.bitsIn := rfl
@[simp] theorem State.setPacked_outBuf (p : List PackedEntry) (m : Mem 16) : (s.setPacked p m).outBuf = s.outBuf := rfl
@[simp] theorem State.setPacked_outPos (p : List PackedEntry) (m : Mem 16) : (s.setPacked p m).outPos = s.outPos := rfl
@[simp] theorem State.setPacked_litFreq (p : List PackedEntry) (m : Mem 16) : (s.setPacked p m).litFreq = s.litFreq := rfl
@[simp] theorem State.setPacked_distFreq (p : List PackedEntry) (m : Mem 16) : (s.setPacked p m).distFreq = s.distFreq := rfl
@[simp] theorem State.setPacked_clFreq (p : List PackedEntry) (m : Mem 16) : (s.setPacked p m).clFreq = m := rfl
@[simp] theorem State.setPacked_llLen (p : List PackedEntry) (m : Mem 16) : (s.setPacked p m).llLen = s.llLen := rfl
@[simp] theorem State.setPacked_llCode (p : List PackedEntry) (m : Mem 16) : (s.setPacked p m).llCode = s.llCode := rfl
@[simp] theorem State.setPacked_dLen (p : List PackedEntry) (m : Mem 16) : (s.setPacked p m).dLen = s.dLen := rfl
@[simp] theorem State.setPacked_dCode (p : List PackedEntry) (m : Mem 16) : (s.setPacked p m).dCode = s.dCode := rfl
@[simp] theorem State.setPacked_clLen (p : List PackedEntry) (m : Mem 16) : (s.setPacked p m).clLen = s.clLen := rfl
@[simp] theorem State.setPacked_clCode (p : List PackedEntry) (m : Mem 16) : (s.setPacked p m).clCode = s.clCode := rfl
@[simp] theorem State.setPacked_syms (p : List PackedEntry) (m : Mem 16) : (s.setPacked p m).syms = s.syms := rfl
@[simp] theorem State.setPacked_numCodes (p : List PackedEntry) (m : Mem 16) : (s.setPacked p m).numCodes = s.numCodes := rfl
@[simp] theorem State.setPacked_nextCode (p : List PackedEntry) (m : Mem 16) : (s.setPacked p m).nextCode = s.nextCode := rfl
@[simp] theorem State.setPacked_packed (p : List PackedEntry) (m : Mem 16) : (s.setPacked p m).packed = p := rfl
@[simp] theorem State.setPacked_params (p : List PackedEntry) (m : Mem 16) : (s.setPacked p m).params = s.params := rfl
@[simp] theorem State.setPacked_hostIn (p : List PackedEntry) (m : Mem 16) : (s.setPacked p m).hostIn = s.hostIn := rfl
@[simp] theorem State.setPacked_returns (p : List PackedEntry) (m : Mem 16) : (s.setPacked p m).returns = s.returns := rfl
@[simp] theorem State.setPacked_sinkLog (p : List PackedEntry) (m : Mem 16) : (s.setPacked p m).sinkLog = s.sinkLog := rfl
@[simp] theorem State.setPacked_sinkAnswers (p : List PackedEntry) (m : Mem 16) : (s.setPacked p m).sinkAnswers = s.sinkAnswers := rfl
@[simp] theorem State.setPacked_sinkDraws (p : List PackedEntry) (m : Mem 16) : (s.setPacked p m).sinkDraws = s.sinkDraws := rfl
@[simp] theorem State.setPacked_resets (p : List PackedEntry) (m : Mem 16) : (s.setPacked p m).resets = s.resets := rfl
@[simp] theorem State.setPacked_sequencer (p : List PackedEntry) (m : Mem 16) : (s.setPacked p m).sequencer = s.sequencer := rfl
@[simp] theorem State.setPacked_opResult (p : List PackedEntry) (m : Mem 16) : (s.setPacked p m).opResult = s.opResult := rfl

@[simp] theorem State.setLitLenCodes_maxProbes (n : Mem 4) (c : Mem 15) : (s.setLitLenCodes n c).maxProbes = s.maxProbes := rfl
@[simp] theorem State.setLitLenCodes_greedy (n : Mem 4) (c : Mem 15) : (s.setLitLenCodes n c).greedy = s.greedy := rfl
@[simp] theorem State.setLitLenCodes_nondet (n : Mem 4) (c : Mem 15) : (s.setLitLenCodes n c).nondet = s.nondet := rfl
@[simp] theorem State.setLitLenCodes_zlib (n : Mem 4) (c : Mem 15) : (s.setLitLenCodes n c).zlib = s.zlib := rfl
@[simp] theorem State.setLitLenCodes_failed (n : Mem 4) (c : Mem 15) : (s.setLitLenCodes n c).failed = s.failed := rfl
@[simp] theorem State.setLitLenCodes_closed (n : Mem 4) (c : Mem 15) : (s.setLitLenCodes n c).closed = s.closed := rfl
@[simp] theorem State.setLitLenCodes_adler (n : Mem 4) (c : Mem 15) : (s.setLitLenCodes n c).adler = s.adler := rfl
@[simp] theorem State.setLitLenCodes_lookaheadPos (n : Mem 4) (c : Mem 15) : (s.setLitLenCodes n c).lookaheadPos = s.lookaheadPos := rfl
@[simp] theorem State.setLitLenCodes_lookaheadSize (n : Mem 4) (c : Mem 15) : (s.setLitLenCodes n c).lookaheadSize = s.lookaheadSize := rfl
@[simp] theorem State.setLitLenCodes_dictSize (n : Mem 4) (c : Mem 15) : (s.setLitLenCodes n c).dictSize = s.dictSize := rfl
@[simp] theorem State.setLitLenCodes_dict (n : Mem 4) (c : Mem 15) : (s.setLitLenCodes n c).dict = s.dict := rfl
@[simp] theorem State.setLitLenCodes_head (n : Mem 4) (c : Mem 15) : (s.setLitLenCodes n c).head = s.head := rfl
@[simp] theorem State.setLitLenCodes_prev (n : Mem 4) (c : Mem 15) : (s.setLitLenCodes n c).prev = s.prev := rfl
@[simp] theorem State.setLitLenCodes_savedLit (n : Mem 4) (c : Mem 15) : (s.setLitLenCodes n c).savedLit = s.savedLit := rfl
@[simp] theorem State.setLitLenCodes_savedMatchDist (n : Mem 4) (c : Mem 15) : (s.setLitLenCodes n c).savedMatchDist = s.savedMatchDist := rfl
@[simp] theorem State.setLitLenCodes_savedMatchLen (n : Mem 4) (c : Mem 15) : (s.setLitLenCodes n c).savedMatchLen = s.savedMatchLen := rfl
@[simp] theorem State.setLitLenCodes_lzBuf (n : Mem 4) (c : Mem 15) : (s.setLitLenCodes n c).lzBuf = s.lzBuf := rfl
@[simp] theorem State.setLitLenCodes_lzPos (n : Mem 4) (c : Mem 15) : (s.setLitLenCodes n c).lzPos = s.lzPos := rfl
@[simp] theorem State.setLitLenCodes_lzFlagsPos (n : Mem 4) (c : Mem 15) : (s.setLitLenCodes n c).lzFlagsPos = s.lzFlagsPos := rfl
@[simp] theorem State.setLitLenCodes_flagsLeft (n : Mem 4) (c : Mem 15) : (s.setLitLenCodes n c).flagsLeft = s.flagsLeft := rfl
@[simp] theorem State.setLitLenCodes_bitBuffer (n : Mem 4) (c : Mem 15) : (s.setLitLenCodes n c).bitBuffer = s.bitBuffer := rfl
@[simp] theorem State.setLitLenCodes_bitsIn (n : Mem 4) (c : Mem 15) : (s.setLitLenCodes n c).bitsIn = s.bitsIn := rfl
@[simp] theorem State.setLitLenCodes_outBuf (n : Mem 4) (c : Mem 15) : (s.setLitLenCodes n c).outBuf = s.outBuf := rfl
@[simp] theorem State.setLitLenCodes_outPos (n : Mem 4) (c : Mem 15) : (s.setLitLenCodes n c).outPos = s.outPos := rfl
@[simp] theorem State.setLitLenCodes_litFreq (n : Mem 4) (c : Mem 15) : (s.setLitLenCodes n c).litFreq = s.litFreq := rfl
@[simp] theorem State.setLitLenCodes_distFreq (n : Mem 4) (c : Mem 15) : (s.setLitLenCodes n c).distFreq = s.distFreq := rfl
@[simp] theorem State.setLitLenCodes_clFreq (n : Mem 4) (c : Mem 15) : (s.setLitLenCodes n c).clFreq = s.clFreq := rfl
@[simp] theorem State.setLitLenCodes_llLen (n : Mem 4) (c : Mem 15) : (s.setLitLenCodes n c).llLen = n := rfl
@[simp] theorem State.setLitLenCodes_llCode (n : Mem 4) (c : Mem 15) : (s.setLitLenCodes n c).llCode = c := rfl
@[simp] theorem State.setLitLenCodes_dLen (n : Mem 4) (c : Mem 15) : (s.setLitLenCodes n c).dLen = s.dLen := rfl
@[simp] theorem State.setLitLenCodes_dCode (n : Mem 4) (c : Mem 15) : (s.setLitLenCodes n c).dCode = s.dCode := rfl
@[simp] theorem State.setLitLenCodes_clLen (n : Mem 4) (c : Mem 15) : (s.setLitLenCodes n c).clLen = s.clLen := rfl
@[simp] theorem State.setLitLenCodes_clCode (n : Mem 4) (c : Mem 15) : (s.setLitLenCodes n c).clCode = s.clCode := rfl
@[simp] theorem State.setLitLenCodes_syms (n : Mem 4) (c : Mem 15) : (s.setLitLenCodes n c).syms = s.syms := rfl
@[simp] theorem State.setLitLenCodes_numCodes (n : Mem 4) (c : Mem 15) : (s.setLitLenCodes n c).numCodes = s.numCodes := rfl
@[simp] theorem State.setLitLenCodes_nextCode (n : Mem 4) (c : Mem 15) : (s.setLitLenCodes n c).nextCode = s.nextCode := rfl
@[simp] theorem State.setLitLenCodes_packed (n : Mem 4) (c : Mem 15) : (s.setLitLenCodes n c).packed = s.packed := rfl
@[simp] theorem State.setLitLenCodes_params (n : Mem 4) (c : Mem 15) : (s.setLitLenCodes n c).params = s.params := rfl
@[simp] theorem State.setLitLenCodes_hostIn (n : Mem 4) (c : Mem 15) : (s.setLitLenCodes n c).hostIn = s.hostIn := rfl
@[simp] theorem State.setLitLenCodes_returns (n : Mem 4) (c : Mem 15) : (s.setLitLenCodes n c).returns = s.returns := rfl
@[simp] theorem State.setLitLenCodes_sinkLog (n : Mem 4) (c : Mem 15) : (s.setLitLenCodes n c).sinkLog = s.sinkLog := rfl
@[simp] theorem State.setLitLenCodes_sinkAnswers (n : Mem 4) (c : Mem 15) : (s.setLitLenCodes n c).sinkAnswers = s.sinkAnswers := rfl
@[simp] theorem State.setLitLenCodes_sinkDraws (n : Mem 4) (c : Mem 15) : (s.setLitLenCodes n c).sinkDraws = s.sinkDraws := rfl
@[simp] theorem State.setLitLenCodes_resets (n : Mem 4) (c : Mem 15) : (s.setLitLenCodes n c).resets = s.resets := rfl
@[simp] theorem State.setLitLenCodes_sequencer (n : Mem 4) (c : Mem 15) : (s.setLitLenCodes n c).sequencer = s.sequencer := rfl
@[simp] theorem State.setLitLenCodes_opResult (n : Mem 4) (c : Mem 15) : (s.setLitLenCodes n c).opResult = s.opResult := rfl

@[simp] theorem State.setDistCodes_maxProbes (n : Mem 4) (c : Mem 15) : (s.setDistCodes n c).maxProbes = s.maxProbes := rfl
@[simp] theorem State.setDistCodes_greedy (n : Mem 4) (c : Mem 15) : (s.setDistCodes n c).greedy = s.greedy := rfl
@[simp] theorem State.setDistCodes_nondet (n : Mem 4) (c : Mem 15) : (s.setDistCodes n c).nondet = s.nondet := rfl
@[simp] theorem State.setDistCodes_zlib (n : Mem 4) (c : Mem 15) : (s.setDistCodes n c).zlib = s.zlib := rfl
@[simp] theorem State.setDistCodes_failed (n : Mem 4) (c : Mem 15) : (s.setDistCodes n c).failed = s.failed := rfl
@[simp] theorem State.setDistCodes_closed (n : Mem 4) (c : Mem 15) : (s.setDistCodes n c).closed = s.closed := rfl
@[simp] theorem State.setDistCodes_adler (n : Mem 4) (c : Mem 15) : (s.setDistCodes n c).adler = s.adler := rfl
@[simp] theorem State.setDistCodes_lookaheadPos (n : Mem 4) (c : Mem 15) : (s.setDistCodes n c).lookaheadPos = s.lookaheadPos := rfl
@[simp] theorem State.setDistCodes_lookaheadSize (n : Mem 4) (c : Mem 15) : (s.setDistCodes n c).lookaheadSize = s.lookaheadSize := rfl
@[simp] theorem State.setDistCodes_dictSize (n : Mem 4) (c : Mem 15) : (s.setDistCodes n c).dictSize = s.dictSize := rfl
@[simp] theorem State.setDistCodes_dict (n : Mem 4) (c : Mem 15) : (s.setDistCodes n c).dict = s.dict := rfl
@[simp] theorem State.setDistCodes_head (n : Mem 4) (c : Mem 15) : (s.setDistCodes n c).head = s.head := rfl
@[simp] theorem State.setDistCodes_prev (n : Mem 4) (c : Mem 15) : (s.setDistCodes n c).prev = s.prev := rfl
@[simp] theorem State.setDistCodes_savedLit (n : Mem 4) (c : Mem 15) : (s.setDistCodes n c).savedLit = s.savedLit := rfl
@[simp] theorem State.setDistCodes_savedMatchDist (n : Mem 4) (c : Mem 15) : (s.setDistCodes n c).savedMatchDist = s.savedMatchDist := rfl
@[simp] theorem State.setDistCodes_savedMatchLen (n : Mem 4) (c : Mem 15) : (s.setDistCodes n c).savedMatchLen = s.savedMatchLen := rfl
@[simp] theorem State.setDistCodes_lzBuf (n : Mem 4) (c : Mem 15) : (s.setDistCodes n c).lzBuf = s.lzBuf := rfl
@[simp] theorem State.setDistCodes_lzPos (n : Mem 4) (c : Mem 15) : (s.setDistCodes n c).lzPos = s.lzPos := rfl
@[simp] theorem State.setDistCodes_lzFlagsPos (n : Mem 4) (c : Mem 15) : (s.setDistCodes n c).lzFlagsPos = s.lzFlagsPos := rfl
@[simp] theorem State.setDistCodes_flagsLeft (n : Mem 4) (c : Mem 15) : (s.setDistCodes n c).flagsLeft = s.flagsLeft := rfl
@[simp] theorem State.setDistCodes_bitBuffer (n : Mem 4) (c : Mem 15) : (s.setDistCodes n c).bitBuffer = s.bitBuffer := rfl
@[simp] theorem State.setDistCodes_bitsIn (n : Mem 4) (c : Mem 15) : (s.setDistCodes n c).bitsIn = s.bitsIn := rfl
@[simp] theorem State.setDistCodes_outBuf (n : Mem 4) (c : Mem 15) : (s.setDistCodes n c).outBuf = s.outBuf := rfl
@[simp] theorem State.setDistCodes_outPos (n : Mem 4) (c : Mem 15) : (s.setDistCodes n c).outPos = s.outPos := rfl
@[simp] theorem State.setDistCodes_litFreq (n : Mem 4) (c : Mem 15) : (s.setDistCodes n c).litFreq = s.litFreq := rfl
@[simp] theorem State.setDistCodes_distFreq (n : Mem 4) (c : Mem 15) : (s.setDistCodes n c).distFreq = s.distFreq := rfl
@[simp] theorem State.setDistCodes_clFreq (n : Mem 4) (c : Mem 15) : (s.setDistCodes n c).clFreq = s.clFreq := rfl
@[simp] theorem State.setDistCodes_llLen (n : Mem 4) (c : Mem 15) : (s.setDistCodes n c).llLen = s.llLen := rfl
@[simp] theorem State.setDistCodes_llCode (n : Mem 4) (c : Mem 15) : (s.setDistCodes n c).llCode = s.llCode := rfl
@[simp] theorem State.setDistCodes_dLen (n : Mem 4) (c : Mem 15) : (s.setDistCodes n c).dLen = n := rfl
@[simp] theorem State.setDistCodes_dCode (n : Mem 4) (c : Mem 15) : (s.setDistCodes n c).dCode = c := rfl
@[simp] theorem State.setDistCodes_clLen (n : Mem 4) (c : Mem 15) : (s.setDistCodes n c).clLen = s.clLen := rfl
@[simp] theorem State.setDistCodes_clCode (n : Mem 4) (c : Mem 15) : (s.setDistCodes n c).clCode = s.clCode := rfl
@[simp] theorem State.setDistCodes_syms (n : Mem 4) (c : Mem 15) : (s.setDistCodes n c).syms = s.syms := rfl
@[simp] theorem State.setDistCodes_numCodes (n : Mem 4) (c : Mem 15) : (s.setDistCodes n c).numCodes = s.numCodes := rfl
@[simp] theorem State.setDistCodes_nextCode (n : Mem 4) (c : Mem 15) : (s.setDistCodes n c).nextCode = s.nextCode := rfl
@[simp] theorem State.setDistCodes_packed (n : Mem 4) (c : Mem 15) : (s.setDistCodes n c).packed = s.packed := rfl
@[simp] theorem State.setDistCodes_params (n : Mem 4) (c : Mem 15) : (s.setDistCodes n c).params = s.params := rfl
@[simp] theorem State.setDistCodes_hostIn (n : Mem 4) (c : Mem 15) : (s.setDistCodes n c).hostIn = s.hostIn := rfl
@[simp] theorem State.setDistCodes_returns (n : Mem 4) (c : Mem 15) : (s.setDistCodes n c).returns = s.returns := rfl
@[simp] theorem State.setDistCodes_sinkLog (n : Mem 4) (c : Mem 15) : (s.setDistCodes n c).sinkLog = s.sinkLog := rfl
@[simp] theorem State.setDistCodes_sinkAnswers (n : Mem 4) (c : Mem 15) : (s.setDistCodes n c).sinkAnswers = s.sinkAnswers := rfl
@[simp] theorem State.setDistCodes_sinkDraws (n : Mem 4) (c : Mem 15) : (s.setDistCodes n c).sinkDraws = s.sinkDraws := rfl
@[simp] theorem State.setDistCodes_resets (n : Mem 4) (c : Mem 15) : (s.setDistCodes n c).resets = s.resets := rfl
@[simp] theorem State.setDistCodes_sequencer (n : Mem 4) (c : Mem 15) : (s.setDistCodes n c).sequencer = s.sequencer := rfl
@[simp] theorem State.setDistCodes_opResult (n : Mem 4) (c : Mem 15) : (s.setDistCodes n c).opResult = s.opResult := rfl

@[simp] theorem State.setCodeLenCodes_maxProbes (n : Mem 4) (c : Mem 7) : (s.setCodeLenCodes n c).maxProbes = s.maxProbes := rfl
@[simp] theorem State.setCodeLenCodes_greedy (n : Mem 4) (c : Mem 7) : (s.setCodeLenCodes n c).greedy = s.greedy := rfl
@[simp] theorem State.setCodeLenCodes_nondet (n : Mem 4) (c : Mem 7) : (s.setCodeLenCodes n c).nondet = s.nondet := rfl
@[simp] theorem State.setCodeLenCodes_zlib (n : Mem 4) (c : Mem 7) : (s.setCodeLenCodes n c).zlib = s.zlib := rfl
@[simp] theorem State.setCodeLenCodes_failed (n : Mem 4) (c : Mem 7) : (s.setCodeLenCodes n c).failed = s.failed := rfl
@[simp] theorem State.setCodeLenCodes_closed (n : Mem 4) (c : Mem 7) : (s.setCodeLenCodes n c).closed = s.closed := rfl
@[simp] theorem State.setCodeLenCodes_adler (n : Mem 4) (c : Mem 7) : (s.setCodeLenCodes n c).adler = s.adler := rfl
@[simp] theorem State.setCodeLenCodes_lookaheadPos (n : Mem 4) (c : Mem 7) : (s.setCodeLenCodes n c).lookaheadPos = s.lookaheadPos := rfl
@[simp] theorem State.setCodeLenCodes_lookaheadSize (n : Mem 4) (c : Mem 7) : (s.setCodeLenCodes n c).lookaheadSize = s.lookaheadSize := rfl
@[simp] theorem State.setCodeLenCodes_dictSize (n : Mem 4) (c : Mem 7) : (s.setCodeLenCodes n c).dictSize = s.dictSize := rfl
@[simp] theorem State.setCodeLenCodes_dict (n : Mem 4) (c : Mem 7) : (s.setCodeLenCodes n c).dict = s.dict := rfl
@[simp] theorem State.setCodeLenCodes_head (n : Mem 4) (c : Mem 7) : (s.setCodeLenCodes n c).head = s.head := rfl
@[simp] theorem State.setCodeLenCodes_prev (n : Mem 4) (c : Mem 7) : (s.setCodeLenCodes n c).prev = s.prev := rfl
@[simp] theorem State.setCodeLenCodes_savedLit (n : Mem 4) (c : Mem 7) : (s.setCodeLenCodes n c).savedLit = s.savedLit := rfl
@[simp] theorem State.setCodeLenCodes_savedMatchDist (n : Mem 4) (c : Mem 7) : (s.setCodeLenCodes n c).savedMatchDist = s.savedMatchDist := rfl
@[simp] theorem State.setCodeLenCodes_savedMatchLen (n : Mem 4) (c : Mem 7) : (s.setCodeLenCodes n c).savedMatchLen = s.savedMatchLen := rfl
@[simp] theorem State.setCodeLenCodes_lzBuf (n : Mem 4) (c : Mem 7) : (s.setCodeLenCodes n c).lzBuf = s.lzBuf := rfl
@[simp] theorem State.setCodeLenCodes_lzPos (n : Mem 4) (c : Mem 7) : (s.setCodeLenCodes n c).lzPos = s.lzPos := rfl
@[simp] theorem State.setCodeLenCodes_lzFlagsPos (n : Mem 4) (c : Mem 7) : (s.setCodeLenCodes n c).lzFlagsPos = s.lzFlagsPos := rfl
@[simp] theorem State.setCodeLenCodes_flagsLeft (n : Mem 4) (c : Mem 7) : (s.setCodeLenCodes n c).flagsLeft = s.flagsLeft := rfl
@[simp] theorem State.setCodeLenCodes_bitBuffer (n : Mem 4) (c : Mem 7) : (s.setCodeLenCodes n c).bitBuffer = s.bitBuffer := rfl
@[simp] theorem State.setCodeLenCodes_bitsIn (n : Mem 4) (c : Mem 7) : (s.setCodeLenCodes n c).bitsIn = s.bitsIn := rfl
@[simp] theorem State.setCodeLenCodes_outBuf (n : Mem 4) (c : Mem 7) : (s.setCodeLenCodes n c).outBuf = s.outBuf := rfl
@[simp] theorem State.setCodeLenCodes_outPos (n : Mem 4) (c : Mem 7) : (s.setCodeLenCodes n c).outPos = s.outPos := rfl
@[simp] theorem State.setCodeLenCodes_litFreq (n : Mem 4) (c : Mem 7) : (s.setCodeLenCodes n c).litFreq = s.litFreq := rfl
@[simp] theorem State.setCodeLenCodes_distFreq (n : Mem 4) (c : Mem 7) : (s.setCodeLenCodes n c).distFreq = s.distFreq := rfl
@[simp] theorem State.setCodeLenCodes_clFreq (n : Mem 4) (c : Mem 7) : (s.setCodeLenCodes n c).clFreq = s.clFreq := rfl
@[simp] theorem State.setCodeLenCodes_llLen (n : Mem 4) (c : Mem 7) : (s.setCodeLenCodes n c).llLen = s.llLen := rfl
@[simp] theorem State.setCodeLenCodes_llCode (n : Mem 4) (c : Mem 7) : (s.setCodeLenCodes n c).llCode = s.llCode := rfl
@[simp] theorem State.setCodeLenCodes_dLen (n : Mem 4) (c : Mem 7) : (s.setCodeLenCodes n c).dLen = s.dLen := rfl
@[simp] theorem State.setCodeLenCodes_dCode (n : Mem 4) (c : Mem 7) : (s.setCodeLenCodes n c).dCode = s.dCode := rfl
@[simp] theorem State.setCodeLenCodes_clLen (n : Mem 4) (c : Mem 7) : (s.setCodeLenCodes n c).clLen = n := rfl
@[simp] theorem State.setCodeLenCodes_clCode (n : Mem 4) (c : Mem 7) : (s.setCodeLenCodes n c).clCode = c := rfl
@[simp] theorem State.setCodeLenCodes_syms (n : Mem 4) (c : Mem 7) : (s.setCodeLenCodes n c).syms = s.syms := rfl
@[simp] theorem State.setCodeLenCodes_numCodes (n : Mem 4) (c : Mem 7) : (s.setCodeLenCodes n c).numCodes = s.numCodes := rfl
@[simp] theorem State.setCodeLenCodes_nextCode (n : Mem 4) (c : Mem 7) : (s.setCodeLenCodes n c).nextCode = s.nextCode := rfl
@[simp] theorem State.setCodeLenCodes_packed (n : Mem 4) (c : Mem 7) : (s.setCodeLenCodes n c).packed = s.packed := rfl
@[simp] theorem State.setCodeLenCodes_params (n : Mem 4) (c : Mem 7) : (s.setCodeLenCodes n c).params = s.params := rfl
@[simp] theorem State.setCodeLenCodes_hostIn (n : Mem 4) (c : Mem 7) : (s.setCodeLenCodes n c).hostIn = s.hostIn := rfl
@[simp] theorem State.setCodeLenCodes_returns (n : Mem 4) (c : Mem 7) : (s.setCodeLenCodes n c).returns = s.returns := rfl
@[simp] theorem State.setCodeLenCodes_sinkLog (n : Mem 4) (c : Mem 7) : (s.setCodeLenCodes n c).sinkLog = s.sinkLog := rfl
@[simp] theorem State.setCodeLenCodes_sinkAnswers (n : Mem 4) (c : Mem 7) : (s.setCodeLenCodes n c).sinkAnswers = s.sinkAnswers := rfl
@[simp] theorem State.setCodeLenCodes_sinkDraws (n : Mem 4) (c : Mem 7) : (s.setCodeLenCodes n c).sinkDraws = s.sinkDraws := rfl
@[simp] theorem State.setCodeLenCodes_resets (n : Mem 4) (c : Mem 7) : (s.setCodeLenCodes n c).resets = s.resets := rfl
@[simp] theorem State.setCodeLenCodes_sequencer (n : Mem 4) (c : Mem 7) : (s.setCodeLenCodes n c).sequencer = s.sequencer := rfl
@[simp] theorem State.setCodeLenCodes_opResult (n : Mem 4) (c : Mem 7) : (s.setCodeLenCodes n c).opResult = s.opResult := rfl

@[simp] theorem State.setScratch_maxProbes (p : List SymKey) (n : List (BitVec 9)) (c : List (BitVec 16)) : (s.setScratch p n c).maxProbes = s.maxProbes := rfl
@[simp] theorem State.setScratch_greedy (p : List SymKey) (n : List (BitVec 9)) (c : List (BitVec 16)) : (s.setScratch p n c).greedy = s.greedy := rfl
@[simp] theorem State.setScratch_nondet (p : List SymKey) (n : List (BitVec 9)) (c : List (BitVec 16)) : (s.setScratch p n c).nondet = s.nondet := rfl
@[simp] theorem State.setScratch_zlib (p : List SymKey) (n : List (BitVec 9)) (c : List (BitVec 16)) : (s.setScratch p n c).zlib = s.zlib := rfl
@[simp] theorem State.setScratch_failed (p : List SymKey) (n : List (BitVec 9)) (c : List (BitVec 16)) : (s.setScratch p n c).failed = s.failed := rfl
@[simp] theorem State.setScratch_closed (p : List SymKey) (n : List (BitVec 9)) (c : List (BitVec 16)) : (s.setScratch p n c).closed = s.closed := rfl
@[simp] theorem State.setScratch_adler (p : List SymKey) (n : List (BitVec 9)) (c : List (BitVec 16)) : (s.setScratch p n c).adler = s.adler := rfl
@[simp] theorem State.setScratch_lookaheadPos (p : List SymKey) (n : List (BitVec 9)) (c : List (BitVec 16)) : (s.setScratch p n c).lookaheadPos = s.lookaheadPos := rfl
@[simp] theorem State.setScratch_lookaheadSize (p : List SymKey) (n : List (BitVec 9)) (c : List (BitVec 16)) : (s.setScratch p n c).lookaheadSize = s.lookaheadSize := rfl
@[simp] theorem State.setScratch_dictSize (p : List SymKey) (n : List (BitVec 9)) (c : List (BitVec 16)) : (s.setScratch p n c).dictSize = s.dictSize := rfl
@[simp] theorem State.setScratch_dict (p : List SymKey) (n : List (BitVec 9)) (c : List (BitVec 16)) : (s.setScratch p n c).dict = s.dict := rfl
@[simp] theorem State.setScratch_head (p : List SymKey) (n : List (BitVec 9)) (c : List (BitVec 16)) : (s.setScratch p n c).head = s.head := rfl
@[simp] theorem State.setScratch_prev (p : List SymKey) (n : List (BitVec 9)) (c : List (BitVec 16)) : (s.setScratch p n c).prev = s.prev := rfl
@[simp] theorem State.setScratch_savedLit (p : List SymKey) (n : List (BitVec 9)) (c : List (BitVec 16)) : (s.setScratch p n c).savedLit = s.savedLit := rfl
@[simp] theorem State.setScratch_savedMatchDist (p : List SymKey) (n : List (BitVec 9)) (c : List (BitVec 16)) : (s.setScratch p n c).savedMatchDist = s.savedMatchDist := rfl
@[simp] theorem State.setScratch_savedMatchLen (p : List SymKey) (n : List (BitVec 9)) (c : List (BitVec 16)) : (s.setScratch p n c).savedMatchLen = s.savedMatchLen := rfl
@[simp] theorem State.setScratch_lzBuf (p : List SymKey) (n : List (BitVec 9)) (c : List (BitVec 16)) : (s.setScratch p n c).lzBuf = s.lzBuf := rfl
@[simp] theorem State.setScratch_lzPos (p : List SymKey) (n : List (BitVec 9)) (c : List (BitVec 16)) : (s.setScratch p n c).lzPos = s.lzPos := rfl
@[simp] theorem State.setScratch_lzFlagsPos (p : List SymKey) (n : List (BitVec 9)) (c : List (BitVec 16)) : (s.setScratch p n c).lzFlagsPos = s.lzFlagsPos := rfl
@[simp] theorem State.setScratch_flagsLeft (p : List SymKey) (n : List (BitVec 9)) (c : List (BitVec 16)) : (s.setScratch p n c).flagsLeft = s.flagsLeft := rfl
@[simp] theorem State.setScratch_bitBuffer (p : List SymKey) (n : List (BitVec 9)) (c : List (BitVec 16)) : (s.setScratch p n c).bitBuffer = s.bitBuffer := rfl
@[simp] theorem State.setScratch_bitsIn (p : List SymKey) (n : List (BitVec 9)) (c : List (BitVec 16)) : (s.setScratch p n c).bitsIn = s.bitsIn := rfl
@[simp] theorem State.setScratch_outBuf (p : List SymKey) (n : List (BitVec 9)) (c : List (BitVec 16)) : (s.setScratch p n c).outBuf = s.outBuf := rfl
@[simp] theorem State.setScratch_outPos (p : List SymKey) (n : List (BitVec 9)) (c : List (BitVec 16)) : (s.setScratch p n c).outPos = s.outPos := rfl
@[simp] theorem State.setScratch_litFreq (p : List SymKey) (n : List (BitVec 9)) (c : List (BitVec 16)) : (s.setScratch p n c).litFreq = s.litFreq := rfl
@[simp] theorem State.setScratch_distFreq (p : List SymKey) (n : List (BitVec 9)) (c : List (BitVec 16)) : (s.setScratch p n c).distFreq = s.distFreq := rfl
@[simp] theorem State.setScratch_clFreq (p : List SymKey) (n : List (BitVec 9)) (c : List (BitVec 16)) : (s.setScratch p n c).clFreq = s.clFreq := rfl
@[simp] theorem State.setScratch_llLen (p : List SymKey) (n : List (BitVec 9)) (c : List (BitVec 16)) : (s.setScratch p n c).llLen = s.llLen := rfl
@[simp] theorem State.setScratch_llCode (p : List SymKey) (n : List (BitVec 9)) (c : List (BitVec 16)) : (s.setScratch p n c).llCode = s.llCode := rfl
@[simp] theorem State.setScratch_dLen (p : List SymKey) (n : List (BitVec 9)) (c : List (BitVec 16)) : (s.setScratch p n c).dLen = s.dLen := rfl
@[simp] theorem State.setScratch_dCode (p : List SymKey) (n : List (BitVec 9)) (c : List (BitVec 16)) : (s.setScratch p n c).dCode = s.dCode := rfl
@[simp] theorem State.setScratch_clLen (p : List SymKey) (n : List (BitVec 9)) (c : List (BitVec 16)) : (s.setScratch p n c).clLen = s.clLen := rfl
@[simp] theorem State.setScratch_clCode (p : List SymKey) (n : List (BitVec 9)) (c : List (BitVec 16)) : (s.setScratch p n c).clCode = s.clCode := rfl
@[simp] theorem State.setScratch_syms (p : List SymKey) (n : List (BitVec 9)) (c : List (BitVec 16)) : (s.setScratch p n c).syms = p := rfl
@[simp] theorem State.setScratch_numCodes (p : List SymKey) (n : List (BitVec 9)) (c : List (BitVec 16)) : (s.setScratch p n c).numCodes = n := rfl
@[simp] theorem State.setScratch_nextCode (p : List SymKey) (n : List (BitVec 9)) (c : List (BitVec 16)) : (s.setScratch p n c).nextCode = c := rfl
@[simp] theorem State.setScratch_packed (p : List SymKey) (n : List (BitVec 9)) (c : List (BitVec 16)) : (s.setScratch p n c).packed = s.packed := rfl
@[simp] theorem State.setScratch_params (p : List SymKey) (n : List (BitVec 9)) (c : List (BitVec 16)) : (s.setScratch p n c).params = s.params := rfl
@[simp] theorem State.setScratch_hostIn (p : List SymKey) (n : List (BitVec 9)) (c : List (BitVec 16)) : (s.setScratch p n c).hostIn = s.hostIn := rfl
@[simp] theorem State.setScratch_returns (p : List SymKey) (n : List (BitVec 9)) (c : List (BitVec 16)) : (s.setScratch p n c).returns = s.returns := rfl
@[simp] theorem State.setScratch_sinkLog (p : List SymKey) (n : List (BitVec 9)) (c : List (BitVec 16)) : (s.setScratch p n c).sinkLog = s.sinkLog := rfl
@[simp] theorem State.setScratch_sinkAnswers (p : List SymKey) (n : List (BitVec 9)) (c : List (BitVec 16)) : (s.setScratch p n c).sinkAnswers = s.sinkAnswers := rfl
@[simp] theorem State.setScratch_sinkDraws (p : List SymKey) (n : List (BitVec 9)) (c : List (BitVec 16)) : (s.setScratch p n c).sinkDraws = s.sinkDraws := rfl
@[simp] theorem State.setScratch_resets (p : List SymKey) (n : List (BitVec 9)) (c : List (BitVec 16)) : (s.setScratch p n c).resets = s.resets := rfl
@[simp] theorem State.setScratch_sequencer (p : List SymKey) (n : List (BitVec 9)) (c : List (BitVec 16)) : (s.setScratch p n c).sequencer = s.sequencer := rfl
@[simp] theorem State.setScratch_opResult (p : List SymKey) (n : List (BitVec 9)) (c : List (BitVec 16)) : (s.setScratch p n c).opResult = s.opResult := rfl

@[simp] theorem State.setResult_maxProbes (r : OpResult) : (s.setResult r).maxProbes = s.maxProbes := rfl
@[simp] theorem State.setResult_greedy (r : OpResult) : (s.setResult r).greedy = s.greedy := rfl
@[simp] theorem State.setResult_nondet (r : OpResult) : (s.setResult r).nondet = s.nondet := rfl
@[simp] theorem State.setResult_zlib (r : OpResult) : (s.setResult r).zlib = s.zlib := rfl
@[simp] theorem State.setResult_failed (r : OpResult) : (s.setResult r).failed = s.failed := rfl
@[simp] theorem State.setResult_closed (r : OpResult) : (s.setResult r).closed = s.closed := rfl
@[simp] theorem State.setResult_adler (r : OpResult) : (s.setResult r).adler = s.adler := rfl
@[simp] theorem State.setResult_lookaheadPos (r : OpResult) : (s.setResult r).lookaheadPos = s.lookaheadPos := rfl
@[simp] theorem State.setResult_lookaheadSize (r : OpResult) : (s.setResult r).lookaheadSize = s.lookaheadSize := rfl
@[simp] theorem State.setResult_dictSize (r : OpResult) : (s.setResult r).dictSize = s.dictSize := rfl
@[simp] theorem State.setResult_dict (r : OpResult) : (s.setResult r).dict = s.dict := rfl
@[simp] theorem State.setResult_head (r : OpResult) : (s.setResult r).head = s.head := rfl
@[simp] theorem State.setResult_prev (r : OpResult) : (s.setResult r).prev = s.prev := rfl
@[simp] theorem State.setResult_savedLit (r : OpResult) : (s.setResult r).savedLit = s.savedLit := rfl
@[simp] theorem State.setResult_savedMatchDist (r : OpResult) : (s.setResult r).savedMatchDist = s.savedMatchDist := rfl
@[simp] theorem State.setResult_savedMatchLen (r : OpResult) : (s.setResult r).savedMatchLen = s.savedMatchLen := rfl
@[simp] theorem State.setResult_lzBuf (r : OpResult) : (s.setResult r).lzBuf = s.lzBuf := rfl
@[simp] theorem State.setResult_lzPos (r : OpResult) : (s.setResult r).lzPos = s.lzPos := rfl
@[simp] theorem State.setResult_lzFlagsPos (r : OpResult) : (s.setResult r).lzFlagsPos = s.lzFlagsPos := rfl
@[simp] theorem State.setResult_flagsLeft (r : OpResult) : (s.setResult r).flagsLeft = s.flagsLeft := rfl
@[simp] theorem State.setResult_bitBuffer (r : OpResult) : (s.setResult r).bitBuffer = s.bitBuffer := rfl
@[simp] theorem State.setResult_bitsIn (r : OpResult) : (s.setResult r).bitsIn = s.bitsIn := rfl
@[simp] theorem State.setResult_outBuf (r : OpResult) : (s.setResult r).outBuf = s.outBuf := rfl
@[simp] theorem State.setResult_outPos (r : OpResult) : (s.setResult r).outPos = s.outPos := rfl
@[simp] theorem State.setResult_litFreq (r : OpResult) : (s.setResult r).litFreq = s.litFreq := rfl
@[simp] theorem State.setResult_distFreq (r : OpResult) : (s.setResult r).distFreq = s.distFreq := rfl
@[simp] theorem State.setResult_clFreq (r : OpResult) : (s.setResult r).clFreq = s.clFreq := rfl
@[simp] theorem State.setResult_llLen (r : OpResult) : (s.setResult r).llLen = s.llLen := rfl
@[simp] theorem State.setResult_llCode (r : OpResult) : (s.setResult r).llCode = s.llCode := rfl
@[simp] theorem State.setResult_dLen (r : OpResult) : (s.setResult r).dLen = s.dLen := rfl
@[simp] theorem State.setResult_dCode (r : OpResult) : (s.setResult r).dCode = s.dCode := rfl
@[simp] theorem State.setResult_clLen (r : OpResult) : (s.setResult r).clLen = s.clLen := rfl
@[simp] theorem State.setResult_clCode (r : OpResult) : (s.setResult r).clCode = s.clCode := rfl
@[simp] theorem State.setResult_syms (r : OpResult) : (s.setResult r).syms = s.syms := rfl
@[simp] theorem State.setResult_numCodes (r : OpResult) : (s.setResult r).numCodes = s.numCodes := rfl
@[simp] theorem State.setResult_nextCode (r : OpResult) : (s.setResult r).nextCode = s.nextCode := rfl
@[simp] theorem State.setResult_packed (r : OpResult) : (s.setResult r).packed = s.packed := rfl
@[simp] theorem State.setResult_params (r : OpResult) : (s.setResult r).params = s.params := rfl
@[simp] theorem State.setResult_hostIn (r : OpResult) : (s.setResult r).hostIn = s.hostIn := rfl
@[simp] theorem State.setResult_returns (r : OpResult) : (s.setResult r).returns = s.returns := rfl
@[simp] theorem State.setResult_sinkLog (r : OpResult) : (s.setResult r).sinkLog = s.sinkLog := rfl
@[simp] theorem State.setResult_sinkAnswers (r : OpResult) : (s.setResult r).sinkAnswers = s.sinkAnswers := rfl
@[simp] theorem State.setResult_sinkDraws (r : OpResult) : (s.setResult r).sinkDraws = s.sinkDraws := rfl
@[simp] theorem State.setResult_resets (r : OpResult) : (s.setResult r).resets = s.resets := rfl
@[simp] theorem State.setResult_sequencer (r : OpResult) : (s.setResult r).sequencer = s.sequencer := rfl
@[simp] theorem State.setResult_opResult (r : OpResult) : (s.setResult r).opResult = r := rfl

@[simp] theorem State.setHostIn_maxProbes (items : List HostItem) : (s.setHostIn items).maxProbes = s.maxProbes := rfl
@[simp] theorem State.setHostIn_greedy (items : List HostItem) : (s.setHostIn items).greedy = s.greedy := rfl
@[simp] theorem State.setHostIn_nondet (items : List HostItem) : (s.setHostIn items).nondet = s.nondet := rfl
@[simp] theorem State.setHostIn_zlib (items : List HostItem) : (s.setHostIn items).zlib = s.zlib := rfl
@[simp] theorem State.setHostIn_failed (items : List HostItem) : (s.setHostIn items).failed = s.failed := rfl
@[simp] theorem State.setHostIn_closed (items : List HostItem) : (s.setHostIn items).closed = s.closed := rfl
@[simp] theorem State.setHostIn_adler (items : List HostItem) : (s.setHostIn items).adler = s.adler := rfl
@[simp] theorem State.setHostIn_lookaheadPos (items : List HostItem) : (s.setHostIn items).lookaheadPos = s.lookaheadPos := rfl
@[simp] theorem State.setHostIn_lookaheadSize (items : List HostItem) : (s.setHostIn items).lookaheadSize = s.lookaheadSize := rfl
@[simp] theorem State.setHostIn_dictSize (items : List HostItem) : (s.setHostIn items).dictSize = s.dictSize := rfl
@[simp] theorem State.setHostIn_dict (items : List HostItem) : (s.setHostIn items).dict = s.dict := rfl
@[simp] theorem State.setHostIn_head (items : List HostItem) : (s.setHostIn items).head = s.head := rfl
@[simp] theorem State.setHostIn_prev (items : List HostItem) : (s.setHostIn items).prev = s.prev := rfl
@[simp] theorem State.setHostIn_savedLit (items : List HostItem) : (s.setHostIn items).savedLit = s.savedLit := rfl
@[simp] theorem State.setHostIn_savedMatchDist (items : List HostItem) : (s.setHostIn items).savedMatchDist = s.savedMatchDist := rfl
@[simp] theorem State.setHostIn_savedMatchLen (items : List HostItem) : (s.setHostIn items).savedMatchLen = s.savedMatchLen := rfl
@[simp] theorem State.setHostIn_lzBuf (items : List HostItem) : (s.setHostIn items).lzBuf = s.lzBuf := rfl
@[simp] theorem State.setHostIn_lzPos (items : List HostItem) : (s.setHostIn items).lzPos = s.lzPos := rfl
@[simp] theorem State.setHostIn_lzFlagsPos (items : List HostItem) : (s.setHostIn items).lzFlagsPos = s.lzFlagsPos := rfl
@[simp] theorem State.setHostIn_flagsLeft (items : List HostItem) : (s.setHostIn items).flagsLeft = s.flagsLeft := rfl
@[simp] theorem State.setHostIn_bitBuffer (items : List HostItem) : (s.setHostIn items).bitBuffer = s.bitBuffer := rfl
@[simp] theorem State.setHostIn_bitsIn (items : List HostItem) : (s.setHostIn items).bitsIn = s.bitsIn := rfl
@[simp] theorem State.setHostIn_outBuf (items : List HostItem) : (s.setHostIn items).outBuf = s.outBuf := rfl
@[simp] theorem State.setHostIn_outPos (items : List HostItem) : (s.setHostIn items).outPos = s.outPos := rfl
@[simp] theorem State.setHostIn_litFreq (items : List HostItem) : (s.setHostIn items).litFreq = s.litFreq := rfl
@[simp] theorem State.setHostIn_distFreq (items : List HostItem) : (s.setHostIn items).distFreq = s.distFreq := rfl
@[simp] theorem State.setHostIn_clFreq (items : List HostItem) : (s.setHostIn items).clFreq = s.clFreq := rfl
@[simp] theorem State.setHostIn_llLen (items : List HostItem) : (s.setHostIn items).llLen = s.llLen := rfl
@[simp] theorem State.setHostIn_llCode (items : List HostItem) : (s.setHostIn items).llCode = s.llCode := rfl
@[simp] theorem State.setHostIn_dLen (items : List HostItem) : (s.setHostIn items).dLen = s.dLen := rfl
@[simp] theorem State.setHostIn_dCode (items : List HostItem) : (s.setHostIn items).dCode = s.dCode := rfl
@[simp] theorem State.setHostIn_clLen (items : List HostItem) : (s.setHostIn items).clLen = s.clLen := rfl
@[simp] theorem State.setHostIn_clCode (items : List HostItem) : (s.setHostIn items).clCode = s.clCode := rfl
@[simp] theorem State.setHostIn_syms (items : List HostItem) : (s.setHostIn items).syms = s.syms := rfl
@[simp] theorem State.setHostIn_numCodes (items : List HostItem) : (s.setHostIn items).numCodes = s.numCodes := rfl
@[simp] theorem State.setHostIn_nextCode (items : List HostItem) : (s.setHostIn items).nextCode = s.nextCode := rfl
@[simp] theorem State.setHostIn_packed (items : List HostItem) : (s.setHostIn items).packed = s.packed := rfl
@[simp] theorem State.setHostIn_params (items : List HostItem) : (s.setHostIn items).params = s.params := rfl
@[simp] theorem State.setHostIn_hostIn (items : List HostItem) : (s.setHostIn items).hostIn = items := rfl
@[simp] theorem State.setHostIn_returns (items : List HostItem) : (s.setHostIn items).returns = s.returns := rfl
@[simp] theorem State.setHostIn_sinkLog (items : List HostItem) : (s.setHostIn items).sinkLog = s.sinkLog := rfl
@[simp] theorem State.setHostIn_sinkAnswers (items : List HostItem) : (s.setHostIn items).sinkAnswers = s.sinkAnswers := rfl
@[simp] theorem State.setHostIn_sinkDraws (items : List HostItem) : (s.setHostIn items).sinkDraws = s.sinkDraws := rfl
@[simp] theorem State.setHostIn_resets (items : List HostItem) : (s.setHostIn items).resets = s.resets := rfl
@[simp] theorem State.setHostIn_sequencer (items : List HostItem) : (s.setHostIn items).sequencer = s.sequencer := rfl
@[simp] theorem State.setHostIn_opResult (items : List HostItem) : (s.setHostIn items).opResult = s.opResult := rfl

@[simp] theorem State.setSequencer_maxProbes (ops : List Instr) : (s.setSequencer ops).maxProbes = s.maxProbes := rfl
@[simp] theorem State.setSequencer_greedy (ops : List Instr) : (s.setSequencer ops).greedy = s.greedy := rfl
@[simp] theorem State.setSequencer_nondet (ops : List Instr) : (s.setSequencer ops).nondet = s.nondet := rfl
@[simp] theorem State.setSequencer_zlib (ops : List Instr) : (s.setSequencer ops).zlib = s.zlib := rfl
@[simp] theorem State.setSequencer_failed (ops : List Instr) : (s.setSequencer ops).failed = s.failed := rfl
@[simp] theorem State.setSequencer_closed (ops : List Instr) : (s.setSequencer ops).closed = s.closed := rfl
@[simp] theorem State.setSequencer_adler (ops : List Instr) : (s.setSequencer ops).adler = s.adler := rfl
@[simp] theorem State.setSequencer_lookaheadPos (ops : List Instr) : (s.setSequencer ops).lookaheadPos = s.lookaheadPos := rfl
@[simp] theorem State.setSequencer_lookaheadSize (ops : List Instr) : (s.setSequencer ops).lookaheadSize = s.lookaheadSize := rfl
@[simp] theorem State.setSequencer_dictSize (ops : List Instr) : (s.setSequencer ops).dictSize = s.dictSize := rfl
@[simp] theorem State.setSequencer_dict (ops : List Instr) : (s.setSequencer ops).dict = s.dict := rfl
@[simp] theorem State.setSequencer_head (ops : List Instr) : (s.setSequencer ops).head = s.head := rfl
@[simp] theorem State.setSequencer_prev (ops : List Instr) : (s.setSequencer ops).prev = s.prev := rfl
@[simp] theorem State.setSequencer_savedLit (ops : List Instr) : (s.setSequencer ops).savedLit = s.savedLit := rfl
@[simp] theorem State.setSequencer_savedMatchDist (ops : List Instr) : (s.setSequencer ops).savedMatchDist = s.savedMatchDist := rfl
@[simp] theorem State.setSequencer_savedMatchLen (ops : List Instr) : (s.setSequencer ops).savedMatchLen = s.savedMatchLen := rfl
@[simp] theorem State.setSequencer_lzBuf (ops : List Instr) : (s.setSequencer ops).lzBuf = s.lzBuf := rfl
@[simp] theorem State.setSequencer_lzPos (ops : List Instr) : (s.setSequencer ops).lzPos = s.lzPos := rfl
@[simp] theorem State.setSequencer_lzFlagsPos (ops : List Instr) : (s.setSequencer ops).lzFlagsPos = s.lzFlagsPos := rfl
@[simp] theorem State.setSequencer_flagsLeft (ops : List Instr) : (s.setSequencer ops).flagsLeft = s.flagsLeft := rfl
@[simp] theorem State.setSequencer_bitBuffer (ops : List Instr) : (s.setSequencer ops).bitBuffer = s.bitBuffer := rfl
@[simp] theorem State.setSequencer_bitsIn (ops : List Instr) : (s.setSequencer ops).bitsIn = s.bitsIn := rfl
@[simp] theorem State.setSequencer_outBuf (ops : List Instr) : (s.setSequencer ops).outBuf = s.outBuf := rfl
@[simp] theorem State.setSequencer_outPos (ops : List Instr) : (s.setSequencer ops).outPos = s.outPos := rfl
@[simp] theorem State.setSequencer_litFreq (ops : List Instr) : (s.setSequencer ops).litFreq = s.litFreq := rfl
@[simp] theorem State.setSequencer_distFreq (ops : List Instr) : (s.setSequencer ops).distFreq = s.distFreq := rfl
@[simp] theorem State.setSequencer_clFreq (ops : List Instr) : (s.setSequencer ops).clFreq = s.clFreq := rfl
@[simp] theorem State.setSequencer_llLen (ops : List Instr) : (s.setSequencer ops).llLen = s.llLen := rfl
@[simp] theorem State.setSequencer_llCode (ops : List Instr) : (s.setSequencer ops).llCode = s.llCode := rfl
@[simp] theorem State.setSequencer_dLen (ops : List Instr) : (s.setSequencer ops).dLen = s.dLen := rfl
@[simp] theorem State.setSequencer_dCode (ops : List Instr) : (s.setSequencer ops).dCode = s.dCode := rfl
@[simp] theorem State.setSequencer_clLen (ops : List Instr) : (s.setSequencer ops).clLen = s.clLen := rfl
@[simp] theorem State.setSequencer_clCode (ops : List Instr) : (s.setSequencer ops).clCode = s.clCode := rfl
@[simp] theorem State.setSequencer_syms (ops : List Instr) : (s.setSequencer ops).syms = s.syms := rfl
@[simp] theorem State.setSequencer_numCodes (ops : List Instr) : (s.setSequencer ops).numCodes = s.numCodes := rfl
@[simp] theorem State.setSequencer_nextCode (ops : List Instr) : (s.setSequencer ops).nextCode = s.nextCode := rfl
@[simp] theorem State.setSequencer_packed (ops : List Instr) : (s.setSequencer ops).packed = s.packed := rfl
@[simp] theorem State.setSequencer_params (ops : List Instr) : (s.setSequencer ops).params = s.params := rfl
@[simp] theorem State.setSequencer_hostIn (ops : List Instr) : (s.setSequencer ops).hostIn = s.hostIn := rfl
@[simp] theorem State.setSequencer_returns (ops : List Instr) : (s.setSequencer ops).returns = s.returns := rfl
@[simp] theorem State.setSequencer_sinkLog (ops : List Instr) : (s.setSequencer ops).sinkLog = s.sinkLog := rfl
@[simp] theorem State.setSequencer_sinkAnswers (ops : List Instr) : (s.setSequencer ops).sinkAnswers = s.sinkAnswers := rfl
@[simp] theorem State.setSequencer_sinkDraws (ops : List Instr) : (s.setSequencer ops).sinkDraws = s.sinkDraws := rfl
@[simp] theorem State.setSequencer_resets (ops : List Instr) : (s.setSequencer ops).resets = s.resets := rfl
@[simp] theorem State.setSequencer_sequencer (ops : List Instr) : (s.setSequencer ops).sequencer = ops := rfl
@[simp] theorem State.setSequencer_opResult (ops : List Instr) : (s.setSequencer ops).opResult = s.opResult := rfl

end Sys2Proof.Machine
end

