-- ==== Sys2Proof/Laws/Memory.lean ====
section
/-! SUPPORT. One memory: reading after a write, and the canonical form, which every memory operation keeps and the
reset state has (log 2). -/

namespace Sys2Proof.Machine

variable {w : Nat}

/-! ## Reading after a write -/

theorem cellFind_insert (cs : List (Nat × BitVec w)) (i j : Nat) (v : BitVec w) :
    cellFind (cellInsert cs i v) j = if i = j then some v else cellFind cs j := by
  induction cs with
  | nil => simp [cellInsert, cellFind]
  | cons c cs ih =>
    obtain ⟨a, x⟩ := c
    simp only [cellInsert]
    split
    · simp [cellFind]
    · split
      · subst_vars; simp only [cellFind]; split <;> rfl
      · simp only [cellFind, ih]
        split <;> split <;> simp_all

theorem cellFind_erase (cs : List (Nat × BitVec w)) (i j : Nat) :
    cellFind (cellErase cs i) j = if i = j then none else cellFind cs j := by
  induction cs with
  | nil => simp [cellErase, cellFind]
  | cons c cs ih =>
    obtain ⟨a, x⟩ := c
    simp only [cellErase]
    split
    · subst_vars; rw [ih]; split <;> simp_all [cellFind]
    · simp only [cellFind, ih]; split <;> split <;> simp_all

/-- A read gives the value last written to its index; a read elsewhere does not see the write. -/
theorem Mem.get?_set (m : Mem w) (i j : Nat) (v : BitVec w) :
    (m.set i v).get? j = if i = j then some v else m.get? j := by
  unfold Mem.set
  by_cases h : i = j <;> by_cases hf : m.fill = some v <;> simp [Mem.get?, cellFind_erase, cellFind_insert, h, hf]

@[simp] theorem Mem.get?_set_same (m : Mem w) (i : Nat) (v : BitVec w) : (m.set i v).get? i = some v := by
  simp [Mem.get?_set]

theorem Mem.get?_set_other (m : Mem w) (i j : Nat) (v : BitVec w) (h : i ≠ j) : (m.set i v).get? j = m.get? j := by
  simp [Mem.get?_set, h]

@[simp] theorem Mem.get?_filled (v : BitVec w) (i : Nat) : (Mem.filled v).get? i = some v := rfl

@[simp] theorem Mem.get?_unspecified (i : Nat) : (Mem.unspecified (w := w)).get? i = none := rfl

@[simp] theorem Mem.set_fill (m : Mem w) (i : Nat) (v : BitVec w) : (m.set i v).fill = m.fill := by
  unfold Mem.set; split <;> rfl

/-! ## The canonical form -/

theorem cellsRising_iff (cs : List (Nat × BitVec w)) :
    cellsRising cs = true ↔ cs.Pairwise fun a b => a.1 < b.1 := by
  induction cs with
  | nil => simp [cellsRising]
  | cons c cs ih =>
    cases cs with
    | nil => simp [cellsRising]
    | cons d ds =>
      simp only [cellsRising, Bool.and_eq_true, decide_eq_true_eq, ih]
      constructor
      · rintro ⟨h, hp⟩
        refine List.Pairwise.cons ?_ hp
        intro e he
        rcases List.mem_cons.1 he with rfl | he
        · exact h
        · exact Nat.lt_trans h (List.rel_of_pairwise_cons hp he)
      · intro h
        exact ⟨List.rel_of_pairwise_cons h (List.mem_cons_self ..), h.of_cons⟩

theorem mem_cellInsert (cs : List (Nat × BitVec w)) (i : Nat) (v : BitVec w) (c : Nat × BitVec w)
    (h : c ∈ cellInsert cs i v) : c = (i, v) ∨ c ∈ cs := by
  induction cs with
  | nil => simpa [cellInsert] using h
  | cons d cs ih =>
    obtain ⟨a, x⟩ := d
    simp only [cellInsert] at h
    split at h
    · simpa using h
    · split at h
      · simp only [List.mem_cons] at h ⊢; tauto
      · simp only [List.mem_cons] at h ⊢
        rcases h with h | h
        · tauto
        · rcases ih h with h | h <;> tauto

theorem mem_cellErase (cs : List (Nat × BitVec w)) (i : Nat) (c : Nat × BitVec w) (h : c ∈ cellErase cs i) : c ∈ cs := by
  induction cs with
  | nil => simp [cellErase] at h
  | cons d cs ih =>
    obtain ⟨a, x⟩ := d
    simp only [cellErase] at h
    split at h
    · exact List.mem_cons_of_mem _ (ih h)
    · rcases List.mem_cons.1 h with rfl | h
      · exact List.mem_cons_self ..
      · exact List.mem_cons_of_mem _ (ih h)

theorem cellInsert_rising (cs : List (Nat × BitVec w)) (i : Nat) (v : BitVec w) (h : cellsRising cs = true) :
    cellsRising (cellInsert cs i v) = true := by
  rw [cellsRising_iff] at *
  induction cs with
  | nil => simp [cellInsert]
  | cons d cs ih =>
    obtain ⟨a, x⟩ := d
    simp only [cellInsert]
    split
    · rename_i hlt
      refine List.Pairwise.cons ?_ h
      intro e he
      rcases List.mem_cons.1 he with rfl | he
      · exact hlt
      · exact Nat.lt_trans hlt (List.rel_of_pairwise_cons h he)
    · split
      · subst_vars
        exact List.Pairwise.cons (fun e he => List.rel_of_pairwise_cons h he) h.of_cons
      · refine List.Pairwise.cons ?_ (ih h.of_cons)
        intro e he
        rcases mem_cellInsert _ _ _ _ he with rfl | he
        · show a < i; omega
        · exact List.rel_of_pairwise_cons h he

theorem cellErase_rising (cs : List (Nat × BitVec w)) (i : Nat) (h : cellsRising cs = true) :
    cellsRising (cellErase cs i) = true := by
  rw [cellsRising_iff] at *
  induction cs with
  | nil => simp [cellErase]
  | cons d cs ih =>
    obtain ⟨a, x⟩ := d
    simp only [cellErase]
    split
    · exact ih h.of_cons
    · exact List.Pairwise.cons (fun e he => List.rel_of_pairwise_cons h (mem_cellErase _ _ _ he)) (ih h.of_cons)

/-- What the canonical form says. -/
theorem Mem.wf_iff (size : Nat) (m : Mem w) :
    m.wf size = true ↔ cellsRising m.cells = true ∧ ∀ c ∈ m.cells, c.1 < size ∧ m.fill ≠ some c.2 := by
  simp [Mem.wf]

theorem Mem.wf_rising {size : Nat} {m : Mem w} (h : m.wf size = true) : cellsRising m.cells = true :=
  ((Mem.wf_iff size m).1 h).1

/-- A write inside the space keeps the canonical form. -/
theorem Mem.set_wf {size : Nat} {m : Mem w} (i : Nat) (v : BitVec w) (h : m.wf size = true) (hi : i < size) :
    (m.set i v).wf size = true := by
  rw [Mem.wf_iff] at *
  unfold Mem.set
  split
  · exact ⟨cellErase_rising _ _ h.1, fun c hc => h.2 c (mem_cellErase _ _ _ hc)⟩
  · refine ⟨cellInsert_rising _ _ _ h.1, fun c hc => ?_⟩
    rcases mem_cellInsert _ _ _ _ hc with rfl | hc
    · exact ⟨hi, by assumption⟩
    · exact h.2 c hc

@[simp] theorem Mem.filled_wf (size : Nat) (v : BitVec w) : (Mem.filled v).wf size = true := rfl

@[simp] theorem Mem.unspecified_wf (size : Nat) : (Mem.unspecified (w := w)).wf size = true := rfl

/-- A written memory is one in canonical form whose every index inside the space was written in place. -/
theorem Mem.foldl_set_wf {α : Type} {size : Nat} (key : α → Nat) (val : α → BitVec w) (xs : List α) (m : Mem w)
    (h : m.wf size = true) (hk : ∀ x ∈ xs, key x < size) :
    (xs.foldl (fun m x => m.set (key x) (val x)) m).wf size = true := by
  induction xs generalizing m with
  | nil => exact h
  | cons x xs ih =>
    exact ih _ (Mem.set_wf _ _ h (hk x (List.mem_cons_self ..))) fun y hy => hk y (List.mem_cons_of_mem _ hy)

end Sys2Proof.Machine
end

