-- ==== Sys2Proof/Laws/BitSink.lean ====
section
/-! SUPPORT. What the operations of the BitSink do (spec/40_bitsink.md), each said once in terms of the output stream. -/

namespace Sys2Proof.Machine

/-! ## Bits of numbers -/

@[simp] theorem bitsOf_length (n v : Nat) : (bitsOf n v).length = n := by simp [bitsOf]

@[simp] theorem bitsOf_zero (v : Nat) : bitsOf 0 v = [] := rfl

theorem bitsOf_add (a b v : Nat) : bitsOf (a + b) v = bitsOf a v ++ bitsOf b (v / 2 ^ a) := by
  apply List.ext_getElem
  · simp
  · intro i h1 h2
    simp only [bitsOf, List.getElem_map, List.getElem_range, List.getElem_append, List.length_map, List.length_range]
    split
    · rfl
    · rename_i hi
      rw [Nat.testBit_div_two_pow]
      congr 1; omega

theorem bitsOf_congr (n v u : Nat) (h : v % 2 ^ n = u % 2 ^ n) : bitsOf n v = bitsOf n u := by
  unfold bitsOf
  apply List.map_congr_left
  intro i hi
  have hi : i < n := List.mem_range.1 hi
  have := congrArg (fun x => x.testBit i) h
  simpa [Nat.testBit_mod_two_pow, hi] using this

/-- Low bits first, then the value above them. -/
theorem bitsOf_join (k n a v : Nat) (ha : a < 2 ^ k) : bitsOf (k + n) (a + v * 2 ^ k) = bitsOf k a ++ bitsOf n v := by
  rw [bitsOf_add]
  congr 1
  · apply bitsOf_congr; simp
  · rw [Nat.add_mul_div_right _ _ (by positivity), Nat.div_eq_of_lt ha, Nat.zero_add]

@[simp] theorem bytesBits_append (a b : List Byte) : bytesBits (a ++ b) = bytesBits a ++ bytesBits b := by
  simp [bytesBits]

@[simp] theorem fieldBits_nil : fieldBits [] = [] := rfl

@[simp] theorem fieldBits_cons (f : Nat × Nat) (fs : List (Nat × Nat)) :
    fieldBits (f :: fs) = bitsOf f.2 f.1 ++ fieldBits fs := rfl

@[simp] theorem fieldBits_append (a b : List (Nat × Nat)) : fieldBits (a ++ b) = fieldBits a ++ fieldBits b := by
  simp [fieldBits]

@[simp] theorem fieldWidth_nil : fieldWidth [] = 0 := rfl

@[simp] theorem fieldWidth_cons (f : Nat × Nat) (fs : List (Nat × Nat)) :
    fieldWidth (f :: fs) = f.2 + fieldWidth fs := by simp [fieldWidth]

/-! ## The bytes of the stream -/

/-- The whole bytes of output so far. -/
def streamBytes (s : State) : List Byte := s.sinkLog.flatMap (fun c => c.bytes) ++ stagedBytes s s.outPos.toNat

theorem streamBits_eq (s : State) :
    streamBits s = bytesBits (streamBytes s) ++ bitsOf s.bitsIn.toNat s.bitBuffer.toNat := by
  simp [streamBits, streamBytes, bytesBits, List.flatMap_assoc]

theorem stagedBytes_congr {s t : State} (n : Nat) (h : ∀ i, i < n → t.outBufByte i = s.outBufByte i) :
    stagedBytes t n = stagedBytes s n := by
  unfold stagedBytes
  exact List.map_congr_left fun i hi => h i (List.mem_range.1 hi)

@[simp] theorem stagedBytes_length (s : State) (n : Nat) : (stagedBytes s n).length = n := by simp [stagedBytes]

@[simp] theorem stagedBytes_zero (s : State) : stagedBytes s 0 = [] := rfl

theorem stagedBytes_succ (s : State) (n : Nat) : stagedBytes s (n + 1) = stagedBytes s n ++ [s.outBufByte n] := by
  simp [stagedBytes, List.range_succ]

/-- Reading the staging buffer after one byte was stored. -/
theorem outBufByte_setOut (s : State) (i j : Nat) (b : Byte) (p : BitVec 13) :
    (s.setOut (s.outBuf.set i b) p).outBufByte j = if i = j then b else s.outBufByte j := by
  simp only [State.outBufByte, State.setOut_outBuf, State.setOut_resets, Mem.get?_set]
  split <;> rfl

/-! ## Frames compose -/

theorem OnlySinkChanged.refl (s : State) : OnlySinkChanged s s := by cases s; rfl

theorem OnlySinkChanged.trans {s t u : State} (h : OnlySinkChanged s t) (k : OnlySinkChanged t u) :
    OnlySinkChanged s u := by
  unfold OnlySinkChanged at *
  rw [k, h]

theorem OnlySinkChanged.setOut (s : State) (m : Mem 8) (p : BitVec 13) : OnlySinkChanged s (s.setOut m p) := rfl
theorem OnlySinkChanged.setBits (s : State) (b : BitVec 24) (n : BitVec 5) : OnlySinkChanged s (s.setBits b n) := rfl
theorem OnlySinkChanged.setFailed (s : State) (b : Bool) : OnlySinkChanged s (s.setFailed b) := rfl
theorem OnlySinkChanged.logPut (s : State) (c : PutCall) (a : List Bool) (n : Nat) : OnlySinkChanged s (s.logPut c a n) :=
  rfl

theorem OnlyStaged.trans {m n : Nat} {s t u : State} (h : OnlyStaged m s t) (k : OnlyStaged n t u)
    (hp : t.outPos.toNat = (s.outPos.toNat + m) % Config.OUT_SIZE) : OnlyStaged (m + n) s u := by
  intro i hi
  rw [k i, h i]
  · intro j hj; exact hi j (by omega)
  · intro j hj
    have := hi (m + j) (by omega)
    rw [hp, Nat.mod_add_mod]
    rwa [← Nat.add_assoc] at this

theorem OnlyStaged.mono {m n : Nat} {s t : State} (h : OnlyStaged m s t) (hmn : m ≤ n) : OnlyStaged n s t :=
  fun i hi => h i fun j hj => hi j (by omega)

theorem FullBuffersPut.refl {s : State} (h : s.failed = false) : FullBuffersPut s s :=
  ⟨[], by simp, by simp, by simp, by simp [h]⟩

theorem FullBuffersPut.trans {s t u : State} (h : FullBuffersPut s t) (ht : t.failed = false) (k : FullBuffersPut t u) :
    FullBuffersPut s u := by
  obtain ⟨a, ha, ha1, ha2, ha3⟩ := h
  obtain ⟨b, hb, hb1, hb2, hb3⟩ := k
  have hacc : ∀ c ∈ a, c.accepted = true := by
    intro c hc
    rcases hcc : c.accepted with _ | _
    · exact absurd (ha3.2 ⟨c, hc, hcc⟩) (by simp [ht])
    · rfl
  refine ⟨a ++ b, by simp [hb, ha], ?_, ?_, ?_⟩
  · intro c hc
    rcases List.mem_append.1 hc with hc | hc
    · exact ha1 c hc
    · exact hb1 c hc
  · intro c hc
    by_cases hbn : b = []
    · subst hbn; simp only [List.append_nil] at hc; exact ha2 c hc
    · rw [List.dropLast_append_of_ne_nil hbn] at hc
      rcases List.mem_append.1 hc with hc | hc
      · exact hacc c hc
      · exact hb2 c hc
  · rw [hb3]
    constructor
    · rintro ⟨c, hc, h⟩; exact ⟨c, List.mem_append_right _ hc, h⟩
    · rintro ⟨c, hc, h⟩
      rcases List.mem_append.1 hc with hc | hc
      · rw [hacc c hc] at h; cases h
      · exact ⟨c, hc, h⟩

/-! ## The operations -/

/-- One call on the sink port: what it logs, and that nothing else of the CORE changes. -/
theorem sinkCall_eq (bytes : List Byte) (s : State) :
    ∃ answer later draws, sinkCall bytes s = (s.logPut ⟨bytes, answer⟩ later draws, answer) := by
  unfold sinkCall
  split
  · exact ⟨_, _, _, rfl⟩
  · exact ⟨_, _, _, rfl⟩

/-- `DRAIN` with staged bytes on a session that has not failed (R142). -/
theorem drain_staged (s : State) (hf : s.failed = false) (h1 : 1 ≤ s.outPos.toNat) (h2 : s.outPos.toNat ≤ Config.OUT_SIZE) :
    ∃ answer later draws, drain s =
      .ok (((s.logPut ⟨stagedBytes s s.outPos.toNat, answer⟩ later draws).setOut s.outBuf 0#13).setFailed (!answer)) := by
  obtain ⟨answer, later, draws, h⟩ := sinkCall_eq (stagedBytes s s.outPos.toNat) s
  refine ⟨answer, later, draws, ?_⟩
  have hne : s.outPos ≠ 0#13 := by intro h0; rw [h0] at h1; simp at h1
  have hle : ¬ Config.OUT_SIZE < s.outPos.toNat := by omega
  unfold drain
  rw [h]
  cases answer
  · simp [hf, hne, hle, latchRejection, State.logPut, State.setOut, State.setFailed]
  · simp [hf, hne, hle, latchRejection, State.logPut, State.setOut, State.setFailed]

/-- `DRAIN`, `OUT_BYTE` and `PUT_BITS` within its precondition do nothing once `failed` is set (R144). -/
theorem drain_failed (s : State) (hf : s.failed = true) : drain s = .ok s := by simp [drain, hf]
theorem outByte_failed (b : Byte) (s : State) (hf : s.failed = true) : outByte b s = .ok s := by simp [outByte, hf]
theorem putBits_failed {v n : Nat} (s : State) (hf : s.failed = true) (hn : n ≤ Config.PUT_MAX) (hv : v < 2 ^ n) :
    putBits v n s = .ok s := by
  rw [putBits, if_neg (by omega), if_pos hf]
theorem putFields_failed {fs : List (Nat × Nat)} (s : State) (hf : s.failed = true) (hfs : FieldsOk fs) :
    putFields fs s = .ok s := by
  induction fs with
  | nil => rfl
  | cons f fs ih =>
    obtain ⟨hn, hv⟩ := hfs f (List.mem_cons_self ..)
    simp only [putFields, putBits_failed s hf hn hv]
    exact ih fun g hg => hfs g (List.mem_cons_of_mem _ hg)

/-- What `OUT_BYTE` does on a session that has not failed (R141). -/
theorem outByte_spec (b : Byte) (s : State) (hf : s.failed = false) (ho : s.outPos.toNat < Config.OUT_SIZE) :
    ∃ t, outByte b s = .ok t ∧ OnlySinkChanged s t ∧ t.bitBuffer = s.bitBuffer ∧ t.bitsIn = s.bitsIn ∧
      t.outPos.toNat = (s.outPos.toNat + 1) % Config.OUT_SIZE ∧ streamBytes t = streamBytes s ++ [b] ∧
      FullBuffersPut s t ∧ OnlyStaged 1 s t := by
  have hpos : (s.outPos + 1#13).toNat = s.outPos.toNat + 1 := by
    rw [BitVec.toNat_add]; simp only [Config.OUT_SIZE] at ho; simp; omega
  have hst : ∀ p, stagedBytes (s.setOut (s.outBuf.set s.outPos.toNat b) p) (s.outPos.toNat + 1)
      = stagedBytes s s.outPos.toNat ++ [b] := by
    intro p
    rw [stagedBytes_succ, outBufByte_setOut, if_pos rfl]
    rw [stagedBytes_congr (s := s)]
    intro i hi
    rw [outBufByte_setOut, if_neg (by omega)]
  have hstg : ∀ p, OnlyStaged 1 s (s.setOut (s.outBuf.set s.outPos.toNat b) p) := by
    intro p i hi
    rw [outBufByte_setOut, if_neg]
    have := hi 0 (by omega)
    rw [Nat.add_zero, Nat.mod_eq_of_lt ho] at this
    omega
  by_cases hfull : s.outPos.toNat + 1 = Config.OUT_SIZE
  · obtain ⟨answer, later, draws, hd⟩ := drain_staged (s.setOut (s.outBuf.set s.outPos.toNat b) (s.outPos + 1#13))
      (by simpa using hf) (by simp [hpos]) (by simp [hpos, hfull])
    have hrun : outByte b s = drain (s.setOut (s.outBuf.set s.outPos.toNat b) (s.outPos + 1#13)) := by
      rw [outByte, if_neg (by simp [hf]), if_pos ho]
      simp only [State.setOut_outPos, hpos, hfull, if_true]
    refine ⟨_, hrun.trans hd, ?_, by simp, by simp, ?_, ?_, ?_, ?_⟩
    · exact (((OnlySinkChanged.setOut s _ _).trans (OnlySinkChanged.logPut _ _ _ _)).trans
        (OnlySinkChanged.setOut _ _ _)).trans (OnlySinkChanged.setFailed _ _)
    · simp [hfull]
    · simp only [streamBytes, State.setFailed_sinkLog, State.setOut_sinkLog, State.logPut_sinkLog, State.setFailed_outPos,
        State.setOut_outPos, hpos, hst]
      simp
    · refine ⟨_, rfl, ?_, by simp, ?_⟩
      · intro c hc
        rw [List.mem_singleton.1 hc]
        simp [hpos, hfull]
      · cases answer <;> simp
    · exact hstg (s.outPos + 1#13)
  · refine ⟨s.setOut (s.outBuf.set s.outPos.toNat b) (s.outPos + 1#13), ?_, rfl, rfl, rfl, ?_, ?_, ?_, hstg _⟩
    · rw [outByte, if_neg (by simp [hf]), if_pos ho]
      simp only [State.setOut_outPos, hpos, hfull, if_false]
    · rw [State.setOut_outPos, hpos, Nat.mod_eq_of_lt (by omega)]
    · simp only [streamBytes, State.setOut_sinkLog, State.setOut_outPos, hpos, hst]
      simp
    · exact ⟨[], by simp, by simp, by simp, by simp [hf]⟩

/-- One turn of the loop of `PUT_BITS` (R140), on a session that may have failed in an earlier turn. -/
theorem spill_turn (k : Nat) (s : State) (h8 : 8 ≤ s.bitsIn.toNat) :
    spill (k + 1) s =
      (outByte (s.bitBuffer.truncate 8) s).bind fun t => spill k (t.setBits (t.bitBuffer >>> 8) (t.bitsIn - 8#5)) := by
  rw [spill, if_neg (by omega)]; rfl

theorem spill_done (k : Nat) (s : State) (h : s.bitsIn.toNat < 8) : spill k s = .ok s := by
  cases k with
  | zero => rfl
  | succ k => rw [spill, if_pos h]

/-- The loop of `PUT_BITS` on a failed session only discards the held bits. -/
theorem spill_failed (k : Nat) (s : State) (hf : s.failed = true) (hk : s.bitsIn.toNat < 8 * (k + 1)) :
    ∃ b n, spill k s = .ok (s.setBits b n) ∧ n.toNat ≤ 7 ∧
      (s.bitBuffer.toNat < 2 ^ s.bitsIn.toNat → b.toNat < 2 ^ n.toNat) := by
  induction k generalizing s with
  | zero => exact ⟨s.bitBuffer, s.bitsIn, rfl, by omega, id⟩
  | succ k ih =>
    by_cases h8 : s.bitsIn.toNat < 8
    · exact ⟨s.bitBuffer, s.bitsIn, spill_done _ _ h8, by omega, id⟩
    · have hsub : (s.bitsIn - 8#5).toNat = s.bitsIn.toNat - 8 := by
        rw [BitVec.toNat_sub]; simp; omega
      obtain ⟨b, n, h, hn, hb⟩ := ih (s.setBits (s.bitBuffer >>> 8) (s.bitsIn - 8#5)) hf (by simp only [State.setBits_bitsIn, hsub]; omega)
      refine ⟨b, n, ?_, hn, ?_⟩
      · rw [spill_turn _ _ (by omega), outByte_failed _ _ hf]; exact h
      · intro hlt
        apply hb
        simp only [State.setBits_bitBuffer, State.setBits_bitsIn, hsub, BitVec.toNat_ushiftRight, Nat.shiftRight_eq_div_pow]
        rw [Nat.div_lt_iff_lt_mul (by positivity), ← Nat.pow_add]
        rwa [show s.bitsIn.toNat - 8 + 8 = s.bitsIn.toNat by omega]

/-- The loop of `PUT_BITS`: it appends the held whole bytes to the stream (R140). -/
theorem spill_spec (k : Nat) (s : State) (hf : s.failed = false) (ho : s.outPos.toNat < Config.OUT_SIZE)
    (hk : s.bitsIn.toNat < 8 * (k + 1)) (hb : s.bitBuffer.toNat < 2 ^ s.bitsIn.toNat) :
    ∃ t, spill k s = .ok t ∧ OnlySinkChanged s t ∧ BitsOk t ∧ (t.failed = false → streamBits t = streamBits s ∧ t.bitsIn.toNat = s.bitsIn.toNat % 8 ∧
        t.outPos.toNat = (s.outPos.toNat + s.bitsIn.toNat / 8) % Config.OUT_SIZE) ∧
      FullBuffersPut s t ∧ OnlyStaged (s.bitsIn.toNat / 8) s t := by
  induction k generalizing s with
  | zero =>
    exact ⟨s, rfl, .refl s, ⟨by omega, hb, ho⟩, fun _ => ⟨rfl, by omega, by simp only [Config.OUT_SIZE] at *; omega⟩, .refl hf, fun _ _ => rfl⟩
  | succ k ih =>
    by_cases h8 : s.bitsIn.toNat < 8
    · exact ⟨s, spill_done _ _ h8, .refl s, ⟨by omega, hb, ho⟩, fun _ => ⟨rfl, by omega, by simp only [Config.OUT_SIZE] at *; omega⟩, .refl hf,
        fun _ _ => rfl⟩
    · have hsub : (s.bitsIn - 8#5).toNat = s.bitsIn.toNat - 8 := by
        rw [BitVec.toNat_sub]; simp; omega
      have hshift : (s.bitBuffer >>> 8).toNat < 2 ^ (s.bitsIn - 8#5).toNat := by
        rw [hsub, BitVec.toNat_ushiftRight, Nat.shiftRight_eq_div_pow, Nat.div_lt_iff_lt_mul (by positivity),
          ← Nat.pow_add]
        rwa [show s.bitsIn.toNat - 8 + 8 = s.bitsIn.toNat by omega]
      have hbits : bitsOf 8 (s.bitBuffer.truncate 8).toNat ++ bitsOf (s.bitsIn.toNat - 8) (s.bitBuffer >>> 8).toNat
          = bitsOf s.bitsIn.toNat s.bitBuffer.toNat := by
        rw [show bitsOf s.bitsIn.toNat s.bitBuffer.toNat = bitsOf (8 + (s.bitsIn.toNat - 8)) s.bitBuffer.toNat by
          congr 1; omega, bitsOf_add]
        congr 1
        · apply bitsOf_congr; simp
        · simp [Nat.shiftRight_eq_div_pow]
      obtain ⟨t, ht, hsame, htb, htn, htp, hstream, hput, hstg⟩ := outByte_spec (s.bitBuffer.truncate 8) s hf ho
      have hpos : t.outPos.toNat < Config.OUT_SIZE := by rw [htp]; exact Nat.mod_lt _ (by decide)
      have hdiv : s.bitsIn.toNat / 8 = 1 + (s.bitsIn.toNat - 8) / 8 := by omega
      rw [spill_turn _ _ (by omega), ht]
      have hstep : OnlySinkChanged s (t.setBits (t.bitBuffer >>> 8) (t.bitsIn - 8#5)) := hsame.trans (.setBits _ _ _)
      by_cases htf : t.failed = true
      · obtain ⟨b, n, h, hn, hbn⟩ := spill_failed k (t.setBits (t.bitBuffer >>> 8) (t.bitsIn - 8#5)) htf
          (by simp only [State.setBits_bitsIn, htn, hsub]; omega)
        refine ⟨_, h, hstep.trans (.setBits _ _ _), ⟨hn, hbn ?_, ?_⟩, ?_, ?_, ?_⟩
        · simpa only [State.setBits_bitBuffer, State.setBits_bitsIn, htb, htn] using hshift
        · simpa using hpos
        · intro h; simp [htf] at h
        · exact hput
        · rw [hdiv]
          exact OnlyStaged.mono (fun i hi => hstg i hi) (by omega)
      · have htf : t.failed = false := by simpa using htf
        obtain ⟨u, hu, husame, hub, hustream, huput, hustg⟩ := ih (t.setBits (t.bitBuffer >>> 8) (t.bitsIn - 8#5)) htf
          (by simpa using hpos) (by simp only [State.setBits_bitsIn, htn, hsub]; omega)
          (by simpa only [State.setBits_bitBuffer, State.setBits_bitsIn, htb, htn] using hshift)
        refine ⟨u, hu, hstep.trans husame, hub, ?_, ?_, ?_⟩
        · intro h
          obtain ⟨h1, h2, h3⟩ := hustream h
          simp only [State.setBits_bitsIn, State.setBits_outPos, htn, hsub, htp] at h2 h3
          refine ⟨?_, by omega, by simp only [Config.OUT_SIZE] at *; omega⟩
          rw [h1, streamBits_eq, streamBits_eq]
          have : streamBytes (t.setBits (t.bitBuffer >>> 8) (t.bitsIn - 8#5)) = streamBytes s ++ [s.bitBuffer.truncate 8] :=
            hstream
          rw [this]
          simp only [State.setBits_bitBuffer, State.setBits_bitsIn, htb, htn, hsub, bytesBits_append, List.append_assoc]
          simpa [bytesBits] using hbits
        · exact FullBuffersPut.trans (t := t.setBits (t.bitBuffer >>> 8) (t.bitsIn - 8#5)) hput htf huput
        · rw [hdiv]
          refine OnlyStaged.trans (t := t.setBits (t.bitBuffer >>> 8) (t.bitsIn - 8#5)) hstg ?_ (by simpa using htp)
          simpa only [State.setBits_bitsIn, htn, hsub] using hustg

/-- `PUT_BITS` appends its field to the stream (R140). -/
theorem putBits_emits (v n : Nat) (s : State) (hf : s.failed = false) (hb : BitsOk s) (hn : n ≤ Config.PUT_MAX)
    (hv : v < 2 ^ n) : ∃ t, putBits v n s = .ok t ∧ Emits [(v, n)] s t := by
  obtain ⟨h7, hbuf, ho⟩ := hb
  have hlen : (s.bitsIn + BitVec.ofNat 5 n).toNat = s.bitsIn.toNat + n := by
    rw [BitVec.toNat_add, BitVec.toNat_ofNat]; simp only [Config.PUT_MAX] at hn; omega
  have hmul : v * 2 ^ s.bitsIn.toNat < 2 ^ (n + s.bitsIn.toNat) := by
    rw [Nat.pow_add]; exact Nat.mul_lt_mul_of_pos_right hv (by positivity)
  have hle : 2 ^ (n + s.bitsIn.toNat) ≤ 2 ^ 23 := Nat.pow_le_pow_right (by decide) (by simp only [Config.PUT_MAX] at hn; omega)
  have hor : (s.bitBuffer ||| BitVec.ofNat 24 (v <<< s.bitsIn.toNat)).toNat
      = s.bitBuffer.toNat + v * 2 ^ s.bitsIn.toNat := by
    rw [BitVec.toNat_or, BitVec.toNat_ofNat, Nat.shiftLeft_eq, Nat.mod_eq_of_lt (by omega), Nat.or_comm,
      Nat.mul_comm, ← Nat.two_pow_add_eq_or_of_lt hbuf, Nat.add_comm]
  have hjoin : s.bitBuffer.toNat + v * 2 ^ s.bitsIn.toNat < 2 ^ (s.bitsIn.toNat + n) := by
    have h1 : v * 2 ^ s.bitsIn.toNat + 2 ^ s.bitsIn.toNat ≤ 2 ^ n * 2 ^ s.bitsIn.toNat := by
      rw [← Nat.succ_mul]; exact Nat.mul_le_mul_right _ hv
    rw [Nat.add_comm s.bitsIn.toNat n, Nat.pow_add]; omega
  obtain ⟨t, ht, hsame, hbok, hstream, hput, hstg⟩ := spill_spec 2
    (s.setBits (s.bitBuffer ||| BitVec.ofNat 24 (v <<< s.bitsIn.toNat)) (s.bitsIn + BitVec.ofNat 5 n))
    (by simpa using hf) (by simpa using ho)
    (by simp only [State.setBits_bitsIn, hlen]; simp only [Config.PUT_MAX] at hn; omega)
    (by simp only [State.setBits_bitsIn, State.setBits_bitBuffer, hlen, hor]; exact hjoin)
  refine ⟨t, ?_, (OnlySinkChanged.setBits _ _ _).trans hsame, hbok, ?_, hput, ?_⟩
  · rw [putBits, if_neg (by omega), if_neg (by simp [hf]), if_neg (by omega)]; exact ht
  · intro h
    obtain ⟨h1, h2, h3⟩ := hstream h
    simp only [State.setBits_bitsIn, State.setBits_outPos, hlen] at h2 h3
    refine ⟨?_, by simpa using h2, by simpa using h3⟩
    rw [h1, streamBits_eq, streamBits_eq]
    have hsb : streamBytes (s.setBits (s.bitBuffer ||| BitVec.ofNat 24 (v <<< s.bitsIn.toNat)) (s.bitsIn + BitVec.ofNat 5 n))
        = streamBytes s := rfl
    rw [hsb, State.setBits_bitsIn, State.setBits_bitBuffer, hlen, hor, bitsOf_join _ _ _ _ hbuf]
    simp
  · have h : OnlyStaged ((s.bitsIn.toNat + n) / 8) s t := by rw [State.setBits_bitsIn, hlen] at hstg; exact hstg
    simpa using h

theorem Emits.refl (s : State) (hf : s.failed = false) (hb : BitsOk s) : Emits [] s s := by
  obtain ⟨h7, _, ho⟩ := id hb
  exact ⟨.refl s, hb, fun _ => ⟨by simp, by simp; omega, by simp only [Config.OUT_SIZE, fieldWidth_nil] at *; omega⟩, .refl hf, fun _ _ => rfl⟩

/-- Emission after emission. -/
theorem Emits.trans {fs gs : List (Nat × Nat)} {s t u : State} (h : Emits fs s t) (ht : t.failed = false)
    (k : Emits gs t u) : Emits (fs ++ gs) s u := by
  obtain ⟨h1, h2, h3, h4, h5⟩ := h
  obtain ⟨k1, k2, k3, k4, k5⟩ := k
  obtain ⟨a1, a2, a3⟩ := h3 ht
  have hw : fieldWidth (fs ++ gs) = fieldWidth fs + fieldWidth gs := by simp [fieldWidth]
  refine ⟨h1.trans k1, k2, ?_, h4.trans ht k4, ?_⟩
  · intro hu
    obtain ⟨b1, b2, b3⟩ := k3 hu
    refine ⟨by rw [b1, a1]; simp, by rw [hw]; omega, ?_⟩
    rw [hw, b3, a3, a2]; simp only [Config.OUT_SIZE]; omega
  · have := h5.trans k5 a3
    rw [a2] at this
    exact this.mono (by rw [hw]; omega)

/-- What was emitted before a rejection stays; nothing follows it. -/
theorem Emits.stop {fs : List (Nat × Nat)} {s t : State} (h : Emits fs s t) (ht : t.failed = true)
    (gs : List (Nat × Nat)) : Emits (fs ++ gs) s t := by
  obtain ⟨h1, h2, _, h4, h5⟩ := h
  have hw : fieldWidth (fs ++ gs) = fieldWidth fs + fieldWidth gs := by simp [fieldWidth]
  exact ⟨h1, h2, fun h => by simp [ht] at h, h4, h5.mono (by rw [hw]; omega)⟩

/-- A list of fields is appended to the stream in order (R110, R140). -/
theorem putFields_emits (fs : List (Nat × Nat)) (s : State) (hf : s.failed = false) (hb : BitsOk s) (hfs : FieldsOk fs) :
    ∃ t, putFields fs s = .ok t ∧ Emits fs s t := by
  induction fs generalizing s with
  | nil => exact ⟨s, rfl, .refl s hf hb⟩
  | cons f fs ih =>
    obtain ⟨hn, hv⟩ := hfs f (List.mem_cons_self ..)
    obtain ⟨t, ht, he⟩ := putBits_emits f.1 f.2 s hf hb hn hv
    have hrun : putFields (f :: fs) s = putFields fs t := by
      obtain ⟨v, n⟩ := f
      simp only [putFields, ht]; rfl
    by_cases htf : t.failed = true
    · exact ⟨t, by rw [hrun, putFields_failed _ htf fun g hg => hfs g (List.mem_cons_of_mem _ hg)], Emits.stop he htf fs⟩
    · have htf : t.failed = false := by simpa using htf
      obtain ⟨u, hu, hue⟩ := ih t htf he.2.1 fun g hg => hfs g (List.mem_cons_of_mem _ hg)
      exact ⟨u, by rw [hrun, hu], Emits.trans he htf hue⟩

/-- `ALIGN` pads with zero bits to a byte boundary (R143). -/
theorem align_emits (s : State) (hf : s.failed = false) (hb : BitsOk s) :
    ∃ t, align s = .ok t ∧ Emits (if s.bitsIn = 0#5 then [] else [(0, 8 - s.bitsIn.toNat)]) s t := by
  unfold align
  split
  · exact ⟨s, rfl, .refl s hf hb⟩
  · exact putBits_emits 0 _ s hf hb (by simp only [Config.PUT_MAX]; omega) (by positivity)

theorem fieldBits_length (fs : List (Nat × Nat)) : (fieldBits fs).length = fieldWidth fs := by
  induction fs with
  | nil => rfl
  | cons f fs ih => simp [ih]

end Sys2Proof.Machine
end

