-- ==== Sys2Proof/Laws/Run.lean ====
section
/-! SUPPORT. Taking a run apart: the inversion of `do` in `Except Fault`, and what the BitSink operations leave alone
whatever state they start from. -/

namespace Sys2Proof.Machine

theorem bind_ok {α β : Type} {x : Except Fault α} {f : α → Except Fault β} {b : β} :
    (x >>= f) = .ok b ↔ ∃ a, x = .ok a ∧ f a = .ok b := by
  cases x with
  | error e => simp [bind, Except.bind]
  | ok a => simp [bind, Except.bind]

theorem bind_ok' {α β : Type} {x : Except Fault α} {f : α → Except Fault β} {b : β} :
    x.bind f = .ok b ↔ ∃ a, x = .ok a ∧ f a = .ok b := bind_ok

@[simp] theorem pure_ok {α : Type} (a b : α) : (pure a : Except Fault α) = .ok b ↔ a = b := by
  simp [pure, Except.pure]

@[simp] theorem ofRun_next (r : Except Fault State) (t : State) : ofRun r = .next t ↔ r = .ok t := by
  cases r <;> simp [ofRun]

@[simp] theorem ofRun_ok (t : State) : ofRun (.ok t) = .next t := rfl

/-- A `PUT_BITS` that runs had its precondition, whatever `failed` is (R360). -/
theorem putBits_operands {v n : Nat} {s t : State} (h : putBits v n s = .ok t) : n ≤ Config.PUT_MAX ∧ v < 2 ^ n := by
  unfold putBits at h
  split at h
  · cases h
  · omega

/-- The fields of a `putFields` that runs meet the precondition of `PUT_BITS` (R360). -/
theorem putFields_operands {fs : List (Nat × Nat)} {s t : State} (h : putFields fs s = .ok t) : FieldsOk fs := by
  induction fs generalizing s with
  | nil => simp [FieldsOk]
  | cons f fs ih =>
    obtain ⟨v, n⟩ := f
    obtain ⟨u, hu, h⟩ := bind_ok.1 h
    intro g hg
    rcases List.mem_cons.1 hg with rfl | hg
    · exact putBits_operands hu
    · exact ih h g hg

/-! ## What the BitSink operations change -/

theorem latchRejection_only (s t : State) (b : Bool) (h : OnlySinkChanged s t) :
    OnlySinkChanged s (latchRejection (t, b)) := by
  unfold latchRejection
  cases b
  · exact h.trans (.setFailed _ _)
  · exact h

theorem drain_only {s t : State} (h : drain s = .ok t) : OnlySinkChanged s t := by
  unfold drain at h
  split at h
  · cases h; exact .refl _
  split at h
  · cases h; exact .refl _
  split at h
  · cases h
  · cases h
    apply latchRejection_only
    obtain ⟨a, l, d, hc⟩ := sinkCall_eq (stagedBytes s s.outPos.toNat) s
    rw [hc]
    exact (OnlySinkChanged.logPut s _ _ _).trans (.setOut _ _ _)

theorem outByte_only {b : Byte} {s t : State} (h : outByte b s = .ok t) : OnlySinkChanged s t := by
  unfold outByte at h
  split at h
  · cases h; exact .refl _
  split at h
  · simp only at h
    split at h
    · exact (OnlySinkChanged.setOut _ _ _).trans (drain_only h)
    · cases h; exact .setOut _ _ _
  · cases h

theorem spill_only {k : Nat} {s t : State} (h : spill k s = .ok t) : OnlySinkChanged s t := by
  induction k generalizing s with
  | zero => cases h; exact .refl _
  | succ k ih =>
    unfold spill at h
    split at h
    · cases h; exact .refl _
    · obtain ⟨u, hu, h⟩ := bind_ok.1 h
      exact ((outByte_only hu).trans (.setBits _ _ _)).trans (ih h)

theorem putBits_only {v n : Nat} {s t : State} (h : putBits v n s = .ok t) : OnlySinkChanged s t := by
  unfold putBits at h
  split at h
  · cases h
  split at h
  · cases h; exact .refl _
  split at h
  · cases h
  · exact (OnlySinkChanged.setBits _ _ _).trans (spill_only h)

theorem putFields_only {fs : List (Nat × Nat)} {s t : State} (h : putFields fs s = .ok t) : OnlySinkChanged s t := by
  induction fs generalizing s with
  | nil => cases h; exact .refl _
  | cons f fs ih =>
    obtain ⟨v, n⟩ := f
    obtain ⟨u, hu, h⟩ := bind_ok.1 h
    exact (putBits_only hu).trans (ih h)

theorem align_only {s t : State} (h : align s = .ok t) : OnlySinkChanged s t := by
  unfold align at h
  split at h
  · cases h; exact .refl _
  · exact putBits_only h

/-- A `PUT_BITS` that runs keeps the ranges of the accumulator and the staging buffer. -/
theorem putBits_bitsOk {v n : Nat} {s t : State} (h : putBits v n s = .ok t) (hb : BitsOk s) : BitsOk t := by
  obtain ⟨hn, hv⟩ := putBits_operands h
  by_cases hf : s.failed = true
  · rw [putBits_failed s hf hn hv] at h; cases h; exact hb
  · obtain ⟨u, hu, he⟩ := putBits_emits v n s (by simpa using hf) hb hn hv
    rw [hu] at h; cases h; exact he.2.1

theorem putFields_bitsOk {fs : List (Nat × Nat)} {s t : State} (h : putFields fs s = .ok t) (hb : BitsOk s) :
    BitsOk t := by
  induction fs generalizing s with
  | nil => cases h; exact hb
  | cons f fs ih =>
    obtain ⟨v, n⟩ := f
    obtain ⟨u, hu, h⟩ := bind_ok.1 h
    exact ih h (putBits_bitsOk hu hb)

/-- A run of `PUT_BITS` on a healthy session appends its fields to the stream. -/
theorem putFields_emits_of_ok {fs : List (Nat × Nat)} {s t : State} (h : putFields fs s = .ok t) (ht : t.failed = false)
    (hb : BitsOk s) : Emits fs s t := by
  have hfs := putFields_operands h
  by_cases hf : s.failed = true
  · rw [putFields_failed s hf hfs] at h; cases h; simp [ht] at hf
  · obtain ⟨u, hu, he⟩ := putFields_emits fs s (by simpa using hf) hb hfs
    rw [hu] at h; cases h; exact he

theorem align_bitsOk {s t : State} (h : align s = .ok t) (hb : BitsOk s) : BitsOk t := by
  unfold align at h
  split at h
  · cases h; exact hb
  · exact putBits_bitsOk h hb

theorem drain_bitsOk {s t : State} (h : drain s = .ok t) (hb : BitsOk s) : BitsOk t := by
  unfold drain at h
  split at h
  · cases h; exact hb
  split at h
  · cases h; exact hb
  split at h
  · cases h
  · cases h
    obtain ⟨a, l, d, hc⟩ := sinkCall_eq (stagedBytes s s.outPos.toNat) s
    rw [hc]
    have : ∀ x : State, x.bitsIn = s.bitsIn → x.bitBuffer = s.bitBuffer → x.outPos = 0#13 → BitsOk x := by
      intro x h1 h2 h3
      exact ⟨by rw [h1]; exact hb.1, by rw [h1, h2]; exact hb.2.1, by rw [h3]; decide⟩
    cases a
    · exact this _ rfl rfl rfl
    · exact this _ rfl rfl rfl

/-- `DRAIN` leaves the staging buffer empty unless the session had failed before. -/
theorem drain_outPos {s t : State} (h : drain s = .ok t) : s.failed = true ∨ t.outPos = 0#13 := by
  unfold drain at h
  split at h
  · exact .inl ‹_›
  split at h
  · cases h; exact .inr ‹_›
  split at h
  · cases h
  · cases h
    obtain ⟨a, l, d, hc⟩ := sinkCall_eq (stagedBytes s s.outPos.toNat) s
    rw [hc]
    cases a <;> exact .inr rfl

end Sys2Proof.Machine
end

