-- ==== Sys2Proof/Laws/LzBuffer.lean ====
section
/-! SUPPORT. What recording a token does to the LZ code buffer (spec/43_parser_lzbuf.md R221 to R225), each operation
said once. -/

namespace Sys2Proof.Machine

theorem OnlyLzChanged.refl (s : State) : OnlyLzChanged s s := by cases s; rfl

theorem OnlyLzChanged.trans {s t u : State} (h : OnlyLzChanged s t) (k : OnlyLzChanged t u) : OnlyLzChanged s u := by
  unfold OnlyLzChanged at *; rw [k, h]

theorem OnlyLzChanged.setLzBuf (s : State) (m : Mem 8) : OnlyLzChanged s (s.setLzBuf m) := rfl
theorem OnlyLzChanged.setLzCursors (s : State) (p : BitVec 16) (f : BitVec 15) (n : BitVec 4) :
    OnlyLzChanged s (s.setLzCursors p f n) := rfl

/-- Reading `lz_buf` after one entry was stored. -/
theorem lzByte_set (s : State) (i j : Nat) (v : Byte) :
    (s.setLzBuf (s.lzBuf.set i v)).lzByte j = if i = j then v else s.lzByte j := by
  simp only [State.lzByte, State.setLzBuf_lzBuf, State.setLzBuf_resets, Mem.get?_set]
  split <;> rfl

@[simp] theorem lzByte_setLzCursors (s : State) (p : BitVec 16) (f : BitVec 15) (n : BitVec 4) (j : Nat) :
    (s.setLzCursors p f n).lzByte j = s.lzByte j := rfl

/-- A store inside the buffer. -/
theorem writeLz_ok {s : State} {i : Nat} (v : Byte) (h : i < Config.LZ_SIZE) :
    writeLz s i v = .ok (s.setLzBuf (s.lzBuf.set i v)) := by rw [writeLz, if_pos h]

theorem readLz_ok {s : State} {i : Nat} (h : i < Config.LZ_SIZE) : readLz s i = .ok (s.lzByte i) := by
  rw [readLz, if_pos h]

/-- Stores of successive bytes inside the buffer. -/
theorem writeLzBytes_ok (bytes : List Byte) (s : State) (i : Nat) (h : i + bytes.length ≤ Config.LZ_SIZE) :
    ∃ t, writeLzBytes s i bytes = .ok t ∧ t = { s with lzBuf := t.lzBuf } ∧
      ∀ j, t.lzByte j = if i ≤ j ∧ j < i + bytes.length then bytes.getD (j - i) 0#8 else s.lzByte j := by
  induction bytes generalizing s i with
  | nil => exact ⟨s, rfl, by cases s; rfl, fun j => by
      rw [if_neg]; rintro ⟨a, b⟩; rw [List.length_nil] at b; omega⟩
  | cons b bs ih =>
    rw [List.length_cons] at h
    obtain ⟨t, ht, hs, hr⟩ := ih (s.setLzBuf (s.lzBuf.set i b)) (i + 1) (by omega)
    refine ⟨t, ?_, ?_, ?_⟩
    · rw [writeLzBytes, writeLz_ok b (by omega)]; exact ht
    · rw [hs]; rfl
    · intro j
      rw [hr j, lzByte_set]
      simp only [List.length_cons]
      by_cases hj : i = j
      · subst hj
        rw [if_neg (by omega), if_pos rfl, if_pos (by omega)]; simp
      · by_cases hin : i + 1 ≤ j ∧ j < i + 1 + bs.length
        · rw [if_pos hin, if_pos (by omega)]
          obtain ⟨k, hk⟩ : ∃ k, j - i = k + 1 := ⟨j - i - 1, by omega⟩
          rw [hk, show j - (i + 1) = k by omega]; simp
        · rw [if_neg hin, if_neg hj, if_neg (by omega)]

/-- A token's bytes at the next free index. -/
theorem appendLz_ok (bytes : List Byte) (s : State) (h : s.lzPos.toNat + bytes.length ≤ Config.LZ_SIZE) :
    ∃ t, appendLz bytes s = .ok t ∧ t = { s with lzBuf := t.lzBuf, lzPos := t.lzPos } ∧
      t.lzPos.toNat = s.lzPos.toNat + bytes.length ∧
      ∀ j, t.lzByte j =
        if s.lzPos.toNat ≤ j ∧ j < s.lzPos.toNat + bytes.length then bytes.getD (j - s.lzPos.toNat) 0#8
        else s.lzByte j := by
  obtain ⟨t, ht, hs, hr⟩ := writeLzBytes_ok bytes s s.lzPos.toNat h
  refine ⟨t.setLzCursors (BitVec.ofNat 16 (s.lzPos.toNat + bytes.length)) s.lzFlagsPos s.flagsLeft, ?_, ?_, ?_, hr⟩
  · simp only [appendLz, ht]; rfl
  · rw [hs]; rfl
  · rw [State.setLzCursors_lzPos, BitVec.toNat_ofNat, Nat.mod_eq_of_lt]; simp only [Config.LZ_SIZE] at h; omega

/-- `LZ_AFTER_RECORD` up to the flush test (R224). -/
theorem lzAfterRecord_spec (isMatch : Bool) (s : State) (hf : s.lzFlagsPos.toNat < s.lzPos.toNat)
    (hp : s.lzPos.toNat < Config.LZ_SIZE) (h1 : 1 ≤ s.flagsLeft.toNat) (h8 : s.flagsLeft.toNat ≤ 8) :
    ∃ u, FlagEntered s.lzPos.toNat isMatch s u ∧ OnlyLzChanged s u ∧
      (∀ i, i ≠ s.lzFlagsPos.toNat → (i ≠ s.lzPos.toNat ∨ s.flagsLeft ≠ 1#4) → u.lzByte i = s.lzByte i) ∧
      lzAfterRecord isMatch s = if Config.LZ_SIZE - u.lzPos.toNat < 4 then flushBlock false u else .ok u := by
  have hsub : (s.flagsLeft - 1#4).toNat = s.flagsLeft.toNat - 1 := by
    rw [BitVec.toNat_sub]; simp; omega
  obtain ⟨t, htdef⟩ : ∃ t, t = (s.setLzBuf (s.lzBuf.set s.lzFlagsPos.toNat
      (shiftInFlag (s.lzByte s.lzFlagsPos.toNat) isMatch))).setLzCursors s.lzPos s.lzFlagsPos (s.flagsLeft - 1#4) := ⟨_, rfl⟩
  have hent : enterFlag isMatch s = .ok t := by
    rw [enterFlag, if_neg (by omega), readLz_ok (by omega), htdef]
    simp only [bind, Except.bind, pure, Except.pure, writeLz_ok (s := s) _ (show s.lzFlagsPos.toNat < Config.LZ_SIZE by omega)]
    rfl
  have htr : ∀ j, t.lzByte j = if s.lzFlagsPos.toNat = j then shiftInFlag (s.lzByte s.lzFlagsPos.toNat) isMatch
      else s.lzByte j := by
    intro j; rw [htdef, lzByte_setLzCursors, lzByte_set]
  have htl : OnlyLzChanged s t := by rw [htdef]; exact (OnlyLzChanged.setLzBuf _ _).trans (.setLzCursors _ _ _ _)
  have htpos : t.lzPos = s.lzPos := by rw [htdef]; rfl
  have htfpos : t.lzFlagsPos = s.lzFlagsPos := by rw [htdef]; rfl
  have htleft : t.flagsLeft = s.flagsLeft - 1#4 := by rw [htdef]; rfl
  by_cases hlast : s.flagsLeft = 1#4
  · have hz : t.flagsLeft = 0#4 := by rw [htleft, hlast]; rfl
    refine ⟨(t.setLzBuf (t.lzBuf.set s.lzPos.toNat 0#8)).setLzCursors (s.lzPos + 1#16) (BitVec.ofNat 15 s.lzPos.toNat) 8#4,
      ⟨?_, ?_, ?_, ?_, ?_⟩, ?_, ?_, ?_⟩
    · rw [if_pos hlast, State.setLzCursors_lzPos, BitVec.toNat_add]; simp only [Config.LZ_SIZE] at hp; simp; omega
    · rw [if_pos hlast, State.setLzCursors_lzFlagsPos, BitVec.toNat_ofNat, Nat.mod_eq_of_lt]
      simp only [Config.LZ_SIZE] at hp; omega
    · rw [if_pos hlast]; rfl
    · rw [lzByte_setLzCursors, lzByte_set, if_neg (by omega), htr, if_pos rfl]; rfl
    · intro _; rw [lzByte_setLzCursors, lzByte_set, if_pos rfl]
    · exact htl.trans ((OnlyLzChanged.setLzBuf _ _).trans (.setLzCursors _ _ _ _))
    · intro i hi hor
      have : s.lzPos.toNat ≠ i := by rcases hor with h | h; exacts [Ne.symm h, absurd hlast h]
      rw [lzByte_setLzCursors, lzByte_set, if_neg this, htr, if_neg (Ne.symm hi)]
    · simp only [lzAfterRecord, hent, bind, Except.bind, pure, Except.pure, rollGroup, hz, if_true, htpos, writeLz_ok (s := t) _ hp]
  · have hz : t.flagsLeft ≠ 0#4 := by
      intro h0
      have := congrArg BitVec.toNat h0
      rw [htleft, hsub] at this
      apply hlast
      apply BitVec.eq_of_toNat_eq
      simp at this ⊢; omega
    refine ⟨t, ⟨?_, ?_, ?_, ?_, ?_⟩, htl, ?_, ?_⟩
    · rw [if_neg hlast, htpos]
    · rw [if_neg hlast, htfpos]
    · rw [if_neg hlast, htleft, hsub]
    · rw [htr, if_pos rfl]; rfl
    · intro h; exact absurd h hlast
    · intro i hi _; rw [htr, if_neg (Ne.symm hi)]
    · simp only [lzAfterRecord, hent, bind, Except.bind, pure, Except.pure, rollGroup, hz, if_false]

/-- A token's bytes, then `LZ_AFTER_RECORD` (R222, R223). -/
theorem record_spec (bytes : List Byte) (isMatch : Bool) (s : State) (hlz : LzOk s) (h1 : 1 ≤ bytes.length)
    (h3 : bytes.length ≤ 3) :
    ∃ u, Recorded bytes isMatch s u ∧ OnlyLzChanged s u ∧
      ((appendLz bytes s).bind (lzAfterRecord isMatch)) =
        if Config.LZ_SIZE - u.lzPos.toNat < 4 then flushBlock false u else .ok u := by
  obtain ⟨hp1, hp2, hfp, hl1, hl8⟩ := hlz
  simp only [Config.LZ_SIZE] at hp2
  obtain ⟨t, ht, hts, htp, htr⟩ := appendLz_ok bytes s (by simp only [Config.LZ_SIZE]; omega)
  have htf : t.lzFlagsPos = s.lzFlagsPos := by rw [hts]
  have htl : t.flagsLeft = s.flagsLeft := by rw [hts]
  obtain ⟨u, ⟨e1, e2, e3, e4, e5⟩, hu, hur, hrun⟩ := lzAfterRecord_spec isMatch t (by rw [htf, htp]; omega)
    (by rw [htp]; simp only [Config.LZ_SIZE]; omega) (by rw [htl]; omega) (by rw [htl]; omega)
  rw [htp, htf, htl] at *
  refine ⟨u, ⟨⟨e1, e2, e3, ?_, e5⟩, ?_, ?_⟩, ?_, ?_⟩
  · rw [e4, htr, if_neg (by omega)]
  · intro j hj
    rw [hur _ (by omega) (by omega), htr, if_pos (by omega)]
    simp [List.getD, hj]
  · intro i hi hor
    rcases hor with h | h
    · rw [hur _ hi (by omega), htr, if_neg (by omega)]
    · by_cases hone : s.flagsLeft = 1#4
      · rw [if_pos hone] at e1
        rw [hur _ hi (by omega), htr, if_neg (by omega)]
      · rw [if_neg hone] at e1
        rw [hur _ hi (.inr hone), htr, if_neg (by omega)]
  · refine OnlyLzChanged.trans (t := t) ?_ hu
    rw [hts]; rfl
  · rw [ht]; exact hrun

/-- Where there is room no block is emitted. -/
theorem roomFor_iff {bytes : List Byte} {isMatch : Bool} {s u : State} (hlz : LzOk s) (h : Recorded bytes isMatch s u) :
    RoomFor bytes.length s ↔ ¬ Config.LZ_SIZE - u.lzPos.toNat < 4 := by
  obtain ⟨⟨e1, _⟩, _⟩ := h
  unfold RoomFor
  simp only [Config.LZ_SIZE]
  by_cases hone : s.flagsLeft = 1#4
  · rw [if_pos hone] at *
    constructor
    · rintro ⟨_, h⟩; omega
    · intro h; exact ⟨hlz, by omega⟩
  · rw [if_neg hone] at *
    constructor
    · rintro ⟨_, h⟩; omega
    · intro h; exact ⟨hlz, by omega⟩

/-- A recorded token with room keeps the cursors in range. -/
theorem Recorded.lzOk {bytes : List Byte} {isMatch : Bool} {s u : State} (hlz : LzOk s) (h : Recorded bytes isMatch s u)
    (hroom : ¬ Config.LZ_SIZE - u.lzPos.toNat < 4) : LzOk u := by
  obtain ⟨hp1, hp2, hfp, hl1, hl8⟩ := hlz
  obtain ⟨⟨e1, e2, e3, _⟩, _⟩ := h
  simp only [Config.LZ_SIZE] at *
  unfold LzOk
  simp only [Config.LZ_SIZE]
  have hl : s.flagsLeft ≠ 1#4 → s.flagsLeft.toNat ≠ 1 := by
    intro h h1; exact h (BitVec.eq_of_toNat_eq (by simpa using h1))
  split at e1 <;> simp_all <;> omega

/-- A token's bytes recorded where there is room: no block is emitted (R222 to R225). -/
theorem record_room {bytes : List Byte} {isMatch : Bool} {s : State} (h1 : 1 ≤ bytes.length) (h3 : bytes.length ≤ 3)
    (hr : RoomFor bytes.length s) :
    ∃ u, (appendLz bytes s).bind (lzAfterRecord isMatch) = .ok u ∧ Recorded bytes isMatch s u ∧ OnlyLzChanged s u ∧
      LzOk u := by
  obtain ⟨u, hrec, ho, hx⟩ := record_spec bytes isMatch s hr.1 h1 h3
  have := (roomFor_iff hr.1 hrec).1 hr
  exact ⟨u, by rw [hx, if_neg this], hrec, ho, hrec.lzOk hr.1 this⟩

theorem recordLiteral_room {v : Byte} {s : State} (hr : RoomFor 1 s) :
    ∃ u, recordLiteral v s = .ok u ∧ Recorded [v] false s u ∧ OnlyLzChanged s u ∧ LzOk u :=
  record_room (by simp) (by simp) hr

theorem recordMatch_room {d l : Nat} {s : State} (hm : Config.M ≤ l ∧ l ≤ Config.L ∧ 1 ≤ d ∧ d ≤ Config.W)
    (hr : RoomFor 3 s) :
    ∃ u, recordMatch d l s = .ok u ∧ Recorded (matchBytes d l) true s u ∧ OnlyLzChanged s u ∧ LzOk u := by
  have := record_room (bytes := matchBytes d l) (isMatch := true) (s := s) (by simp [matchBytes]) (by simp [matchBytes]) hr
  unfold recordMatch
  rw [if_pos hm]
  exact this

theorem lzReset_eq (s : State) : lzReset s = (s.setLzBuf (s.lzBuf.set 0 0#8)).setLzCursors 1#16 0#15 8#4 := rfl

theorem lzReset_lzOk (s : State) : LzOk (lzReset s) := by
  refine ⟨?_, ?_, ?_, ?_, ?_⟩ <;> simp [lzReset, Config.LZ_SIZE]

theorem lzReset_only (s : State) : OnlyLzChanged s (lzReset s) := rfl

end Sys2Proof.Machine
end

