-- ==== Sys2Proof/Laws/BlockEncoder.lean ====
section
/-! SUPPORT. What the block encoder changes, and what every emitted block begins and ends with
(spec/45_block_encoder.md R270 to R288). -/

namespace Sys2Proof.Machine

/-- `t` differs from `s` at most in the tables and the builder's scratch (R33 to R35). -/
def OnlyTablesChanged (s t : State) : Prop :=
  t = { s with
    litFreq := t.litFreq
    distFreq := t.distFreq
    clFreq := t.clFreq
    llLen := t.llLen
    llCode := t.llCode
    dLen := t.dLen
    dCode := t.dCode
    clLen := t.clLen
    clCode := t.clCode
    syms := t.syms
    numCodes := t.numCodes
    nextCode := t.nextCode
    packed := t.packed }

theorem OnlyTablesChanged.trans {s t u : State} (h : OnlyTablesChanged s t) (k : OnlyTablesChanged t u) :
    OnlyTablesChanged s u := by
  unfold OnlyTablesChanged at *; rw [k, h]

theorem OnlyBlockChanged.refl (s : State) : OnlyBlockChanged s s := by cases s; rfl

theorem OnlyBlockChanged.trans {s t u : State} (h : OnlyBlockChanged s t) (k : OnlyBlockChanged t u) :
    OnlyBlockChanged s u := by
  unfold OnlyBlockChanged at *; rw [k, h]

theorem OnlyTablesChanged.block {s t : State} (h : OnlyTablesChanged s t) : OnlyBlockChanged s t := by
  unfold OnlyTablesChanged at h; unfold OnlyBlockChanged; rw [h]

theorem OnlySinkChanged.block {s t : State} (h : OnlySinkChanged s t) : OnlyBlockChanged s t := by
  unfold OnlySinkChanged at h; unfold OnlyBlockChanged; rw [h]

theorem OnlyLzChanged.block {s t : State} (h : OnlyLzChanged s t) : OnlyBlockChanged s t := by
  unfold OnlyLzChanged at h; unfold OnlyBlockChanged; rw [h]

theorem storeCodes_only (x : HuffTable) (b : Built) (s : State) : OnlyTablesChanged s (storeCodes x b s) := by
  cases x <;> rfl

theorem setScratch_only (s : State) (p : List SymKey) (n : List (BitVec 9)) (c : List (BitVec 16)) :
    OnlyTablesChanged s (s.setScratch p n c) := rfl

/-- Writing the first elements of the sorted array leaves its length (R35). -/
theorem overlay_length {live old : List SymKey} (h : live.length ≤ old.length) : (overlay live old).length = old.length := by
  simp [overlay]; omega

/-- `OPTIMIZE` writes its length and code tables and the scratch arrays, from what `buildCodes` computes (R240). -/
theorem optimize_ok {x : HuffTable} {s t : State} (h : optimize x s = .ok t) :
    ∃ b, buildCodes s.params.depths (s.freqTable x) (tableSymbols x) (tableCap x) (s.nextCode.map fun c => c.toNat) = .ok b ∧
      t = (storeCodes x b s).setScratch (overlay b.syms s.syms) (b.numCodes.map (BitVec.ofNat 9)) (b.nextCode.map (BitVec.ofNat 16)) := by
  obtain ⟨b, hb, h⟩ := bind_ok.1 h
  exact ⟨b, hb, ((pure_ok _ _).1 h).symm⟩

theorem optimize_only {x : HuffTable} {s t : State} (h : optimize x s = .ok t) : OnlyTablesChanged s t := by
  obtain ⟨b, _, rfl⟩ := optimize_ok h
  exact (storeCodes_only x b s).trans (setScratch_only _ _ _ _)

/-- Pass 1 writes tables only (R272 to R280). -/
theorem buildTables_only {ts : List Token} {s t : State} (h : buildTables ts s = .ok t) : OnlyTablesChanged s t := by
  obtain ⟨c, _, h⟩ := bind_ok.1 h
  obtain ⟨s1, h1, h⟩ := bind_ok.1 h
  obtain ⟨s2, h2, h⟩ := bind_ok.1 h
  have e1 : OnlyTablesChanged s (s.setFreqs (countSymbol c.1 256) c.2) := rfl
  have e2 : OnlyTablesChanged s2 (s2.setPacked (rlePack (codeLengthSeq s2)) (packedFreq (rlePack (codeLengthSeq s2)))) := rfl
  exact ((e1.trans (optimize_only h1)).trans (optimize_only h2)).trans (e2.trans (optimize_only h))

/-- Closing the token stream stores one byte (R271). -/
theorem closeTokenStream_ok {s t : State} {stop : Nat} (h : closeTokenStream s = .ok (t, stop)) :
    s.lzFlagsPos.toNat < Config.LZ_SIZE ∧
      t = s.setLzBuf (s.lzBuf.set s.lzFlagsPos.toNat (alignFlags (s.lzByte s.lzFlagsPos.toNat) s.flagsLeft.toNat)) ∧
      stop = s.lzPos.toNat - (if s.flagsLeft = 8#4 then 1 else 0) := by
  unfold closeTokenStream at h
  split at h
  · cases h
  split at h
  · cases h
  obtain ⟨f, hf, h⟩ := bind_ok.1 h
  obtain ⟨u, hu, h⟩ := bind_ok.1 h
  have h := (pure_ok _ _).1 h
  unfold readLz at hf
  split at hf
  · cases hf
    rw [writeLz_ok _ ‹_›] at hu
    cases hu; cases h
    exact ⟨‹_›, rfl, rfl⟩
  · cases hf

/-- `FLUSH_BLOCK` taken apart (R270). -/
theorem flushBlock_ok {last : Bool} {s t : State} (h : flushBlock last s = .ok t) :
    ∃ c stop ts built fields sent, closeTokenStream s = .ok (c, stop) ∧ lzTokens c stop = .ok ts ∧
      buildTables ts c = .ok built ∧ blockFields last ts built = .ok fields ∧ putFields fields built = .ok sent ∧
      t = lzReset sent := by
  obtain ⟨⟨c, stop⟩, hc, h⟩ := bind_ok.1 h
  obtain ⟨ts, hts, h⟩ := bind_ok.1 h
  obtain ⟨built, hb, h⟩ := bind_ok.1 h
  obtain ⟨fields, hf, h⟩ := bind_ok.1 h
  obtain ⟨sent, hs, h⟩ := bind_ok.1 h
  exact ⟨c, stop, ts, built, fields, sent, hc, hts, hb, hf, hs, ((pure_ok _ _).1 h).symm⟩

/-- `FLUSH_BLOCK` changes nothing outside the block encoder and the BitSink (R270). -/
theorem flushBlock_only {last : Bool} {s t : State} (h : flushBlock last s = .ok t) : OnlyBlockChanged s t := by
  obtain ⟨c, stop, ts, built, fields, sent, hc, hts, hb, hf, hs, rfl⟩ := flushBlock_ok h
  obtain ⟨_, rfl, _⟩ := closeTokenStream_ok hc
  exact (((OnlyLzChanged.setLzBuf s _).block.trans (buildTables_only hb).block).trans (putFields_only hs).block).trans
    (lzReset_only sent).block

/-- `FLUSH_BLOCK` leaves the LZ code buffer empty (R288). -/
theorem flushBlock_cursors {last : Bool} {s t : State} (h : flushBlock last s = .ok t) :
    t.lzPos = 1#16 ∧ t.lzFlagsPos = 0#15 ∧ t.flagsLeft = 8#4 := by
  obtain ⟨c, stop, ts, built, fields, sent, hc, hts, hb, hf, hs, rfl⟩ := flushBlock_ok h
  exact ⟨rfl, rfl, rfl⟩

theorem flushBlock_lzOk {last : Bool} {s t : State} (h : flushBlock last s = .ok t) : LzOk t := by
  obtain ⟨c, stop, ts, built, fields, sent, hc, hts, hb, hf, hs, rfl⟩ := flushBlock_ok h
  exact lzReset_lzOk _

/-- `FLUSH_BLOCK` keeps the ranges of the accumulator and the staging buffer (R140). -/
theorem flushBlock_bitsOk {last : Bool} {s t : State} (h : flushBlock last s = .ok t) (hb : BitsOk s) : BitsOk t := by
  obtain ⟨c, stop, ts, built, fields, sent, hc, hts, hbt, hf, hs, rfl⟩ := flushBlock_ok h
  obtain ⟨_, rfl, _⟩ := closeTokenStream_ok hc
  have : BitsOk built := by rw [buildTables_only hbt]; exact hb
  exact putFields_bitsOk (t := sent) hs this

/-- The fields of a block begin with `BFINAL` and `BTYPE` and end with the code of symbol 256 (R281, R287). -/
theorem blockFields_shape {last : Bool} {ts : List Token} {s : State} {fields : List (Nat × Nat)}
    (h : blockFields last ts s = .ok fields) :
    ∃ middle, fields = [(last.toNat, 1), (2, 2)] ++ middle ++ [(s.llCode.entry 256, s.llLen.entry 256)] := by
  obtain ⟨body, _, h⟩ := bind_ok.1 h
  have h := (pure_ok _ _).1 h
  refine ⟨?_, ?_⟩
  · exact [(hlit s - 257, 5), (hdist s - 1, 5), (hclen s - 4, 4)] ++ clLengthFields s (hclen s) ++
      (s.packed.flatMap fun p => clField s p.sym p.extraBits p.extra) ++ body
  · rw [← h]; simp [headerFields, llField, codedField]

/-- The token walk completes wherever every token it can meet lies inside the buffer (R272). -/
theorem tokenWalk_ok (s : State) (stop : Nat) (hs : stop ≤ Config.LZ_SIZE - 2) (turns i k : Nat) (f : Byte) :
    ∃ ts, tokenWalk s stop turns i k f = .ok ts ∧ ts.length ≤ turns := by
  induction turns generalizing i k f with
  | zero => exact ⟨[], rfl, by simp⟩
  | succ t ih =>
    unfold tokenWalk
    simp only [Config.LZ_SIZE] at hs
    by_cases h1 : stop ≤ i
    · rw [if_pos h1]; exact ⟨[], rfl, by simp⟩
    rw [if_neg h1]
    split
    · rw [readLz_ok (by simp only [Config.LZ_SIZE]; omega)]
      obtain ⟨ts, h, hl⟩ := ih (i + 1) 0 (s.lzByte i)
      exact ⟨ts, h, by omega⟩
    split
    · rw [readLz_ok (by simp only [Config.LZ_SIZE]; omega), readLz_ok (by simp only [Config.LZ_SIZE]; omega),
        readLz_ok (by simp only [Config.LZ_SIZE]; omega)]
      obtain ⟨ts, h, hl⟩ := ih (i + 3) (k + 1) f
      exact ⟨_ :: ts, by simp only [h, bind, Except.bind]; rfl, by simp; omega⟩
    · rw [readLz_ok (by simp only [Config.LZ_SIZE]; omega)]
      obtain ⟨ts, h, hl⟩ := ih (i + 1) (k + 1) f
      exact ⟨_ :: ts, by simp only [h, bind, Except.bind]; rfl, by simp; omega⟩

end Sys2Proof.Machine
end

