-- ==== Sys2Proof/Laws/MatchFinder.lean ====
section
/-! SUPPORT. What the walk of a hash chain can yield (spec/42_match_finder.md R183 to R191). -/

namespace Sys2Proof.Machine

/-- The common length is at most its bound, and below it the bytes agree (R188). -/
theorem commonLength_spec (s : State) (a b n : Nat) :
    commonLength s a b n ≤ n ∧ ∀ k, k < commonLength s a b n → s.dictByte (a + k) = s.dictByte (b + k) := by
  induction n generalizing a b with
  | zero => simp [commonLength]
  | succ n ih =>
    rw [commonLength]
    split
    · rename_i heq
      refine ⟨by have := (ih (a + 1) (b + 1)).1; omega, ?_⟩
      intro k hk
      cases k with
      | zero => exact heq
      | succ k =>
        have := (ih (a + 1) (b + 1)).2 k (by omega)
        rwa [show a + (k + 1) = a + 1 + k by omega, show b + (k + 1) = b + 1 + k by omega]
    · exact ⟨Nat.zero_le _, fun k hk => absurd hk (by omega)⟩

/-- What a walk yields when the best pair so far is `(dist, len)`. -/
def FoundOk (s : State) (pos maxDist maxLen dist len : Nat) (f : Found) : Prop :=
  (f.dist = dist ∧ f.len = len ∨
    1 ≤ f.dist ∧ f.dist ≤ maxDist ∧ len < f.len ∧ f.len ≤ maxLen ∧
      ∃ cand, cand < Config.W ∧ f.dist = circularDist pos cand ∧
        ∀ k, k < f.len → s.dictByte (cand + k) = s.dictByte (pos + k)) ∧
    ∀ i, f.mark = some i → i < Config.W

/-- The walk keeps the pair or finds a longer match, and marks at most a window index (R183, R185, R189, R191). -/
theorem walkChain_spec (s : State) (pos maxDist maxLen probes cur prevDist dist len : Nat) (hcur : cur < Config.W) :
    FoundOk s pos maxDist maxLen dist len (walkChain s pos maxDist maxLen probes cur prevDist dist len) := by
  induction probes generalizing cur prevDist dist len with
  | zero => exact ⟨.inl ⟨rfl, rfl⟩, by simp [walkChain]⟩
  | succ k ih =>
    rw [walkChain]
    simp only
    split
    · exact ⟨.inl ⟨rfl, rfl⟩, by simp⟩
    rename_i hcand
    have hcand : (s.prevEntry cur).toNat < Config.W := by omega
    split
    · exact ⟨.inl ⟨rfl, rfl⟩, by simpa using hcur⟩
    rename_i hdist
    split
    · exact ih _ _ _ _ hcand
    obtain ⟨hle, heq⟩ := commonLength_spec s (s.prevEntry cur).toNat pos maxLen
    split
    · rename_i hlen
      have hnew : 1 ≤ circularDist pos (s.prevEntry cur).toNat ∧ circularDist pos (s.prevEntry cur).toNat ≤ maxDist := by
        omega
      split
      · exact ⟨.inr ⟨hnew.1, hnew.2, hlen, hle, _, hcand, rfl, heq⟩, by simp⟩
      · obtain ⟨h, hm⟩ := ih (s.prevEntry cur).toNat (circularDist pos (s.prevEntry cur).toNat)
          (circularDist pos (s.prevEntry cur).toNat) (commonLength s (s.prevEntry cur).toNat pos maxLen) hcand
        refine ⟨.inr ?_, hm⟩
        rcases h with ⟨h1, h2⟩ | ⟨h1, h2, h3, h4, h5⟩
        · rw [h1, h2]
          exact ⟨hnew.1, hnew.2, hlen, hle, _, hcand, rfl, heq⟩
        · exact ⟨h1, h2, by omega, h4, h5⟩
    · exact ih _ _ _ _ hcand

/-- Reading `prev` after a terminal mark (R185). -/
theorem prevEntry_applyMark (s : State) (m : Option Nat) (hm : ∀ i, m = some i → i < Config.W) (j : Nat) :
    (applyMark m s).prevEntry j = if m = some j then Config.SENTINEL else s.prevEntry j := by
  cases m with
  | none => simp [applyMark]
  | some i =>
    have hi := hm i rfl
    have hn : (BitVec.ofNat 15 i).toNat = i := by
      rw [BitVec.toNat_ofNat, Nat.mod_eq_of_lt]; simpa [Config.W] using hi
    simp only [applyMark, State.writePrev, hn, State.prevEntry, State.setPrev_prev, State.setPrev_resets, Mem.get?_set,
      Option.some.injEq]
    split <;> rfl

theorem applyMark_only (s : State) (m : Option Nat) : applyMark m s = { s with prev := (applyMark m s).prev } := by
  cases m with
  | none => cases s; rfl
  | some i => rfl

/-- `FIND_MATCH` within its contract (R180, R181, R191). -/
theorem findMatch_spec (pos : BitVec 15) (maxDist maxLen dist len : Nat) (s : State) (hlen : 2 ≤ len)
    (hmax : maxLen ≤ Config.L ∨ maxLen ≤ len) :
    ∃ (u : State) (f : Found), findMatch pos maxDist maxLen dist len s = .ok (u, f.dist, f.len) ∧ u = applyMark f.mark s ∧
      FoundOk s pos.toNat maxDist maxLen dist len f ∧ (maxLen ≤ len → f = ⟨dist, len, none⟩) := by
  by_cases hearly : maxLen ≤ len
  · exact ⟨s, ⟨dist, len, none⟩, by rw [findMatch, if_pos hearly], rfl, ⟨.inl ⟨rfl, rfl⟩, by simp⟩, fun _ => rfl⟩
  · refine ⟨_, _, ?_, rfl, walkChain_spec s pos.toNat maxDist maxLen s.maxProbes.toNat pos.toNat 0 dist len ?_,
      fun h => absurd h hearly⟩
    · rw [findMatch, if_neg hearly, if_neg]
      simp only [Config.L, Config.M] at *; omega
    · have := pos.isLt; simpa [Config.W] using this

end Sys2Proof.Machine
end

