-- ==== Sys2Proof/Laws/Parser.lean ====
section
/-! SUPPORT. What the parser changes and keeps (spec/43_parser_lzbuf.md R201 to R225), whether or not a block is emitted
on the way. -/

namespace Sys2Proof.Machine

/-! ## Recording, whatever follows -/

theorem writeLz_only {s t : State} {i : Nat} {v : Byte} (h : writeLz s i v = .ok t) : OnlyLzChanged s t := by
  unfold writeLz at h
  split at h
  · cases h; exact .setLzBuf _ _
  · cases h

theorem writeLzBytes_only {s t : State} {i : Nat} {bs : List Byte} (h : writeLzBytes s i bs = .ok t) :
    OnlyLzChanged s t := by
  induction bs generalizing s i with
  | nil => cases h; exact .refl _
  | cons b bs ih =>
    obtain ⟨u, hu, h⟩ := bind_ok.1 h
    exact (writeLz_only hu).trans (ih h)

theorem appendLz_only {s t : State} {bs : List Byte} (h : appendLz bs s = .ok t) : OnlyLzChanged s t := by
  obtain ⟨u, hu, h⟩ := bind_ok.1 h
  rw [← (pure_ok _ _).1 h]
  exact (writeLzBytes_only hu).trans (.setLzCursors _ _ _ _)

theorem lzAfterRecord_only {s t : State} {m : Bool} (h : lzAfterRecord m s = .ok t) : OnlyBlockChanged s t := by
  obtain ⟨u, hu, h⟩ := bind_ok.1 h
  obtain ⟨v, hv, h⟩ := bind_ok.1 h
  have h1 : OnlyLzChanged s u := by
    unfold enterFlag at hu
    split at hu
    · cases hu
    · obtain ⟨f, _, hu⟩ := bind_ok.1 hu
      obtain ⟨x, hx, hu⟩ := bind_ok.1 hu
      rw [← (pure_ok _ _).1 hu]
      exact (writeLz_only hx).trans (.setLzCursors _ _ _ _)
  have h2 : OnlyLzChanged u v := by
    unfold rollGroup at hv
    split at hv
    · obtain ⟨x, hx, hv⟩ := bind_ok.1 hv
      rw [← (pure_ok _ _).1 hv]
      exact (writeLz_only hx).trans (.setLzCursors _ _ _ _)
    · cases hv; exact .refl _
  refine (h1.trans h2).block.trans ?_
  split at h
  · exact flushBlock_only h
  · cases h; exact .refl _

theorem recordLiteral_only {s t : State} {v : Byte} (h : recordLiteral v s = .ok t) : OnlyBlockChanged s t := by
  obtain ⟨u, hu, h⟩ := bind_ok.1 h
  exact (appendLz_only hu).block.trans (lzAfterRecord_only h)

theorem recordMatch_only {s t : State} {d l : Nat} (h : recordMatch d l s = .ok t) : OnlyBlockChanged s t := by
  unfold recordMatch at h
  split at h
  · obtain ⟨u, hu, h⟩ := bind_ok.1 h
    exact (appendLz_only hu).block.trans (lzAfterRecord_only h)
  · cases h

/-- What a record leaves: cursors in range, and the BitSink ranges kept (R225, R140). -/
theorem record_keeps {bytes : List Byte} {m : Bool} {s t : State} (hlz : LzOk s) (h1 : 1 ≤ bytes.length)
    (h3 : bytes.length ≤ 3) (h : (appendLz bytes s).bind (lzAfterRecord m) = .ok t) :
    LzOk t ∧ (BitsOk s → BitsOk t) := by
  obtain ⟨u, hrec, hu, hrun⟩ := record_spec bytes m s hlz h1 h3
  rw [hrun] at h
  have hub : BitsOk s → BitsOk u := by intro hb; rw [hu]; exact hb
  split at h
  · exact ⟨flushBlock_lzOk h, fun hb => flushBlock_bitsOk h (hub hb)⟩
  · cases h; exact ⟨hrec.lzOk hlz ‹_›, hub⟩

theorem recordLiteral_keeps {v : Byte} {s t : State} (hlz : LzOk s) (h : recordLiteral v s = .ok t) :
    LzOk t ∧ (BitsOk s → BitsOk t) :=
  record_keeps hlz (by simp) (by simp) h

theorem recordMatch_keeps {d l : Nat} {s t : State} (hlz : LzOk s) (h : recordMatch d l s = .ok t) :
    LzOk t ∧ (BitsOk s → BitsOk t) := by
  unfold recordMatch at h
  split at h
  · exact record_keeps hlz (by simp [matchBytes]) (by simp [matchBytes]) h
  · cases h

/-! ## The advance -/

/-- The state after an advance (R215). -/
def advanced (adv : Nat) (s : State) : State :=
  s.setCursors (BitVec.ofNat 15 (s.lookaheadPos.toNat + adv)) (BitVec.ofNat 9 (s.lookaheadSize.toNat - adv))
    (BitVec.ofNat 16 (min (s.dictSize.toNat + adv) Config.W))

theorem advance_iff {adv : Nat} {s t : State} :
    advance adv s = .ok t ↔ (1 ≤ adv ∧ adv ≤ s.lookaheadSize.toNat) ∧ t = advanced adv s := by
  unfold advance
  split
  · simp only [Except.ok.injEq]
    exact ⟨fun h => ⟨‹_›, h.symm⟩, fun h => h.2.symm⟩
  · rename_i hn
    simp [hn]

theorem advanced_spec (adv : Nat) (s : State) : Advanced adv s (advanced adv s) := by
  have := s.lookaheadSize.isLt
  refine ⟨?_, ?_, ?_⟩
  · simp [advanced, Config.W]
  · simp only [advanced, State.setCursors_lookaheadSize, BitVec.toNat_ofNat]; omega
  · simp only [advanced, State.setCursors_dictSize, BitVec.toNat_ofNat, Config.W]; omega

/-! ## One parser step -/

/-- `t` differs from `s` at most in what one parser step writes (R201). -/
def OnlyStepChanged (s t : State) : Prop :=
  t = { s with
    prev := t.prev
    lookaheadPos := t.lookaheadPos
    lookaheadSize := t.lookaheadSize
    dictSize := t.dictSize
    savedLit := t.savedLit
    savedMatchDist := t.savedMatchDist
    savedMatchLen := t.savedMatchLen
    lzBuf := t.lzBuf
    lzPos := t.lzPos
    lzFlagsPos := t.lzFlagsPos
    flagsLeft := t.flagsLeft
    bitBuffer := t.bitBuffer
    bitsIn := t.bitsIn
    outBuf := t.outBuf
    outPos := t.outPos
    failed := t.failed
    sinkLog := t.sinkLog
    sinkAnswers := t.sinkAnswers
    sinkDraws := t.sinkDraws
    litFreq := t.litFreq
    distFreq := t.distFreq
    clFreq := t.clFreq
    llLen := t.llLen
    llCode := t.llCode
    dLen := t.dLen
    dCode := t.dCode
    clLen := t.clLen
    clCode := t.clCode
    syms := t.syms
    numCodes := t.numCodes
    nextCode := t.nextCode
    packed := t.packed }

theorem OnlyStepChanged.refl (s : State) : OnlyStepChanged s s := by cases s; rfl

theorem OnlyStepChanged.trans {s t u : State} (h : OnlyStepChanged s t) (k : OnlyStepChanged t u) :
    OnlyStepChanged s u := by
  unfold OnlyStepChanged at *; rw [k, h]

theorem OnlyBlockChanged.step {s t : State} (h : OnlyBlockChanged s t) : OnlyStepChanged s t := by
  unfold OnlyBlockChanged at h; unfold OnlyStepChanged; rw [h]

theorem OnlyStepChanged.advanced (adv : Nat) (s : State) : OnlyStepChanged s (advanced adv s) := rfl

theorem OnlyStepChanged.setSaved (s : State) (v : BitVec 8) (d : BitVec 16) (l : BitVec 9) :
    OnlyStepChanged s (s.setSaved v d l) := rfl

theorem OnlyStepChanged.applyMark (m : Option Nat) (s : State) : OnlyStepChanged s (applyMark m s) := by
  cases m with
  | none => exact .refl s
  | some i => rfl

/-- What a parser transition from `s` leaves when it runs (R212, R215): what it may change, the lookahead it consumed,
the LZ cursors in range, the BitSink ranges kept. -/
def StepKeeps (s t : State) : Prop :=
  OnlyStepChanged s t ∧ (∃ adv, 1 ≤ adv ∧ adv ≤ s.lookaheadSize.toNat ∧ Advanced adv s t) ∧
    (LzOk s → LzOk t) ∧ (LzOk s → BitsOk s → BitsOk t)

/-- An advance after changes that leave the dictionary cursors alone. -/
theorem StepKeeps.of_advance {s u t : State} {adv : Nat} (h : advance adv u = .ok t) (hu : OnlyStepChanged s u)
    (hp : u.lookaheadPos = s.lookaheadPos) (hz : u.lookaheadSize = s.lookaheadSize) (hd : u.dictSize = s.dictSize)
    (hl : LzOk s → LzOk u) (hb : LzOk s → BitsOk s → BitsOk u) : StepKeeps s t := by
  obtain ⟨⟨h1, h2⟩, rfl⟩ := advance_iff.1 h
  have ha := advanced_spec adv u
  rw [Advanced, hp, hz, hd] at ha
  rw [hz] at h2
  exact ⟨hu.trans (.advanced adv u), ⟨adv, h1, h2, ha⟩, hl, hb⟩

/-- The dictionary cursors stay where a block emission happens. -/
theorem OnlyBlockChanged.cursors {s t : State} (h : OnlyBlockChanged s t) :
    t.lookaheadPos = s.lookaheadPos ∧ t.lookaheadSize = s.lookaheadSize ∧ t.dictSize = s.dictSize := by
  rw [h]; exact ⟨rfl, rfl, rfl⟩

theorem OnlyBlockChanged.saved {s t : State} (h : OnlyBlockChanged s t) :
    t.savedLit = s.savedLit ∧ t.savedMatchDist = s.savedMatchDist ∧ t.savedMatchLen = s.savedMatchLen := by
  rw [h]; exact ⟨rfl, rfl, rfl⟩

/-- The saved match of a state is one the parser can hold (R207, R209, R210). -/
def SavedOk (lookahead : Nat) (dist len : Nat) : Prop :=
  len = 0 ∨ (Config.M ≤ len ∧ len < Config.LONG_COMMIT ∧ 1 ≤ dist ∧ dist ≤ Config.W ∧ 2 ≤ lookahead ∧ len - 1 ≤ lookahead)

theorem idleLiteral_keeps {s t : State} (h : idleLiteral s = .ok t) :
    StepKeeps s t ∧ t.savedMatchDist = s.savedMatchDist ∧ t.savedMatchLen = s.savedMatchLen := by
  obtain ⟨u, hu, h⟩ := bind_ok.1 h
  have ho := recordLiteral_only hu
  obtain ⟨hp, hz, hd⟩ := ho.cursors
  refine ⟨StepKeeps.of_advance h ho.step hp hz hd (fun hl => (recordLiteral_keeps hl hu).1)
    (fun hl => (recordLiteral_keeps hl hu).2), ?_⟩
  obtain ⟨_, rfl⟩ := advance_iff.1 h
  exact ho.saved.2

theorem idleCommit_keeps {d l : Nat} {s t : State} (h : idleCommit d l s = .ok t) :
    StepKeeps s t ∧ t.savedMatchDist = s.savedMatchDist ∧ t.savedMatchLen = s.savedMatchLen := by
  obtain ⟨u, hu, h⟩ := bind_ok.1 h
  have ho := recordMatch_only hu
  obtain ⟨hp, hz, hd⟩ := ho.cursors
  refine ⟨StepKeeps.of_advance h ho.step hp hz hd (fun hl => (recordMatch_keeps hl hu).1)
    (fun hl => (recordMatch_keeps hl hu).2), ?_⟩
  obtain ⟨_, rfl⟩ := advance_iff.1 h
  exact ho.saved.2

theorem idleDefer_keeps {d l : Nat} {s t : State} (h : idleDefer d l s = .ok t) :
    StepKeeps s t ∧ t.savedMatchDist = BitVec.ofNat 16 d ∧ t.savedMatchLen = BitVec.ofNat 9 l ∧
      t.lookaheadSize.toNat + 1 = s.lookaheadSize.toNat := by
  have h : advance 1 (s.setSaved s.parseByte (BitVec.ofNat 16 d) (BitVec.ofNat 9 l)) = .ok t := h
  refine ⟨StepKeeps.of_advance h (.setSaved _ _ _ _) rfl rfl rfl id (fun _ => id), ?_⟩
  obtain ⟨⟨_, h2⟩, rfl⟩ := advance_iff.1 h
  have ha := (advanced_spec 1 (s.setSaved s.parseByte (BitVec.ofNat 16 d) (BitVec.ofNat 9 l))).2.1
  simp only [State.setSaved_lookaheadSize] at ha h2
  exact ⟨rfl, rfl, by omega⟩

theorem deferredLongerLong_keeps {d l : Nat} {s t : State} (h : deferredLongerLong d l s = .ok t) :
    StepKeeps s t ∧ t.savedMatchLen = 0#9 := by
  obtain ⟨u, hu, h⟩ := bind_ok.1 h
  obtain ⟨v, hv, h⟩ := bind_ok.1 h
  have hou := recordLiteral_only hu
  have ho := hou.trans (recordMatch_only hv)
  obtain ⟨hp, hz, hd⟩ := ho.cursors
  refine ⟨StepKeeps.of_advance h (ho.step.trans (.setSaved _ _ _ _)) hp hz hd
    (fun hl => (recordMatch_keeps (recordLiteral_keeps hl hu).1 hv).1)
    (fun hl hb => (recordMatch_keeps (recordLiteral_keeps hl hu).1 hv).2 ((recordLiteral_keeps hl hu).2 hb)), ?_⟩
  obtain ⟨_, rfl⟩ := advance_iff.1 h
  rfl

theorem deferredLongerShort_keeps {d l : Nat} {s t : State} (h : deferredLongerShort d l s = .ok t) :
    StepKeeps s t ∧ t.savedMatchDist = BitVec.ofNat 16 d ∧ t.savedMatchLen = BitVec.ofNat 9 l ∧
      t.lookaheadSize.toNat + 1 = s.lookaheadSize.toNat := by
  obtain ⟨u, hu, h⟩ := bind_ok.1 h
  have ho := recordLiteral_only hu
  obtain ⟨hp, hz, hd⟩ := ho.cursors
  refine ⟨StepKeeps.of_advance h (ho.step.trans (.setSaved _ _ _ _)) hp hz hd (fun hl => (recordLiteral_keeps hl hu).1)
    (fun hl => (recordLiteral_keeps hl hu).2), ?_⟩
  obtain ⟨⟨_, h2⟩, rfl⟩ := advance_iff.1 h
  have ha := (advanced_spec 1 (u.setSaved s.parseByte (BitVec.ofNat 16 d) (BitVec.ofNat 9 l))).2.1
  simp only [State.setSaved_lookaheadSize, hz] at ha h2
  exact ⟨rfl, rfl, by omega⟩

theorem deferredCommit_keeps {s t : State} (h : deferredCommit s = .ok t) : StepKeeps s t ∧ t.savedMatchLen = 0#9 := by
  obtain ⟨u, hu, h⟩ := bind_ok.1 h
  have ho := recordMatch_only hu
  obtain ⟨hp, hz, hd⟩ := ho.cursors
  refine ⟨StepKeeps.of_advance h (ho.step.trans (.setSaved _ _ _ _)) hp hz hd (fun hl => (recordMatch_keeps hl hu).1)
    (fun hl => (recordMatch_keeps hl hu).2), ?_⟩
  obtain ⟨_, rfl⟩ := advance_iff.1 h
  rfl

/-- What any row of the transition table keeps (R212): given a pair that is acceptable where it is used. -/
theorem parseTransition_keeps {d l : Nat} {better : Bool} {s t : State} (h : parseTransition d l better s = .ok t)
    (hpair : better = true → Config.M ≤ l ∧ l ≤ s.lookaheadSize.toNat ∧ 1 ≤ d ∧ d ≤ Config.W) :
    StepKeeps s t ∧ SavedOk t.lookaheadSize.toNat t.savedMatchDist.toNat t.savedMatchLen.toNat := by
  have hdefer : better = true → l < Config.LONG_COMMIT → t.savedMatchDist = BitVec.ofNat 16 d →
      t.savedMatchLen = BitVec.ofNat 9 l → t.lookaheadSize.toNat + 1 = s.lookaheadSize.toNat →
      SavedOk t.lookaheadSize.toNat t.savedMatchDist.toNat t.savedMatchLen.toNat := by
    intro hb hlong hd hl hz
    obtain ⟨h1, h2, h3, h4⟩ := hpair hb
    rw [hd, hl, BitVec.toNat_ofNat, BitVec.toNat_ofNat]
    simp only [Config.M, Config.W, Config.LONG_COMMIT] at *
    rw [Nat.mod_eq_of_lt (by omega), Nat.mod_eq_of_lt (by omega)]
    exact .inr ⟨h1, hlong, h3, h4, by omega, by omega⟩
  unfold parseTransition at h
  split at h
  · rename_i hidle
    split at h
    · split at h
      · obtain ⟨hk, h1, h2⟩ := idleCommit_keeps h
        exact ⟨hk, .inl (by rw [h2, hidle]; rfl)⟩
      · rename_i hn
        obtain ⟨hk, h1, h2, h3⟩ := idleDefer_keeps h
        exact ⟨hk, hdefer ‹_› (by simp only [not_or] at hn; omega) h1 h2 h3⟩
    · obtain ⟨hk, h1, h2⟩ := idleLiteral_keeps h
      exact ⟨hk, .inl (by rw [h2, hidle]; rfl)⟩
  · split at h
    · split at h
      · obtain ⟨hk, h1⟩ := deferredLongerLong_keeps h
        exact ⟨hk, .inl (by rw [h1]; rfl)⟩
      · obtain ⟨hk, h1, h2, h3⟩ := deferredLongerShort_keeps h
        exact ⟨hk, hdefer ‹_› (by omega) h1 h2 h3⟩
    · obtain ⟨hk, h1⟩ := deferredCommit_keeps h
      exact ⟨hk, .inl (by rw [h1]; rfl)⟩

/-- `PARSE_STEP` taken apart: the finder's pair and the transition it selects (R201 to R204). -/
theorem parseStep_eq (s : State) (h1 : 1 ≤ s.lookaheadSize.toNat) (hL : s.lookaheadSize.toNat ≤ Config.L)
    (hfloor : s.savedMatchLen = 0#9 ∨ 2 ≤ s.savedMatchLen.toNat) :
    ∃ f : Found, parseStep s =
        parseTransition f.dist f.len (improved s.params.reject3Dist (matchFloor s) f.dist f.len) (applyMark f.mark s) ∧
      findMatch s.lookaheadPos (distanceBound s) s.lookaheadSize.toNat 0 (matchFloor s) s =
        .ok (applyMark f.mark s, f.dist, f.len) ∧
      FoundOk s s.lookaheadPos.toNat (distanceBound s) s.lookaheadSize.toNat 0 (matchFloor s) f := by
  have hne : s.lookaheadSize ≠ 0#9 := by intro h; rw [h] at h1; simp at h1
  have hfl : 2 ≤ matchFloor s := by
    unfold matchFloor
    split
    · simp [Config.M]
    · rename_i hn; exact hfloor.resolve_left hn
  obtain ⟨u, f, hf, hu, hok, _⟩ := findMatch_spec s.lookaheadPos (distanceBound s) s.lookaheadSize.toNat 0 (matchFloor s) s
    hfl (.inl hL)
  refine ⟨f, ?_, by rw [hf, hu], hok⟩
  rw [parseStep, if_neg hne, hf, hu]
  rfl

/-- An improvement is a real match within the bounds (R191, R202, R204). -/
theorem improved_pair {s : State} {f : Found} (hdict : s.dictSize.toNat ≤ Config.W)
    (hfloor : s.savedMatchLen = 0#9 ∨ 2 ≤ s.savedMatchLen.toNat)
    (hok : FoundOk s s.lookaheadPos.toNat (distanceBound s) s.lookaheadSize.toNat 0 (matchFloor s) f)
    (himp : improved s.params.reject3Dist (matchFloor s) f.dist f.len = true) :
    Config.M ≤ f.len ∧ f.len ≤ s.lookaheadSize.toNat ∧ 1 ≤ f.dist ∧ f.dist ≤ Config.W := by
  have hfl : 2 ≤ matchFloor s := by
    unfold matchFloor
    split
    · simp [Config.M]
    · rename_i hn; exact hfloor.resolve_left hn
  simp only [improved, Bool.and_eq_true, decide_eq_true_eq] at himp
  rcases hok.1 with ⟨_, h⟩ | ⟨h1, h2, h3, h4, _⟩
  · omega
  · simp only [distanceBound, Config.M] at *; omega

/-- What `PARSE_STEP` keeps when it runs (R38, R201). -/
theorem parseStep_keeps {s t : State} (h : parseStep s = .ok t) (hL : s.lookaheadSize.toNat ≤ Config.L)
    (hdict : s.dictSize.toNat ≤ Config.W)
    (hsaved : SavedOk s.lookaheadSize.toNat s.savedMatchDist.toNat s.savedMatchLen.toNat) :
    StepKeeps s t ∧ SavedOk t.lookaheadSize.toNat t.savedMatchDist.toNat t.savedMatchLen.toNat := by
  have h1 : 1 ≤ s.lookaheadSize.toNat := by
    by_contra hn
    have : s.lookaheadSize = 0#9 := BitVec.eq_of_toNat_eq (by simp; omega)
    rw [parseStep, if_pos this] at h; cases h
  have hfloor : s.savedMatchLen = 0#9 ∨ 2 ≤ s.savedMatchLen.toNat := by
    rcases hsaved with h | h
    · exact .inl (BitVec.eq_of_toNat_eq (by simpa using h))
    · simp only [Config.M] at h; exact .inr (by omega)
  obtain ⟨f, hrun, _, hok⟩ := parseStep_eq s h1 hL hfloor
  rw [hrun] at h
  have hm := applyMark_only s f.mark
  have hz : (applyMark f.mark s).lookaheadSize = s.lookaheadSize := by rw [hm]
  have hp : (applyMark f.mark s).lookaheadPos = s.lookaheadPos := by rw [hm]
  have hd : (applyMark f.mark s).dictSize = s.dictSize := by rw [hm]
  obtain ⟨⟨k1, ⟨adv, k2, k3, k4⟩, k5, k6⟩, hso⟩ := parseTransition_keeps h
    (by rw [hz]; exact fun hb => improved_pair hdict hfloor hok hb)
  rw [hz] at k3
  rw [Advanced, hp, hz, hd] at k4
  refine ⟨⟨(OnlyStepChanged.applyMark _ _).trans k1, ⟨adv, k2, k3, k4⟩, ?_, ?_⟩, hso⟩
  · intro hl; apply k5; rw [hm]; exact hl
  · intro hl hb; apply k6
    · rw [hm]; exact hl
    · rw [hm]; exact hb

end Sys2Proof.Machine
end

