-- ==== Sys2Proof/Laws/Canonical.lean ====
section
/-! SUPPORT. Every memory operation keeps the canonical form and the index range of every memory and table (log 2), and
the reset state has it. -/

namespace Sys2Proof.Machine

/-- The reset state lists nothing. -/
theorem reset_memoriesOk : MemoriesOk State.reset := by
  refine ⟨?_, ?_, ?_, ?_, ?_, ?_, ?_, ?_, ?_, ?_, ?_, ?_, ?_, ?_, List.length_replicate⟩ <;> rfl

theorem hardwareReset_memoriesOk (s : State) : MemoriesOk (hardwareReset s) := by
  refine ⟨?_, ?_, ?_, ?_, ?_, ?_, ?_, ?_, ?_, ?_, ?_, ?_, ?_, ?_, List.length_replicate⟩ <;> rfl

/-! ## One memory at a time -/

theorem MemoriesOk.setDict {s : State} (h : MemoriesOk s) {m : Mem 8} (hm : m.wf Config.DICT_LEN = true) :
    MemoriesOk (s.setDict m) := by
  obtain ⟨_, h⟩ := h; exact ⟨hm, h⟩

theorem MemoriesOk.setHead {s : State} (h : MemoriesOk s) {m : Mem 16} (hm : m.wf Config.H = true) :
    MemoriesOk (s.setHead m) := by
  obtain ⟨h1, _, h⟩ := h; exact ⟨h1, hm, h⟩

theorem MemoriesOk.setPrev {s : State} (h : MemoriesOk s) {m : Mem 16} (hm : m.wf Config.W = true) :
    MemoriesOk (s.setPrev m) := by
  obtain ⟨h1, h2, _, h⟩ := h; exact ⟨h1, h2, hm, h⟩

theorem MemoriesOk.setLzBuf {s : State} (h : MemoriesOk s) {m : Mem 8} (hm : m.wf Config.LZ_SIZE = true) :
    MemoriesOk (s.setLzBuf m) := by
  obtain ⟨h1, h2, h3, _, h⟩ := h; exact ⟨h1, h2, h3, hm, h⟩

/-- A change of the BitSink and the sink port alone. -/
theorem MemoriesOk.sink {s t : State} (h : MemoriesOk s) (hs : OnlySinkChanged s t)
    (hm : t.outBuf.wf Config.OUT_SIZE = true) : MemoriesOk t := by
  obtain ⟨h1, h2, h3, h4, _, h⟩ := h
  have ho : t.outBuf = t.outBuf := rfl
  unfold MemoriesOk
  refine ⟨?_, ?_, ?_, ?_, hm, ?_⟩ <;> rw [hs] <;> assumption

theorem MemoriesOk.writeDict {s : State} (h : MemoriesOk s) (i : Nat) (v : Byte) (hi : i < Config.DICT_LEN) :
    MemoriesOk (s.writeDict i v) := h.setDict (Mem.set_wf _ _ h.1 hi)

theorem MemoriesOk.writeHead {s : State} (h : MemoriesOk s) (i : BitVec 12) (v : Entry) : MemoriesOk (s.writeHead i v) :=
  h.setHead (Mem.set_wf _ _ h.2.1 (by have := i.isLt; simpa [Config.H] using this))

theorem MemoriesOk.writePrev {s : State} (h : MemoriesOk s) (i : BitVec 15) (v : Entry) : MemoriesOk (s.writePrev i v) :=
  h.setPrev (Mem.set_wf _ _ h.2.2.1 (by have := i.isLt; simpa [Config.W] using this))

theorem MemoriesOk.writeLz {s t : State} {i : Nat} {v : Byte} (h : MemoriesOk s) (ht : writeLz s i v = .ok t) :
    MemoriesOk t := by
  unfold Machine.writeLz at ht
  split at ht
  · cases ht; exact h.setLzBuf (Mem.set_wf _ _ h.2.2.2.1 ‹_›)
  · cases ht

theorem MemoriesOk.writeLzBytes {s t : State} {i : Nat} {bs : List Byte} (h : MemoriesOk s)
    (ht : writeLzBytes s i bs = .ok t) : MemoriesOk t := by
  induction bs generalizing s i with
  | nil => cases ht; exact h
  | cons b bs ih =>
    obtain ⟨u, hu, ht⟩ := bind_ok.1 ht
    exact ih (h.writeLz hu) ht

/-! ## The BitSink -/

theorem drain_outBuf {s t : State} (h : drain s = .ok t) : t.outBuf = s.outBuf := by
  unfold drain at h
  split at h
  · cases h; rfl
  split at h
  · cases h; rfl
  split at h
  · cases h
  · cases h
    obtain ⟨a, l, d, hc⟩ := sinkCall_eq (stagedBytes s s.outPos.toNat) s
    rw [hc]
    cases a <;> rfl

theorem MemoriesOk.drain {s t : State} (h : MemoriesOk s) (ht : drain s = .ok t) : MemoriesOk t :=
  h.sink (drain_only ht) (by rw [drain_outBuf ht]; exact h.2.2.2.2.1)

theorem MemoriesOk.outByte {s t : State} {b : Byte} (h : MemoriesOk s) (ht : outByte b s = .ok t) : MemoriesOk t := by
  refine h.sink (outByte_only ht) ?_
  unfold Machine.outByte at ht
  split at ht
  · cases ht; exact h.2.2.2.2.1
  split at ht
  · rename_i hlt
    have hw := Mem.set_wf (m := s.outBuf) s.outPos.toNat b h.2.2.2.2.1 hlt
    simp only at ht
    split at ht
    · rw [drain_outBuf ht]; exact hw
    · cases ht; exact hw
  · cases ht

theorem MemoriesOk.spill {k : Nat} {s t : State} (h : MemoriesOk s) (ht : spill k s = .ok t) : MemoriesOk t := by
  induction k generalizing s with
  | zero => cases ht; exact h
  | succ k ih =>
    unfold Machine.spill at ht
    split at ht
    · cases ht; exact h
    · obtain ⟨u, hu, ht⟩ := bind_ok.1 ht
      have hu := h.outByte hu
      exact ih (s := u.setBits (u.bitBuffer >>> 8) (u.bitsIn - 8#5)) hu ht

theorem MemoriesOk.putBits {v n : Nat} {s t : State} (h : MemoriesOk s) (ht : putBits v n s = .ok t) : MemoriesOk t := by
  unfold Machine.putBits at ht
  split at ht
  · cases ht
  split at ht
  · cases ht; exact h
  split at ht
  · cases ht
  · have h' : MemoriesOk (s.setBits (s.bitBuffer ||| BitVec.ofNat 24 (v <<< s.bitsIn.toNat)) (s.bitsIn + BitVec.ofNat 5 n)) := h
    exact h'.spill ht

theorem MemoriesOk.putFields {fs : List (Nat × Nat)} {s t : State} (h : MemoriesOk s) (ht : putFields fs s = .ok t) :
    MemoriesOk t := by
  induction fs generalizing s with
  | nil => cases ht; exact h
  | cons f fs ih =>
    obtain ⟨v, n⟩ := f
    obtain ⟨u, hu, ht⟩ := bind_ok.1 ht
    exact ih (h.putBits hu) ht

theorem MemoriesOk.align {s t : State} (h : MemoriesOk s) (ht : align s = .ok t) : MemoriesOk t := by
  unfold Machine.align at ht
  split at ht
  · cases ht; exact h
  · exact h.putBits ht

/-! ## The tables -/

theorem lenRow_sym {l : Nat} {r : SymbolRow} (h : lenRow l = .ok r) : r.sym < 288 := by
  unfold lenRow rowOf at h
  split at h
  · rename_i hr
    cases h
    have := List.mem_of_find?_eq_some hr
    revert this
    have hall : ∀ x ∈ lenRows, x.sym < 288 := by decide
    exact hall r
  · cases h

theorem distRow_sym {d : Nat} {r : SymbolRow} (h : distRow d = .ok r) : r.sym < 32 := by
  unfold distRow rowOf at h
  split at h
  · rename_i hr
    cases h
    have := List.mem_of_find?_eq_some hr
    revert this
    have hall : ∀ x ∈ distRows, x.sym < 32 := by decide
    exact hall r
  · cases h

theorem countSymbol_wf {size : Nat} {m : Mem 16} {i : Nat} (h : m.wf size = true) (hi : i < size) :
    (countSymbol m i).wf size = true := Mem.set_wf _ _ h hi

theorem tallyTokens_wf {ts : List Token} {lit dist : Mem 16} {c : Mem 16 × Mem 16} (h : tallyTokens ts lit dist = .ok c)
    (hl : lit.wf 288 = true) (hd : dist.wf 32 = true) : c.1.wf 288 = true ∧ c.2.wf 32 = true := by
  induction ts generalizing lit dist with
  | nil => cases h; exact ⟨hl, hd⟩
  | cons x ts ih =>
    cases x with
    | literal v => exact ih h (countSymbol_wf hl (by have := v.isLt; omega)) hd
    | copy l d =>
      obtain ⟨lr, hlr, h⟩ := bind_ok.1 h
      obtain ⟨dr, hdr, h⟩ := bind_ok.1 h
      exact ih h (countSymbol_wf hl (lenRow_sym hlr)) (countSymbol_wf hd (distRow_sym hdr))

theorem collect_sym {freq : Mem 16} {n : Nat} (hn : n ≤ 288) : ∀ p ∈ collect freq n, p.sym.toNat < n := by
  intro p hp
  obtain ⟨i, hi, h⟩ := List.mem_filterMap.1 hp
  have hi := List.mem_range.1 hi
  split at h
  · cases h
  · cases h
    rw [BitVec.toNat_ofNat, Nat.mod_eq_of_lt (by omega)]; exact hi

theorem mem_insertByKey {p x : SymKey} {l : List SymKey} : x ∈ insertByKey p l ↔ x = p ∨ x ∈ l := by
  induction l with
  | nil => simp [insertByKey]
  | cons q l ih =>
    rw [insertByKey]
    split
    · simp
    · simp [ih]; tauto

theorem mem_sortByKey {x : SymKey} {l : List SymKey} : x ∈ sortByKey l ↔ x ∈ l := by
  unfold sortByKey
  induction l with
  | nil => simp
  | cons q l ih => simp [mem_insertByKey, ih]

theorem dealLengths_wf {size : Nat} (sorted : List SymKey) (lengths : List Nat) (h : ∀ p ∈ sorted, p.sym.toNat < size) :
    (dealLengths sorted lengths).wf size = true := by
  refine Mem.foldl_set_wf (fun p : SymKey × Nat => p.1.sym.toNat) (fun p => BitVec.ofNat 4 p.2) _ _ rfl ?_
  intro p hp
  exact h p.1 (List.mem_reverse.1 (List.of_mem_zip hp).1)

theorem assignCodes_keys (len : Mem 4) (ss next : List Nat) (codes : List (Nat × Nat)) (size : Nat)
    (hs : ∀ i ∈ ss, i < size) (hc : ∀ p ∈ codes, p.1 < size) : ∀ p ∈ (assignCodes len ss next codes).2, p.1 < size := by
  induction ss generalizing next codes with
  | nil => intro p hp; exact hc p (List.mem_reverse.1 hp)
  | cons s ss ih =>
    rw [assignCodes]
    split
    · exact ih _ _ (fun i hi => hs i (List.mem_cons_of_mem _ hi)) hc
    · refine ih _ _ (fun i hi => hs i (List.mem_cons_of_mem _ hi)) ?_
      intro p hp
      rcases List.mem_cons.1 hp with rfl | hp
      · exact hs s (List.mem_cons_self ..)
      · exact hc p hp

theorem insertByKey_length (p : SymKey) (l : List SymKey) : (insertByKey p l).length = l.length + 1 := by
  induction l with
  | nil => rfl
  | cons q l ih =>
    rw [insertByKey]
    split
    · rfl
    · simp [ih]

theorem sortByKey_length (l : List SymKey) : (sortByKey l).length = l.length := by
  unfold sortByKey
  induction l with
  | nil => rfl
  | cons q l ih => simp [insertByKey_length, ih]

/-- `OPTIMIZE` writes at most one element of the sorted array per symbol (R241). -/
theorem buildCodes_syms {a : DepthAlgorithm} {freq : Mem 16} {n cap : Nat} {old : List Nat} {b : Built}
    (h : buildCodes a freq n cap old = .ok b) : b.syms.length ≤ n := by
  obtain ⟨depths, _, h⟩ := bind_ok.1 h
  obtain ⟨hist, _, h⟩ := bind_ok.1 h
  have h := (pure_ok _ _).1 h
  subst h
  have hc : (collect freq n).length ≤ n := by
    simpa [collect] using List.length_filterMap_le (l := List.range n) _
  simp only [storeDepths, List.length_zipWith, sortByKey_length]
  omega

/-- The tables `OPTIMIZE` computes lie inside the alphabet (R253). -/
theorem buildCodes_wf {a : DepthAlgorithm} {freq : Mem 16} {n cap : Nat} {old : List Nat} {b : Built}
    (h : buildCodes a freq n cap old = .ok b) (hn : n ≤ 288) :
    b.len.wf n = true ∧ ∀ w, (codeTable w b.codes).wf n = true := by
  obtain ⟨depths, _, h⟩ := bind_ok.1 h
  obtain ⟨hist, _, h⟩ := bind_ok.1 h
  have h := (pure_ok _ _).1 h
  subst h
  refine ⟨dealLengths_wf _ _ fun p hp => collect_sym hn p (mem_sortByKey.1 hp), fun w => ?_⟩
  refine Mem.foldl_set_wf (fun p : Nat × Nat => p.1) (fun p => BitVec.ofNat w p.2) _ _ rfl ?_
  exact assignCodes_keys _ _ _ _ _ (fun i hi => List.mem_range.1 hi) (by simp)

theorem MemoriesOk.optimize {x : HuffTable} {s t : State} (h : MemoriesOk s) (ht : optimize x s = .ok t) :
    MemoriesOk t := by
  obtain ⟨b, hb, rfl⟩ := optimize_ok ht
  obtain ⟨h1, h2, h3, h4, h5, h6, h7, h8, h9, h10, h11, h12, h13, h14, h15⟩ := h
  have hn : tableSymbols x ≤ 288 := by cases x <;> decide
  obtain ⟨hl, hc⟩ := buildCodes_wf hb hn
  have hs : (overlay b.syms s.syms).length = 288 := by
    have := buildCodes_syms hb
    rw [overlay_length (by omega), h15]
  cases x
  · exact ⟨h1, h2, h3, h4, h5, h6, h7, h8, hl, hc 15, h11, h12, h13, h14, hs⟩
  · exact ⟨h1, h2, h3, h4, h5, h6, h7, h8, h9, h10, hl, hc 15, h13, h14, hs⟩
  · exact ⟨h1, h2, h3, h4, h5, h6, h7, h8, h9, h10, h11, h12, hl, hc 7, hs⟩

/-- Every packed entry has a symbol of the code-length alphabet. -/
def RleOk (r : RleState) : Prop := (∀ p ∈ r.out, p.sym < 19) ∧ (r.rep ≠ 0 → r.prev < 16)

theorem flushRep_ok {r : RleState} (h : RleOk r) : RleOk (flushRep r) ∧ (flushRep r).rep = 0 := by
  obtain ⟨h1, h2⟩ := h
  unfold flushRep
  split
  · exact ⟨⟨h1, h2⟩, ‹_›⟩
  split
  · rename_i hr _
    refine ⟨⟨?_, fun h => absurd rfl h⟩, rfl⟩
    intro p hp
    rcases List.mem_append.1 hp with hp | hp
    · have := h2 hr
      rw [List.eq_of_mem_replicate hp]; simp only; omega
    · exact h1 p hp
  · refine ⟨⟨?_, fun h => absurd rfl h⟩, rfl⟩
    intro p hp
    rcases List.mem_cons.1 hp with rfl | hp
    · simp
    · exact h1 p hp

theorem flushZero_ok {r : RleState} (h : RleOk r) : RleOk (flushZero r) ∧ (flushZero r).rep = r.rep ∧ (flushZero r).prev = r.prev := by
  obtain ⟨h1, h2⟩ := h
  unfold flushZero
  split
  · exact ⟨⟨h1, h2⟩, rfl, rfl⟩
  split
  · refine ⟨⟨?_, h2⟩, rfl, rfl⟩
    intro p hp
    rcases List.mem_append.1 hp with hp | hp
    · rw [List.eq_of_mem_replicate hp]; simp
    · exact h1 p hp
  split
  · refine ⟨⟨?_, h2⟩, rfl, rfl⟩
    intro p hp
    rcases List.mem_cons.1 hp with rfl | hp
    · simp
    · exact h1 p hp
  · refine ⟨⟨?_, h2⟩, rfl, rfl⟩
    intro p hp
    rcases List.mem_cons.1 hp with rfl | hp
    · simp
    · exact h1 p hp

theorem rleStep_ok {r : RleState} {c : Nat} (h : RleOk r) (hc : c < 16) : RleOk (rleStep r c) := by
  unfold rleStep
  split
  · obtain ⟨⟨a1, a2⟩, a3⟩ := flushRep_ok h
    simp only
    have hb : RleOk { flushRep r with zeros := (flushRep r).zeros + 1 } := ⟨a1, a2⟩
    have hd : RleOk (if (flushRep r).zeros + 1 = 138 then flushZero { flushRep r with zeros := (flushRep r).zeros + 1 }
        else { flushRep r with zeros := (flushRep r).zeros + 1 }) := by
      split
      · exact (flushZero_ok hb).1
      · exact hb
    exact ⟨hd.1, fun _ => hc⟩
  · obtain ⟨⟨a1, a2⟩, a3⟩ := flushZero_ok h
    simp only
    split
    · obtain ⟨⟨b1, b2⟩, b3⟩ := flushRep_ok (r := flushZero r) ⟨a1, a2⟩
      refine ⟨?_, fun _ => hc⟩
      intro p hp
      rcases List.mem_cons.1 hp with rfl | hp
      · simp only; omega
      · exact b1 p hp
    · rename_i hcp
      have hb : RleOk { flushZero r with rep := (flushZero r).rep + 1 } := ⟨a1, fun _ => by simp only; omega⟩
      have hd : RleOk (if (flushZero r).rep + 1 = 6 then flushRep { flushZero r with rep := (flushZero r).rep + 1 }
          else { flushZero r with rep := (flushZero r).rep + 1 }) := by
        split
        · exact (flushRep_ok hb).1
        · exact hb
      exact ⟨hd.1, fun _ => hc⟩

theorem rlePack_sym {seq : List Nat} (h : ∀ c ∈ seq, c < 16) : ∀ p ∈ rlePack seq, p.sym < 19 := by
  have hfold : ∀ (l : List Nat) (r : RleState), (∀ c ∈ l, c < 16) → RleOk r → RleOk (l.foldl rleStep r) := by
    intro l
    induction l with
    | nil => exact fun _ _ hr => hr
    | cons c l ih => exact fun r hl hr => ih _ (fun d hd => hl d (List.mem_cons_of_mem _ hd)) (rleStep_ok hr (hl c (List.mem_cons_self ..)))
  have hr := hfold seq { out := [], zeros := 0, rep := 0, prev := 0xFF } h ⟨by simp, by simp⟩
  intro p hp
  unfold rlePack at hp
  simp only [List.mem_reverse] at hp
  split at hp
  · exact (flushRep_ok hr).1.1 p hp
  · exact (flushZero_ok hr).1.1 p hp

theorem packedFreq_wf {ps : List PackedEntry} (h : ∀ p ∈ ps, p.sym < 19) : (packedFreq ps).wf 19 = true := by
  unfold packedFreq
  have : ∀ (l : List PackedEntry) (m : Mem 16), (∀ p ∈ l, p.sym < 19) → m.wf 19 = true →
      (l.foldl (fun m p => countSymbol m p.sym) m).wf 19 = true := by
    intro l
    induction l with
    | nil => exact fun _ _ hm => hm
    | cons p l ih =>
      exact fun m hl hm => ih _ (fun q hq => hl q (List.mem_cons_of_mem _ hq)) (countSymbol_wf hm (hl p (List.mem_cons_self ..)))
  exact this ps _ h rfl

theorem Mem.entry_lt {w : Nat} (m : Mem w) (i : Nat) : m.entry i < 2 ^ w := by
  unfold Mem.entry; exact BitVec.isLt _

theorem codeLengthSeq_lt (s : State) : ∀ c ∈ codeLengthSeq s, c < 16 := by
  intro c hc
  unfold codeLengthSeq at hc
  rcases List.mem_append.1 hc with hc | hc
  · obtain ⟨i, _, rfl⟩ := List.mem_map.1 hc; exact Mem.entry_lt _ _
  · obtain ⟨i, _, rfl⟩ := List.mem_map.1 hc; exact Mem.entry_lt _ _

theorem MemoriesOk.buildTables {ts : List Token} {s t : State} (h : MemoriesOk s) (ht : buildTables ts s = .ok t) :
    MemoriesOk t := by
  obtain ⟨c, hc, ht⟩ := bind_ok.1 ht
  obtain ⟨s1, h1, ht⟩ := bind_ok.1 ht
  obtain ⟨s2, h2, ht⟩ := bind_ok.1 ht
  obtain ⟨hl, hd⟩ := tallyTokens_wf hc rfl rfl
  have e0 : MemoriesOk (s.setFreqs (countSymbol c.1 256) c.2) := by
    obtain ⟨g1, g2, g3, g4, g5, g6, g7, g⟩ := h
    exact ⟨g1, g2, g3, g4, g5, countSymbol_wf hl (by omega), hd, g⟩
  have e2 := (e0.optimize h1).optimize h2
  have e3 : MemoriesOk (s2.setPacked (rlePack (codeLengthSeq s2)) (packedFreq (rlePack (codeLengthSeq s2)))) := by
    obtain ⟨g1, g2, g3, g4, g5, g6, g7, g8, g⟩ := e2
    exact ⟨g1, g2, g3, g4, g5, g6, g7, packedFreq_wf (rlePack_sym (codeLengthSeq_lt s2)), g⟩
  exact e3.optimize ht

/-! ## The LZ code buffer and the block -/

theorem MemoriesOk.lzReset {s : State} (h : MemoriesOk s) : MemoriesOk (lzReset s) :=
  h.setLzBuf (Mem.set_wf _ _ h.2.2.2.1 (by decide))

theorem MemoriesOk.flushBlock {last : Bool} {s t : State} (h : MemoriesOk s) (ht : flushBlock last s = .ok t) :
    MemoriesOk t := by
  obtain ⟨c, stop, ts, built, fields, sent, hc, hts, hb, hf, hs, rfl⟩ := flushBlock_ok ht
  obtain ⟨hlt, rfl, _⟩ := closeTokenStream_ok hc
  have h0 : MemoriesOk (s.setLzBuf (s.lzBuf.set s.lzFlagsPos.toNat (alignFlags (s.lzByte s.lzFlagsPos.toNat) s.flagsLeft.toNat))) :=
    h.setLzBuf (Mem.set_wf _ _ h.2.2.2.1 hlt)
  exact ((h0.buildTables hb).putFields hs).lzReset

theorem MemoriesOk.appendLz {bs : List Byte} {s t : State} (h : MemoriesOk s) (ht : appendLz bs s = .ok t) :
    MemoriesOk t := by
  obtain ⟨u, hu, ht⟩ := bind_ok.1 ht
  have hu := h.writeLzBytes hu
  rw [← (pure_ok _ _).1 ht]
  exact hu

theorem MemoriesOk.lzAfterRecord {m : Bool} {s t : State} (h : MemoriesOk s) (ht : lzAfterRecord m s = .ok t) :
    MemoriesOk t := by
  obtain ⟨u, hu, ht⟩ := bind_ok.1 ht
  obtain ⟨v, hv, ht⟩ := bind_ok.1 ht
  have h1 : MemoriesOk u := by
    unfold enterFlag at hu
    split at hu
    · cases hu
    · obtain ⟨f, _, hu⟩ := bind_ok.1 hu
      obtain ⟨x, hx, hu⟩ := bind_ok.1 hu
      have hx := h.writeLz hx
      rw [← (pure_ok _ _).1 hu]
      exact hx
  have h2 : MemoriesOk v := by
    unfold rollGroup at hv
    split at hv
    · obtain ⟨x, hx, hv⟩ := bind_ok.1 hv
      have hx := h1.writeLz hx
      rw [← (pure_ok _ _).1 hv]
      exact hx
    · cases hv; exact h1
  split at ht
  · exact h2.flushBlock ht
  · cases ht; exact h2

theorem MemoriesOk.recordLiteral {v : Byte} {s t : State} (h : MemoriesOk s) (ht : recordLiteral v s = .ok t) :
    MemoriesOk t := by
  obtain ⟨u, hu, ht⟩ := bind_ok.1 ht
  exact (h.appendLz hu).lzAfterRecord ht

theorem MemoriesOk.recordMatch {d l : Nat} {s t : State} (h : MemoriesOk s) (ht : recordMatch d l s = .ok t) :
    MemoriesOk t := by
  unfold Machine.recordMatch at ht
  split at ht
  · obtain ⟨u, hu, ht⟩ := bind_ok.1 ht
    exact (h.appendLz hu).lzAfterRecord ht
  · cases ht

/-! ## Parser and dictionary -/

theorem MemoriesOk.advance {adv : Nat} {s t : State} (h : MemoriesOk s) (ht : advance adv s = .ok t) : MemoriesOk t := by
  obtain ⟨_, rfl⟩ := advance_iff.1 ht
  exact h

theorem MemoriesOk.applyMark {m : Option Nat} {s : State} (h : MemoriesOk s) : MemoriesOk (applyMark m s) := by
  cases m with
  | none => exact h
  | some i => exact h.writePrev _ _

theorem MemoriesOk.findMatch {pos : BitVec 15} {a b c d : Nat} {s : State} {r : State × Nat × Nat} (h : MemoriesOk s)
    (ht : findMatch pos a b c d s = .ok r) : MemoriesOk r.1 := by
  unfold Machine.findMatch at ht
  split at ht
  · cases ht; exact h
  split at ht
  · cases ht
  · cases ht; exact h.applyMark

theorem MemoriesOk.idleLiteral {s t : State} (h : MemoriesOk s) (ht : idleLiteral s = .ok t) : MemoriesOk t := by
  obtain ⟨u, hu, ht⟩ := bind_ok.1 ht
  exact (h.recordLiteral hu).advance ht

theorem MemoriesOk.idleCommit {d l : Nat} {s t : State} (h : MemoriesOk s) (ht : idleCommit d l s = .ok t) :
    MemoriesOk t := by
  obtain ⟨u, hu, ht⟩ := bind_ok.1 ht
  exact (h.recordMatch hu).advance ht

theorem MemoriesOk.idleDefer {d l : Nat} {s t : State} (h : MemoriesOk s) (ht : idleDefer d l s = .ok t) :
    MemoriesOk t := by
  obtain ⟨_, rfl⟩ := advance_iff.1 ht
  exact h

theorem MemoriesOk.deferredLongerLong {d l : Nat} {s t : State} (h : MemoriesOk s)
    (ht : deferredLongerLong d l s = .ok t) : MemoriesOk t := by
  obtain ⟨u, hu, ht⟩ := bind_ok.1 ht
  obtain ⟨v, hv, ht⟩ := bind_ok.1 ht
  have hm := (h.recordLiteral hu).recordMatch hv
  obtain ⟨_, rfl⟩ := advance_iff.1 ht
  exact hm

theorem MemoriesOk.deferredLongerShort {d l : Nat} {s t : State} (h : MemoriesOk s)
    (ht : deferredLongerShort d l s = .ok t) : MemoriesOk t := by
  obtain ⟨u, hu, ht⟩ := bind_ok.1 ht
  have hm := h.recordLiteral hu
  obtain ⟨_, rfl⟩ := advance_iff.1 ht
  exact hm

theorem MemoriesOk.deferredCommit {s t : State} (h : MemoriesOk s) (ht : deferredCommit s = .ok t) : MemoriesOk t := by
  obtain ⟨u, hu, ht⟩ := bind_ok.1 ht
  have hm := h.recordMatch hu
  obtain ⟨_, rfl⟩ := advance_iff.1 ht
  exact hm

theorem MemoriesOk.savedMatchFlush {s t : State} (h : MemoriesOk s) (ht : savedMatchFlush s = .ok t) : MemoriesOk t := by
  unfold Machine.savedMatchFlush at ht
  split at ht
  · cases ht; exact h
  · obtain ⟨u, hu, ht⟩ := bind_ok.1 ht
    have hu := h.recordMatch hu
    rw [← (pure_ok _ _).1 ht]
    exact hu

theorem MemoriesOk.parseTransition {d l : Nat} {b : Bool} {s t : State} (h : MemoriesOk s)
    (ht : parseTransition d l b s = .ok t) : MemoriesOk t := by
  unfold Machine.parseTransition at ht
  split at ht
  · split at ht
    · split at ht
      · exact h.idleCommit ht
      · exact h.idleDefer ht
    · exact h.idleLiteral ht
  · split at ht
    · split at ht
      · exact h.deferredLongerLong ht
      · exact h.deferredLongerShort ht
    · exact h.deferredCommit ht

theorem MemoriesOk.parseStep {s t : State} (h : MemoriesOk s) (ht : parseStep s = .ok t) : MemoriesOk t := by
  unfold Machine.parseStep at ht
  split at ht
  · cases ht
  · obtain ⟨r, hr, ht⟩ := bind_ok.1 ht
    exact (h.findMatch hr).parseTransition ht

theorem MemoriesOk.parseAll {k : Nat} {s t : State} (h : MemoriesOk s) (ht : parseAll k s = .ok t) : MemoriesOk t := by
  induction k generalizing s with
  | zero => cases ht; exact h
  | succ k ih =>
    unfold Machine.parseAll at ht
    split at ht
    · cases ht; exact h
    · obtain ⟨u, hu, ht⟩ := bind_ok.1 ht
      exact ih (h.parseStep hu) ht

end Sys2Proof.Machine
end

