-- ==== Sys2Proof/Laws/Decode.lean ====
section
/-! SUPPORT. The data bytes of a `FEED` (spec/30_encoding.md R92). -/

namespace Sys2Proof

/-- Data bytes are read back, and nothing behind them is taken. -/
theorem takeBytes_map (bs : List Byte) (rest : List HostItem) : takeBytes (bs.map .byte ++ rest) bs.length = .ok (bs, rest) := by
  induction bs with
  | nil => simp [takeBytes]
  | cons b bs ih => simp [takeBytes, ih]

/-- What was taken as data bytes is what stood there. -/
theorem takeBytes_inv {items : List HostItem} {n : Nat} {bs : List Byte} {rest : List HostItem} (h : takeBytes items n = .ok (bs, rest)) :
    items = bs.map .byte ++ rest ∧ bs.length = n := by
  induction n generalizing items bs rest with
  | zero => cases items <;> simp [takeBytes] at h <;> obtain ⟨rfl, rfl⟩ := h <;> simp
  | succ n ih =>
    cases items with
    | nil => simp [takeBytes] at h
    | cons x xs =>
      cases x with
      | word w => simp [takeBytes] at h
      | hardwareReset => simp [takeBytes] at h
      | resetDuring k => simp [takeBytes] at h
      | byte b =>
        simp only [takeBytes] at h
        split at h
        · rename_i bs' rest' hh
          simp only [Except.ok.injEq, Prod.mk.injEq] at h
          obtain ⟨rfl, rfl⟩ := h
          obtain ⟨h1, h2⟩ := ih hh
          rw [h1]; simp [h2]
        · cases h

end Sys2Proof
end

