-- ==== Sys2Proof/Laws/Huffman.lean ====
section
/-! SUPPORT. The bit reversal of a code (spec/44_huffman_builder.md R252). -/

namespace Sys2Proof.Machine

/-- The `n`-bit reversal fits `n` bits, and its bit `k` is bit `n - 1 - k` (R252). -/
theorem rev_spec (n c : Nat) : rev c n < 2 ^ n ∧ ∀ k, k < n → (rev c n).testBit k = c.testBit (n - 1 - k) := by
  induction n generalizing c with
  | zero => simp [rev]
  | succ n ih =>
    obtain ⟨h1, h2⟩ := ih (c / 2)
    have hm := Nat.mod_two_eq_zero_or_one c
    constructor
    · simp only [rev, Nat.shiftLeft_eq, Nat.pow_succ]; rcases hm with h | h <;> rw [h] <;> omega
    · intro k hk
      simp only [rev]
      rw [Nat.shiftLeft_add_eq_or_of_lt h1, Nat.testBit_or, Nat.testBit_shiftLeft]
      by_cases hkn : k = n
      · subst hkn
        rw [Nat.testBit_lt_two_pow h1]
        simp
      · rw [h2 k (by omega)]
        have : ¬ k ≥ n := by omega
        simp only [this, decide_false, Bool.false_and, Bool.false_or]
        rw [show n + 1 - 1 - k = (n - 1 - k) + 1 by omega, Nat.testBit_succ]

end Sys2Proof.Machine
end

