-- ==== Sys2Proof/Laws/Session.lean ====
section
/-! SUPPORT. What taking a byte, feeding, opening and finishing change and keep (spec/41_dictionary_hash.md,
spec/46_session.md). -/

namespace Sys2Proof.Machine

/-! ## One byte -/

theorem adlerUpdate_only (b : Byte) (s : State) : adlerUpdate b s = { s with adler := (adlerUpdate b s).adler } := rfl

/-- Both halves stay reduced (R23, R318). -/
theorem adlerUpdate_adlerOk (b : Byte) (s : State) : AdlerOk (adlerUpdate b s) := by
  have h1 : adlerLow s.adler b < 65521 := Nat.mod_lt _ (by decide)
  have h2 : adlerHigh s.adler b < 65521 := Nat.mod_lt _ (by decide)
  unfold AdlerOk adlerUpdate
  simp only [State.setAdler_adler, Config.ADLER_MOD]
  rw [BitVec.extractLsb'_append_eq_of_add_le (by omega), BitVec.extractLsb'_append_eq_of_le (by omega)]
  have h3 : (16 : Nat) - 16 = 0 := rfl
  simp only [h3, BitVec.extractLsb'_eq_self, BitVec.toNat_ofNat]
  omega

/-- Reading `dict` after the stores of one byte (R162). -/
theorem dictByte_storeDictByte (q : Nat) (b : Byte) (s : State) (j : Nat) :
    (storeDictByte q b s).dictByte j = if j = q ∨ (q < Config.L - 1 ∧ j = q + Config.W) then b else s.dictByte j := by
  unfold storeDictByte
  split
  · rename_i hq
    simp only [State.writeDict, State.dictByte, State.setDict_dict, State.setDict_resets, Mem.get?_set, hq, true_and]
    by_cases h1 : j = q
    · subst h1; rw [if_neg (by simp [Config.W]), if_pos rfl, if_pos (.inl rfl)]; rfl
    · by_cases h2 : j = q + Config.W
      · rw [if_pos h2.symm, if_pos (.inr h2)]; rfl
      · rw [if_neg (Ne.symm h2), if_neg (Ne.symm h1), if_neg (by tauto)]
  · rename_i hq
    simp only [State.writeDict, State.dictByte, State.setDict_dict, State.setDict_resets, Mem.get?_set]
    by_cases h1 : j = q
    · subst h1; rw [if_pos rfl, if_pos (.inl rfl)]; rfl
    · rw [if_neg (Ne.symm h1), if_neg (by tauto)]

theorem storeDictByte_only (q : Nat) (b : Byte) (s : State) :
    storeDictByte q b s = { s with dict := (storeDictByte q b s).dict } := by
  unfold storeDictByte; split <;> rfl

theorem insertPosition_only (i : Nat) (s : State) :
    insertPosition i s = { s with head := (insertPosition i s).head, prev := (insertPosition i s).prev } := rfl

/-- Reading the chains after an insertion (R164). -/
theorem insertPosition_reads (i : Nat) (s : State) (hi : i < Config.W) (j : Nat) :
    ((insertPosition i s).prevEntry j = if j = i then s.headEntry (tripletHash s i).toNat else s.prevEntry j) ∧
      ((insertPosition i s).headEntry j = if j = (tripletHash s i).toNat then BitVec.ofNat 16 i else s.headEntry j) := by
  have hn : (BitVec.ofNat 15 i).toNat = i := by
    rw [BitVec.toNat_ofNat, Nat.mod_eq_of_lt]; simpa [Config.W] using hi
  constructor
  · simp only [insertPosition, State.writePrev, State.writeHead, State.prevEntry, State.setHead_prev, State.setHead_resets,
      State.setPrev_prev, State.setPrev_resets, Mem.get?_set, hn]
    by_cases h : j = i
    · rw [if_pos h.symm, if_pos h]; rfl
    · rw [if_neg (Ne.symm h), if_neg h]
  · simp only [insertPosition, State.writePrev, State.writeHead, State.headEntry, State.setHead_head, State.setHead_resets,
      State.setPrev_head, State.setPrev_resets, Mem.get?_set]
    by_cases h : j = (tripletHash s i).toNat
    · rw [if_pos h.symm, if_pos h]; rfl
    · rw [if_neg (Ne.symm h), if_neg h]

theorem feedSlot_lt (s : State) : feedSlot s < Config.W := Nat.mod_lt _ (by decide)

theorem tripletPos_lt (q : Nat) : tripletPos q < Config.W := Nat.mod_lt _ (by decide)

/-- `FEED_BYTE` up to the parse trigger (R160). -/
theorem takeByte_spec (b : Byte) (s : State) (h : s.lookaheadSize.toNat ≤ Config.L - 1) : ByteTaken b s (takeByte b s) := by
  obtain ⟨s2, hs2⟩ : ∃ s2, s2 = (storeDictByte (feedSlot s) b (adlerUpdate b s)).setCursors s.lookaheadPos
      (s.lookaheadSize + 1#9) s.dictSize := ⟨_, rfl⟩
  have hsize : (s.lookaheadSize + 1#9).toNat = s.lookaheadSize.toNat + 1 := by
    rw [BitVec.toNat_add]; simp only [Config.L] at h; simp; omega
  have hst := storeDictByte_only (feedSlot s) b (adlerUpdate b s)
  have hrun : takeByte b s = if Config.M ≤ s2.dictSize.toNat + s2.lookaheadSize.toNat then
      insertPosition (tripletPos (feedSlot s)) s2 else s2 := by
    unfold takeByte
    simp only
    rw [hs2]
    have e1 : (storeDictByte (feedSlot s) b (adlerUpdate b s)).lookaheadPos = s.lookaheadPos := by rw [hst]; rfl
    have e2 : (storeDictByte (feedSlot s) b (adlerUpdate b s)).lookaheadSize = s.lookaheadSize := by rw [hst]; rfl
    have e3 : (storeDictByte (feedSlot s) b (adlerUpdate b s)).dictSize = s.dictSize := by rw [hst]; rfl
    rw [e1, e2, e3]
  have honly : s2 = { s with adler := (adlerUpdate b s).adler, lookaheadSize := s.lookaheadSize + 1#9, dict := s2.dict } := by
    rw [hs2, hst]; rfl
  have hsz : s2.lookaheadSize = s.lookaheadSize + 1#9 := by rw [honly]
  have hds : s2.dictSize = s.dictSize := by rw [honly]
  have hdict : ∀ j, s2.dictByte j = if j = feedSlot s ∨ (feedSlot s < Config.L - 1 ∧ j = feedSlot s + Config.W) then b
      else s.dictByte j := by
    intro j
    rw [hs2]
    exact dictByte_storeDictByte (feedSlot s) b (adlerUpdate b s) j
  have hhead : ∀ j, s2.headEntry j = s.headEntry j := by intro j; rw [honly]; rfl
  have hprev : ∀ j, s2.prevEntry j = s.prevEntry j := by intro j; rw [honly]; rfl
  rw [hsz, hds, hsize, ← Nat.add_assoc] at hrun
  unfold ByteTaken
  simp only
  by_cases hm : Config.M ≤ s.dictSize.toNat + s.lookaheadSize.toNat + 1
  · rw [if_pos hm] at hrun
    obtain ⟨t, ht⟩ : ∃ t, t = insertPosition (tripletPos (feedSlot s)) s2 := ⟨_, rfl⟩
    have hto : t = { s2 with head := t.head, prev := t.prev } := by rw [ht]; exact insertPosition_only _ _
    have htd : ∀ j, t.dictByte j = s2.dictByte j := by intro j; rw [hto]; rfl
    have hr := insertPosition_reads (tripletPos (feedSlot s)) s2 (tripletPos_lt _)
    rw [← ht] at hr hrun
    rw [hrun, if_pos hm]
    refine ⟨?_, ?_, ?_, ?_, ?_, ?_⟩
    · rw [hto, honly]
    · rw [hto, honly]
    · rw [hto]; simp only; rw [hsz]; exact hsize
    · intro j; rw [htd, hdict]; rfl
    · intro j
      rw [(hr j).1, hhead]
      simp only [htd, hprev]; rfl
    · intro j
      rw [(hr j).2]
      simp only [htd, hhead]; rfl
  · rw [if_neg hm] at hrun
    rw [hrun, if_neg hm]
    refine ⟨?_, ?_, ?_, ?_, hprev, hhead⟩
    · rw [honly]
    · rw [honly]
    · rw [hsz]; exact hsize
    · intro j; rw [hdict]; rfl

/-- `t` differs from `s` at most in what one `FEED` writes (R160, R315). -/
def OnlyFeedChanged (s t : State) : Prop :=
  ∃ u : State, u = { s with adler := u.adler, dict := u.dict, head := u.head } ∧ OnlyStepChanged u t

theorem OnlyFeedChanged.refl (s : State) : OnlyFeedChanged s s := ⟨s, by cases s; rfl, .refl s⟩

theorem OnlyFeedChanged.trans {s t u : State} (h : OnlyFeedChanged s t) (k : OnlyFeedChanged t u) :
    OnlyFeedChanged s u := by
  obtain ⟨x, hx, hxt⟩ := h
  obtain ⟨y, hy, hyu⟩ := k
  refine ⟨{ s with adler := y.adler, dict := y.dict, head := y.head }, rfl, ?_⟩
  unfold OnlyStepChanged at *
  rw [hyu, hy, hxt, hx]

theorem OnlyStepChanged.feed {s t : State} (h : OnlyStepChanged s t) : OnlyFeedChanged s t := ⟨s, by cases s; rfl, h⟩

theorem OnlyFeedChanged.settings {s t : State} (h : OnlyFeedChanged s t) :
    SameSettings s t ∧ t.closed = s.closed ∧ t.returns = s.returns := by
  obtain ⟨u, hu, ht⟩ := h
  rw [ht, hu]
  exact ⟨⟨rfl, rfl, rfl, rfl, rfl, rfl, rfl, rfl, rfl⟩, rfl, rfl⟩

theorem OnlyStepChanged.settings {s t : State} (h : OnlyStepChanged s t) :
    SameSettings s t ∧ t.closed = s.closed ∧ t.returns = s.returns ∧ t.adler = s.adler ∧ t.dict = s.dict ∧ t.head = s.head := by
  rw [h]
  exact ⟨⟨rfl, rfl, rfl, rfl, rfl, rfl, rfl, rfl, rfl⟩, rfl, rfl, rfl, rfl, rfl⟩

/-- What taking a byte leaves alone. -/
theorem takeByte_fields (b : Byte) (s : State) :
    OnlyFeedChanged s (takeByte b s) ∧ (takeByte b s).lookaheadSize = s.lookaheadSize + 1#9 ∧
      (takeByte b s).lookaheadPos = s.lookaheadPos ∧ (takeByte b s).dictSize = s.dictSize ∧
      (takeByte b s).adler = (adlerUpdate b s).adler ∧
      (takeByte b s).savedMatchDist = s.savedMatchDist ∧ (takeByte b s).savedMatchLen = s.savedMatchLen ∧
      (LzOk s → LzOk (takeByte b s)) ∧ (BitsOk s → BitsOk (takeByte b s)) ∧
      (takeByte b s).sinkLog = s.sinkLog ∧ (takeByte b s).failed = s.failed ∧ (takeByte b s).lzPos = s.lzPos := by
  have hst := storeDictByte_only (feedSlot s) b (adlerUpdate b s)
  have e1 : (storeDictByte (feedSlot s) b (adlerUpdate b s)).lookaheadPos = s.lookaheadPos := by rw [hst]; rfl
  have e2 : (storeDictByte (feedSlot s) b (adlerUpdate b s)).lookaheadSize = s.lookaheadSize := by rw [hst]; rfl
  have e3 : (storeDictByte (feedSlot s) b (adlerUpdate b s)).dictSize = s.dictSize := by rw [hst]; rfl
  have key : ∃ t : State, takeByte b s = t ∧ t = { s with
      adler := (adlerUpdate b s).adler
      lookaheadSize := s.lookaheadSize + 1#9
      dict := t.dict
      head := t.head
      prev := t.prev } := by
    refine ⟨_, rfl, ?_⟩
    unfold takeByte
    simp only [e1, e2, e3]
    split
    · rw [insertPosition_only, hst]; rfl
    · rw [hst]; rfl
  obtain ⟨t, ht, hto⟩ := key
  rw [ht]
  refine ⟨⟨{ s with adler := t.adler, dict := t.dict, head := t.head }, rfl, ?_⟩, ?_⟩
  · unfold OnlyStepChanged; rw [hto]
  · rw [hto]
    exact ⟨rfl, rfl, rfl, rfl, rfl, rfl, id, id, rfl, rfl, rfl⟩

/-- What R38 says of a session, apart from the sequencer and the probe budget, which no input byte touches. -/
def CursorsOk (s : State) : Prop := AdlerOk s ∧ ParserOk s ∧ LzOk s ∧ BitsOk s

/-- One byte of input keeps what R38 says. -/
theorem feedByte_keeps {b : Byte} {s t : State} (h : feedByte b s = .ok t) (hs : CursorsOk s) :
    OnlyFeedChanged s t ∧ t.adler = (adlerUpdate b s).adler ∧ CursorsOk t ∧
      t.lookaheadSize.toNat ≤ s.lookaheadSize.toNat + 1 := by
  obtain ⟨ha, ⟨hp1, hp2, hp3⟩, hl, hb⟩ := hs
  obtain ⟨k1, k2, k3, k4, k5, k6, k7, k8, k9, _⟩ := takeByte_fields b s
  have hsize : (takeByte b s).lookaheadSize.toNat = s.lookaheadSize.toNat + 1 := by
    rw [k2, BitVec.toNat_add]; simp only [Config.L] at hp1; simp; omega
  unfold feedByte at h
  split at h
  · cases h
  simp only at h
  split at h
  · rename_i hfull
    have hsaved : SavedOk (takeByte b s).lookaheadSize.toNat (takeByte b s).savedMatchDist.toNat
        (takeByte b s).savedMatchLen.toNat := by
      rw [k6, k7, hsize]
      rcases hp3 with h | ⟨h1, h2, h3, h4, h5, h6⟩
      · exact .inl (by rw [h]; rfl)
      · exact .inr ⟨h1, h2, h3, h4, by omega, by omega⟩
    obtain ⟨⟨o1, ⟨adv, o2, o3, o4, o5, o6⟩, o7, o8⟩, o9⟩ := parseStep_keeps h (by omega) (by rw [k4]; exact hp2) hsaved
    have had : t.adler = (adlerUpdate b s).adler := by rw [o1.settings.2.2.2.1, k5]
    refine ⟨k1.trans o1.feed, had, ⟨?_, ⟨?_, ?_, ?_⟩, o7 (k8 hl), o8 (k8 hl) (k9 hb)⟩, by omega⟩
    · have := adlerUpdate_adlerOk b s
      unfold AdlerOk at *; rw [had]; exact this
    · simp only [Config.L] at *; omega
    · simp only [Config.W] at *; omega
    · rcases o9 with h | h
      · exact .inl (BitVec.eq_of_toNat_eq (by simpa using h))
      · exact .inr h
  · cases h
    refine ⟨k1, k5, ⟨?_, ⟨?_, ?_, ?_⟩, k8 hl, k9 hb⟩, by omega⟩
    · have := adlerUpdate_adlerOk b s
      unfold AdlerOk at *; rw [k5]; exact this
    · simp only [Config.L] at *; omega
    · rw [k4]; exact hp2
    · rw [k6, k7, hsize]
      rcases hp3 with h | ⟨h1, h2, h3, h4, h5, h6⟩
      · exact .inl h
      · exact .inr ⟨h1, h2, h3, h4, by omega, by omega⟩

theorem feedBytes_keeps {data : List Byte} {s t : State} (h : feedBytes data s = .ok t) (hs : CursorsOk s) :
    OnlyFeedChanged s t ∧ CursorsOk t := by
  induction data generalizing s with
  | nil => cases h; exact ⟨.refl _, hs⟩
  | cons b bs ih =>
    obtain ⟨u, hu, h⟩ := bind_ok.1 h
    obtain ⟨h1, _, h2, _⟩ := feedByte_keeps hu hs
    obtain ⟨h3, h4⟩ := ih h h2
    exact ⟨h1.trans h3, h4⟩

/-! ## The terminal flush -/

theorem parseAll_keeps {k : Nat} {s t : State} (h : parseAll k s = .ok t) (hs : CursorsOk s)
    (hk : s.lookaheadSize.toNat ≤ k) : OnlyStepChanged s t ∧ CursorsOk t ∧ t.lookaheadSize = 0#9 := by
  induction k generalizing s with
  | zero => cases h; exact ⟨.refl _, hs, BitVec.eq_of_toNat_eq (by simp; omega)⟩
  | succ k ih =>
    unfold parseAll at h
    split at h
    · cases h; exact ⟨.refl _, hs, ‹_›⟩
    · obtain ⟨u, hu, h⟩ := bind_ok.1 h
      obtain ⟨ha, ⟨hp1, hp2, hp3⟩, hl, hb⟩ := hs
      have hsaved : SavedOk s.lookaheadSize.toNat s.savedMatchDist.toNat s.savedMatchLen.toNat := by
        rcases hp3 with h | h
        · exact .inl (by rw [h]; rfl)
        · exact .inr h
      obtain ⟨⟨o1, ⟨adv, o2, o3, o4, o5, o6⟩, o7, o8⟩, o9⟩ :=
        parseStep_keeps hu (by simp only [Config.L] at *; omega) hp2 hsaved
      have hu' : CursorsOk u := by
        refine ⟨?_, ⟨?_, ?_, ?_⟩, o7 hl, o8 hl hb⟩
        · unfold AdlerOk at *; rw [o1.settings.2.2.2.1]; exact ha
        · omega
        · simp only [Config.W] at *; omega
        · rcases o9 with h | h
          · exact .inl (BitVec.eq_of_toNat_eq (by simpa using h))
          · exact .inr h
      obtain ⟨h1, h2, h3⟩ := ih h hu' (by omega)
      exact ⟨o1.trans h1, h2, h3⟩

theorem savedMatchFlush_only {s t : State} (h : savedMatchFlush s = .ok t) : OnlyStepChanged s t := by
  unfold savedMatchFlush at h
  split at h
  · cases h; exact .refl _
  · obtain ⟨u, hu, h⟩ := bind_ok.1 h
    rw [← (pure_ok _ _).1 h]
    exact (recordMatch_only hu).step.trans (.setSaved _ _ _ _)

/-- With the lookahead empty no match is saved between operations, so the flush of R211 is dead. -/
theorem savedMatchFlush_dead {s : State} (hp : ParserOk s) (hz : s.lookaheadSize = 0#9) : savedMatchFlush s = .ok s := by
  obtain ⟨_, _, h | ⟨_, _, _, _, h, _⟩⟩ := hp
  · rw [savedMatchFlush, if_pos h]
  · rw [hz] at h; simp at h

/-- `FINISH` taken apart (R316). -/
theorem finishSession_ok {s t : State} (h : finishSession s = .ok t) :
    ∃ parsed flushed emitted aligned trailed drained, parseAll s.lookaheadSize.toNat s = .ok parsed ∧
      savedMatchFlush parsed = .ok flushed ∧ flushBlock true flushed = .ok emitted ∧ align emitted = .ok aligned ∧
      putFields (zlibTrailerFields aligned) aligned = .ok trailed ∧ drain trailed = .ok drained ∧
      t = drained.setClosed true := by
  obtain ⟨a, ha, h⟩ := bind_ok.1 h
  obtain ⟨b, hb, h⟩ := bind_ok.1 h
  obtain ⟨c, hc, h⟩ := bind_ok.1 h
  obtain ⟨d, hd, h⟩ := bind_ok.1 h
  obtain ⟨e, he, h⟩ := bind_ok.1 h
  obtain ⟨f, hf, h⟩ := bind_ok.1 h
  exact ⟨a, b, c, d, e, f, ha, hb, hc, hd, he, hf, ((pure_ok _ _).1 h).symm⟩

/-- What `FINISH` keeps (R38, R316). -/
theorem finishSession_keeps {s t : State} (h : finishSession s = .ok t) (hs : CursorsOk s) :
    (∃ u, OnlyStepChanged s u ∧ t = u.setClosed true) ∧ CursorsOk t := by
  obtain ⟨a, b, c, d, e, f, ha, hb, hc, hd, he, hf, rfl⟩ := finishSession_ok h
  obtain ⟨o1, ⟨ka, kp, kl, kb⟩, hz⟩ := parseAll_keeps ha hs (Nat.le_refl _)
  rw [savedMatchFlush_dead kp hz] at hb
  cases hb
  have o2 := flushBlock_only hc
  have kl2 := flushBlock_lzOk hc
  have kb2 := drain_bitsOk hf (putFields_bitsOk he (align_bitsOk hd (flushBlock_bitsOk hc kb)))
  have osink := ((align_only hd).trans (putFields_only he)).trans (drain_only hf)
  refine ⟨⟨f, (o1.trans o2.step).trans osink.block.step, rfl⟩, ?_, ?_, ?_, kb2⟩
  · have : f.adler = a.adler := by rw [(o2.trans osink.block).step.settings.2.2.2.1]
    unfold AdlerOk at *; rw [State.setClosed_adler, this]; exact ka
  · have hcur := (o2.trans osink.block).cursors
    have hsav := (o2.trans osink.block).saved
    unfold ParserOk at *
    rw [State.setClosed_lookaheadSize, State.setClosed_dictSize, State.setClosed_savedMatchLen,
      State.setClosed_savedMatchDist, hcur.2.1, hcur.2.2, hsav.2.1, hsav.2.2]
    exact kp
  · have : LzOk f := by rw [osink]; exact kl2
    exact this

/-! ## Opening a session -/

/-- The registers of a fresh session (R310, R312). -/
theorem clearSession_eq (s : State) : clearSession s = { s with
      lookaheadPos := 0#15
      lookaheadSize := 0#9
      dictSize := 0#16
      lzBuf := s.lzBuf.set 0 0#8
      lzPos := 1#16
      lzFlagsPos := 0#15
      flagsLeft := 8#4
      adler := 1#32
      savedLit := 0#8
      savedMatchDist := 0#16
      savedMatchLen := 0#9
      bitBuffer := 0#24
      bitsIn := 0#5
      outPos := 0#13
      failed := false
      closed := false } := by
  simp only [clearSession, Machine.lzReset, State.setCursors, State.setLzBuf, State.setLzCursors, State.setAdler,
    State.setSaved, State.setBits, State.setOut, State.setFailed, State.setClosed]

/-- The registers the flags word sets (R95, R310, R311). -/
theorem takeFlags_eq (flags : BitVec 16) (s : State) : takeFlags flags s = { s with
      maxProbes := probeBudget s.params.probeMap (flags.extractLsb' 0 12)
      zlib := flags.getLsbD 12
      greedy := flags.getLsbD 14
      nondet := flags.getLsbD 15
      head := if flags.getLsbD 15 then s.head else Mem.filled Config.SENTINEL } := by
  unfold takeFlags takeNondet
  cases flags.getLsbD 15 <;> rfl

theorem clearSession_cursorsOk (s : State) : CursorsOk (clearSession s) := by
  rw [clearSession_eq]
  unfold CursorsOk AdlerOk ParserOk LzOk BitsOk
  simp [Config.ADLER_MOD, Config.W, Config.L, Config.LZ_SIZE, Config.OUT_SIZE]

/-! ## The canonical form -/

theorem MemoriesOk.takeByte {b : Byte} {s : State} (h : MemoriesOk s) : MemoriesOk (takeByte b s) := by
  have h1 : MemoriesOk (storeDictByte (feedSlot s) b (adlerUpdate b s)) := by
    have h0 : MemoriesOk (adlerUpdate b s) := h
    have hq := feedSlot_lt s
    simp only [Config.W] at hq
    unfold storeDictByte
    split
    · rename_i hlt
      simp only [Config.L] at hlt
      exact (h0.writeDict _ _ (by simp only [Config.DICT_LEN]; omega)).writeDict _ _
        (by simp only [Config.DICT_LEN, Config.W]; omega)
    · exact h0.writeDict _ _ (by simp only [Config.DICT_LEN]; omega)
  unfold Machine.takeByte
  simp only
  split
  · exact MemoriesOk.writeHead (MemoriesOk.writePrev (s := State.setCursors _ _ _ _) h1 _ _) _ _
  · exact h1

theorem MemoriesOk.feedByte {b : Byte} {s t : State} (h : MemoriesOk s) (ht : feedByte b s = .ok t) : MemoriesOk t := by
  unfold Machine.feedByte at ht
  split at ht
  · cases ht
  simp only at ht
  split at ht
  · exact h.takeByte.parseStep ht
  · cases ht; exact h.takeByte

theorem MemoriesOk.feedBytes {data : List Byte} {s t : State} (h : MemoriesOk s) (ht : feedBytes data s = .ok t) :
    MemoriesOk t := by
  induction data generalizing s with
  | nil => cases ht; exact h
  | cons b bs ih =>
    obtain ⟨u, hu, ht⟩ := bind_ok.1 ht
    exact ih (h.feedByte hu) ht

theorem MemoriesOk.takeFlags {flags : BitVec 16} {s : State} (h : MemoriesOk s) : MemoriesOk (takeFlags flags s) := by
  unfold Machine.takeFlags takeNondet
  split
  · exact h
  · exact MemoriesOk.setHead (s := State.setNondet _ _) h rfl

theorem MemoriesOk.clearSession {s : State} (h : MemoriesOk s) : MemoriesOk (clearSession s) := by
  have h0 : MemoriesOk (s.setCursors 0#15 0#9 0#16) := h
  have h1 := h0.lzReset
  unfold MemoriesOk at h1 ⊢
  unfold Machine.clearSession
  simp
  obtain ⟨a, b, c, d, _, f⟩ := h1
  exact ⟨a, b, c, d, h.2.2.2.2.1, f⟩

theorem MemoriesOk.initSession {flags : BitVec 16} {s t : State} (h : MemoriesOk s) (ht : initSession flags s = .ok t) :
    MemoriesOk t := (h.takeFlags (flags := flags)).clearSession.putFields ht

theorem MemoriesOk.finishSession {s t : State} (h : MemoriesOk s) (ht : finishSession s = .ok t) : MemoriesOk t := by
  obtain ⟨a, b, c, d, e, f, ha, hb, hc, hd, he, hf, rfl⟩ := finishSession_ok ht
  have hm := (((((h.parseAll ha).savedMatchFlush hb).flushBlock hc).align hd).putFields he).drain hf
  exact hm

end Sys2Proof.Machine
end

