-- ==== Sys2Proof/Laws/Step.lean ====
section
/-! SUPPORT. What one step can do, and what one host command can do (spec/46_session.md R310, R314;
spec/70_reset_and_hazards.md R370, R371). -/

namespace Sys2Proof.Machine

/-- A command is fetched exactly where the decoder reads one (R12, R92). -/
theorem fetch_command {items rest : List HostItem} {i : Instr} :
    fetch items = .command i rest ↔ decodeHost items = .ok (i, rest) := by
  have struck : ∀ k f, struckBy k f ≠ .command i rest := by intro k f; cases f <;> simp [struckBy]
  cases items with
  | nil => simp [fetch, fetchCommand, decodeHost]
  | cons x items =>
    cases x with
    | hardwareReset => simp [fetch, decodeHost]
    | resetDuring k => simp [fetch, decodeHost, struck]
    | byte b => simp [fetch, fetchCommand, decodeHost, findResetInside]
    | word w =>
      simp only [fetch, fetchCommand]
      split
      · rename_i j r h; rw [h]; simp
      all_goals rename_i h; rw [h]
      all_goals first
        | simp; done
        | (split <;> simp)

/-- A hardware reset inside a command ends in the state of hardware reset (R371). -/
theorem resetDuringCommand_ok {puts : Option Nat} {data : List Byte} {s t : State}
    (h : resetDuringCommand puts data s = .ok t) : ∃ u, t = hardwareReset u := by
  unfold resetDuringCommand at h
  split at h
  · cases h; exact ⟨_, rfl⟩
  · obtain ⟨u, hu, h⟩ := bind_ok.1 h
    exact ⟨_, ((pure_ok _ _).1 h).symm⟩

/-- A command that a hardware reset strikes ends in the state of hardware reset (R371). -/
theorem strike_next {puts : Nat} {s t : State} {o : Host.Outcome State Fault Refusal} (h : strike puts s o = .next t) :
    ∃ u, o = .next u ∧ t = resetInside (some puts) s u := by
  cases o with
  | next u => cases h; exact ⟨u, rfl, rfl⟩
  | fault f => cases h
  | refused r => cases h

/-- Everything a step can be (R12, R355, R370, R371; log 4, log 5). -/
theorem step_cases {s t : State} (h : step s = .next t) :
    (∃ i rest, s.sequencer = i :: rest ∧ exec i (s.setSequencer rest) = .next t) ∨
    (s.sequencer = [] ∧ (t = s ∨ (∃ i rest, decodeHost s.hostIn = .ok (i, rest) ∧ exec i (s.setHostIn rest) = .next t) ∨
      ∃ u, t = hardwareReset u)) := by
  unfold step at h
  split at h
  · rename_i i rest hs
    exact .inl ⟨i, rest, hs, h⟩
  · rename_i hs
    refine .inr ⟨hs, ?_⟩
    split at h
    · cases h; exact .inl rfl
    · rename_i i rest hf
      exact .inr (.inl ⟨i, rest, fetch_command.1 hf, h⟩)
    · cases h; exact .inr (.inr ⟨_, rfl⟩)
    · obtain ⟨u, _, rfl⟩ := strike_next h
      exact .inr (.inr ⟨_, rfl⟩)
    · exact .inr (.inr (resetDuringCommand_ok (by simpa using h)))
    · cases h

/-- A host command is an `INIT`, a form of `COMPRESS_DATA`, or a reserved word, which only answers (R93, R94). -/
theorem decodeHost_shape {items rest : List HostItem} {i : Instr} (h : decodeHost items = .ok (i, rest)) :
    (∃ p f, i = .init p f) ∨ isCompressData i ∨ ∀ s, exec i s = .next (s.reply false) := by
  unfold decodeHost at h
  split at h
  · cases h
  · cases h
  · cases h
  · cases h
  · rename_i w items
    split at h
    · rename_i j hj
      cases h
      unfold decodeWord at hj
      split at hj
      · cases hj; exact .inr (.inr fun _ => rfl)
      split at hj
      · cases hj; exact .inr (.inr fun _ => rfl)
      split at hj
      · cases hj; exact .inr (.inr fun _ => rfl)
      split at hj
      · cases hj; exact .inr (.inr fun _ => rfl)
      split at hj
      · split at hj
        · cases hj; exact .inr (.inr fun _ => rfl)
        · cases hj
      · cases hj; exact .inl ⟨_, _, rfl⟩
    · rename_i p _
      right; left
      unfold decodeCompressData at h
      split at h
      · cases h
      · cases h
      · cases h
      · cases h
      · split at h
        · split at h
          · cases h; exact .inl ⟨_, rfl⟩
          · cases h
        · split at h
          · cases h; exact .inr (.inl rfl)
          · cases h; exact .inr (.inr ⟨_, rfl⟩)

/-- `INIT` with a sink taken apart (R310). -/
theorem execInit_ok {flags : BitVec 16} {s t : State} (h : exec (.init true flags) s = .next t) :
    ∃ u, initSession flags s = .ok u ∧ t = u.reply true := by
  have h' : (initSession flags s >>= fun t => pure (t.reply true)) = .ok t := by
    simpa [exec, execInit] using h
  obtain ⟨u, hu, h⟩ := bind_ok.1 h'
  exact ⟨u, hu, ((pure_ok _ _).1 h).symm⟩

/-- A `COMPRESS_DATA` is turned away, or feeds, or finishes, or latches `failed` (R314). -/
theorem compressData_ok {i : Instr} {s t : State} (hi : isCompressData i) (h : exec i s = .next t) :
    t = s.reply false ∨ (∃ data, i = .feed data ∧ OpenSession s ∧ ∃ u, feedBytes data s = .ok u ∧ t = replyHealth u) ∨
    (i = .finish ∧ OpenSession s ∧ ∃ u, finishSession s = .ok u ∧ t = replyHealth u) ∨ (OpenSession s ∧ t = (s.setFailed true).reply false) := by
  by_cases ho : OpenSession s
  · have hg : sessionGate s = none := by simp [sessionGate, ho.1, ho.2]
    rcases hi with ⟨d, rfl⟩ | rfl | ⟨l, rfl⟩
    · right; left
      have h' : (feedBytes d s >>= fun t => pure (replyHealth t)) = .ok t := by
        simpa [exec, execFeed, hg] using h
      obtain ⟨u, hu, h⟩ := bind_ok.1 h'
      exact ⟨d, rfl, ho, u, hu, ((pure_ok _ _).1 h).symm⟩
    · right; right; left
      have h' : (finishSession s >>= fun t => pure (replyHealth t)) = .ok t := by
        simpa [exec, execFinish, hg] using h
      obtain ⟨u, hu, h⟩ := bind_ok.1 h'
      exact ⟨rfl, ho, u, hu, ((pure_ok _ _).1 h).symm⟩
    · right; right; right
      simp only [exec, execBadarg, hg] at h
      cases h; exact ⟨ho, rfl⟩
  · left
    have hg : sessionGate s = some .sessionClosed ∨ sessionGate s = some .sessionFailed := by
      unfold sessionGate OpenSession at *
      cases h1 : s.closed <;> cases h2 : s.failed <;> simp_all
    rcases hi with ⟨d, rfl⟩ | rfl | ⟨l, rfl⟩ <;> rcases hg with hg | hg <;>
      simp only [exec, execFeed, execFinish, execBadarg, hg] at h <;> cases h <;> rfl

end Sys2Proof.Machine
end

