-- ==== Sys2Proof/Tests/Slice0.lean ====
section
/-! SUPPORT. Tests: ill-formed terms, words written out from spec/30_encoding.md, results that spec/ states
(95_test_vectors.md and the example rules of the section files), and for every obligation with hypotheses a state and
operands that meet them. -/

namespace Sys2Proof.Tests

open Sys2Proof.Machine

set_option Elab.async false

/-! ## Well-formedness: one ill-formed term for each check -/

theorem test_wf_refuses_badarg_0 : (Instr.badarg 0#32).wf = false := by decide
theorem test_wf_refuses_reservedHigh_0 : (Instr.reservedHigh true false 0#16 0#12).wf = false := by decide
theorem test_wf_refuses_reservedCdFlags_0 : (Instr.reservedCdFlags true 0#16).wf = false := by decide
theorem test_wf_refuses_put_0 : (Instr.sinkPut 0#13).wf = false := by decide
theorem test_wf_refuses_put_4097 : (Instr.sinkPut 4097#13).wf = false := by decide
theorem test_wf_refuses_putBits_17 : (Instr.putBits 0 17).wf = false := by decide
theorem test_wf_refuses_putBits_value : (Instr.putBits 8 3).wf = false := by decide
theorem test_wf_refuses_findMatch_len_0 : (Instr.findMatch 0#15 1#16 0#9 0#16 2#9).wf = false := by decide
theorem test_wf_refuses_findMatch_len_259 : (Instr.findMatch 0#15 1#16 259#9 0#16 2#9).wf = false := by decide
theorem test_wf_refuses_findMatch_floor_1 : (Instr.findMatch 0#15 1#16 9#9 0#16 1#9).wf = false := by decide
theorem test_wf_refuses_findMatch_dist : (Instr.findMatch 0#15 32769#16 9#9 0#16 2#9).wf = false := by decide
theorem test_wf_refuses_commit_len_2 : (Instr.idleCommit 1#16 2#9).wf = false := by decide
theorem test_wf_refuses_commit_dist_0 : (Instr.idleCommit 0#16 3#9).wf = false := by decide
theorem test_wf_refuses_defer_64 : (Instr.idleDefer 1#16 64#9).wf = false := by decide
theorem test_wf_refuses_longerLong_63 : (Instr.deferredLongerLong 1#16 63#9).wf = false := by decide
theorem test_wf_refuses_longerShort_64 : (Instr.deferredLongerShort 1#16 64#9).wf = false := by decide
theorem test_wf_refuses_longerShort_3 : (Instr.deferredLongerShort 1#16 3#9).wf = false := by decide
theorem test_wf_refuses_match_of_length_259 : (Instr.recordMatch 1#16 259#9).wf = false := by decide
theorem test_wf_refuses_match_far : (Instr.recordMatch 32769#16 3#9).wf = false := by decide
theorem test_wf_refuses_huffDepths_289 : (Instr.huffDepths 289#9).wf = false := by decide
theorem test_wf_refuses_tokens_past_buffer : (Instr.tokens 24577#16).wf = false := by decide
theorem test_wf_refuses_rlePack_long : (Instr.rlePack (List.replicate 321 0#4)).wf = false := by decide +kernel
theorem test_wf_refuses_lenSym_2 : (Instr.lenSym 2#9).wf = false := by decide
theorem test_wf_refuses_lenSym_259 : (Instr.lenSym 259#9).wf = false := by decide
theorem test_wf_refuses_distSym_0 : (Instr.distSym 0#16).wf = false := by decide
theorem test_wf_refuses_distSym_32769 : (Instr.distSym 32769#16).wf = false := by decide
theorem test_wf_refuses_header_hlit_30 : (Instr.blockHeader true 30#5 0#5 0#4).wf = false := by decide
theorem test_wf_refuses_header_hdist_30 : (Instr.blockHeader true 0#5 30#5 0#4).wf = false := by decide
theorem test_wf_refuses_clLengths_3 : (Instr.clLengths 3#5).wf = false := by decide
theorem test_wf_refuses_clLengths_20 : (Instr.clLengths 20#5).wf = false := by decide
theorem test_wf_refuses_len284_31 : (Instr.len284 31#5).wf = false := by decide

/-- A buffer whose length does not fit the `len` word. -/
theorem test_wf_refuses_long_feed (data : List Byte) (h : data.length = 2 ^ 32) : (Instr.feed data).wf = false := by
  simp [Instr.wf, h]

/-! ## Decoding: words of 95_test_vectors.md 2.1 and bits laid out from the tables of 30_encoding.md -/

/-- `op` = 00, `p` = 1, bit 3 = 0, flags = 0001 0000 1000 0000 (R90). -/
theorem test_decode_init :
    decodeTableWord 32 0b0000_0000_0000_0001_0000_1000_0000_0_1_00 = some (.init true 0x1080#16) := by decide
theorem test_decode_init_greedy : decodeTableWord 32 0x0004FFF4 = some (.init true 0x4FFF#16) := by decide
theorem test_decode_init_nondet : decodeTableWord 32 0x00080004 = some (.init true 0x8000#16) := by decide
theorem test_decode_init_bit13 : decodeTableWord 32 0x00020014 = some (.init true 0x2001#16) := by decide
theorem test_decode_init_no_sink : decodeTableWord 32 0x00000800 = some (.init false 0x0080#16) := by decide
/-- `00000005 00000003`, then `61 62 63`; the first word is in the low bits. -/
theorem test_decode_feed :
    decodeTableWord 88 0x636261_00000003_00000005 = some (.feed [0x61#8, 0x62#8, 0x63#8]) := by decide
theorem test_decode_feed_empty : decodeTableWord 64 0x00000000_00000005 = some (.feed []) := by decide
theorem test_decode_finish : decodeTableWord 64 0x00000000_00000001 = some .finish := by decide
theorem test_decode_badarg : decodeTableWord 64 0x00000005_00000001 = some (.badarg 5#32) := by decide
theorem test_decode_reserved_op2 : decodeTableWord 32 0x00000002 = some (.reservedOp2 0#30) := by decide
theorem test_decode_reserved_op3 : decodeTableWord 32 0x00000003 = some (.reservedOp3 0#30) := by decide
theorem test_decode_reserved_bit3 : decodeTableWord 32 0x00000008 = some (.reservedBit3 false false 0#28) := by decide
theorem test_decode_reserved_high :
    decodeTableWord 32 0x00100000 = some (.reservedHigh false false 0#16 1#12) := by decide
theorem test_decode_reserved_cdFlags : decodeTableWord 32 0x00000015 = some (.reservedCdFlags true 1#16) := by decide
/-- The flags word 0x1080 is the five fields 128, 1, 0, 0, 0 (R95). -/
theorem test_decode_flags :
    decodeFlags 0x1080#16 =
      [.flagProbes 128#12, .flagZlib true, .flagBit13 false, .flagGreedy false, .flagNondet false] := by decide
theorem test_decode_flags_high :
    decodeFlags 0b1110_0000_0000_0001#16 =
      [.flagProbes 1#12, .flagZlib false, .flagBit13 true, .flagGreedy true, .flagNondet true] := by decide
/-- The flag byte of a group of one token, a match, before the flush aligns it (R101). -/
theorem test_decode_lz_flag : decode (.lzFlag 0x80#8) = some (.lzFlag 0x80#8) := by decide
/-- The literal 0x61 is one byte (R102). -/
theorem test_decode_lz_literal : decodeToken false [0x61#8] = some (.lzLiteral 0x61#8) := by decide
/-- `RECORD_MATCH(300, 10)` is `07 2B 01` (R228): length 10 - 3, distance 300 - 1 = 0x12B. -/
theorem test_decode_lz_match : decodeToken true [0x07#8, 0x2B#8, 0x01#8] = some (.lzMatch 7#8 299#15) := by decide
/-- `RECORD_MATCH(32768, 258)` is `FF FF 7F` (R228). -/
theorem test_decode_lz_match_max :
    decodeToken true [0xFF#8, 0xFF#8, 0x7F#8] = some (.lzMatch 255#8 32767#15) := by decide
theorem test_decode_lz_match_outside : decodeToken true [0x00#8, 0x00#8, 0x80#8] = none := by decide
/-- The header of R295: 1, then 2 in two bits, 0 and 0 in five, 14 in four (bit 0 emitted first). -/
theorem test_decode_header :
    decodeBlockHeader 0b1110_00000_00000_10_1#17 = some (.blockHeader true 0#5 0#5 14#4) := by decide
/-- `BTYPE` = 1 is never produced and is not read as a header (R122). -/
theorem test_decode_header_static : decodeBlockHeader 0b0000_00000_00000_01_1#17 = none := by decide
theorem test_decode_zlib_header : decodeZlibHeader 0x78#8 0x01#8 = some .zlibHeader := by decide
/-- A command word stands where it is; what follows it is left (R94). -/
theorem test_decode_reserved_takes_one_word :
    decodeHost [.word 0x00000002#32, .word 7#32] = .ok (.reservedOp2 0#30, [.word 7#32]) := by decide
theorem test_decode_waits_for_len : decodeHost [.word 0x00000005#32] = .error .noLen := by decide
theorem test_decode_waits_for_data : decodeHost [.word 0x00000005#32, .word 1#32] = .error .noData := by decide

/-! ## Small states -/

/-- An open session whose memories hold 0, `head` and `prev` the sentinel; the sink will accept twice. -/
def opened : State :=
  { State.reset with
    closed := false
    dict := Mem.filled 0#8
    head := Mem.filled 0xFFFF#16
    prev := Mem.filled 0xFFFF#16
    lzBuf := Mem.filled 0#8
    outBuf := Mem.filled 0#8
    sinkAnswers := [true, true] }

/-- The 18 bytes `xyzQxyzRxyzSxyzRxy` and the chain 12, 8, 4, 0 (R192). -/
def chained : State :=
  { opened with
    maxProbes := 10#12
    dict := [0x78#8, 0x79#8, 0x7A#8, 0x51#8, 0x78#8, 0x79#8, 0x7A#8, 0x52#8, 0x78#8, 0x79#8, 0x7A#8, 0x53#8, 0x78#8,
      0x79#8, 0x7A#8, 0x52#8, 0x78#8, 0x79#8].zipIdx.foldl (fun m p => m.set p.2 p.1) (Mem.filled 0#8)
    prev := [(12, 8#16), (8, 4#16), (4, 0#16)].foldl (fun m p => m.set p.1 p.2) (Mem.filled 0xFFFF#16) }

/-- The session is failed. -/
def failedSession : State := { opened with failed := true }

/-- 258 bytes of lookahead over a full window, all 0. -/
def parsing : State := { opened with lookaheadSize := 258#9, dictSize := 32768#16 }

/-- A match of length 3 is saved. -/
def deferred : State := { parsing with savedLit := 0x41#8, savedMatchDist := 1#16, savedMatchLen := 3#9 }

/-- The LZ code buffer is one byte short of the threshold, its group at the eighth token. -/
def nearFull : State := { opened with lzPos := 24572#16, lzFlagsPos := 24564#15, flagsLeft := 1#4 }

/-- Seven bits are held and 4095 bytes staged. -/
def brimming : State := { opened with bitBuffer := 127#24, bitsIn := 7#5, outPos := 4095#13 }

/-- The literals `2` and `a` are recorded. -/
def twoLiterals : State :=
  { opened with lzPos := 3#16, flagsLeft := 6#4, lzBuf := ((Mem.filled 0#8).set 1 0x32#8).set 2 0x61#8 }

/-- Five bytes `x` were fed; the first is recorded as a literal, a match of length 4 at distance 1 is saved for the
second. -/
def fiveFed : State :=
  { opened with
    dict := [0, 1, 2, 3, 4, 32768, 32769, 32770, 32771, 32772].foldl (fun m i => m.set i 0x78#8) (Mem.filled 0#8)
    lookaheadPos := 2#15
    lookaheadSize := 3#9
    dictSize := 2#16
    savedLit := 0x78#8
    savedMatchDist := 1#16
    savedMatchLen := 4#9
    lzPos := 2#16
    flagsLeft := 7#4
    lzBuf := (Mem.filled 0#8).set 1 0x78#8 }

/-- The first elements of the sorted array, the others 0. -/
def sortedFrom (keys : List (BitVec 16)) : List SymKey :=
  keys.map (fun k => ⟨k, 0#9⟩) ++ List.replicate (288 - keys.length) ⟨0#16, 0#9⟩

/-- A frequency table from its first entries. -/
def counts (l : List (BitVec 16)) : Mem 16 := l.zipIdx.foldl (fun m p => m.set p.2 p.1) (Mem.filled 0#16)

/-- The outcome is a next state with the property `p`. -/
def nextHas (o : Host.Outcome State Fault Refusal) (p : State → Bool) : Bool :=
  match o with
  | .next t => p t
  | .fault _ => false
  | .refused _ => false

theorem nextHas_exists {o : Host.Outcome State Fault Refusal} {p : State → Bool} (h : nextHas o p = true) :
    ∃ t, o = .next t ∧ p t = true := by
  cases o with
  | next t => exact ⟨t, rfl, h⟩
  | fault f => cases h
  | refused r => cases h

/-- The premise `BlockTablesLegal`, evaluated. -/
def blockTablesCheck (ts : List Token) (s : State) : Bool :=
  let legal := fun (s : State) (x : HuffTable) =>
    depthsLegal (sortedKeys s x).length (chosenDepths s (sortedKeys s x))
  match tallyTokens ts (Mem.filled 0#16) (Mem.filled 0#16) with
  | .error _ => false
  | .ok counts =>
    let tallied := s.setFreqs (countSymbol counts.1 256) counts.2
    legal tallied .litLen && legal tallied .dist &&
      nextHas (exec (.optimize .litLen) tallied) fun a => nextHas (exec (.optimize .dist) a) fun b =>
        legal (b.setPacked (rlePack (codeLengthSeq b)) (packedFreq (rlePack (codeLengthSeq b)))) .codeLen

theorem blockTablesLegal_of_check {ts : List Token} {s : State} (h : blockTablesCheck ts s = true) :
    BlockTablesLegal ts s := by
  intro counts hc
  simp only [blockTablesCheck, hc, Bool.and_eq_true] at h
  refine ⟨h.1.1, h.1.2, fun a b ha hb => ?_⟩
  have h2 := h.2
  simp only [nextHas, ha, hb] at h2
  exact h2

/-! ## Results that spec/ states -/

/-- `PROBES` = 0 gives a budget of 1 (R311); the session is open (R312). -/
theorem test_init : nextHas (exec (.init true 0x8000#16) State.reset) (fun t =>
    decide (t.maxProbes = 1#12) && !t.closed && decide (t.returns = [true])) = true := by decide +kernel
/-- With `ZLIB` the header is staged: `78 01`, `out_pos` = 2 (R313). -/
theorem test_init_zlib : nextHas (exec (.init true 0x1080#16) State.reset) (fun t =>
    decide (stagedBytes t 2 = [0x78#8, 0x01#8]) && decide (t.outPos = 2#13)) = true := by decide +kernel
/-- Feed 8 bytes `7a`: adler 113003D1, 8 bytes of lookahead (program P8). -/
theorem test_feed : nextHas (exec (.feed (List.replicate 8 0x7A#8)) opened) (fun t =>
    decide (t.adler = 0x113003D1#32) && decide (t.lookaheadSize = 8#9)) = true := by decide +kernel
/-- The empty session is twelve bytes (R295, V-BLK-1). -/
theorem test_finish : nextHas (exec .finish opened) (fun t =>
    decide (t.sinkLog = [⟨[0x05#8, 0xC0#8, 0x81#8, 0x08#8, 0x00#8, 0x00#8, 0x00#8, 0x00#8, 0x20#8, 0x7F#8, 0xEB#8,
      0x03#8], true⟩]) && t.closed) = true := by decide +kernel
/-- A rejection inside `FINISH` leaves `closed` and `failed` both 1 (program P7). -/
theorem test_finish_rejected : nextHas (exec .finish { opened with sinkAnswers := [false] }) (fun t =>
    t.closed && t.failed && decide (t.returns = [false])) = true := by decide +kernel
theorem test_badarg : nextHas (exec (.badarg 5#32) opened) (fun t =>
    t.failed && !t.closed && decide (t.returns = [false])) = true := by decide +kernel
theorem test_reserved_op2 : nextHas (exec (.reservedOp2 0#30) opened) (fun t =>
    !t.failed && decide (t.returns = [false])) = true := by decide +kernel
theorem test_reserved_op3 : nextHas (exec (.reservedOp3 0#30) opened) (fun t =>
    !t.failed && decide (t.returns = [false])) = true := by decide +kernel
theorem test_reserved_bit3 : nextHas (exec (.reservedBit3 true true 0#28) opened) (fun t =>
    !t.failed && decide (t.returns = [false])) = true := by decide +kernel
theorem test_reserved_high : nextHas (exec (.reservedHigh true true 0#16 1#12) opened) (fun t =>
    !t.failed && decide (t.returns = [false])) = true := by decide +kernel
theorem test_reserved_cdFlags : nextHas (exec (.reservedCdFlags true 1#16) opened) (fun t =>
    !t.failed && decide (t.returns = [false])) = true := by decide +kernel
/-- The bytes of one call stand in index order (R97). -/
theorem test_put : nextHas (exec (.sinkPut 2#13) { opened with outBuf := (Mem.filled 0#8).set 1 7#8 })
    (fun t => decide (t.sinkLog = [⟨[0#8, 7#8], true⟩]) && !t.failed) = true := by decide +kernel
theorem test_flag_probes : nextHas (exec (.flagProbes 0#12) opened) (fun t => decide (t.maxProbes = 1#12)) = true := by
  decide +kernel
theorem test_flag_zlib : nextHas (exec (.flagZlib true) opened) (fun t => t.zlib) = true := by decide +kernel
theorem test_flag_bit13 : exec (.flagBit13 true) opened = .next opened := rfl
theorem test_flag_greedy : nextHas (exec (.flagGreedy true) opened) (fun t => t.greedy) = true := by decide +kernel
theorem test_flag_nondet : nextHas (exec (.flagNondet false) { opened with head := Mem.filled 5#16 }) (fun t =>
    decide (t.headEntry 4095 = 0xFFFF#16)) = true := by decide +kernel
/-- Step 7 of R148: `FD` leaves, 3 in two bits stays. -/
theorem test_putBits : nextHas (exec (.putBits 0x7F 7) { opened with bitBuffer := 5#24, bitsIn := 3#5 }) (fun t =>
    decide (t.outBufByte 0 = 0xFD#8) && decide (t.bitBuffer = 3#24) && decide (t.bitsIn = 2#5)) = true := by
  decide +kernel
/-- Step 4 of R148: `34`, then `12`. -/
theorem test_putBits_16 : nextHas (exec (.putBits 0x1234 16) opened) (fun t =>
    decide (stagedBytes t 2 = [0x34#8, 0x12#8]) && decide (t.bitsIn = 0#5)) = true := by decide +kernel
/-- V-BS-2: a rejection at fill. -/
theorem test_outByte_fill : nextHas (exec (.outByte 9#8) { opened with outPos := 4095#13, sinkAnswers := [false] }) (fun t =>
    t.failed && decide (t.outPos = 0#13) && decide (t.outBufByte 4095 = 9#8)) = true := by decide +kernel
theorem test_drain_empty : exec .drain opened = .next opened := rfl
/-- Step 8 of R148: `03`. -/
theorem test_align : nextHas (exec .align { opened with bitBuffer := 3#24, bitsIn := 2#5 }) (fun t =>
    decide (t.outBufByte 0 = 0x03#8) && decide (t.bitsIn = 0#5)) = true := by decide +kernel
/-- R168, byte 5: position 3 enters the chain of hash 0x743 in front of position 0. -/
theorem test_feedByte : nextHas (exec (.feedByte 0x63#8)
    { opened with
      lookaheadSize := 5#9
      dict := ((Mem.filled 0#8).set 3 0x61#8).set 4 0x62#8
      head := (Mem.filled 0xFFFF#16).set 0x743 0#16 }) (fun t =>
    decide (t.prevEntry 3 = 0#16) && decide (t.headEntry 0x743 = 3#16) && decide (t.dictByte 32773 = 0x63#8)) = true := by
  decide +kernel
/-- V-H-1. -/
theorem test_hash3 : nextHas (exec (.hash3 0xFA#8 0xFB#8 0xFC#8) opened) (fun t =>
    decide (t.opResult = .value 0x54C)) = true := by decide +kernel
/-- V-FM-14: the pair (9,4) is beaten by candidate 4. -/
theorem test_findMatch : nextHas (exec (.findMatch 12#15 12#16 6#9 9#16 4#9) chained) (fun t =>
    decide (t.opResult = .found 8 6)) = true := by decide +kernel
/-- V-FM-12: candidate 4 is too far; entry 8 becomes terminal. -/
theorem test_findMatch_mark : nextHas (exec (.findMatch 12#15 7#16 6#9 0#16 2#9) chained) (fun t =>
    decide (t.opResult = .found 4 3) && decide (t.prevEntry 8 = 0xFFFF#16)) = true := by decide +kernel
/-- The saved match is not beaten: it is committed over one byte less than its length (R210). -/
theorem test_parseStep : nextHas (exec .parseStep deferred) (fun t =>
    decide (t.lookaheadSize = 256#9) && decide (t.savedMatchLen = 0#9) && decide (t.lzPos = 4#16)) = true := by
  decide +kernel
theorem test_idleLiteral : nextHas (exec .idleLiteral parsing) (fun t =>
    decide (t.lookaheadPos = 1#15) && decide (t.lookaheadSize = 257#9)) = true := by decide +kernel
theorem test_idleCommit : nextHas (exec (.idleCommit 1#16 258#9) parsing) (fun t =>
    decide (t.lookaheadSize = 0#9) && decide (t.lzByte 1 = 255#8)) = true := by decide +kernel
theorem test_idleDefer : nextHas (exec (.idleDefer 2#16 9#9) parsing) (fun t =>
    decide (t.savedMatchDist = 2#16) && decide (t.savedMatchLen = 9#9) && decide (t.lookaheadSize = 257#9)) = true := by
  decide +kernel
theorem test_deferredLongerLong : nextHas (exec (.deferredLongerLong 1#16 64#9) deferred) (fun t =>
    decide (t.lzByte 1 = 0x41#8) && decide (t.lzByte 2 = 61#8) && decide (t.lookaheadSize = 194#9)) = true := by
  decide +kernel
theorem test_deferredLongerShort : nextHas (exec (.deferredLongerShort 1#16 5#9) deferred) (fun t =>
    decide (t.lzByte 1 = 0x41#8) && decide (t.savedMatchLen = 5#9)) = true := by decide +kernel
theorem test_deferredCommit : nextHas (exec .deferredCommit deferred) (fun t =>
    decide (t.lookaheadSize = 256#9) && decide (t.savedMatchLen = 0#9)) = true := by decide +kernel
theorem test_savedMatchFlush : nextHas (exec .savedMatchFlush deferred) (fun t =>
    decide (t.lzPos = 4#16) && decide (t.savedMatchLen = 0#9)) = true := by decide +kernel
theorem test_lzReset : nextHas (exec .lzReset { opened with lzPos := 9#16, lzBuf := Mem.filled 3#8 }) (fun t =>
    decide (t.lzPos = 1#16) && decide (t.lzByte 0 = 0#8) && decide (t.lzByte 1 = 3#8)) = true := by decide +kernel
theorem test_recordLiteral : nextHas (exec (.recordLiteral 0x30#8) opened) (fun t =>
    decide (t.lzByte 1 = 0x30#8) && decide (t.flagsLeft = 7#4)) = true := by decide +kernel
/-- R228 (a): the eighth token fills the group: `80 ... 07 2B 01 00`, `lz_pos` = 12, `lz_flags_pos` = 11. -/
theorem test_recordMatch : nextHas (exec (.recordMatch 300#16 10#9) { opened with lzPos := 8#16, flagsLeft := 1#4 }) (fun t =>
    decide ([0, 8, 9, 10, 11].map t.lzByte = [0x80#8, 0x07#8, 0x2B#8, 0x01#8, 0x00#8]) && decide (t.lzPos = 12#16) &&
      decide (t.lzFlagsPos = 11#15)) = true := by decide +kernel
theorem test_lzAfterRecord : nextHas (exec (.lzAfterRecord true) { opened with lzPos := 4#16 }) (fun t =>
    decide (t.lzByte 0 = 0x80#8) && decide (t.flagsLeft = 7#4)) = true := by decide +kernel
/-- R261 (a): the cap of 7 forces one repair turn. -/
theorem test_optimize : nextHas (exec (.optimize .codeLen)
    { opened with clFreq := counts [34#16, 21#16, 13#16, 8#16, 5#16, 3#16, 2#16, 1#16, 1#16] }) (fun t =>
    decide ((List.range 9).map t.clLen.entry = [1, 2, 3, 4, 5, 7, 7, 7, 7]) &&
      decide ((List.range 9).map t.clCode.entry = [0x00, 0x01, 0x03, 0x07, 0x0F, 0x1F, 0x5F, 0x3F, 0x7F])) = true := by
  decide +kernel
/-- R262: one symbol gets length 1 and code 0. -/
theorem test_optimize_single : nextHas (exec (.optimize .dist) { opened with distFreq := counts [0#16, 0#16, 5#16] }) (fun t =>
    decide ((List.range 4).map t.dLen.entry = [0, 0, 1, 0]) && decide (t.dCode.entry 2 = 0)) = true := by decide +kernel
/-- R259: `[1,1,2,3,5,8,13,21,34]`. -/
theorem test_huffDepths : moffatKatajainen [1, 1, 2, 3, 5, 8, 13, 21, 34] = [8, 8, 7, 6, 5, 4, 3, 2, 1] := by decide
/-- Right after reset the sorted array is there: three keys get depths (R35). -/
theorem test_huffDepths_reset : nextHas (exec (.huffDepths 3#9) State.reset) (fun t =>
    decide ((t.syms.take 3).map (fun p => p.key) = [2#16, 2#16, 1#16]) && decide (t.syms.length = 288)) = true := by
  decide +kernel
theorem test_rev : nextHas (exec (.rev 0b110#15 4#4) opened) (fun t => decide (t.opResult = .value 0b0110)) = true := by
  decide +kernel
theorem test_rev_3 : nextHas (exec (.rev 0b110#15 3#4) opened) (fun t => decide (t.opResult = .value 0b011)) = true := by
  decide +kernel
/-- R295: the packed list of the empty block. -/
theorem test_flushBlock : nextHas (exec (.flushBlock true) opened) (fun t =>
    decide (t.packed = [⟨18, 7, 127⟩, ⟨18, 7, 107⟩, ⟨1, 0, 0⟩, ⟨0, 0, 0⟩]) && decide (t.outPos = 11#13) &&
      decide (t.bitsIn = 4#5)) = true := by decide +kernel
/-- R228 (b) after the flag byte is moved down: a literal, a literal, a match of length 4 at distance 6. -/
theorem test_tokens : nextHas (exec (.tokens 6#16)
    { opened with lzBuf := [0x04#8, 0x32#8, 0x61#8, 0x01#8, 0x05#8, 0x00#8].zipIdx.foldl (fun m p => m.set p.2 p.1) (Mem.filled 0#8) })
    (fun t => decide (t.opResult = .tokens [.literal 0x32#8, .literal 0x61#8, .copy 4 6])) = true := by decide +kernel
/-- A repeat of 6 closes at once; one more is a repeat of its own (R278). -/
theorem test_rlePack : nextHas (exec (.rlePack (List.replicate 8 5#4)) opened) (fun t =>
    decide (t.packed = [⟨5, 0, 0⟩, ⟨16, 2, 3⟩, ⟨5, 0, 0⟩])) = true := by decide +kernel
/-- R289: 257 is symbol 284, 258 is symbol 285. -/
theorem test_lenSym : nextHas (exec (.lenSym 257#9) opened) (fun t => decide (t.opResult = .symbol 284 5 227)) = true := by
  decide +kernel
theorem test_lenSym_258 : nextHas (exec (.lenSym 258#9) opened) (fun t => decide (t.opResult = .symbol 285 0 258)) = true := by
  decide +kernel
theorem test_distSym : nextHas (exec (.distSym 24576#16) opened) (fun t => decide (t.opResult = .symbol 28 13 16385)) = true := by
  decide +kernel
theorem test_distSym_far : nextHas (exec (.distSym 32768#16) opened) (fun t =>
    decide (t.opResult = .symbol 29 13 24577)) = true := by decide +kernel
/-- Eight updates over "abcabcab" give 0DCA0310 (R168); the first gives 98 and 98. -/
theorem test_adlerUpdate : nextHas (exec (.adlerUpdate 0x61#8) opened) (fun t => decide (t.adler = 0x00620062#32)) = true := by
  decide +kernel
theorem test_adlerUpdate_wrap : nextHas (exec (.adlerUpdate 2#8) { opened with adler := 0x0001FFF0#32 }) (fun t =>
    decide (t.adler = 0x00020001#32)) = true := by decide +kernel
theorem test_lzFlag : nextHas (exec (.lzFlag 0x80#8) opened) (fun t => decide (t.lzByte 0 = 0x80#8)) = true := by decide +kernel
theorem test_lzLiteral : nextHas (exec (.lzLiteral 0x61#8) opened) (fun t =>
    decide (t.lzByte 1 = 0x61#8) && decide (t.lzPos = 2#16)) = true := by decide +kernel
theorem test_lzMatch : nextHas (exec (.lzMatch 255#8 32767#15) opened) (fun t =>
    decide ([1, 2, 3].map t.lzByte = [0xFF#8, 0xFF#8, 0x7F#8])) = true := by decide +kernel
/-- The first three fields of R295 and the low five bits of the next make `05 C0`. -/
theorem test_blockHeader : nextHas (exec (.blockHeader true 0#5 0#5 14#4) opened) (fun t =>
    decide (stagedBytes t 2 = [0x05#8, 0xC0#8]) && decide (t.bitBuffer = 1#24) && decide (t.bitsIn = 1#5)) = true := by
  decide +kernel
/-- The first code length out is that of symbol 16, the fourth that of symbol 0 (R112). -/
theorem test_clLengths : nextHas (exec (.clLengths 4#5) { opened with clLen := ((Mem.filled 0#4).set 16 3#4).set 0 5#4 })
    (fun t => decide (t.outBufByte 0 = 3#8) && decide (t.bitBuffer = 0b1010#24) && decide (t.bitsIn = 4#5)) = true := by
  decide +kernel
/-- Past the 19 entries of SWIZZLE, on a failed session too (R112, R360). -/
theorem test_clLengths_20 : exec (.clLengths 20#5) failedSession = .fault (.swizzleRange 20) := rfl
/-- Symbol 18 with code 0 of one bit, then 127 in seven bits (R295). -/
theorem test_cl18 : nextHas (exec (.cl18 127#7) { opened with clLen := (Mem.filled 0#4).set 18 1#4 }) (fun t =>
    decide (t.outBufByte 0 = 0xFE#8) && decide (t.bitsIn = 0#5)) = true := by decide +kernel
theorem test_llEob : nextHas (exec .llEob { opened with llLen := (Mem.filled 0#4).set 256 2#4, llCode := (Mem.filled 0#15).set 256 1#15 })
    (fun t => decide (t.bitBuffer = 1#24) && decide (t.bitsIn = 2#5)) = true := by decide +kernel
/-- Symbol 284 with extra value 30: length 257 (95_test_vectors.md 1.3). -/
theorem test_len284 : nextHas (exec (.len284 30#5) { opened with llLen := (Mem.filled 0#4).set 284 2#4, llCode := (Mem.filled 0#15).set 284 3#15 })
    (fun t => decide (t.bitBuffer = 0b1111011#24) && decide (t.bitsIn = 7#5)) = true := by decide +kernel
theorem test_dist29 : nextHas (exec (.dist29 0x1FFF#13) { opened with dLen := (Mem.filled 0#4).set 29 1#4 }) (fun t =>
    decide (stagedBytes t 1 = [0xFE#8]) && decide (t.bitBuffer = 0x3F#24) && decide (t.bitsIn = 6#5)) = true := by
  decide +kernel
theorem test_zlibHeader : nextHas (exec .zlibHeader { opened with zlib := true }) (fun t =>
    decide (stagedBytes t 2 = [0x78#8, 0x01#8])) = true := by decide +kernel
/-- The trailer of "Hello, World!" is `1F 9E 04 6A` (95_test_vectors.md 1.2). -/
theorem test_zlibTrailer : nextHas (exec .zlibTrailer { opened with zlib := true, adler := 0x1F9E046A#32 }) (fun t =>
    decide (stagedBytes t 4 = [0x1F#8, 0x9E#8, 0x04#8, 0x6A#8])) = true := by decide +kernel
/-- A step takes the whole command and nothing more (R380). -/
theorem test_step : nextHas (step { opened with hostIn := [.word 0x00000005#32, .word 1#32, .byte 0x61#8, .word 2#32] })
    (fun t => decide (t.hostIn = [.word 2#32]) && decide (t.lookaheadSize = 1#9)) = true := by decide +kernel
/-- R371: a hardware reset before the sink call of `FINISH`: nothing leaves, no bit is returned. -/
theorem test_reset_inside_finish : nextHas
    (step { opened with hostIn := [.resetDuring 0, .word 0x00000001#32, .word 0#32] }) (fun t =>
    decide (t.sinkLog = []) && decide (t.returns = []) && t.closed && !t.failed && decide (t.hostIn = [])) = true := by
  decide +kernel
/-- R371: a hardware reset after the sink call of `FINISH`, before its bit: the twelve bytes are out. -/
theorem test_reset_after_the_call : nextHas
    (step { opened with hostIn := [.resetDuring 1, .word 0x00000001#32, .word 0#32] }) (fun t =>
    decide (t.sinkLog.map (fun c => c.bytes.length) = [12]) && decide (t.returns = []) &&
      decide (t.sinkAnswers = [true])) = true := by
  decide +kernel
theorem test_withFetchWord : nextHas (step (State.reset.withFetchWord 64 5)) (fun t =>
    decide (t.returns = [false])) = true := by decide +kernel

/-! ## Hypotheses: a state and operands for every statement that has any -/

/-- DecodeUndoesEncode. -/
theorem witness_decodeUndoesEncode :
    (Instr.lzMatch 255#8 32767#15).wf = true ∧ encode (.lzMatch 255#8 32767#15) ≠ .fromState ∧
      encode (.lzMatch 255#8 32767#15) ≠ .internal := by decide
/-- HostCommandIsReadBack. -/
theorem witness_hostCommandIsReadBack :
    (Instr.feed [0x61#8]).wf = true ∧ encode (.feed [0x61#8]) = .host (encodeHost (.feed [0x61#8])) := by decide
/-- HostDecodingKeepsEveryBit. -/
theorem witness_hostDecodingKeepsEveryBit :
    decodeHost [.word 0x00000015#32, .word 1#32] = .ok (.reservedCdFlags true 1#16, [.word 1#32]) := by decide
/-- StepRunsTheDecodedCommand, a host command. -/
theorem witness_stepRunsTheDecodedCommand :
    let s := State.reset.withFetchWord 32 0x00010804
    s.sequencer = [] ∧ decodeHost s.hostIn = .ok (.init true 0x1080#16, []) := by decide
/-- StepRunsTheDecodedCommand, an internal operation. -/
theorem witness_stepRunsTheSequencer : (State.reset.withFetchWord 8 0x61).sequencer = .lzLiteral 0x61#8 :: [] := by decide
/-- HardwareResetClosesTheSession, each clause. -/
theorem witness_hardwareReset :
    (opened.sequencer = [] ∧ opened.hostIn = []) ∧
      (opened.setHostIn [.hardwareReset]).hostIn = .hardwareReset :: [] ∧
      ((opened.setHostIn [.resetDuring 0, .word 1#32, .word 0#32]).hostIn = .resetDuring 0 :: [.word 1#32, .word 0#32] ∧
        decodeHost [.word 1#32, .word 0#32] = .ok (.finish, []) ∧
        ∃ u, exec .finish { opened with hostIn := [] } = .next u ∧ (!u.failed) = true) ∧
      (opened.setHostIn [.word 5#32, .word 2#32, .byte 0x61#8, .hardwareReset]).hostIn =
        .word 0x00000005#32 :: .word 2#32 :: ([0x61#8].map HostItem.byte ++ .hardwareReset :: []) ∧
      [0x61#8].length < (2#32).toNat ∧ ∃ u, exec (.feed [0x61#8]) { opened with hostIn := [] } = .next u ∧ (!u.failed) = true :=
  ⟨by decide, rfl, ⟨rfl, by decide, nextHas_exists (by decide +kernel)⟩, rfl, by decide,
    nextHas_exists (by decide +kernel)⟩
/-- ResetStateRefusesCompressData. -/
theorem witness_isCompressData : isCompressData (.feed [1#8]) ∧ isCompressData .finish ∧ isCompressData (.badarg 1#32) :=
  ⟨.inl ⟨_, rfl⟩, .inr (.inl rfl), .inr (.inr ⟨_, rfl⟩)⟩
/-- InitOpensASession and FlagFieldsSetTheirRegisters. -/
theorem witness_probeMaps :
    opened.params.probeMap = .direct ∧
      ({ opened with params := { Params.standard with probeMap := .divided } } : State).params.probeMap = .divided := by decide
/-- ClosedSessionRefusesCompressData. -/
theorem witness_closedSession : isCompressData .finish ∧ State.reset.closed = true := ⟨.inr (.inl rfl), rfl⟩
/-- FailedSessionRefusesCompressData. -/
theorem witness_failedSession : isCompressData .finish ∧ failedSession.closed = false ∧ failedSession.failed = true :=
  ⟨.inr (.inl rfl), rfl, rfl⟩
/-- BadArgumentLatchesFailed. -/
theorem witness_badArgument : (1#32 : Word) ≠ 0#32 ∧ OpenSession opened := by unfold OpenSession; decide
/-- ReservedWordsChangeNothing: one word of each kind. -/
theorem witness_reservedWords :
    (opened.setHostIn [.word 0x00000002#32]).sequencer = [] ∧
      (opened.setHostIn [.word 0x00000002#32]).hostIn = .word 0x00000002#32 :: [] ∧ ReservedWord 0x00000002#32 ∧
      ReservedWord 0x00000003#32 ∧ ReservedWord 0x00000008#32 ∧ ReservedWord 0x00100000#32 ∧ ReservedWord 0x00000015#32 := by
  unfold ReservedWord; decide
/-- RefusedSessionStaysRefused. -/
theorem witness_refusedSession :
    (∀ i ∈ [Instr.finish, .finish], isCompressData i) ∧ (State.reset.closed = true ∨ State.reset.failed = true) ∧
      (failedSession.closed = true ∨ failedSession.failed = true) := by
  refine ⟨fun i hi => ?_, .inl rfl, .inr rfl⟩
  simp at hi
  exact hi ▸ .inr (.inl rfl)
/-- CompressDataLifecycle. -/
theorem witness_compressDataLifecycle :
    OpenSession fiveFed ∧ (∃ t, exec (.feed [0x61#8]) fiveFed = .next t ∧ (!t.failed) = true) ∧
      (∃ t, exec .finish fiveFed = .next t ∧ (!t.failed) = true) ∧ SessionOk fiveFed ∧
      HistoryOk (List.replicate 5 0x78#8) fiveFed := by
  refine ⟨⟨rfl, rfl⟩, nextHas_exists (by decide +kernel), nextHas_exists (by decide +kernel), ?_, ?_⟩
  · unfold SessionOk AdlerOk ParserOk LzOk BitsOk; decide
  · unfold HistoryOk; decide +kernel
/-- FeedIsChunkIndependent. -/
theorem witness_feedIsChunkIndependent :
    OpenSession opened ∧ ∃ t, exec (.feed ([0x61#8] ++ [0x62#8])) opened = .next t ∧ (!t.failed) = true :=
  ⟨⟨rfl, rfl⟩, nextHas_exists (by decide +kernel)⟩
/-- FeedCompletesWithRoom, at the last position with room for one byte, and for none. -/
theorem witness_feedCompletesWithRoom :
    let s := { opened with lzPos := 24567#16 }
    SessionOk s ∧ OpenSession s ∧ s.lzPos.toNat + 5 * [0x61#8].length ≤ Config.LZ_SIZE - 4 ∧
      nearFull.lzPos.toNat + 5 * ([] : List Byte).length ≤ Config.LZ_SIZE - 4 := by
  unfold SessionOk AdlerOk ParserOk LzOk BitsOk OpenSession; decide
/-- FinishOfAnEmptySession. -/
theorem witness_finishOfAnEmptySession :
    SessionOk opened ∧ OpenSession opened ∧ opened.params.depths = .moffatKatajainen ∧ opened.lookaheadSize = 0#9 ∧
      opened.lzPos = 1#16 ∧ opened.flagsLeft = 8#4 ∧ ∃ t, exec .finish opened = .next t ∧ (!t.failed) = true := by
  refine ⟨?_, ⟨rfl, rfl⟩, rfl, rfl, rfl, rfl, nextHas_exists (by decide +kernel)⟩
  unfold SessionOk AdlerOk ParserOk LzOk BitsOk; decide
theorem holds_twoLiterals : HoldsTokens [.literal 0x32#8, .literal 0x61#8] twoLiterals := by
  refine ⟨fun x hx => ?_, by decide +kernel⟩
  simp at hx
  rcases hx with rfl | rfl <;> trivial
theorem legal_twoLiterals : BlockTablesLegal [.literal 0x32#8, .literal 0x61#8] twoLiterals :=
  blockTablesLegal_of_check (by decide +kernel)
theorem holds_fiveFed : HoldsTokens [.literal 0x78#8] fiveFed := by
  refine ⟨fun x hx => ?_, by decide +kernel⟩
  simp at hx
  exact hx ▸ trivial
/-- FinishOfAnEmptySession, the clause on tokens: with a lookahead to parse, and with the tables of the block. -/
theorem witness_finishOfTokens :
    (SessionOk fiveFed ∧ OpenSession fiveFed ∧ HoldsTokens [.literal 0x78#8] fiveFed ∧
      fiveFed.lzPos.toNat + 5 * fiveFed.lookaheadSize.toNat ≤ Config.LZ_SIZE - 4) ∧
      SessionOk twoLiterals ∧ HoldsTokens [.literal 0x32#8, .literal 0x61#8] twoLiterals ∧
      BlockTablesLegal [.literal 0x32#8, .literal 0x61#8] twoLiterals ∧
      execAll (List.replicate 0 .parseStep) twoLiterals = .next twoLiterals ∧ twoLiterals.lookaheadSize = 0#9 := by
  refine ⟨⟨?_, ⟨rfl, rfl⟩, holds_fiveFed, by decide⟩, ?_, holds_twoLiterals, legal_twoLiterals, rfl, rfl⟩ <;>
    (unfold SessionOk AdlerOk ParserOk LzOk BitsOk; decide)
/-- PutBitsAppendsToTheStream, both clauses at their bounds (the second holds in every state). -/
theorem witness_putBits :
    brimming.failed = false ∧ BitsOk brimming ∧ (16 ≤ 16 ∧ 65535 < 2 ^ 16) ∧ (16 < 17 ∨ 2 ^ 17 ≤ 0) ∧ (16 < 3 ∨ 2 ^ 3 ≤ 8) := by
  unfold BitsOk; decide
/-- OutByteStagesAndDrains, both clauses. -/
theorem witness_outByte :
    ({ opened with outPos := 4094#13 } : State).outPos.toNat < 4095 ∧ brimming.failed = false ∧ brimming.outPos.toNat = 4095 := by
  decide
/-- DrainHandsOverTheStagedBytes, each clause. -/
theorem witness_drain :
    opened.failed = false ∧ opened.outPos = 0#13 ∧ 1 ≤ ({ opened with outPos := 1#13 } : State).outPos.toNat ∧
      ({ opened with outPos := 4096#13 } : State).outPos.toNat ≤ 4096 ∧ opened.sinkAnswers = true :: [true] ∧
      State.reset.sinkAnswers = [] := by decide
/-- AlignPadsToAByteBoundary. -/
theorem witness_align : opened.failed = false ∧ BitsOk opened ∧ opened.bitsIn = 0#5 ∧ brimming.failed = false ∧ BitsOk brimming := by
  unfold BitsOk; decide
/-- SinkPutIsOneCall. -/
theorem witness_sinkPut : 1 ≤ (1#13).toNat ∧ (4096#13).toNat ≤ 4096 ∧ opened.failed = false ∧
    opened.sinkAnswers = true :: [true] ∧ State.reset.sinkAnswers = [] := by decide
/-- FailedSessionWritesNothing, each clause. -/
theorem witness_failedSessionWrites :
    failedSession.failed = true ∧ (16 ≤ 16 ∧ 65535 < 2 ^ 16) ∧ 1 ≤ (1#13).toNat ∧ (4096#13).toNat ≤ 4096 ∧
      (.len284 30#5, 284, 5) ∈ extraLengthSymbols 30 ∧ (.dist29 30#13, 29, 13) ∈ extraDistanceSymbols 30 ∧
      (.cl18 30#7, 18, 7) ∈ extraCodeLengthSymbols 30 ∧ (.len285, 285) ∈ plainLengthSymbols ∧
      (.dist3, 3) ∈ plainDistanceSymbols ∧ (.cl15, 15) ∈ plainCodeLengthSymbols ∧
      (∀ k, k < 288 → failedSession.llCode.entry k < 2 ^ failedSession.llLen.entry k) ∧
      (∀ k, k < 30 → failedSession.dCode.entry k < 2 ^ failedSession.dLen.entry k) ∧
      (∀ k, k < 19 → failedSession.clCode.entry k < 2 ^ failedSession.clLen.entry k) ∧
      (19#5).toNat ≤ 19 ∧ ∀ k, k ≤ 18 → failedSession.clLen.entry k < 8 := by decide +kernel
/-- BlockHeaderOnTheWire. -/
theorem witness_blockHeader :
    19 < (20#5).toNat ∧ brimming.failed = false ∧ BitsOk brimming ∧ (19#5).toNat ≤ 19 ∧
      ∀ k, k ≤ 18 → brimming.clLen.entry k < 8 :=
  ⟨by decide, rfl, by unfold BitsOk; decide, by decide, fun _ _ => show 0 < 8 by decide⟩
/-- CodeLengthSymbolsOnTheWire. -/
theorem witness_codeLengthSymbols :
    brimming.failed = false ∧ BitsOk brimming ∧ (.cl15, 15) ∈ plainCodeLengthSymbols ∧
      brimming.clCode.entry 15 < 2 ^ brimming.clLen.entry 15 ∧ (.cl18 127#7, 18, 7) ∈ extraCodeLengthSymbols 127 ∧
      127 < 2 ^ 7 ∧ brimming.clCode.entry 18 < 2 ^ brimming.clLen.entry 18 := by unfold BitsOk; decide +kernel
/-- LiteralsAndEndOfBlockOnTheWire. -/
theorem witness_literals :
    brimming.failed = false ∧ BitsOk brimming ∧ brimming.llCode.entry (255#8).toNat < 2 ^ brimming.llLen.entry (255#8).toNat ∧
      brimming.llCode.entry 256 < 2 ^ brimming.llLen.entry 256 := by unfold BitsOk; decide +kernel
/-- LengthSymbolsOnTheWire. -/
theorem witness_lengthSymbols :
    brimming.failed = false ∧ BitsOk brimming ∧ (.len285, 285) ∈ plainLengthSymbols ∧
      brimming.llCode.entry 285 < 2 ^ brimming.llLen.entry 285 ∧ (.len284 30#5, 284, 5) ∈ extraLengthSymbols 30 ∧
      30 < 2 ^ 5 ∧ brimming.llCode.entry 284 < 2 ^ brimming.llLen.entry 284 := by unfold BitsOk; decide +kernel
/-- DistanceSymbolsOnTheWire. -/
theorem witness_distanceSymbols :
    brimming.failed = false ∧ BitsOk brimming ∧ (.dist3, 3) ∈ plainDistanceSymbols ∧
      brimming.dCode.entry 3 < 2 ^ brimming.dLen.entry 3 ∧ (.dist29 8191#13, 29, 13) ∈ extraDistanceSymbols 8191 ∧
      8191 < 2 ^ 13 ∧ brimming.dCode.entry 29 < 2 ^ brimming.dLen.entry 29 := by unfold BitsOk; decide +kernel
/-- ZlibFramingOnTheWire, both clauses. -/
theorem witness_zlibFraming :
    opened.failed = false ∧ BitsOk opened ∧ opened.zlib = false ∧ ({ opened with zlib := true } : State).zlib = true := by
  unfold BitsOk; decide
/-- FeedByteEntersTheDictionary, both clauses. -/
theorem witness_feedByte :
    opened.lookaheadSize.toNat ≤ Config.L - 1 ∧ ({ opened with lookaheadSize := 256#9 } : State).lookaheadSize.toNat < Config.L - 1 ∧
      ({ opened with lookaheadSize := 257#9 } : State).lookaheadSize.toNat = Config.L - 1 := by decide
/-- FindMatchYieldsARealMatch, its clauses at the bounds. -/
theorem witness_findMatch :
    ((258#9).toNat ≤ Config.L ∧ 2 ≤ (2#9).toNat ∧ (2#9).toNat < (258#9).toNat) ∧ (2#9).toNat ≤ (2#9).toNat ∧
      2 ≤ (258#9).toNat ∧ (258#9).toNat ≤ (258#9).toNat := by decide
/-- FindMatchYieldsARealMatch: on the chain 12, 8, 4, 0 the first candidate agrees on 3 bytes, the second on 6, and past
a distance of 7 the second does not qualify. -/
theorem witness_findMatch_chain :
    Qualified chained 12 12 0 ∧ Agrees chained 12 0 3 ∧ ¬ Agrees chained 12 0 4 ∧ Qualified chained 12 12 1 ∧
      Agrees chained 12 1 6 ∧ ¬ Qualified chained 12 7 1 ∧ chainLink chained 12 2 < Config.W := by
  unfold Qualified Agrees; decide +kernel
/-- IdleTransitions, each clause. -/
theorem witness_idleTransitions :
    matchInRange 1#16 3#9 = true ∧ matchInRange 32768#16 258#9 = true ∧ 1 ≤ parsing.lookaheadSize.toNat ∧
      (258#9).toNat ≤ parsing.lookaheadSize.toNat ∧ RoomFor 1 { parsing with lzPos := 24571#16 } ∧
      RoomFor 3 { parsing with lzPos := 24569#16 } := by unfold RoomFor LzOk; decide
/-- DeferredTransitions, each clause. -/
theorem witness_deferredTransitions :
    matchInRange 32768#16 258#9 = true ∧ (258#9).toNat ≤ deferred.lookaheadSize.toNat ∧ LzOk deferred ∧
      deferred.lzPos.toNat + 5 ≤ Config.LZ_SIZE - 4 ∧ 1 ≤ deferred.lookaheadSize.toNat ∧ RoomFor 1 deferred ∧
      matchInRange deferred.savedMatchDist deferred.savedMatchLen = true ∧
      deferred.savedMatchLen.toNat - 1 ≤ deferred.lookaheadSize.toNat ∧ RoomFor 3 { deferred with lzPos := 24569#16 } := by
  unfold RoomFor LzOk; decide
/-- SavedMatchFlushRecordsTheMatch, each clause. -/
theorem witness_savedMatchFlush :
    (matchInRange deferred.savedMatchDist deferred.savedMatchLen = true ∧ RoomFor 3 deferred) ∧ opened.savedMatchLen = 0#9 ∧
      ParserOk opened ∧ opened.lookaheadSize = 0#9 := by unfold RoomFor LzOk ParserOk; decide
/-- ParseStepFollowsTheTransitionTable, in `Idle` and in `Deferred`. -/
theorem witness_parseStep :
    (1 ≤ parsing.lookaheadSize.toNat ∧ parsing.lookaheadSize.toNat ≤ Config.L ∧ parsing.dictSize.toNat ≤ Config.W ∧
      parsing.savedMatchLen = 0#9) ∧
      1 ≤ deferred.lookaheadSize.toNat ∧ deferred.lookaheadSize.toNat ≤ Config.L ∧ deferred.dictSize.toNat ≤ Config.W ∧
      Config.M ≤ deferred.savedMatchLen.toNat := by decide
/-- ParseStepConsumesLookahead, with the longest saved match and no byte of room to spare. -/
theorem witness_parseStepConsumes :
    let s := { deferred with lookaheadSize := 62#9, savedMatchLen := 63#9, lzPos := 24567#16 }
    1 ≤ s.lookaheadSize.toNat ∧ s.lookaheadSize.toNat ≤ Config.L ∧ s.dictSize.toNat ≤ Config.W ∧
      (Config.M ≤ s.savedMatchLen.toNat ∧ s.savedMatchLen.toNat < Config.LONG_COMMIT ∧ 1 ≤ s.savedMatchDist.toNat ∧
        s.savedMatchDist.toNat ≤ Config.W ∧ 2 ≤ s.lookaheadSize.toNat ∧
        s.savedMatchLen.toNat - 1 ≤ s.lookaheadSize.toNat) ∧
      LzOk s ∧ s.lzPos.toNat + 5 ≤ Config.LZ_SIZE - 4 := by unfold LzOk; decide
/-- ParseStepConsumesLookahead, the tokens of the buffer and of the session, in `Deferred`. -/
theorem witness_parseStepCovers :
    HoldsTokens [.literal 0x78#8] fiveFed ∧ Covered (List.replicate 5 0x78#8) [.literal 0x78#8] fiveFed := by
  refine ⟨holds_fiveFed, by unfold HistoryOk; decide +kernel, fun earlier l d later h => ?_, ?_⟩
  · rcases earlier with _ | ⟨x, _ | ⟨y, rest⟩⟩ <;> simp at h
  · rw [if_neg (by decide)]
    refine ⟨by decide, by decide, by decide, by decide, fun earlier l d later h => ?_⟩
    rcases earlier with _ | ⟨x, _ | ⟨y, rest⟩⟩
    · simp at h
    · simp only [List.cons_append, List.nil_append, List.cons.injEq, Token.copy.injEq] at h
      obtain ⟨rfl, ⟨rfl, rfl⟩, rfl⟩ := h
      decide
    · simp at h
/-- RecordLiteralStoresOneByte: with room, and without. -/
theorem witness_recordLiteral : LzOk opened ∧ RoomFor 1 opened ∧ LzOk nearFull ∧ ¬ RoomFor 1 nearFull := by
  unfold RoomFor LzOk; decide
/-- RecordMatchStoresThreeBytes: with room, without, and outside the range. -/
theorem witness_recordMatch :
    LzOk opened ∧ matchInRange 32768#16 258#9 = true ∧ RoomFor 3 opened ∧ LzOk nearFull ∧ ¬ RoomFor 3 nearFull ∧
      matchInRange 0#16 3#9 = false := by unfold RoomFor LzOk; decide
/-- LzAfterRecordEntersTheFlag: at the last byte below the threshold, and past it. -/
theorem witness_lzAfterRecord :
    let s := { opened with lzPos := 24571#16 }
    (s.lzFlagsPos.toNat < s.lzPos.toNat ∧ s.lzPos.toNat < Config.LZ_SIZE ∧ 1 ≤ s.flagsLeft.toNat ∧ s.flagsLeft.toNat ≤ 8) ∧
      nearFull.lzFlagsPos.toNat < nearFull.lzPos.toNat ∧ nearFull.lzPos.toNat < Config.LZ_SIZE ∧
      1 ≤ nearFull.flagsLeft.toNat ∧ nearFull.flagsLeft.toNat ≤ 8 ∧
      s.lzPos.toNat + (if s.flagsLeft = 1#4 then 1 else 0) ≤ Config.LZ_SIZE - 4 ∧
      Config.LZ_SIZE - 4 < nearFull.lzPos.toNat + (if nearFull.flagsLeft = 1#4 then 1 else 0) := by decide
/-- LzFormsStoreTheirBytes, each clause at its last index. -/
theorem witness_lzForms :
    ({ opened with lzFlagsPos := 24575#15 } : State).lzFlagsPos.toNat < Config.LZ_SIZE ∧
      ({ opened with lzPos := 24575#16 } : State).lzPos.toNat < Config.LZ_SIZE ∧
      ({ opened with lzPos := 24573#16 } : State).lzPos.toNat + 3 ≤ Config.LZ_SIZE := by decide
theorem groupFlag_literals (n : Nat) : groupFlag (List.replicate n (.literal 0#8)) = 0 := by
  induction n with
  | zero => rfl
  | succ n ih => simp [List.replicate_succ, groupFlag, ih]
theorem tokenGroups_literals (k n : Nat) (h : n ≤ 8 * k) :
    tokenGroups k (List.replicate n (.literal 0#8)) = List.replicate (n + (n + 7) / 8) 0#8 := by
  induction k generalizing n with
  | zero => obtain rfl : n = 0 := by omega
            rfl
  | succ k ih =>
    cases n with
    | zero => rfl
    | succ m =>
      rw [show m + 1 + (m + 1 + 7) / 8 = 1 + (min 8 (m + 1) + ((m + 1 - 8) + (m + 1 - 8 + 7) / 8)) by omega]
      rw [List.replicate_succ, tokenGroups, ← List.replicate_succ, List.take_replicate, List.drop_replicate,
        groupFlag_literals, List.flatMap_replicate]
      simp [tokenBytes, ih (m - 7) (by omega), Nat.add_comm 1, List.replicate_succ]
theorem tokenStream_literals (n : Nat) :
    tokenStream (List.replicate n (.literal 0#8)) = List.replicate (n + (n + 7) / 8) 0#8 := by
  rw [tokenStream, List.length_replicate, tokenGroups_literals n n (by omega)]
/-- TokenWalkCompletes: the first clause at its bound, the second for a stream that ends at the last index. -/
theorem witness_tokens :
    (24574#16).toNat ≤ Config.LZ_SIZE - 2 ∧
      let ts := List.replicate 21845 (Token.literal 0#8)
      (∀ x ∈ ts, tokenInRange x) ∧ (24576#16).toNat = (tokenStream ts).length ∧ (24576#16).toNat ≤ Config.LZ_SIZE ∧
        ∀ j, j < (24576#16).toNat → some (opened.lzByte j) = (tokenStream ts)[j]? := by
  refine ⟨by decide, fun x hx => ?_, ?_, by decide, fun j hj => ?_⟩
  · obtain rfl := List.eq_of_mem_replicate hx
    trivial
  · rw [tokenStream_literals, List.length_replicate]
    decide
  · rw [tokenStream_literals, List.getElem?_replicate, if_pos (show j < 21845 + (21845 + 7) / 8 from hj)]
    rfl
/-- RecordedTokensAreReadBack. -/
theorem witness_recordedTokens :
    (∀ x ∈ [Token.literal 0x61#8, .copy 258 32768, .copy 3 1], tokenInRange x) ∧
      1 + 3 + 2 * ([Token.literal 0x61#8, .copy 258 32768, .copy 3 1].filter fun x => match x with
        | .literal _ => false
        | .copy _ _ => true).length + 3 / 8 ≤ Config.LZ_SIZE - 4 := by
  constructor
  · intro x hx
    simp at hx
    rcases hx with rfl | rfl | rfl <;> simp [tokenInRange, Config.M, Config.L, Config.W]
  · decide
/-- RunLengthPackingReadsBack: the first entry; a list of 320 entries, one of 321, and a sequence of 321 whose list
fits. -/
theorem witness_rlePack :
    let seq := fun n => (List.range n).map fun i => BitVec.ofNat 4 (1 + i % 2)
    (rlePack [5, 5, 5, 5]).head? = some ⟨5, 0, 0⟩ ∧ (seq 320).length ≤ 320 ∧
      (rlePack ((seq 320).map fun c => c.toNat)).length ≤ 320 ∧ 320 < (rlePack ((seq 321).map fun c => c.toNat)).length ∧
      (rlePack ((List.replicate 321 (0#4)).map fun c => c.toNat)).length ≤ 320 := by decide +kernel
/-- LengthSymbolTable, each clause at its bounds. -/
theorem witness_lengthSymbolTable :
    (3 ≤ (3#9).toNat ∧ (3#9).toNat ≤ 258) ∧ (3 ≤ (258#9).toNat ∧ (258#9).toNat ≤ 258) ∧ (11 ≤ (257#9).toNat ∧ (257#9).toNat ≤ 257) ∧
      ¬(3 ≤ (2#9).toNat ∧ (2#9).toNat ≤ 258) ∧ ¬(3 ≤ (259#9).toNat ∧ (259#9).toNat ≤ 258) := by decide
/-- DistanceSymbolTable, each clause at its bounds. -/
theorem witness_distanceSymbolTable :
    (1 ≤ (1#16).toNat ∧ (1#16).toNat ≤ 4) ∧ (5 ≤ (32768#16).toNat ∧ (32768#16).toNat ≤ 32768) ∧
      ¬(1 ≤ (0#16).toNat ∧ (0#16).toNat ≤ 32768) ∧ ¬(1 ≤ (32769#16).toNat ∧ (32769#16).toNat ≤ 32768) := by decide
/-- FlushOfAnEmptyBuffer. -/
theorem witness_flushOfAnEmptyBuffer :
    opened.params.depths = .moffatKatajainen ∧ opened.failed = false ∧ BitsOk opened ∧ opened.lzPos = 1#16 ∧
      opened.lzFlagsPos = 0#15 ∧ opened.flagsLeft = 8#4 := by unfold BitsOk; decide
/-- FlushOfAnEmptyBuffer, the clause on tokens. -/
theorem witness_flushOfTokens :
    BitsOk twoLiterals ∧ HoldsTokens [.literal 0x32#8, .literal 0x61#8] twoLiterals ∧
      twoLiterals.lzPos.toNat ≤ Config.LZ_SIZE ∧ BlockTablesLegal [.literal 0x32#8, .literal 0x61#8] twoLiterals :=
  ⟨by unfold BitsOk; decide, holds_twoLiterals, by decide, legal_twoLiterals⟩
/-- FlushedBlockShape, with a literal in the buffer. -/
theorem witness_flushedBlockShape :
    let s := { opened with lzPos := 2#16, flagsLeft := 7#4, lzBuf := (Mem.filled 0#8).set 1 0x61#8 }
    BitsOk s ∧ ∃ t, exec (.flushBlock true) s = .next t ∧
      (!t.failed && depthsLegal (sortedKeys t .litLen).length (chosenDepths t (sortedKeys t .litLen))) = true :=
  ⟨by unfold BitsOk; decide, nextHas_exists (by decide +kernel)⟩
/-- RevReversesTheBits. -/
theorem witness_rev : 14 < (15#4).toNat := by decide
/-- HuffDepthsInPlace, for one key, for three, and past the array. -/
theorem witness_huffDepths :
    let s := { opened with syms := sortedFrom [1#16, 1#16, 2#16] }
    s.params.depths = .moffatKatajainen ∧ (3#9).toNat ≤ 288 ∧ s.syms.length = 288 ∧
      (∀ d ∈ moffatKatajainen ((s.syms.take (3#9).toNat).map fun p => p.key.toNat), d ≤ Config.MAX_HUFF_LEN) ∧
      (1#9).toNat = 1 ∧
      (∀ d ∈ moffatKatajainen ((s.syms.take (1#9).toNat).map fun p => p.key.toNat), d ≤ Config.MAX_HUFF_LEN) ∧
      (288#9).toNat ≤ 288 ∧ 288 < (289#9).toNat := by decide +kernel
/-- HuffDepthsMeetTheConstraint, for three keys and for one. -/
theorem witness_huffDepthsConstraint :
    let s := { opened with syms := sortedFrom [1#16, 1#16, 2#16] }
    s.syms.length = 288 ∧ (∃ t, exec (.huffDepths 3#9) s = .next t ∧ (!t.failed) = true) ∧
      ((s.syms.take (3#9).toNat).map fun p => p.key.toNat).Pairwise (· ≤ ·) ∧ 2 ≤ (3#9).toNat ∧
      (∃ t, exec (.huffDepths 1#9) s = .next t ∧ (!t.failed) = true) ∧
      ((s.syms.take (1#9).toNat).map fun p => p.key.toNat).Pairwise (· ≤ ·) ∧ (1#9).toNat = 1 :=
  ⟨by decide +kernel, nextHas_exists (by decide +kernel), by decide +kernel, by decide,
    nextHas_exists (by decide +kernel), by decide +kernel, rfl⟩
/-- OptimizeMeetsKraftWithinTheCap, on the capped table of R261 (a), and for a single symbol. -/
theorem witness_optimize :
    let s := { opened with
      clFreq := counts [34#16, 21#16, 13#16, 8#16, 5#16, 3#16, 2#16, 1#16, 1#16]
      distFreq := counts [0#16, 0#16, 5#16] }
    LegalDepths s .codeLen ∧ 2 ≤ (sortedKeys s .codeLen).length ∧ LegalDepths s .dist ∧
      (sortedKeys s .dist).length = 1 := by unfold LegalDepths; decide +kernel
/-- The three invariants of a step: the state and a step from it. -/
theorem witness_invariants :
    let s := { opened with hostIn := [.word 0x00000005#32, .word 1#32, .byte 0x61#8] }
    MemoriesOk s ∧ MirrorOk s ∧ SessionOk s ∧ ∃ t, step s = .next t ∧ (!t.failed) = true := by
  refine ⟨?_, fun j _ => rfl, ?_, nextHas_exists (by decide +kernel)⟩
  · unfold MemoriesOk; decide +kernel
  · unfold SessionOk AdlerOk ParserOk LzOk BitsOk; decide

end Sys2Proof.Tests
end

section
/-! PROOFS. What one step runs (spec/00_scope.md R11, R12; log 5 for the sequencer). -/

namespace Sys2Proof.Machine

/-- An internal operation at the front of the sequencer is what the step runs, whatever stands at the host port
(log 5). -/
theorem step_of_sequencer_cons {s : State} {i : Instr} {rest : List Instr} (hseq : s.sequencer = i :: rest) :
    step s = exec i (s.setSequencer rest) := by
  simp only [step, hseq]

/-- With no internal operation pending, the command decoded at the host port is what the step runs (R12). -/
theorem step_of_decodeHost {s : State} {i : Instr} {rest : List HostItem} (hseq : s.sequencer = [])
    (hdec : decodeHost s.hostIn = .ok (i, rest)) : step s = exec i (s.setHostIn rest) := by
  have hfetch : fetch s.hostIn = .command i rest := fetch_command.2 hdec
  simp only [step, hseq, hfetch]

/-- Settles O5: the host port's clause by what a fetch reads, the sequencer's clause by the step's order. -/
theorem stepRunsTheDecodedCommand : Obligations.StepRunsTheDecodedCommand := by
  intro s i
  constructor
  · intro rest hseq hdec
    exact step_of_decodeHost hseq hdec
  · intro rest hseq
    exact step_of_sequencer_cons hseq

end Sys2Proof.Machine
end

section
/-! PROOFS. The reset state, and the ranges every step keeps between commands (spec/10_state.md R38, R39). -/

namespace Sys2Proof.Machine

/-! ## The state after hardware reset -/

/-- The registers of the reset state are in the ranges of R38 (log 1). -/
theorem reset_sessionOk : SessionOk State.reset := by
  have hparser : ParserOk State.reset := ⟨by decide, by decide, .inl rfl⟩
  refine ⟨rfl, by decide, by unfold AdlerOk; decide, hparser, by unfold LzOk; decide, by unfold BitsOk; decide⟩

/-- A hardware reset leaves the registers of the reset state; what stays is outside the ranges of R38 (R370). -/
theorem hardwareReset_sessionOk (s : State) : SessionOk (hardwareReset s) := reset_sessionOk

/-- Settles O60: memories and mirror of the reset state are unwritten, its registers stand in their ranges. -/
theorem resetHasTheInvariants : Obligations.ResetHasTheInvariants :=
  ⟨reset_memoriesOk, fun _ _ => rfl, reset_sessionOk⟩

/-- A closed session turns every form of `COMPRESS_DATA` away (R344). -/
theorem exec_compressData_of_closed {i : Instr} {s : State} (hi : isCompressData i) (hc : s.closed = true) :
    exec i s = .next (s.reply false) := by
  have hgate : sessionGate s = some .sessionClosed := by rw [sessionGate, if_pos hc]
  rcases hi with ⟨data, rfl⟩ | rfl | ⟨len, rfl⟩
  · simp only [exec, execFeed, hgate, refuseCommand]
  · simp only [exec, execFinish, hgate, refuseCommand]
  · simp only [exec, execBadarg, hgate, refuseCommand]

/-- Settles O7: the reset state is closed, and a closed session only answers. -/
theorem resetStateRefusesCompressData : Obligations.ResetStateRefusesCompressData :=
  ⟨rfl, rfl, fun _ hi => exec_compressData_of_closed hi rfl⟩

/-! ## One host command -/

theorem SessionOk.cursors {s : State} (h : SessionOk s) : CursorsOk s := h.2.2

/-- The ranges between commands carry over to a state with the same sequencer and probe budget (R21, R38). -/
theorem SessionOk.of_cursors {s t : State} (h : SessionOk s) (hseq : t.sequencer = s.sequencer)
    (hprobes : t.maxProbes = s.maxProbes) (hc : CursorsOk t) : SessionOk t :=
  ⟨hseq.trans h.1, hprobes ▸ h.2.1, hc⟩

/-- A returned bit is outside the ranges of R38 (R96). -/
theorem SessionOk.reply {s : State} (h : SessionOk s) (b : Bool) : SessionOk (s.reply b) := h

/-- The probe budget has a floor of 1 (R311). -/
theorem probeBudget_pos (map : ProbeMap) (v : BitVec 12) : 1 ≤ (probeBudget map v).toNat := by
  have := v.isLt
  cases map <;> simp only [probeBudget, BitVec.toNat_ofNat] <;> omega

/-- What a run of `PUT_BITS` fields leaves of the ranges between commands (R38, R140). -/
theorem CursorsOk.sink {s t : State} (h : CursorsOk s) (ho : OnlySinkChanged s t) (hb : BitsOk t) : CursorsOk t := by
  obtain ⟨ha, hp, hl, _⟩ := h
  refine ⟨?_, ?_, ?_, hb⟩
  · rw [ho]; exact ha
  · rw [ho]; exact hp
  · rw [ho]; exact hl

/-- `INIT` with a sink leaves the ranges of R38, whatever stood there before (R310 to R312). -/
theorem initSession_sessionOk {flags : BitVec 16} {s t : State} (h : initSession flags s = .ok t)
    (hseq : s.sequencer = []) : SessionOk t := by
  have honly : OnlySinkChanged (clearSession (takeFlags flags s)) t := putFields_only h
  have hcur := clearSession_cursorsOk (takeFlags flags s)
  have hset : t.sequencer = s.sequencer ∧
      t.maxProbes = probeBudget s.params.probeMap (flags.extractLsb' 0 12) := by
    rw [honly, clearSession_eq, takeFlags_eq]; exact ⟨rfl, rfl⟩
  refine ⟨hset.1.trans hseq, ?_, hcur.sink honly (putFields_bitsOk h hcur.2.2.2)⟩
  rw [hset.2]
  exact probeBudget_pos _ _

/-- A run of `FEED` keeps what holds between commands (R38, R315). -/
theorem feedBytes_sessionOk {data : List Byte} {s t : State} (h : feedBytes data s = .ok t) (hs : SessionOk s) :
    SessionOk t := by
  obtain ⟨honly, hcur⟩ := feedBytes_keeps h hs.cursors
  obtain ⟨⟨hprobes, _, _, _, _, _, _, hseq, _⟩, _⟩ := honly.settings
  exact hs.of_cursors hseq hprobes hcur

/-- `FINISH` keeps what holds between commands (R38, R316). -/
theorem finishSession_sessionOk {s t : State} (h : finishSession s = .ok t) (hs : SessionOk s) : SessionOk t := by
  obtain ⟨⟨u, honly, rfl⟩, hcur⟩ := finishSession_keeps h hs.cursors
  obtain ⟨⟨hprobes, _, _, _, _, _, _, hseq, _⟩, _⟩ := honly.settings
  exact hs.of_cursors hseq hprobes hcur

/-- Every form of `COMPRESS_DATA` keeps what holds between commands (R38, R314). -/
theorem compressData_sessionOk {i : Instr} {s t : State} (hi : isCompressData i) (h : exec i s = .next t)
    (hs : SessionOk s) : SessionOk t := by
  rcases compressData_ok hi h with rfl | ⟨data, _, _, u, hu, rfl⟩ | ⟨_, _, u, hu, rfl⟩ | ⟨_, rfl⟩
  · exact hs.reply false
  · exact (feedBytes_sessionOk hu hs).reply _
  · exact (finishSession_sessionOk hu hs).reply _
  · exact hs

/-- `INIT` keeps what holds between commands, with a sink or without (R310, R342). -/
theorem init_sessionOk {p : Bool} {flags : BitVec 16} {s t : State} (h : exec (.init p flags) s = .next t)
    (hs : SessionOk s) : SessionOk t := by
  cases p with
  | false =>
    have h : Host.Outcome.next (refuseCommand .sinkMissing s) = .next t := h
    cases h
    exact hs
  | true =>
    obtain ⟨u, hu, rfl⟩ := execInit_ok h
    exact (initSession_sessionOk hu hs.1).reply true

/-- Settles O59, by what a step can be: waiting, a host command of one of its three shapes, or a hardware reset. The
sequencer is empty, so no internal operation runs. -/
theorem stepKeepsTheSessionInvariant : Obligations.StepKeepsTheSessionInvariant := by
  intro s t hs hstep
  rcases step_cases hstep with ⟨i, rest, hseq, _⟩ | ⟨_, rfl | ⟨i, rest, hdec, hexec⟩ | ⟨u, rfl⟩⟩
  · rw [hs.1] at hseq; cases hseq
  · exact hs
  · have hs' : SessionOk (s.setHostIn rest) := hs
    rcases decodeHost_shape hdec with ⟨p, flags, rfl⟩ | hi | hreserved
    · exact init_sessionOk hexec hs'
    · exact compressData_sessionOk hi hexec hs'
    · rw [hreserved] at hexec
      cases hexec
      exact hs'
  · exact hardwareReset_sessionOk u

end Sys2Proof.Machine
end

section
/-! PROOFS. Run-length packing loses nothing (spec/45_block_encoder.md R278, spec/30_encoding.md R113). The idea: the
entries written so far, read back, followed by the pending repeats and the pending zeros, are the code lengths taken in
so far; every list here has the last code length first. -/

namespace Sys2Proof.Machine

/-! ## Reading packed entries back -/

/-- The code lengths `before` (last first) continued by what one packed entry stands for (R113). -/
def extendBy (p : PackedEntry) (before : List Nat) : List Nat :=
  if p.sym = 16 then List.replicate (p.extra + 3) (before.headD 0) ++ before
  else if p.sym = 17 then List.replicate (p.extra + 3) 0 ++ before
  else if p.sym = 18 then List.replicate (p.extra + 11) 0 ++ before
  else p.sym :: before

/-- What the entries of `RLE_PACK` (last first) stand for, last code length first. -/
def readBack (out : List PackedEntry) : List Nat := out.foldr extendBy []

theorem unpackAfter_eq_foldl (ps : List PackedEntry) (before : List Nat) :
    unpackAfter ps before = (ps.foldl (fun b p => extendBy p b) before).reverse := by
  induction ps generalizing before with
  | nil => rfl
  | cons p ps ih =>
    rw [unpackAfter, List.foldl_cons, extendBy]
    split_ifs <;> exact ih _

theorem unpackAfter_reverse (out : List PackedEntry) : unpackAfter out.reverse [] = (readBack out).reverse := by
  rw [unpackAfter_eq_foldl, List.foldl_reverse]
  rfl

theorem extendBy_repeat (b n : Nat) (before : List Nat) :
    extendBy ⟨16, b, n⟩ before = List.replicate (n + 3) (before.headD 0) ++ before := rfl
theorem extendBy_zeros (b n : Nat) (before : List Nat) :
    extendBy ⟨17, b, n⟩ before = List.replicate (n + 3) 0 ++ before := rfl
theorem extendBy_manyZeros (b n : Nat) (before : List Nat) :
    extendBy ⟨18, b, n⟩ before = List.replicate (n + 11) 0 ++ before := rfl

/-- An entry below 16 stands for itself. -/
theorem extendBy_plain {c : Nat} (hc : c < 16) (b n : Nat) (before : List Nat) :
    extendBy ⟨c, b, n⟩ before = c :: before := by
  rw [extendBy, if_neg (by simp only; omega), if_neg (by simp only; omega), if_neg (by simp only; omega)]

theorem readBack_cons (p : PackedEntry) (out : List PackedEntry) : readBack (p :: out) = extendBy p (readBack out) := rfl

theorem readBack_replicate {c : Nat} (hc : c < 16) (n : Nat) (out : List PackedEntry) :
    readBack (List.replicate n ⟨c, 0, 0⟩ ++ out) = List.replicate n c ++ readBack out := by
  induction n with
  | zero => rfl
  | succ n ih =>
    rw [List.replicate_succ, List.cons_append, readBack_cons, ih, extendBy_plain hc]
    rfl

/-! ## The invariant -/

/-- An entry of the code-length alphabet whose extra value fits its field (R113, R122). -/
def EntryLegal (p : PackedEntry) : Prop :=
  p.sym ≤ 18 ∧ p.extra < 2 ^ p.extraBits ∧
    p.extraBits = (if p.sym = 16 then 2 else if p.sym = 17 then 3 else if p.sym = 18 then 7 else 0)

/-- The registers of `RLE_PACK` after the code lengths `taken` (last first): nothing is lost, at most one kind of run is
pending and it still fits one entry, a pending repeat has its value before it, and the list is no longer than what was
taken (R278). -/
structure RleReads (taken : List Nat) (r : RleState) : Prop where
  reads : List.replicate r.zeros 0 ++ (List.replicate r.rep r.prev ++ readBack r.out) = taken
  oneRun : r.zeros = 0 ∨ r.rep = 0
  zerosFit : r.zeros ≤ 138
  repFits : r.rep ≤ 6
  repeated : r.rep ≠ 0 → r.prev < 16 ∧ (readBack r.out).head? = some r.prev
  legal : ∀ p ∈ r.out, EntryLegal p
  firstIsNoRepeat : ∀ p, r.out.getLast? = some p → p.sym ≠ 16
  short : r.out.length + r.zeros + r.rep ≤ taken.length

theorem entryLegal_plain {c : Nat} (hc : c < 16) : EntryLegal ⟨c, 0, 0⟩ := by
  refine ⟨by simp only; omega, Nat.one_pos, ?_⟩
  rw [if_neg (by simp only; omega), if_neg (by simp only; omega), if_neg (by simp only; omega)]

/-- A repeat, a short and a long run of zeros within their bounds (R113). -/
theorem entryLegal_repeat {n : Nat} (hn : n < 4) : EntryLegal ⟨16, 2, n⟩ := ⟨Nat.le_of_ble_eq_true rfl, hn, rfl⟩
theorem entryLegal_zeros {n : Nat} (hn : n < 8) : EntryLegal ⟨17, 3, n⟩ := ⟨Nat.le_of_ble_eq_true rfl, hn, rfl⟩
theorem entryLegal_manyZeros {n : Nat} (hn : n < 128) : EntryLegal ⟨18, 7, n⟩ := ⟨Nat.le_of_ble_eq_true rfl, hn, rfl⟩

/-- Entries in front of a list that has entries leave its first written one where it is. -/
theorem firstIsNoRepeat_append {new out : List PackedEntry} (hnew : ∀ p ∈ new, p.sym ≠ 16)
    (hout : ∀ p, out.getLast? = some p → p.sym ≠ 16) : ∀ p, (new ++ out).getLast? = some p → p.sym ≠ 16 := by
  intro p hp
  rw [List.getLast?_append] at hp
  cases hlast : out.getLast? with
  | none =>
    rw [hlast] at hp
    exact hnew p (List.mem_of_getLast? (by simpa using hp))
  | some q =>
    rw [hlast] at hp
    obtain rfl : q = p := by simpa using hp
    exact hout q hlast

variable {taken : List Nat} {r : RleState}

/-- `FLUSH_REP` writes the pending repeats and loses nothing. -/
theorem RleReads.flushRep (h : RleReads taken r) :
    RleReads taken (flushRep r) ∧ (flushRep r).rep = 0 ∧ (flushRep r).zeros = r.zeros ∧ (flushRep r).prev = r.prev := by
  by_cases h0 : r.rep = 0
  · rw [Machine.flushRep, if_pos h0]
    exact ⟨h, h0, rfl, rfl⟩
  obtain ⟨hprev, hhead⟩ := h.repeated h0
  have hz : r.zeros = 0 := h.oneRun.resolve_right h0
  have hreads := h.reads
  have hshort := h.short
  have hfits := h.repFits
  by_cases h3 : r.rep < 3
  · rw [Machine.flushRep, if_neg h0, if_pos h3]
    refine ⟨⟨?_, .inr rfl, h.zerosFit, by simp, by simp, ?_, ?_, ?_⟩, rfl, rfl, rfl⟩
    · rw [← hreads, readBack_replicate hprev]; rfl
    · intro p hp
      rcases List.mem_append.1 hp with hp | hp
      · rw [List.eq_of_mem_replicate hp]; exact entryLegal_plain hprev
      · exact h.legal p hp
    · refine firstIsNoRepeat_append ?_ h.firstIsNoRepeat
      intro p hp
      rw [List.eq_of_mem_replicate hp]; simp only; omega
    · simp only [List.length_append, List.length_replicate]; omega
  · rw [Machine.flushRep, if_neg h0, if_neg h3]
    refine ⟨⟨?_, .inr rfl, h.zerosFit, by simp, by simp, ?_, ?_, ?_⟩, rfl, rfl, rfl⟩
    · have hd : (readBack r.out).headD 0 = r.prev := by rw [List.headD_eq_head?_getD, hhead]; rfl
      rw [← hreads, readBack_cons, extendBy_repeat, hd, Nat.sub_add_cancel (by omega)]; rfl
    · intro p hp
      rcases List.mem_cons.1 hp with rfl | hp
      · exact entryLegal_repeat (by omega)
      · exact h.legal p hp
    · cases hout : r.out with
      | nil => rw [hout] at hhead; cases hhead
      | cons q qs =>
        intro p hp
        rw [List.getLast?_cons_cons, ← hout] at hp
        exact h.firstIsNoRepeat p hp
    · simp only [List.length_cons]; omega

/-- `FLUSH_ZERO` writes the pending zeros and loses nothing. -/
theorem RleReads.flushZero (h : RleReads taken r) :
    RleReads taken (flushZero r) ∧ (flushZero r).zeros = 0 ∧ (flushZero r).rep = r.rep ∧
      (flushZero r).prev = r.prev := by
  by_cases h0 : r.zeros = 0
  · rw [Machine.flushZero, if_pos h0]
    exact ⟨h, h0, rfl, rfl⟩
  have hrep : r.rep = 0 := h.oneRun.resolve_left h0
  have hreads := h.reads
  have hshort := h.short
  have hfits := h.zerosFit
  rw [hrep] at hreads
  have written : ∀ new : List PackedEntry, readBack (new ++ r.out) = List.replicate r.zeros 0 ++ readBack r.out →
      (∀ p ∈ new, EntryLegal p ∧ p.sym ≠ 16) → new.length ≤ r.zeros →
      RleReads taken { r with out := new ++ r.out, zeros := 0 } := by
    intro new hnew hlegal hlen
    refine ⟨?_, .inl rfl, by simp, by simp only; omega, fun hr => absurd hrep hr, ?_,
      firstIsNoRepeat_append (fun p hp => (hlegal p hp).2) h.firstIsNoRepeat, ?_⟩
    · simp only [hrep, hnew]; exact hreads
    · intro p hp
      rcases List.mem_append.1 hp with hp | hp
      · exact (hlegal p hp).1
      · exact h.legal p hp
    · simp only [List.length_append]; omega
  by_cases h3 : r.zeros < 3
  · rw [Machine.flushZero, if_neg h0, if_pos h3]
    refine ⟨written _ (readBack_replicate (by decide) _ _) ?_ (by simp), rfl, rfl, rfl⟩
    intro p hp
    rw [List.eq_of_mem_replicate hp]
    exact ⟨entryLegal_plain (by decide), by decide⟩
  by_cases h10 : r.zeros ≤ 10
  · rw [Machine.flushZero, if_neg h0, if_neg h3, if_pos h10]
    refine ⟨written [⟨17, 3, r.zeros - 3⟩] ?_ ?_ (by simp only [List.length_singleton]; omega), rfl, rfl, rfl⟩
    · rw [List.singleton_append, readBack_cons, extendBy_zeros, Nat.sub_add_cancel (by omega)]
    · intro p hp
      rw [List.mem_singleton.1 hp]
      exact ⟨entryLegal_zeros (by omega), by simp⟩
  · rw [Machine.flushZero, if_neg h0, if_neg h3, if_neg h10]
    refine ⟨written [⟨18, 7, r.zeros - 11⟩] ?_ ?_ (by simp only [List.length_singleton]; omega), rfl, rfl, rfl⟩
    · rw [List.singleton_append, readBack_cons, extendBy_manyZeros, Nat.sub_add_cancel (by omega)]
    · intro p hp
      rw [List.mem_singleton.1 hp]
      exact ⟨entryLegal_manyZeros (by omega), by simp⟩

/-! ## One code length -/

/-- Between code lengths a run is not yet complete, and `prev` is the last code length, 255 before the first (R278). -/
structure RleBetween (taken : List Nat) (r : RleState) : Prop extends RleReads taken r where
  zerosOpen : r.zeros < 138
  repOpen : r.rep < 6
  prevIsLast : r.prev = taken.headD 0xFF

/-- The flushes do not look at, and the step sets, `prev` (R278). -/
theorem flushZero_withPrev (r : RleState) (c : Nat) : flushZero { r with prev := c } = { flushZero r with prev := c } := by
  simp only [flushZero]
  split_ifs <;> rfl

/-- What is taken as a zero: one more pending zero, written when the run is full. -/
theorem rleStep_zero_eq (r : RleState) :
    rleStep r 0 = (fun b : RleState => if b.zeros = 138 then flushZero b else b)
      { flushRep r with zeros := (flushRep r).zeros + 1, prev := 0 } := by
  simp only [rleStep, if_true]
  split_ifs
  · exact (flushZero_withPrev { flushRep r with zeros := (flushRep r).zeros + 1 } 0).symm
  · rfl

/-- What is taken where the code length differs from the one before: everything pending is written, then its entry. -/
theorem rleStep_new_eq {c : Nat} (h0 : c ≠ 0) (hc : c ≠ (flushZero r).prev) :
    rleStep r c = { flushRep (flushZero r) with out := ⟨c, 0, 0⟩ :: (flushRep (flushZero r)).out, prev := c } := by
  simp only [rleStep, if_neg h0, if_pos hc]

theorem flushRep_prev (r : RleState) : (flushRep r).prev = r.prev := by
  simp only [flushRep]
  split_ifs <;> rfl

theorem withPrev_same {r : RleState} {c : Nat} (h : r.prev = c) : { r with prev := c } = r := by
  rw [← h]

/-- What is taken where the code length is the one before: one more pending repeat, written when the run is full. -/
theorem rleStep_same_eq {c : Nat} (h0 : c ≠ 0) (hc : c = (flushZero r).prev) :
    rleStep r c = (fun b : RleState => if b.rep = 6 then flushRep b else b)
      { flushZero r with rep := (flushZero r).rep + 1 } := by
  rw [rleStep, if_neg h0]
  simp only
  rw [if_neg (not_not.2 hc)]
  split_ifs
  · exact withPrev_same ((flushRep_prev _).trans hc.symm)
  · exact withPrev_same hc.symm

theorem rleStep_zero (h : RleBetween taken r) : RleBetween (0 :: taken) (rleStep r 0) := by
  obtain ⟨ha, hrep, hzeros, _⟩ := h.toRleReads.flushRep
  have hopen := h.zerosOpen
  have hb : RleReads (0 :: taken) { flushRep r with zeros := (flushRep r).zeros + 1, prev := 0 } := by
    refine ⟨?_, .inr hrep, by simp only; omega, by simp only; omega, fun hr => absurd hrep hr, ha.legal,
      ha.firstIsNoRepeat, ?_⟩
    · have := ha.reads
      rw [hrep] at this
      simp only [hrep, List.replicate_succ, List.cons_append]
      exact congrArg (List.cons 0) this
    · have := ha.short
      simp only [List.length_cons]; omega
  rw [rleStep_zero_eq]
  simp only
  split_ifs with hfull
  · obtain ⟨hd, hz, hr, hp⟩ := hb.flushZero
    exact ⟨hd, by rw [hz]; omega, by rw [hr]; simp only [hrep]; omega, hp⟩
  · exact ⟨hb, by simp only; omega, by simp only [hrep]; omega, rfl⟩

theorem rleStep_nonzero {c : Nat} (h : RleBetween taken r) (h0 : c ≠ 0) (h16 : c < 16) :
    RleBetween (c :: taken) (rleStep r c) := by
  obtain ⟨ha, hzeros, hrep, hprev⟩ := h.toRleReads.flushZero
  have hopen := h.repOpen
  by_cases hc : c = (flushZero r).prev
  · have htaken : taken.head? = some c := by
      rw [hc, hprev, h.prevIsLast]
      cases taken with
      | nil => rw [hprev, h.prevIsLast] at hc; simp at hc; omega
      | cons x xs => rfl
    have hb : RleReads (c :: taken) { flushZero r with rep := (flushZero r).rep + 1 } := by
      refine ⟨?_, .inl hzeros, by simp only; omega, by simp only; omega, fun _ => ⟨hc ▸ h16, ?_⟩, ha.legal,
        ha.firstIsNoRepeat, ?_⟩
      · have := ha.reads
        rw [hzeros] at this
        simp only [hzeros, List.replicate_succ, List.cons_append, ← hc]
        rw [← hc] at this
        exact congrArg (List.cons c) this
      · by_cases hr : (flushZero r).rep = 0
        · have := ha.reads
          rw [hzeros, hr] at this
          simp only [← hc]
          rw [← htaken, ← this]; rfl
        · exact (ha.repeated hr).2
      · have := ha.short
        simp only [List.length_cons]; omega
    rw [rleStep_same_eq h0 hc]
    simp only
    split_ifs with hfull
    · obtain ⟨hd, hr, hz, hp⟩ := hb.flushRep
      exact ⟨hd, by rw [hz]; simp only [hzeros]; omega, by rw [hr]; omega, hp.trans hc.symm⟩
    · exact ⟨hb, by simp only [hzeros]; omega, by simp only at hfull ⊢; omega, hc.symm⟩
  · obtain ⟨hb, hr, hz, _⟩ := ha.flushRep
    rw [rleStep_new_eq h0 hc]
    refine ⟨⟨?_, .inr hr, by simp only; omega, by simp only; omega, fun hn => absurd hr hn, ?_, ?_, ?_⟩,
      by simp only; omega, by simp only; omega, rfl⟩
    · have := hb.reads
      rw [hr, hz, hzeros] at this
      simp only [hr, hz, hzeros, readBack_cons, extendBy_plain h16]
      exact congrArg (List.cons c) this
    · intro p hp
      rcases List.mem_cons.1 hp with rfl | hp
      · exact entryLegal_plain h16
      · exact hb.legal p hp
    · exact firstIsNoRepeat_append (new := [⟨c, 0, 0⟩])
        (fun p hp => by rw [List.mem_singleton.1 hp]; simp only; omega) hb.firstIsNoRepeat
    · have := hb.short
      simp only [List.length_cons]; omega

/-- One code length is taken in and nothing is lost (R278). -/
theorem rleStep_between {c : Nat} (h : RleBetween taken r) (h16 : c < 16) : RleBetween (c :: taken) (rleStep r c) := by
  by_cases h0 : c = 0
  · rw [h0]; exact rleStep_zero h
  · exact rleStep_nonzero h h0 h16

theorem foldl_rleStep_between {seq : List Nat} (h : RleBetween taken r) (h16 : ∀ c ∈ seq, c < 16) :
    RleBetween (seq.reverse ++ taken) (seq.foldl rleStep r) := by
  induction seq generalizing taken r with
  | nil => exact h
  | cons c seq ih =>
    rw [List.reverse_cons, List.append_assoc]
    exact ih (rleStep_between h (h16 c (List.mem_cons_self ..))) fun d hd => h16 d (List.mem_cons_of_mem _ hd)

/-! ## The whole list -/

/-- The registers before the first code length (R278). -/
theorem rleBetween_start : RleBetween [] { out := [], zeros := 0, rep := 0, prev := 0xFF } :=
  ⟨⟨rfl, .inl rfl, by simp, by simp, by simp, by simp, by simp, by simp⟩, by simp, by simp, rfl⟩

/-- The packed list is what the loop wrote, with the run that was still pending (R278). -/
theorem rlePack_eq_flushed {seq : List Nat} (h16 : ∀ c ∈ seq, c < 16) :
    ∃ e, rlePack seq = e.out.reverse ∧ RleReads seq.reverse e ∧ e.zeros = 0 ∧ e.rep = 0 := by
  have hend := (foldl_rleStep_between rleBetween_start h16).toRleReads
  rw [List.append_nil] at hend
  rw [rlePack]
  split_ifs with hrep
  · obtain ⟨he, hr, hz, _⟩ := hend.flushRep
    exact ⟨_, rfl, he, hz.trans (hend.oneRun.resolve_right hrep), hr⟩
  · obtain ⟨he, hz, hr, _⟩ := hend.flushZero
    exact ⟨_, rfl, he, hz, hr.trans (not_not.1 hrep)⟩

/-- `RLE_PACK` loses nothing, its entries are legal, none repeats a value before there is one, and there are no more of
them than code lengths (R113, R122, R278). -/
theorem rlePack_spec {seq : List Nat} (h16 : ∀ c ∈ seq, c < 16) :
    unpackAfter (rlePack seq) [] = seq ∧ (∀ p ∈ rlePack seq, EntryLegal p) ∧
      (∀ p, (rlePack seq).head? = some p → p.sym ≠ 16) ∧ (rlePack seq).length ≤ seq.length := by
  obtain ⟨e, hpack, he, hz, hrep⟩ := rlePack_eq_flushed h16
  have hreads := he.reads
  have hshort := he.short
  rw [hz, hrep] at hreads
  rw [hpack]
  refine ⟨?_, fun p hp => he.legal p (List.mem_reverse.1 hp), ?_, ?_⟩
  · rw [unpackAfter_reverse, show readBack e.out = seq.reverse from hreads, List.reverse_reverse]
  · rw [List.head?_reverse]; exact he.firstIsNoRepeat
  · simp only [List.length_reverse] at hshort ⊢; omega

/-- Settles O48: the packed list reads back and is legal by the invariant of the packing loop; the fault is the test of
the row. -/
theorem runLengthPackingReadsBack : Obligations.RunLengthPackingReadsBack := by
  intro seq s
  obtain ⟨hreads, hlegal, hfirst, hshort⟩ :=
    rlePack_spec (seq := seq.map fun c => c.toNat) (by
      intro c hc
      obtain ⟨v, _, rfl⟩ := List.mem_map.1 hc
      exact v.isLt)
  rw [List.length_map] at hshort
  refine ⟨fun h => Nat.le_trans hshort h, ?_, ?_⟩
  · intro hover
    exact if_pos hover
  · intro hfits
    have hrun : exec (.rlePack seq) s = .next (s.setPacked (rlePack (seq.map fun c => c.toNat)) s.clFreq) :=
      if_neg (Nat.not_lt.2 hfits)
    exact ⟨_, hrun, rfl, hreads, hlegal, hfirst⟩

end Sys2Proof.Machine
end

section
/-! PROOFS. The calls on the sink port that a run makes, from any state (spec/40_bitsink.md R141, R142, R144): full
buffers until one is rejected, then none. -/

namespace Sys2Proof.Machine

/-- Between two drains by hand: a session that had failed calls the sink no more; one that had not hands over full
buffers only, and the first rejection leaves nothing staged (R141, R142, R144). -/
def PutsFull (s t : State) : Prop :=
  (s.failed = true → t.failed = true ∧ t.sinkLog = s.sinkLog ∧ t.outPos = s.outPos) ∧
    (s.failed = false → FullBuffersPut s t ∧ (t.failed = true → t.outPos = 0#13))

/-- Work that neither calls the sink nor fails; staging is possible while the session has not failed. -/
theorem PutsFull.of_quiet {s t : State} (hf : t.failed = s.failed) (hl : t.sinkLog = s.sinkLog)
    (ho : s.failed = true → t.outPos = s.outPos) : PutsFull s t := by
  refine ⟨fun h => ⟨hf.trans h, hl, ho h⟩, fun h => ⟨⟨[], by simp [hl], by simp, by simp, by simp [hf, h]⟩, ?_⟩⟩
  intro ht
  rw [hf, h] at ht
  cases ht

theorem PutsFull.refl (s : State) : PutsFull s s := .of_quiet rfl rfl fun _ => rfl

theorem PutsFull.trans {s t u : State} (h : PutsFull s t) (k : PutsFull t u) : PutsFull s u := by
  constructor
  · intro hs
    obtain ⟨h1, h2, h3⟩ := h.1 hs
    obtain ⟨k1, k2, k3⟩ := k.1 h1
    exact ⟨k1, k2.trans h2, k3.trans h3⟩
  · intro hs
    obtain ⟨⟨calls, hlog, hfull, hacc, hrej⟩, hpos⟩ := h.2 hs
    by_cases ht : t.failed = true
    · obtain ⟨k1, k2, k3⟩ := k.1 ht
      exact ⟨⟨calls, k2.trans hlog, hfull, hacc, by rw [k1, ← hrej, ht]⟩, fun _ => k3.trans (hpos ht)⟩
    · have ht : t.failed = false := by simpa using ht
      exact ⟨FullBuffersPut.trans ⟨calls, hlog, hfull, hacc, hrej⟩ ht (k.2 ht).1, (k.2 ht).2⟩

/-- A failed session stays failed. -/
theorem PutsFull.not_failed {s t : State} (h : PutsFull s t) (ht : t.failed = false) : s.failed = false := by
  cases hs : s.failed with
  | false => rfl
  | true => rw [(h.1 hs).1] at ht; cases ht

/-- The sink's log only grows. -/
theorem PutsFull.log_grows {s t : State} (h : PutsFull s t) : ∃ calls, t.sinkLog = s.sinkLog ++ calls := by
  cases hs : s.failed with
  | true => exact ⟨[], by simp [(h.1 hs).2.1]⟩
  | false =>
    obtain ⟨⟨calls, hlog, _⟩, _⟩ := h.2 hs
    exact ⟨calls, hlog⟩

/-! ## Changes outside the BitSink -/

theorem OnlyLzChanged.putsFull {s t : State} (h : OnlyLzChanged s t) : PutsFull s t := by
  rw [h]; exact .of_quiet rfl rfl fun _ => rfl

theorem OnlyTablesChanged.putsFull {s t : State} (h : OnlyTablesChanged s t) : PutsFull s t := by
  rw [h]; exact .of_quiet rfl rfl fun _ => rfl

/-! ## The BitSink -/

theorem outByte_putsFull {b : Byte} {s t : State} (h : outByte b s = .ok t) : PutsFull s t := by
  cases hf : s.failed with
  | true =>
    rw [outByte_failed b s hf] at h
    cases h; exact .refl _
  | false =>
    have hpos : s.outPos.toNat < Config.OUT_SIZE := by
      by_contra hn
      rw [outByte, if_neg (by simp [hf]), if_neg hn] at h
      cases h
    refine ⟨fun hs => absurd (hf.symm.trans hs) (by decide), fun _ => ⟨?_, fun ht => ?_⟩⟩
    · obtain ⟨u, hu, _, _, _, _, _, hput, _⟩ := outByte_spec b s hf hpos
      rw [hu] at h
      cases h; exact hput
    · rw [outByte, if_neg (by simp [hf]), if_pos hpos] at h
      simp only at h
      split at h
      · exact (drain_outPos h).resolve_left (by simp [hf])
      · cases h
        rw [State.setOut_failed, hf] at ht
        cases ht

theorem setBits_putsFull (s : State) (b : BitVec 24) (n : BitVec 5) : PutsFull s (s.setBits b n) :=
  .of_quiet rfl rfl fun _ => rfl

theorem spill_putsFull {k : Nat} {s t : State} (h : spill k s = .ok t) : PutsFull s t := by
  induction k generalizing s with
  | zero => cases h; exact .refl _
  | succ k ih =>
    unfold spill at h
    split at h
    · cases h; exact .refl _
    · obtain ⟨u, hu, h⟩ := bind_ok.1 h
      exact ((outByte_putsFull hu).trans (setBits_putsFull _ _ _)).trans (ih h)

theorem putBits_putsFull {v n : Nat} {s t : State} (h : putBits v n s = .ok t) : PutsFull s t := by
  unfold putBits at h
  split at h
  · cases h
  split at h
  · cases h; exact .refl _
  split at h
  · cases h
  · exact (setBits_putsFull _ _ _).trans (spill_putsFull h)

theorem putFields_putsFull {fs : List (Nat × Nat)} {s t : State} (h : putFields fs s = .ok t) : PutsFull s t := by
  induction fs generalizing s with
  | nil => cases h; exact .refl _
  | cons f fs ih =>
    obtain ⟨v, n⟩ := f
    obtain ⟨u, hu, h⟩ := bind_ok.1 h
    exact (putBits_putsFull hu).trans (ih h)

theorem align_putsFull {s t : State} (h : align s = .ok t) : PutsFull s t := by
  unfold align at h
  split at h
  · cases h; exact .refl _
  · exact putBits_putsFull h

/-! ## The block encoder and the LZ code buffer -/

theorem flushBlock_putsFull {last : Bool} {s t : State} (h : flushBlock last s = .ok t) : PutsFull s t := by
  obtain ⟨c, stop, ts, built, fields, sent, hc, _, hb, _, hs, rfl⟩ := flushBlock_ok h
  obtain ⟨_, rfl, _⟩ := closeTokenStream_ok hc
  have hclose := (OnlyLzChanged.setLzBuf s
    (s.lzBuf.set s.lzFlagsPos.toNat (alignFlags (s.lzByte s.lzFlagsPos.toNat) s.flagsLeft.toNat))).putsFull
  exact ((hclose.trans (buildTables_only hb).putsFull).trans (putFields_putsFull hs)).trans
    (lzReset_only sent).putsFull

theorem enterFlag_only {s t : State} {m : Bool} (h : enterFlag m s = .ok t) : OnlyLzChanged s t := by
  unfold enterFlag at h
  split at h
  · cases h
  · obtain ⟨f, _, h⟩ := bind_ok.1 h
    obtain ⟨x, hx, h⟩ := bind_ok.1 h
    rw [← (pure_ok _ _).1 h]
    exact (writeLz_only hx).trans (.setLzCursors _ _ _ _)

theorem rollGroup_only {s t : State} (h : rollGroup s = .ok t) : OnlyLzChanged s t := by
  unfold rollGroup at h
  split at h
  · obtain ⟨x, hx, h⟩ := bind_ok.1 h
    rw [← (pure_ok _ _).1 h]
    exact (writeLz_only hx).trans (.setLzCursors _ _ _ _)
  · cases h; exact .refl _

theorem lzAfterRecord_putsFull {s t : State} {m : Bool} (h : lzAfterRecord m s = .ok t) : PutsFull s t := by
  obtain ⟨u, hu, h⟩ := bind_ok.1 h
  obtain ⟨v, hv, h⟩ := bind_ok.1 h
  refine ((enterFlag_only hu).trans (rollGroup_only hv)).putsFull.trans ?_
  split at h
  · exact flushBlock_putsFull h
  · cases h; exact .refl _

theorem recordLiteral_putsFull {s t : State} {v : Byte} (h : recordLiteral v s = .ok t) : PutsFull s t := by
  obtain ⟨u, hu, h⟩ := bind_ok.1 h
  exact (appendLz_only hu).putsFull.trans (lzAfterRecord_putsFull h)

theorem recordMatch_putsFull {s t : State} {d l : Nat} (h : recordMatch d l s = .ok t) : PutsFull s t := by
  unfold recordMatch at h
  split at h
  · obtain ⟨u, hu, h⟩ := bind_ok.1 h
    exact (appendLz_only hu).putsFull.trans (lzAfterRecord_putsFull h)
  · cases h

/-! ## The parser -/

theorem advance_putsFull {adv : Nat} {s t : State} (h : advance adv s = .ok t) : PutsFull s t := by
  obtain ⟨_, rfl⟩ := advance_iff.1 h
  exact .of_quiet rfl rfl fun _ => rfl

theorem setSaved_putsFull (s : State) (v : BitVec 8) (d : BitVec 16) (l : BitVec 9) : PutsFull s (s.setSaved v d l) :=
  .of_quiet rfl rfl fun _ => rfl

/-- Whatever transition runs, its sink calls are those of the tokens it records (R212). -/
theorem parseTransition_putsFull {d l : Nat} {better : Bool} {s t : State}
    (h : parseTransition d l better s = .ok t) : PutsFull s t := by
  unfold parseTransition at h
  split at h
  · split at h
    · split at h
      · obtain ⟨u, hu, h⟩ := bind_ok.1 h
        exact (recordMatch_putsFull hu).trans (advance_putsFull h)
      · exact (setSaved_putsFull _ _ _ _).trans (advance_putsFull h)
    · obtain ⟨u, hu, h⟩ := bind_ok.1 h
      exact (recordLiteral_putsFull hu).trans (advance_putsFull h)
  · split at h
    · split at h
      · obtain ⟨u, hu, h⟩ := bind_ok.1 h
        obtain ⟨v, hv, h⟩ := bind_ok.1 h
        exact ((recordLiteral_putsFull hu).trans (recordMatch_putsFull hv)).trans
          ((setSaved_putsFull _ _ _ _).trans (advance_putsFull h))
      · obtain ⟨u, hu, h⟩ := bind_ok.1 h
        exact (recordLiteral_putsFull hu).trans ((setSaved_putsFull _ _ _ _).trans (advance_putsFull h))
    · obtain ⟨u, hu, h⟩ := bind_ok.1 h
      exact (recordMatch_putsFull hu).trans ((setSaved_putsFull _ _ _ _).trans (advance_putsFull h))

/-- The finder writes at most its terminal mark (R185, R191). -/
theorem findMatch_state {pos : BitVec 15} {a b c d : Nat} {s : State} {r : State × Nat × Nat}
    (h : findMatch pos a b c d s = .ok r) : ∃ m, r.1 = applyMark m s := by
  unfold findMatch at h
  split at h
  · cases h; exact ⟨none, rfl⟩
  split at h
  · cases h
  · cases h; exact ⟨_, rfl⟩

theorem applyMark_putsFull (m : Option Nat) (s : State) : PutsFull s (applyMark m s) := by
  rw [applyMark_only]; exact .of_quiet rfl rfl fun _ => rfl

/-- `PARSE_STEP` taken apart, in any state: the finder's mark, then a transition (R201). -/
theorem parseStep_ok {s t : State} (h : parseStep s = .ok t) :
    ∃ m d l better, parseTransition d l better (applyMark m s) = .ok t := by
  unfold parseStep at h
  split at h
  · cases h
  · obtain ⟨r, hr, h⟩ := bind_ok.1 h
    obtain ⟨m, hm⟩ := findMatch_state hr
    rw [hm] at h
    exact ⟨m, _, _, _, h⟩

theorem parseStep_putsFull {s t : State} (h : parseStep s = .ok t) : PutsFull s t := by
  obtain ⟨m, d, l, better, h⟩ := parseStep_ok h
  exact (applyMark_putsFull m s).trans (parseTransition_putsFull h)

theorem parseAll_putsFull {k : Nat} {s t : State} (h : parseAll k s = .ok t) : PutsFull s t := by
  induction k generalizing s with
  | zero => cases h; exact .refl _
  | succ k ih =>
    unfold parseAll at h
    split at h
    · cases h; exact .refl _
    · obtain ⟨u, hu, h⟩ := bind_ok.1 h
      exact (parseStep_putsFull hu).trans (ih h)

theorem savedMatchFlush_putsFull {s t : State} (h : savedMatchFlush s = .ok t) : PutsFull s t := by
  unfold savedMatchFlush at h
  split at h
  · cases h; exact .refl _
  · obtain ⟨u, hu, h⟩ := bind_ok.1 h
    rw [← (pure_ok _ _).1 h]
    exact (recordMatch_putsFull hu).trans (setSaved_putsFull _ _ _ _)

/-! ## The bytes of a `FEED` -/

theorem takeByte_outPos (b : Byte) (s : State) : (takeByte b s).outPos = s.outPos := by
  unfold takeByte
  simp only
  split
  · rw [insertPosition_only, storeDictByte_only]; rfl
  · rw [storeDictByte_only]; rfl

theorem takeByte_putsFull (b : Byte) (s : State) : PutsFull s (takeByte b s) := by
  obtain ⟨_, _, _, _, _, _, _, _, _, hlog, hfailed, _⟩ := takeByte_fields b s
  exact .of_quiet hfailed hlog fun _ => takeByte_outPos b s

theorem feedByte_putsFull {b : Byte} {s t : State} (h : feedByte b s = .ok t) : PutsFull s t := by
  unfold feedByte at h
  split at h
  · cases h
  simp only at h
  split at h
  · exact (takeByte_putsFull b s).trans (parseStep_putsFull h)
  · cases h; exact takeByte_putsFull b s

theorem feedBytes_putsFull {data : List Byte} {s t : State} (h : feedBytes data s = .ok t) : PutsFull s t := by
  induction data generalizing s with
  | nil => cases h; exact .refl _
  | cons b bs ih =>
    obtain ⟨u, hu, h⟩ := bind_ok.1 h
    exact (feedByte_putsFull hu).trans (ih h)

end Sys2Proof.Machine
end

section
/-! PROOFS. Hardware reset between commands and inside one (spec/70_reset_and_hazards.md R370, R371, R383; log 10). -/

namespace Sys2Proof.Machine

/-- What a hardware reset leaves of a run that began in `s`: the items `rest` at the host port and the sink calls
`calls` (R370, R371; log 1, log 2, log 10). -/
def ResetLeaves (s : State) (rest : List HostItem) (calls : List PutCall) (t : State) : Prop :=
  t.closed = true ∧ t.failed = false ∧ t.hostIn = rest ∧ t.returns = s.returns ∧ t.sinkLog = calls ∧
    t.params = s.params ∧ SessionOk t ∧ MemoriesOk t ∧
    (∀ i, t.dictByte i = Config.powerOnByte .dict (s.resets + 1) i) ∧
    (∀ i, t.headEntry i = Config.powerOnEntry .head (s.resets + 1) i) ∧
    (∀ i, t.prevEntry i = Config.powerOnEntry .prev (s.resets + 1) i) ∧
    (∀ i, t.lzByte i = Config.powerOnByte .lzBuf (s.resets + 1) i) ∧
    ∀ i, t.outBufByte i = Config.powerOnByte .outBuf (s.resets + 1) i

/-- A hardware reset between commands keeps the sink calls made so far. -/
theorem hardwareReset_leaves (s : State) (rest : List HostItem) :
    ResetLeaves s rest s.sinkLog (hardwareReset (s.setHostIn rest)) :=
  ⟨rfl, rfl, rfl, rfl, rfl, rfl, hardwareReset_sessionOk _, hardwareReset_memoriesOk _, fun _ => rfl, fun _ => rfl,
    fun _ => rfl, fun _ => rfl, fun _ => rfl⟩

/-- A hardware reset inside work keeps the calls made until it strikes (R371). -/
theorem resetInside_leaves (puts : Option Nat) (s t : State) (rest : List HostItem) :
    ResetLeaves s rest
      (s.sinkLog ++ (t.sinkLog.drop s.sinkLog.length).take (puts.getD (t.sinkLog.drop s.sinkLog.length).length))
      (resetInside puts (s.setHostIn rest) t) :=
  ⟨rfl, rfl, rfl, rfl, rfl, rfl, hardwareReset_sessionOk _, hardwareReset_memoriesOk _, fun _ => rfl, fun _ => rfl,
    fun _ => rfl, fun _ => rfl, fun _ => rfl⟩

/-! ## What is fetched -/

/-- Fewer data bytes than announced, then a hardware reset: no command is there (R92, R371). -/
theorem takeBytes_brokenOff (data : List Byte) (rest : List HostItem) {n : Nat} (hn : data.length < n) :
    takeBytes (data.map .byte ++ .hardwareReset :: rest) n = .error .outOfOrder := by
  induction data generalizing n with
  | nil =>
    obtain ⟨m, rfl⟩ : ∃ m, n = m + 1 := ⟨n - 1, by simp at hn; omega⟩
    rfl
  | cons b bs ih =>
    rw [List.length_cons] at hn
    obtain ⟨m, rfl⟩ : ∃ m, n = m + 1 := ⟨n - 1, by omega⟩
    simp only [List.map_cons, List.cons_append, takeBytes, ih (show bs.length < m by omega)]

/-- The bytes in front of that reset are found (R371). -/
theorem bytesBeforeReset_brokenOff (data : List Byte) (rest : List HostItem) {n : Nat} (hn : data.length < n) :
    bytesBeforeReset (data.map .byte ++ .hardwareReset :: rest) n = some (data, rest) := by
  induction data generalizing n with
  | nil =>
    obtain ⟨m, rfl⟩ : ∃ m, n = m + 1 := ⟨n - 1, by simp at hn; omega⟩
    rfl
  | cons b bs ih =>
    rw [List.length_cons] at hn
    obtain ⟨m, rfl⟩ : ∃ m, n = m + 1 := ⟨n - 1, by omega⟩
    simp only [List.map_cons, List.cons_append, bytesBeforeReset, ih (show bs.length < m by omega)]

/-- The word of a `FEED` (R91, R93). -/
theorem decodeWord_feed : decodeWord 0x00000005#32 = .compressData true := by decide

/-- A `FEED` broken off between its data bytes is fetched as such (R371). -/
theorem fetch_brokenOff {len : Word} {data : List Byte} {rest : List HostItem} (hlen : data.length < len.toNat) :
    fetch (.word 0x00000005#32 :: .word len :: (data.map .byte ++ .hardwareReset :: rest)) = .broken none data rest := by
  have hdecode : decodeHost (.word 0x00000005#32 :: .word len :: (data.map .byte ++ .hardwareReset :: rest)) =
      .error .outOfOrder := by
    simp only [decodeHost, decodeWord_feed, decodeCompressData, if_true, takeBytes_brokenOff data rest hlen]
  have hfound : findResetInside (.word 0x00000005#32 :: .word len :: (data.map .byte ++ .hardwareReset :: rest)) =
      some (data, rest) := by
    simp only [findResetInside, decodeWord_feed, if_true, bytesBeforeReset_brokenOff data rest hlen]
  simp only [fetch, fetchCommand, hdecode, hfound]

/-! ## The step -/

/-- Nothing is presented, and the CORE waits (R355). -/
theorem step_waits {s : State} (hseq : s.sequencer = []) (hhost : s.hostIn = []) : step s = .next s := by
  simp only [step, hseq, hhost, fetch, fetchCommand, decodeHost]

theorem step_hardwareReset {s : State} {rest : List HostItem} (hseq : s.sequencer = [])
    (hhost : s.hostIn = .hardwareReset :: rest) : step s = .next (hardwareReset (s.setHostIn rest)) := by
  simp only [step, hseq, hhost, fetch]

/-- The command presented behind the announcement of a reset is struck by it (R371; log 10). -/
theorem step_struck {s u : State} {puts : Nat} {items rest : List HostItem} {i : Instr} (hseq : s.sequencer = [])
    (hhost : s.hostIn = .resetDuring puts :: items) (hdec : decodeHost items = .ok (i, rest))
    (hexec : exec i (s.setHostIn rest) = .next u) :
    step s = .next (resetInside (some puts) (s.setHostIn rest) u) := by
  have hfetch : fetch s.hostIn = .struck i puts rest := by
    rw [hhost, fetch, fetch_command.2 hdec]
    rfl
  simp only [step, hseq, hfetch, hexec, strike]

/-- A `FEED` of the bytes presented before the reset leads to the calls the sink keeps (R371, R383). -/
theorem resetDuringCommand_feed {data : List Byte} {s u : State} {rest : List HostItem}
    (hexec : exec (.feed data) (s.setHostIn rest) = .next u) :
    ∃ t, resetDuringCommand none data (s.setHostIn rest) = .ok t ∧ ResetLeaves s rest u.sinkLog t := by
  have hexec : execFeed data (s.setHostIn rest) = .next u := hexec
  unfold execFeed at hexec
  unfold resetDuringCommand
  split at hexec
  · rename_i cause hgate
    have hlog : u.sinkLog = s.sinkLog := by
      cases hexec
      cases cause <;> rfl
    rw [hlog]
    exact ⟨_, rfl, hardwareReset_leaves s rest⟩
  · rename_i hgate
    obtain ⟨v, hv, hu⟩ := bind_ok.1 ((ofRun_next _ _).1 hexec)
    have hlog : u.sinkLog = v.sinkLog := by rw [← (pure_ok _ _).1 hu]; rfl
    obtain ⟨calls, hcalls⟩ := (feedBytes_putsFull hv).log_grows
    have hcalls : v.sinkLog = s.sinkLog ++ calls := hcalls
    refine ⟨resetInside none (s.setHostIn rest) v, by rw [hv]; rfl, ?_⟩
    have hleaves := resetInside_leaves none s v rest
    rw [hlog]
    simpa [hcalls] using hleaves

/-- Settles O6: what a reset leaves is said once, and each clause is one kind of fetch. -/
theorem hardwareResetClosesTheSession : Obligations.HardwareResetClosesTheSession := by
  intro s hseq
  refine ⟨step_waits hseq, ?_, ?_, ?_⟩
  · intro rest hhost
    exact ⟨_, step_hardwareReset hseq hhost, hardwareReset_leaves s rest⟩
  · intro puts items i rest u hhost hdec hexec
    exact ⟨_, step_struck hseq hhost hdec hexec, resetInside_leaves (some puts) s u rest⟩
  · intro len data rest u hhost hlen hexec
    obtain ⟨t, ht, hleaves⟩ := resetDuringCommand_feed hexec
    refine ⟨t, ?_, hleaves⟩
    simp only [step, hseq, hhost, fetch_brokenOff hlen, ht, ofRun_ok]

end Sys2Proof.Machine
end

section
/-! PROOFS. The input stream behind the dictionary (spec/10_state.md R25, R38; spec/41_dictionary_hash.md R162): reading
it, taking a byte into it, advancing over it. -/

namespace Sys2Proof.Machine

variable {fed : List Byte} {s t : State}

/-- Byte `k` of the stream is read at every index of `dict` that stands for its slot, the mirror included (R62). -/
theorem HistoryOk.reads (h : HistoryOk fed s) {k i : Nat} (hk : k < fed.length) (hnear : fed.length - k ≤ Config.W)
    (hslot : i % Config.W = k % Config.W) (hi : i < Config.W + (Config.L - 1)) : some (s.dictByte i) = fed[k]? := by
  obtain ⟨_, _, _, hbytes⟩ := h
  obtain ⟨hplain, hmirror⟩ := hbytes k hk hnear
  simp only [Config.W, Config.L] at *
  by_cases hw : i < 32768
  · rw [show i = k % 32768 by omega]; exact hplain
  · rw [show i = 32768 + k % 32768 by omega]; exact hmirror (by omega)

/-- Work that leaves the dictionary and its cursors alone leaves what they say of the stream. -/
theorem HistoryOk.congr (h : HistoryOk fed s) (hpos : t.lookaheadPos = s.lookaheadPos)
    (hsize : t.lookaheadSize = s.lookaheadSize) (hdict : t.dictSize = s.dictSize)
    (hbytes : ∀ i, t.dictByte i = s.dictByte i) : HistoryOk fed t := by
  unfold HistoryOk
  rw [hpos, hsize, hdict]
  simp only [hbytes]
  exact h

/-- Lookahead bytes that become history are still the same bytes of the stream (R215). -/
theorem HistoryOk.advance (h : HistoryOk fed s) {adv : Nat} (hadv : Advanced adv s t)
    (hle : adv ≤ s.lookaheadSize.toNat) (hbytes : ∀ i, t.dictByte i = s.dictByte i) : HistoryOk fed t := by
  obtain ⟨hlen, hpos, hdict, hread⟩ := h
  obtain ⟨apos, asize, adict⟩ := hadv
  refine ⟨?_, ?_, ?_, ?_⟩
  · omega
  · simp only [Config.W] at *; omega
  · simp only [Config.W] at *; omega
  · simp only [hbytes]; exact hread

/-- A fed byte is the next of the stream; the slot it overwrites holds none of the last 32768 (R162, R163). -/
theorem HistoryOk.takeByte (h : HistoryOk fed s) (b : Byte) (hsize : s.lookaheadSize.toNat ≤ Config.L - 1) :
    HistoryOk (fed ++ [b]) (takeByte b s) := by
  obtain ⟨hlen, hpos, hdict, hread⟩ := h
  obtain ⟨_, _, tsize, tbytes, _⟩ := takeByte_spec b s hsize
  obtain ⟨_, _, tpos, tdict, _⟩ := takeByte_fields b s
  have hslot : (s.lookaheadPos.toNat + s.lookaheadSize.toNat) % Config.W = fed.length % Config.W := by
    simp only [Config.W] at *; omega
  simp only [hslot] at tbytes
  refine ⟨?_, ?_, ?_, ?_⟩
  · rw [tsize, List.length_append, List.length_singleton]; omega
  · rw [tpos, tsize, hpos, List.length_append, List.length_singleton, Nat.add_sub_add_right]
  · rw [tdict, tsize, hdict, List.length_append, List.length_singleton, Nat.add_sub_add_right]
  · intro k hk hnear
    rw [List.length_append, List.length_singleton] at hk hnear
    by_cases hlast : k = fed.length
    · subst hlast
      rw [List.getElem?_concat_length]
      refine ⟨by rw [tbytes, if_pos (.inl rfl)], fun hm => ?_⟩
      rw [tbytes, if_pos (.inr ⟨hm, Nat.add_comm _ _⟩)]
    · obtain ⟨hplain, hmirror⟩ := hread k (by omega) (by omega)
      rw [List.getElem?_append_left (by omega)]
      refine ⟨?_, fun hm => ?_⟩
      · rw [tbytes, if_neg (by simp only [Config.W, Config.L] at *; omega)]; exact hplain
      · rw [tbytes, if_neg (by simp only [Config.W, Config.L] at *; omega)]; exact hmirror hm

/-- Between commands the dictionary reads as R38 says. -/
theorem HistoryOk.windowReads (h : HistoryOk fed s) (hsize : s.lookaheadSize.toNat ≤ Config.L - 1) :
    WindowReads fed s := by
  obtain ⟨hlen, hpos, hdict, _⟩ := id h
  have hlt := s.lookaheadPos.isLt
  simp only [Config.W, Config.L] at hpos hdict hsize
  refine ⟨?_, ?_, ?_⟩
  · simp only [Config.W]; omega
  · intro j hj
    have hk : fed.length - s.lookaheadSize.toNat + j < fed.length := by omega
    have hnear : fed.length - (fed.length - s.lookaheadSize.toNat + j) ≤ Config.W := by simp only [Config.W]; omega
    exact ⟨h.reads hk hnear (by simp only [Config.W]; omega) (by simp only [Config.W, Config.L]; omega),
      h.reads hk hnear (by simp only [Config.W]; omega) (by simp only [Config.W, Config.L]; omega)⟩
  · intro d h1 hd hnear
    simp only [Config.W] at hnear
    exact h.reads (by omega) (by simp only [Config.W]; omega) (by simp only [Config.W]; omega)
      (by simp only [Config.W, Config.L]; omega)

end Sys2Proof.Machine
end

section
/-! PROOFS. What a parser step and a `FEED` change when they run, from any state (spec/43_parser_lzbuf.md R212, R215;
spec/46_session.md R315, R318). -/

namespace Sys2Proof.Machine

/-- Any row of the transition table that runs consumes lookahead and stays inside the parser (R212, R215). -/
theorem parseTransition_stepKeeps {d l : Nat} {better : Bool} {s t : State}
    (h : parseTransition d l better s = .ok t) : StepKeeps s t := by
  unfold parseTransition at h
  split at h
  · split at h
    · split at h
      · exact (idleCommit_keeps h).1
      · exact (idleDefer_keeps h).1
    · exact (idleLiteral_keeps h).1
  · split at h
    · split at h
      · exact (deferredLongerLong_keeps h).1
      · exact (deferredLongerShort_keeps h).1
    · exact (deferredCommit_keeps h).1

/-- The finder's mark changes nothing a transition starts from (R185). -/
theorem StepKeeps.of_applyMark {m : Option Nat} {s t : State} (h : StepKeeps (applyMark m s) t) : StepKeeps s t := by
  obtain ⟨honly, hadv, hlz, hbits⟩ := h
  have hm := applyMark_only s m
  refine ⟨(OnlyStepChanged.applyMark m s).trans honly, ?_, ?_, ?_⟩
  · rw [hm] at hadv; exact hadv
  · rw [hm] at hlz; exact hlz
  · rw [hm] at hbits; exact hbits

theorem parseStep_stepKeeps {s t : State} (h : parseStep s = .ok t) : StepKeeps s t := by
  obtain ⟨m, d, l, better, h⟩ := parseStep_ok h
  exact (parseTransition_stepKeeps h).of_applyMark

theorem OnlyStepChanged.dictByte {s t : State} (h : OnlyStepChanged s t) (i : Nat) : t.dictByte i = s.dictByte i := by
  rw [h]; rfl

theorem OnlyStepChanged.headEntry {s t : State} (h : OnlyStepChanged s t) (i : Nat) : t.headEntry i = s.headEntry i := by
  rw [h]; rfl

theorem StepKeeps.history {fed : List Byte} {s t : State} (h : StepKeeps s t) (hh : HistoryOk fed s) :
    HistoryOk fed t := by
  obtain ⟨honly, ⟨adv, _, hle, hadv⟩, _⟩ := h
  exact hh.advance hadv hle honly.dictByte

/-- The whole lookahead is parsed, and the stream stays behind the dictionary (R316). -/
theorem parseAll_empties {k : Nat} {s t : State} (h : parseAll k s = .ok t) (hk : s.lookaheadSize.toNat ≤ k) :
    OnlyStepChanged s t ∧ t.lookaheadSize = 0#9 ∧ ∀ fed, HistoryOk fed s → HistoryOk fed t := by
  induction k generalizing s with
  | zero => cases h; exact ⟨.refl _, BitVec.eq_of_toNat_eq (by simp; omega), fun _ => id⟩
  | succ k ih =>
    unfold parseAll at h
    split at h
    · cases h; exact ⟨.refl _, ‹_›, fun _ => id⟩
    · obtain ⟨u, hu, h⟩ := bind_ok.1 h
      have hstep := parseStep_stepKeeps hu
      obtain ⟨honly, ⟨adv, hpos, _, _, hsize, _⟩, _⟩ := id hstep
      obtain ⟨honly', hz, hhist⟩ := ih h (by omega)
      exact ⟨honly.trans honly', hz, fun fed hh => hhist fed (hstep.history hh)⟩

/-! ## The bytes of a `FEED` -/

/-- One fed byte, in any state: what it may change, the checksum, the stream behind the dictionary (R160, R318). -/
theorem feedByte_takes {b : Byte} {s t : State} (h : feedByte b s = .ok t) :
    OnlyFeedChanged s t ∧ t.adler = (adlerUpdate b s).adler ∧
      ∀ fed, HistoryOk fed s → HistoryOk (fed ++ [b]) t := by
  obtain ⟨honly, _, _, _, hadler, _⟩ := takeByte_fields b s
  unfold feedByte at h
  split at h
  · cases h
  · rename_i hroom
    have hsize : s.lookaheadSize.toNat ≤ Config.L - 1 := by omega
    simp only at h
    split at h
    · have hstep := parseStep_stepKeeps h
      refine ⟨honly.trans hstep.1.feed, ?_, fun fed hh => hstep.history (hh.takeByte b hsize)⟩
      rw [hstep.1.settings.2.2.2.1, hadler]
    · cases h
      exact ⟨honly, hadler, fun fed hh => hh.takeByte b hsize⟩

/-- The checksum depends on the checksum before and the bytes alone (R318). -/
theorem foldl_adlerUpdate_congr {s t : State} (h : s.adler = t.adler) (data : List Byte) :
    (data.foldl (fun u b => adlerUpdate b u) s).adler = (data.foldl (fun u b => adlerUpdate b u) t).adler := by
  induction data generalizing s t with
  | nil => exact h
  | cons b bs ih =>
    refine ih ?_
    simp only [adlerUpdate, State.setAdler_adler, h]

/-- The bytes of a `FEED`, in any state (R315, R318). -/
theorem feedBytes_takes {data : List Byte} {s t : State} (h : feedBytes data s = .ok t) :
    OnlyFeedChanged s t ∧ t.adler = (data.foldl (fun u b => adlerUpdate b u) s).adler ∧
      ∀ fed, HistoryOk fed s → HistoryOk (fed ++ data) t := by
  induction data generalizing s with
  | nil =>
    cases h
    exact ⟨.refl _, rfl, fun fed hh => by rwa [List.append_nil]⟩
  | cons b bs ih =>
    obtain ⟨u, hu, h⟩ := bind_ok.1 h
    obtain ⟨ho, ha, hh⟩ := feedByte_takes hu
    obtain ⟨ho', ha', hh'⟩ := ih h
    refine ⟨ho.trans ho', ?_, fun fed hf => ?_⟩
    · rw [ha']; exact foldl_adlerUpdate_congr ha bs
    · rw [List.append_cons]; exact hh' _ (hh fed hf)

end Sys2Proof.Machine
end

section
/-! PROOFS. `FEED` and `FINISH` on an open session (spec/46_session.md R314 to R320). -/

namespace Sys2Proof.Machine

/-! ## Bits held back -/

theorem drain_bitsIn {s t : State} (h : drain s = .ok t) : t.bitsIn = s.bitsIn := by
  unfold drain at h
  split at h
  · cases h; rfl
  split at h
  · cases h; rfl
  split at h
  · cases h
  · cases h
    obtain ⟨a, l, d, hc⟩ := sinkCall_eq (stagedBytes s s.outPos.toNat) s
    rw [hc]
    cases a <;> rfl

theorem outByte_bitsIn {b : Byte} {s t : State} (h : outByte b s = .ok t) : t.bitsIn = s.bitsIn := by
  unfold outByte at h
  split at h
  · cases h; rfl
  split at h
  · simp only at h
    split at h
    · exact (drain_bitsIn h).trans rfl
    · cases h; rfl
  · cases h

/-- The loop of `PUT_BITS` leaves fewer than 8 bits (R140). -/
theorem spill_bitsIn {k : Nat} {s t : State} (h : spill k s = .ok t) (hk : s.bitsIn.toNat < 8 * (k + 1)) :
    t.bitsIn.toNat = s.bitsIn.toNat % 8 := by
  induction k generalizing s with
  | zero => cases h; omega
  | succ k ih =>
    unfold spill at h
    split at h
    · cases h; omega
    · obtain ⟨u, hu, h⟩ := bind_ok.1 h
      have hsub : (u.bitsIn - 8#5).toNat = s.bitsIn.toNat - 8 := by
        rw [outByte_bitsIn hu, BitVec.toNat_sub]; simp; omega
      have := ih h (by rw [State.setBits_bitsIn, hsub]; omega)
      rw [this, State.setBits_bitsIn, hsub]; omega

/-- A field on a session that does not fail moves the bit position by its width (R140). -/
theorem putBits_bitsIn {v n : Nat} {s t : State} (h : putBits v n s = .ok t) (ht : t.failed = false) :
    s.bitsIn.toNat ≤ 7 ∧ t.bitsIn.toNat = (s.bitsIn.toNat + n) % 8 := by
  have hs := (putBits_putsFull h).not_failed ht
  have hn : n ≤ 16 := (putBits_operands h).1
  rw [putBits, if_neg (by have := putBits_operands h; omega), if_neg (by simp [hs])] at h
  split at h
  · cases h
  · have hlen : (s.bitsIn + BitVec.ofNat 5 n).toNat = s.bitsIn.toNat + n := by
      rw [BitVec.toNat_add, BitVec.toNat_ofNat]; omega
    have := spill_bitsIn h (by rw [State.setBits_bitsIn, hlen]; omega)
    rw [State.setBits_bitsIn, hlen] at this
    exact ⟨by omega, this⟩

/-- After `ALIGN` a healthy session holds no bit back (R143). -/
theorem align_bitsIn {s t : State} (h : align s = .ok t) (ht : t.failed = false) : t.bitsIn = 0#5 := by
  unfold align at h
  split at h
  · cases h; assumption
  · obtain ⟨hle, hbits⟩ := putBits_bitsIn h ht
    exact BitVec.eq_of_toNat_eq (by simp only [BitVec.toNat_ofNat]; omega)

/-- Whole bytes leave an aligned stream aligned (R317). -/
theorem putFields_aligned {fs : List (Nat × Nat)} {s t : State} (h : putFields fs s = .ok t) (ht : t.failed = false)
    (hfs : ∀ f ∈ fs, f.2 = 8) (hs : s.failed = false → s.bitsIn = 0#5) : t.bitsIn = 0#5 := by
  induction fs generalizing s with
  | nil => cases h; exact hs ht
  | cons f fs ih =>
    obtain ⟨v, n⟩ := f
    obtain ⟨u, hu, h⟩ := bind_ok.1 h
    refine ih h (fun g hg => hfs g (List.mem_cons_of_mem _ hg)) fun huf => ?_
    have hn : n = 8 := hfs (v, n) (List.mem_cons_self ..)
    have h0 := hs ((putBits_putsFull hu).not_failed huf)
    have hbits := (putBits_bitsIn hu huf).2
    rw [h0, hn] at hbits
    exact BitVec.eq_of_toNat_eq hbits

theorem zlibTrailerFields_bytes (s : State) : ∀ f ∈ zlibTrailerFields s, f.2 = 8 := by
  unfold zlibTrailerFields
  split <;> simp

theorem drain_not_failed {s t : State} (h : drain s = .ok t) (ht : t.failed = false) : s.failed = false := by
  cases hs : s.failed with
  | false => rfl
  | true =>
    rw [drain_failed s hs] at h
    cases h
    exact hs.symm.trans ht

/-! ## The last drain -/

/-- The sink calls of a `FINISH`: full buffers, then what is left; the last may be shorter, and only the last can have
been rejected (R142, R316). -/
def FinishPuts (s t : State) : Prop :=
  ∃ calls, t.sinkLog = s.sinkLog ++ calls ∧
    (∀ c ∈ calls.dropLast, c.bytes.length = Config.OUT_SIZE ∧ c.accepted = true) ∧
    (t.failed = true ↔ ∃ c ∈ calls, c.accepted = false)

theorem FullBuffersPut.finish {s t : State} (h : FullBuffersPut s t) : FinishPuts s t := by
  obtain ⟨calls, hlog, hfull, hacc, hrej⟩ := h
  exact ⟨calls, hlog, fun c hc => ⟨hfull c (List.dropLast_subset _ hc), hacc c hc⟩, hrej⟩

/-- The last drain empties the staging buffer, with at most one call more (R142). -/
theorem drain_finish {s u t : State} (hs : s.failed = false) (hput : PutsFull s u) (h : drain u = .ok t) :
    FinishPuts s t ∧ t.outPos = 0#13 := by
  obtain ⟨hfull, hempty⟩ := hput.2 hs
  cases hf : u.failed with
  | true =>
    rw [drain_failed u hf] at h
    cases h
    exact ⟨hfull.finish, hempty hf⟩
  | false =>
    refine ⟨?_, (drain_outPos h).resolve_left (by simp [hf])⟩
    by_cases h0 : u.outPos = 0#13
    · rw [drain, if_neg (by simp [hf]), if_pos h0] at h
      cases h
      exact hfull.finish
    · have hle : u.outPos.toNat ≤ Config.OUT_SIZE := by
        by_contra hn
        rw [drain, if_neg (by simp [hf]), if_neg h0, if_pos (by omega)] at h
        cases h
      have h1 : 1 ≤ u.outPos.toNat := by
        by_contra hn
        exact h0 (BitVec.eq_of_toNat_eq (by simp; omega))
      obtain ⟨answer, later, draws, hd⟩ := drain_staged u hf h1 hle
      rw [hd] at h
      cases h
      obtain ⟨calls, hlog, hlen, _, hrej⟩ := hfull
      have hacc : ∀ c ∈ calls, c.accepted = true := by
        intro c hc
        by_contra hn
        rw [hf] at hrej
        exact Bool.false_ne_true (hrej.2 ⟨c, hc, by simpa using hn⟩)
      refine ⟨calls ++ [⟨stagedBytes u u.outPos.toNat, answer⟩], ?_, ?_, ?_⟩
      · simp [hlog]
      · intro c hc
        rw [List.dropLast_concat] at hc
        exact ⟨hlen c hc, hacc c hc⟩
      · constructor
        · intro hrejected
          exact ⟨_, List.mem_append_right _ (List.mem_singleton_self _), by simpa using hrejected⟩
        · rintro ⟨c, hc, hrejected⟩
          rcases List.mem_append.1 hc with hc | hc
          · rw [hacc c hc] at hrejected; cases hrejected
          · rw [List.mem_singleton.1 hc] at hrejected
            simpa using hrejected

/-! ## The two commands -/

theorem sessionGate_of_open {s : State} (h : OpenSession s) : sessionGate s = none := by
  rw [sessionGate, if_neg (by simp [h.1]), if_neg (by simp [h.2])]

/-- A `FEED` on an open session is its bytes and the answer (R314, R315). -/
theorem exec_feed_of_open {data : List Byte} {s t : State} (ho : OpenSession s) :
    exec (.feed data) s = .next t ↔ ∃ u, feedBytes data s = .ok u ∧ t = replyHealth u := by
  simp only [exec, execFeed, sessionGate_of_open ho, ofRun_next, bind_ok, pure_ok, eq_comm (b := t)]

/-- A `FINISH` on an open session is the terminal flush and the answer (R314, R316). -/
theorem exec_finish_of_open {s t : State} (ho : OpenSession s) :
    exec .finish s = .next t ↔ ∃ u, finishSession s = .ok u ∧ t = replyHealth u := by
  simp only [exec, execFinish, sessionGate_of_open ho, ofRun_next, bind_ok, pure_ok, eq_comm (b := t)]

/-- The saved match recorded, the dictionary cursors stay (R211). -/
theorem savedMatchFlush_cursors {s t : State} (h : savedMatchFlush s = .ok t) :
    t.lookaheadPos = s.lookaheadPos ∧ t.lookaheadSize = s.lookaheadSize ∧ t.dictSize = s.dictSize := by
  unfold savedMatchFlush at h
  split at h
  · cases h; exact ⟨rfl, rfl, rfl⟩
  · obtain ⟨u, hu, h⟩ := bind_ok.1 h
    rw [← (pure_ok _ _).1 h]
    exact (recordMatch_only hu).cursors

theorem lifecycle_of_closed {s : State} (h : s.closed = true) : s.lifecycle = .closed := if_pos h

theorem lifecycle_of_not_closed {s : State} (h : s.closed = false) :
    s.lifecycle = if s.failed then .failed else .opened := if_neg (by simp [h])

/-- What a `FEED` leaves that runs (R314, R315, R318, R319). -/
theorem feed_lifecycle {data : List Byte} {s u : State} (ho : OpenSession s) (h : feedBytes data s = .ok u) :
    SameSettings s u ∧ u.returns = s.returns ∧ u.closed = false ∧
      u.adler = (data.foldl (fun u b => adlerUpdate b u) s).adler ∧ FullBuffersPut s u ∧
      ∀ fed, SessionOk s → HistoryOk fed s → HistoryOk (fed ++ data) u ∧ WindowReads (fed ++ data) u := by
  obtain ⟨honly, hadler, hhist⟩ := feedBytes_takes h
  obtain ⟨hset, hclosed, hret⟩ := honly.settings
  refine ⟨hset, hret, hclosed.trans ho.1, hadler, ((feedBytes_putsFull h).2 ho.2).1, fun fed hs hh => ?_⟩
  obtain ⟨_, _, _, ⟨hsize, _⟩, _⟩ := feedBytes_sessionOk h hs
  exact ⟨hhist fed hh, (hhist fed hh).windowReads hsize⟩

/-- What a `FINISH` leaves that runs (R316, R317, R319). -/
theorem finish_lifecycle {s u : State} (ho : OpenSession s) (h : finishSession s = .ok u) :
    SameSettings s u ∧ u.returns = s.returns ∧ u.closed = true ∧ u.adler = s.adler ∧ u.lookaheadSize = 0#9 ∧
      u.outPos = 0#13 ∧ (u.failed = false → u.bitsIn = 0#5) ∧ (∀ i, u.dictByte i = s.dictByte i) ∧
      (∀ i, u.headEntry i = s.headEntry i) ∧ FinishPuts s u ∧ ∀ fed, HistoryOk fed s → HistoryOk fed u := by
  obtain ⟨parsed, flushed, emitted, aligned, trailed, drained, hp, hm, he, ha, ht, hd, rfl⟩ := finishSession_ok h
  obtain ⟨honly, hzero, hhist⟩ := parseAll_empties hp (Nat.le_refl _)
  have htail : OnlyBlockChanged flushed drained :=
    (flushBlock_only he).trans (((align_only ha).trans (putFields_only ht)).trans (drain_only hd)).block
  have hsaved := savedMatchFlush_only hm
  have hall : OnlyStepChanged s drained := (honly.trans hsaved).trans htail.step
  obtain ⟨hset, _, hret, hadler, _, _⟩ := hall.settings
  obtain ⟨fpos, fsize, fdict⟩ := savedMatchFlush_cursors hm
  obtain ⟨dpos, dsize, ddict⟩ := htail.cursors
  have hput : PutsFull s trailed :=
    ((((parseAll_putsFull hp).trans (savedMatchFlush_putsFull hm)).trans (flushBlock_putsFull he)).trans
      (align_putsFull ha)).trans (putFields_putsFull ht)
  obtain ⟨hfinish, hempty⟩ := drain_finish ho.2 hput hd
  refine ⟨hset, hret, rfl, hadler, dsize.trans (fsize.trans hzero), hempty, ?_, hall.dictByte, hall.headEntry, hfinish, ?_⟩
  · intro hf
    have hf : drained.failed = false := hf
    have htf : trailed.failed = false := drain_not_failed hd hf
    have hbits := putFields_aligned ht htf (zlibTrailerFields_bytes aligned) (align_bitsIn ha)
    exact (drain_bitsIn hd).trans hbits
  · intro fed hh
    exact (hhist fed hh).congr (dpos.trans fpos) (dsize.trans fsize) (ddict.trans fdict) (hsaved.trans htail.step).dictByte

/-- Settles O15: a `FEED` or `FINISH` on an open session ran; the two lemmas above say what it left, and the reply adds
the returned bit. -/
theorem compressDataLifecycle : Obligations.CompressDataLifecycle := by
  intro data s t ho
  constructor
  · intro hexec
    obtain ⟨u, hu, rfl⟩ := (exec_feed_of_open ho).1 hexec
    obtain ⟨hset, hret, hclosed, hrest⟩ := feed_lifecycle ho hu
    exact ⟨hset, congrArg (· ++ [!u.failed]) hret, lifecycle_of_not_closed hclosed, hrest⟩
  · intro hexec
    obtain ⟨u, hu, rfl⟩ := (exec_finish_of_open ho).1 hexec
    obtain ⟨hset, hret, hclosed, hadler, hsize, hpos, hbits, hdict, hhead, hput, hhist⟩ := finish_lifecycle ho hu
    exact ⟨hset, congrArg (· ++ [!u.failed]) hret, lifecycle_of_closed hclosed, hadler, hsize, hpos, hbits, hdict, hhead,
      hput, fun fed _ => hhist fed⟩

end Sys2Proof.Machine
end

section
/-! PROOFS. The token stream one token longer (spec/30_encoding.md R100 to R103), and the buffer that holds it after a
record (spec/43_parser_lzbuf.md R222 to R224). The idea: split the tokens into the closed groups and the fewer than 8
of the open group; a record moves the open group's flags down by one and appends the token's bytes. -/

namespace Sys2Proof.Machine

/-! ## The stream by groups -/

/-- The bytes of the tokens of one group, without the flag byte. -/
def bodyBytes (g : List Token) : List Byte := g.flatMap tokenBytes

/-- One group as it stands in the stream (R100). -/
def groupBytes (g : List Token) : List Byte := BitVec.ofNat 8 (groupFlag g) :: bodyBytes g

/-- Whether the token's flag bit is set (R101). -/
def isCopy : Token → Bool
  | .literal _ => false
  | .copy _ _ => true

theorem bodyBytes_snoc (g : List Token) (x : Token) : bodyBytes (g ++ [x]) = bodyBytes g ++ tokenBytes x := by
  simp [bodyBytes]

theorem groupFlag_snoc (g : List Token) (x : Token) :
    groupFlag (g ++ [x]) = groupFlag g + if isCopy x then 2 ^ g.length else 0 := by
  induction g with
  | nil => cases x <;> rfl
  | cons y g ih =>
    rw [List.cons_append, List.length_cons, Nat.pow_succ]
    cases y <;> simp only [groupFlag, ih] <;> split_ifs <;> omega

/-- More groups than there are tokens make no difference. -/
theorem tokenGroups_of_le {k : Nat} {ts : List Token} (h : ts.length ≤ k) : tokenGroups k ts = tokenStream ts := by
  have grow : ∀ k m (ts : List Token), ts.length ≤ k → ts.length ≤ m → tokenGroups k ts = tokenGroups m ts := by
    intro k
    induction k with
    | zero =>
      intro m ts hk _
      rw [List.eq_nil_of_length_eq_zero (Nat.le_zero.1 hk)]
      cases m <;> rfl
    | succ k ih =>
      intro m ts hk hm
      cases ts with
      | nil => cases m <;> rfl
      | cons x rest =>
        rw [List.length_cons] at hk hm
        obtain ⟨m, rfl⟩ : ∃ n, m = n + 1 := ⟨m - 1, by omega⟩
        have hdrop : ((x :: rest).drop 8).length ≤ rest.length := by simp
        rw [tokenGroups, tokenGroups, ih m _ (by omega) (by omega)]
  exact grow _ _ _ h (Nat.le_refl _)

/-- A group that is the last one (R100). -/
theorem tokenStream_short {g : List Token} (h0 : g ≠ []) (h8 : g.length ≤ 8) : tokenStream g = groupBytes g := by
  cases g with
  | nil => exact absurd rfl h0
  | cons x rest =>
    rw [tokenStream, List.length_cons, tokenGroups, List.take_of_length_le h8, List.drop_eq_nil_of_le h8]
    cases rest.length <;> simp [tokenGroups, groupBytes, bodyBytes]

/-- A full group, then the stream of the rest (R100). -/
theorem tokenStream_group {g : List Token} (hg : g.length = 8) (rest : List Token) :
    tokenStream (g ++ rest) = groupBytes g ++ tokenStream rest := by
  cases g with
  | nil => simp at hg
  | cons x g =>
    have hlen : (x :: g ++ rest).length = (g ++ rest).length + 1 := rfl
    have htake : (x :: (g ++ rest)).take 8 = x :: g := by rw [← List.cons_append, ← hg]; exact List.take_left
    have hdrop : (x :: (g ++ rest)).drop 8 = rest := by rw [← List.cons_append, ← hg]; exact List.drop_left
    rw [tokenStream, hlen, List.cons_append, tokenGroups, htake, hdrop, tokenGroups_of_le (by simp)]
    rfl

/-- Whole groups, then the stream of the rest. -/
theorem tokenStream_append {a : List Token} (ha : a.length % 8 = 0) (b : List Token) :
    tokenStream (a ++ b) = tokenStream a ++ tokenStream b := by
  obtain ⟨n, hn⟩ : ∃ n, a.length = 8 * n := ⟨a.length / 8, by omega⟩
  clear ha
  induction n generalizing a with
  | zero => rw [List.eq_nil_of_length_eq_zero hn]; rfl
  | succ n ih =>
    have htake : (a.take 8).length = 8 := by rw [List.length_take]; omega
    rw [← List.take_append_drop 8 a, List.append_assoc, tokenStream_group htake, tokenStream_group htake,
      ih (by rw [List.length_drop]; omega), List.append_assoc]

/-! ## The buffer by groups -/

/-- The buffer holds the closed groups `a` and the tokens `b` of the open group, whose flags stand at the high end of
the flag byte (R101). -/
structure HoldsOpen (a b : List Token) (s : State) : Prop where
  inRange : ∀ x ∈ a ++ b, tokenInRange x
  left : s.flagsLeft.toNat = 8 - b.length
  flagsPos : s.lzFlagsPos.toNat = (tokenStream a).length
  pos : s.lzPos.toNat = (tokenStream a).length + 1 + (bodyBytes b).length
  closed : ∀ j, j < (tokenStream a).length → some (s.lzByte j) = (tokenStream a)[j]?
  flags : s.lzByte (tokenStream a).length >>> (8 - b.length) = BitVec.ofNat 8 (groupFlag b)
  body : ∀ j, j < (bodyBytes b).length → some (s.lzByte ((tokenStream a).length + 1 + j)) = (bodyBytes b)[j]?

variable {a b : List Token} {s t : State}

/-- Nothing of a flag byte is left when no token has entered it. -/
theorem byte_shiftRight_eight (f : Byte) : f >>> 8 = 0#8 := by revert f; decide

/-- With no token in the open group, the stream is that of the closed groups (R100, R224). -/
theorem holdsTokens_iff_closed (ha : a.length % 8 = 0) : HoldsTokens a s ↔ HoldsOpen a [] s := by
  have htake : a.take (8 * (a.length / 8)) = a := List.take_of_length_le (by omega)
  unfold HoldsTokens
  rw [ha, htake, if_pos rfl]
  constructor
  · rintro ⟨hrange, hleft, hfpos, hpos, hbytes⟩
    refine ⟨by rwa [List.append_nil], hleft, hfpos, hpos, fun j hj => ?_, byte_shiftRight_eight _, by simp [bodyBytes]⟩
    rw [← hbytes j hj, if_neg (by omega)]
  · rintro ⟨hrange, hleft, hfpos, hpos, hclosed, _, _⟩
    rw [List.append_nil] at hrange
    refine ⟨hrange, hleft, hfpos, hpos, fun j hj => ?_⟩
    rw [if_neg (by omega)]
    exact hclosed j hj

/-- With tokens in the open group, its flag byte and their bytes follow the closed groups (R100, R101). -/
theorem holdsTokens_iff_open (ha : a.length % 8 = 0) (h0 : b ≠ []) (hb : b.length < 8) :
    HoldsTokens (a ++ b) s ↔ HoldsOpen a b s := by
  have hlen : 0 < b.length := List.length_pos_of_ne_nil h0
  have hmod : (a ++ b).length % 8 = b.length := by rw [List.length_append]; omega
  have htake : (a ++ b).take (8 * ((a ++ b).length / 8)) = a := by
    rw [show 8 * ((a ++ b).length / 8) = a.length by rw [List.length_append]; omega]
    exact List.take_left
  unfold HoldsTokens
  rw [hmod, htake, tokenStream_append ha, tokenStream_short h0 (by omega), if_neg (by omega), List.length_append,
    show (groupBytes b).length = (bodyBytes b).length + 1 from rfl, Nat.add_zero]
  constructor
  · rintro ⟨hrange, hleft, hfpos, hpos, hbytes⟩
    refine ⟨hrange, hleft, hfpos, by omega, fun j hj => ?_, ?_, fun j hj => ?_⟩
    · have := hbytes j (by omega)
      rwa [if_neg (by omega), List.getElem?_append_left hj] at this
    · have := hbytes (tokenStream a).length (by omega)
      rw [if_pos hfpos.symm, hleft, List.getElem?_append_right (Nat.le_refl _), Nat.sub_self] at this
      exact Option.some.inj this
    · have := hbytes ((tokenStream a).length + 1 + j) (by omega)
      rw [if_neg (by omega), List.getElem?_append_right (by omega),
        show (tokenStream a).length + 1 + j - (tokenStream a).length = j + 1 by omega] at this
      exact this
  · rintro ⟨hrange, hleft, hfpos, hpos, hclosed, hflags, hbody⟩
    refine ⟨hrange, hleft, hfpos, by omega, fun j hj => ?_⟩
    rcases Nat.lt_trichotomy j (tokenStream a).length with hlt | rfl | hgt
    · rw [if_neg (by omega), List.getElem?_append_left hlt]
      exact hclosed j hlt
    · rw [if_pos hfpos.symm, hleft, List.getElem?_append_right (Nat.le_refl _), Nat.sub_self, hflags]
      rfl
    · obtain ⟨i, rfl⟩ : ∃ i, j = (tokenStream a).length + 1 + i := ⟨j - (tokenStream a).length - 1, by omega⟩
      rw [if_neg (by omega), List.getElem?_append_right (by omega),
        show (tokenStream a).length + 1 + i - (tokenStream a).length = i + 1 by omega]
      exact hbody i (by omega)

/-- What `HoldsTokens` says of the stream, by groups. -/
theorem holdsTokens_iff (ha : a.length % 8 = 0) (hb : b.length < 8) :
    HoldsTokens (a ++ b) s ↔ HoldsOpen a b s := by
  by_cases h0 : b = []
  · rw [h0, List.append_nil]
    exact holdsTokens_iff_closed ha
  · exact holdsTokens_iff_open ha h0 hb

/-- Any token list is its closed groups and the open one. -/
theorem split_groups (ts : List Token) :
    ∃ a b, ts = a ++ b ∧ a.length % 8 = 0 ∧ b.length < 8 := by
  refine ⟨ts.take (8 * (ts.length / 8)), ts.drop (8 * (ts.length / 8)), (List.take_append_drop _ _).symm, ?_, ?_⟩
  · rw [List.length_take]; omega
  · rw [List.length_drop]; omega

/-! ## One more token -/

theorem shiftInFlag_toNat (f : Byte) (m : Bool) : (shiftInFlag f m).toNat = f.toNat / 2 + if m then 128 else 0 := by
  have hf : f.toNat / 2 < 2 ^ 7 := by have := f.isLt; omega
  cases m with
  | false => simp [shiftInFlag, Nat.shiftRight_eq_div_pow]
  | true =>
    have hor := Nat.two_pow_add_eq_or_of_lt hf 1
    simp only [shiftInFlag, if_true, BitVec.toNat_or, BitVec.toNat_ushiftRight, Nat.shiftRight_eq_div_pow,
      BitVec.toNat_ofNat]
    rw [Nat.or_comm, Nat.pow_one, show 128 % 2 ^ 8 = 2 ^ 7 * 1 from rfl, ← hor]
    omega

/-- The flags of an open group after one more token: the new flag enters at the high end (R101, R224). -/
theorem shiftInFlag_group {f : Byte} (hb : b.length < 8) (hf : f >>> (8 - b.length) = BitVec.ofNat 8 (groupFlag b))
    (x : Token) :
    shiftInFlag f (isCopy x) >>> (7 - b.length) = BitVec.ofNat 8 (groupFlag (b ++ [x])) := by
  have hlt := f.isLt
  have hnat := congrArg BitVec.toNat hf
  rw [groupFlag_snoc]
  apply BitVec.eq_of_toNat_eq
  simp only [BitVec.toNat_ushiftRight, Nat.shiftRight_eq_div_pow, BitVec.toNat_ofNat, shiftInFlag_toNat] at hnat ⊢
  obtain ⟨n, hn⟩ : ∃ n, n = b.length := ⟨_, rfl⟩
  rw [← hn] at hnat hb ⊢
  interval_cases n <;> cases isCopy x <;> simp at hnat ⊢ <;> omega

/-- From `s` to `t` the token `x` was recorded, and no block was emitted (R222 to R225). -/
structure TokenRecorded (x : Token) (s t : State) : Prop where
  inRange : tokenInRange x
  recorded : Recorded (tokenBytes x) (isCopy x) s t
  only : OnlyLzChanged s t
  cursors : LzOk t

/-- What the buffer reads after a record, whether or not the group was filled (R222 to R224). -/
theorem HoldsOpen.recorded_reads {x : Token} (h : HoldsOpen a b s) (hb : b.length < 8)
    (hr : Recorded (tokenBytes x) (isCopy x) s t) :
    (∀ j, j < (tokenStream a).length → some (t.lzByte j) = (tokenStream a)[j]?) ∧
      t.lzByte (tokenStream a).length >>> (7 - b.length) = BitVec.ofNat 8 (groupFlag (b ++ [x])) ∧
      ∀ j, j < (bodyBytes (b ++ [x])).length →
        some (t.lzByte ((tokenStream a).length + 1 + j)) = (bodyBytes (b ++ [x]))[j]? := by
  obtain ⟨⟨_, _, _, hflag, _⟩, hbytes, hframe⟩ := hr
  have hfp := h.flagsPos
  have hp := h.pos
  refine ⟨fun j hj => ?_, ?_, fun j hj => ?_⟩
  · rw [hframe j (by omega) (.inl (by omega))]
    exact h.closed j hj
  · rw [hfp] at hflag
    rw [hflag]
    exact shiftInFlag_group hb h.flags x
  · rw [bodyBytes_snoc, List.length_append] at hj
    rw [bodyBytes_snoc]
    by_cases hold : j < (bodyBytes b).length
    · rw [hframe _ (by omega) (.inl (by omega)), List.getElem?_append_left hold]
      exact h.body j hold
    · rw [List.getElem?_append_right (by omega), ← hbytes _ (by omega)]
      congr 2
      omega

theorem TokenRecorded.inRange_snoc {x : Token} {ts : List Token} (hr : TokenRecorded x s t)
    (hts : ∀ y ∈ ts, tokenInRange y) : ∀ y ∈ ts ++ [x], tokenInRange y := by
  intro y hy
  rcases List.mem_append.1 hy with hy | hy
  · exact hts y hy
  · rw [List.mem_singleton.1 hy]; exact hr.inRange

theorem bodyBytes_snoc_length (g : List Token) (x : Token) :
    (bodyBytes (g ++ [x])).length = (bodyBytes g).length + (tokenBytes x).length := by
  rw [bodyBytes_snoc, List.length_append]

/-- A token that leaves its group open (R224). -/
theorem HoldsOpen.record_open {x : Token} (h : HoldsOpen a b s) (hb : b.length < 7) (hr : TokenRecorded x s t) :
    HoldsOpen a (b ++ [x]) t := by
  obtain ⟨hclosed, hflags, hbody⟩ := h.recorded_reads (by omega) hr.recorded
  obtain ⟨⟨hpos, hfpos, hleft, _, _⟩, _, _⟩ := hr.recorded
  have hsleft := h.left
  have hspos := h.pos
  have hsfpos := h.flagsPos
  have hone : s.flagsLeft ≠ 1#4 := by
    intro h1
    rw [h1] at hsleft
    simp at hsleft
    omega
  rw [if_neg hone] at hpos hfpos hleft
  have hlen : (b ++ [x]).length = b.length + 1 := by simp
  have hleft' : 8 - (b ++ [x]).length = 7 - b.length := by omega
  refine ⟨?_, by omega, by omega, by rw [bodyBytes_snoc_length]; omega, hclosed, by rwa [hleft'], hbody⟩
  rw [← List.append_assoc]
  exact hr.inRange_snoc h.inRange

/-- The token that fills its group: the flags stand in place, and an empty group is opened behind it (R224). -/
theorem HoldsOpen.record_full {x : Token} (h : HoldsOpen a b s) (ha : a.length % 8 = 0) (hb : b.length = 7)
    (hr : TokenRecorded x s t) : HoldsOpen (a ++ (b ++ [x])) [] t := by
  obtain ⟨hclosed, hflags, hbody⟩ := h.recorded_reads (by omega) hr.recorded
  obtain ⟨⟨hpos, hfpos, hleft, _, _⟩, _, _⟩ := hr.recorded
  have hspos := h.pos
  have hbodylen := bodyBytes_snoc_length b x
  have hone : s.flagsLeft = 1#4 := BitVec.eq_of_toNat_eq (by rw [h.left, hb]; rfl)
  rw [if_pos hone] at hpos hfpos hleft
  have hstream : tokenStream (a ++ (b ++ [x])) = tokenStream a ++ groupBytes (b ++ [x]) := by
    rw [tokenStream_append ha, tokenStream_short (g := b ++ [x]) (by simp) (by simp [hb])]
  have hlen : (tokenStream (a ++ (b ++ [x]))).length = (tokenStream a).length + 1 + (bodyBytes (b ++ [x])).length := by
    rw [hstream, List.length_append, groupBytes, List.length_cons]; omega
  refine ⟨?_, hleft, by omega, ?_, fun j hj => ?_, byte_shiftRight_eight _, by simp [bodyBytes]⟩
  · rw [List.append_nil, ← List.append_assoc]
    exact hr.inRange_snoc h.inRange
  · rw [show (bodyBytes []).length = 0 from rfl]; omega
  · rw [hlen] at hj
    rw [hstream]
    rcases Nat.lt_trichotomy j (tokenStream a).length with hlt | rfl | hgt
    · rw [List.getElem?_append_left hlt]; exact hclosed j hlt
    · rw [List.getElem?_append_right (Nat.le_refl _), Nat.sub_self]
      rw [hb] at hflags
      exact congrArg some (by simpa using hflags)
    · obtain ⟨i, rfl⟩ : ∃ i, j = (tokenStream a).length + 1 + i := ⟨j - (tokenStream a).length - 1, by omega⟩
      rw [List.getElem?_append_right (by omega),
        show (tokenStream a).length + 1 + i - (tokenStream a).length = i + 1 by omega]
      exact hbody i (by omega)

/-- A recorded token joins those of the buffer (R100, R222 to R224). -/
theorem HoldsTokens.record {ts : List Token} {x : Token} (h : HoldsTokens ts s) (hr : TokenRecorded x s t) :
    HoldsTokens (ts ++ [x]) t := by
  obtain ⟨a, b, rfl, ha, hb⟩ := split_groups ts
  have hs := (holdsTokens_iff ha hb).1 h
  have hlen : (b ++ [x]).length = b.length + 1 := by simp
  rw [List.append_assoc]
  by_cases hfull : b.length = 7
  · exact (holdsTokens_iff_closed (by rw [List.length_append]; omega)).2 (hs.record_full ha hfull hr)
  · exact (holdsTokens_iff ha (by omega)).2 (hs.record_open (by omega) hr)

end Sys2Proof.Machine
end

section
/-! PROOFS. What tokens cover (spec/43_parser_lzbuf.md R216): one more literal, one more match. -/

namespace Sys2Proof.Machine

variable {fed : List Byte} {ts : List Token} {p : Nat}

/-- The tokens `ts` stand for the first `p` bytes of the stream, and every match reaches back within it (R216). -/
def Covers (fed : List Byte) (ts : List Token) (p : Nat) : Prop := DistancesOk ts ∧ expand ts = fed.take p

/-- `l` bytes from byte `p` of the stream on agree with those `d` bytes before, and the distance is one a token can
reach (R188, R191, R216). -/
structure MatchAt (fed : List Byte) (p d l : Nat) : Prop where
  pos : 1 ≤ d
  within : d ≤ p
  inWindow : d ≤ Config.W - 1
  stops : p + l ≤ fed.length
  agrees : ∀ k, k < l → fed[p - d + k]? = fed[p + k]?

theorem expand_snoc (ts : List Token) (x : Token) : expand (ts ++ [x]) = expandToken (expand ts) x := by
  simp [expand]

/-- A token whose distance is within what precedes it. -/
theorem DistancesOk.snoc {x : Token} (h : DistancesOk ts)
    (hx : ∀ l d, x = .copy l d → 1 ≤ d ∧ d ≤ (expand ts).length ∧ d ≤ Config.W - 1) : DistancesOk (ts ++ [x]) := by
  intro earlier l d later heq
  rcases List.eq_nil_or_concat later with rfl | ⟨init, y, rfl⟩
  · obtain ⟨rfl, hlast⟩ := List.append_inj' heq rfl
    exact hx l d (List.singleton_inj.1 hlast)
  · rw [List.concat_eq_append, ← List.cons_append, ← List.append_assoc] at heq
    exact h earlier l d init (List.append_inj' heq rfl).1

/-- Bytes copied one after the other from `d` back continue a stream that repeats with that distance. -/
theorem copyBytes_take {d l : Nat} (h : MatchAt fed p d l) : copyBytes d l (fed.take p) = fed.take (p + l) := by
  induction l generalizing p with
  | zero => rfl
  | succ l ih =>
    obtain ⟨h1, h2, h3, h4, h5⟩ := h
    have hp : p < fed.length := by omega
    have hback : (fed.take p).getD ((fed.take p).length - d) 0#8 = fed[p] := by
      have hlast := h5 0 (by omega)
      rw [List.length_take, Nat.min_eq_left (by omega), List.getD_eq_getElem?_getD, List.getElem?_take_of_lt (by omega)]
      simp only [Nat.add_zero] at hlast
      rw [hlast, List.getElem?_eq_getElem hp]
      rfl
    have hnext : MatchAt fed (p + 1) d l := by
      refine ⟨h1, by omega, h3, by omega, fun k hk => ?_⟩
      have := h5 (k + 1) (by omega)
      rwa [show p - d + (k + 1) = p + 1 - d + k by omega, show p + (k + 1) = p + 1 + k by omega] at this
    rw [copyBytes, hback, ← List.take_succ_eq_append_getElem hp, ih hnext]
    congr 1
    omega

theorem Covers.literal {v : Byte} (h : Covers fed ts p) (hv : some v = fed[p]?) : Covers fed (ts ++ [.literal v]) (p + 1) := by
  obtain ⟨hp, hget⟩ := List.getElem?_eq_some_iff.1 hv.symm
  refine ⟨h.1.snoc (by simp), ?_⟩
  rw [expand_snoc, h.2, List.take_succ_eq_append_getElem hp, hget]
  rfl

theorem Covers.copy {d l : Nat} (h : Covers fed ts p) (hm : MatchAt fed p d l) :
    Covers fed (ts ++ [.copy l d]) (p + l) := by
  refine ⟨h.1.snoc fun l' d' heq => ?_, ?_⟩
  · cases heq
    rw [h.2, List.length_take]
    have := hm.stops
    exact ⟨hm.pos, by have := hm.within; omega, hm.inWindow⟩
  · rw [expand_snoc, h.2]
    exact copyBytes_take hm

/-! ## The saved match -/

/-- What R216 says of the tokens when the parse point is at byte `p`, with the literal and the match that `s` has
saved. -/
def CoversAt (fed : List Byte) (ts : List Token) (p : Nat) (s : State) : Prop :=
  DistancesOk ts ∧
    if s.savedMatchLen = 0#9 then expand ts = fed.take p
    else
      let withMatch := ts ++ [.copy s.savedMatchLen.toNat s.savedMatchDist.toNat]
      1 ≤ p ∧ expand ts = fed.take (p - 1) ∧ some s.savedLit = fed[p - 1]? ∧
        expand withMatch = fed.take (p - 1 + s.savedMatchLen.toNat) ∧ DistancesOk withMatch

theorem covered_iff {s : State} :
    Covered fed ts s ↔ HistoryOk fed s ∧ CoversAt fed ts (fed.length - s.lookaheadSize.toNat) s := Iff.rfl

theorem coversAt_idle {s : State} (h : s.savedMatchLen = 0#9) : CoversAt fed ts p s ↔ Covers fed ts p := by
  rw [CoversAt, if_pos h]
  rfl

theorem coversAt_deferred {s : State} (h : s.savedMatchLen ≠ 0#9) :
    CoversAt fed ts p s ↔ 1 ≤ p ∧ Covers fed ts (p - 1) ∧ some s.savedLit = fed[p - 1]? ∧
      Covers fed (ts ++ [.copy s.savedMatchLen.toNat s.savedMatchDist.toNat]) (p - 1 + s.savedMatchLen.toNat) := by
  rw [CoversAt, if_neg h]
  simp only [Covers]
  tauto

/-! ## What the finder's pair says of the stream -/

/-- The lookahead bytes read without wrap, at a full lookahead too (R38, R62). -/
theorem HistoryOk.lookahead {s : State} (h : HistoryOk fed s) (hL : s.lookaheadSize.toNat ≤ Config.L) {j : Nat}
    (hj : j < s.lookaheadSize.toNat) :
    some (s.dictByte (s.lookaheadPos.toNat + j)) = fed[fed.length - s.lookaheadSize.toNat + j]? := by
  obtain ⟨hlen, hpos, _, _⟩ := id h
  have hlt := s.lookaheadPos.isLt
  simp only [Config.W, Config.L] at hpos hL
  exact h.reads (by omega) (by simp only [Config.W]; omega) (by simp only [Config.W]; omega)
    (by simp only [Config.W, Config.L]; omega)

/-- An improvement the finder yields is a match of the input stream (R188, R191, R202, R204). -/
theorem improved_matchAt {s : State} {f : Found} (hL : s.lookaheadSize.toNat ≤ Config.L)
    (hok : FoundOk s s.lookaheadPos.toNat (distanceBound s) s.lookaheadSize.toNat 0 (matchFloor s) f)
    (himp : improved s.params.reject3Dist (matchFloor s) f.dist f.len = true) (h : HistoryOk fed s) :
    MatchAt fed (fed.length - s.lookaheadSize.toNat) f.dist f.len := by
  obtain ⟨hlen, hpos, hdict, _⟩ := id h
  have hlt := s.lookaheadPos.isLt
  simp only [improved, Bool.and_eq_true, decide_eq_true_eq] at himp
  rcases hok.1 with ⟨_, heq⟩ | ⟨h1, h2, h3, h4, cand, hcand, hdist, hagree⟩
  · omega
  simp only [distanceBound, circularDist, Config.W, Config.L] at *
  refine ⟨h1, by omega, by simp only [Config.W]; omega, by omega, fun k hk => ?_⟩
  have hhere := h.lookahead (by simp only [Config.L]; omega) (show k < s.lookaheadSize.toNat by omega)
  have hthere : some (s.dictByte (cand + k)) = fed[fed.length - s.lookaheadSize.toNat - f.dist + k]? :=
    h.reads (by omega) (by simp only [Config.W]; omega) (by simp only [Config.W]; omega)
      (by simp only [Config.W, Config.L]; omega)
  rw [← hhere, ← hthere, hagree k hk]

end Sys2Proof.Machine
end

section
/-! PROOFS. `PARSE_STEP` where the LZ code buffer has room for its tokens (spec/43_parser_lzbuf.md R201 to R216). -/

namespace Sys2Proof.Machine

/-! ## Recording with room -/

theorem matchBytes_eq_tokenBytes (d l : Nat) : matchBytes d l = tokenBytes (.copy l d) := by
  simp only [matchBytes, tokenBytes, Config.M, List.cons.injEq, and_true, true_and]
  apply BitVec.eq_of_toNat_eq
  simp

theorem recordLiteral_token {v : Byte} {s : State} (hr : RoomFor 1 s) :
    ∃ u, recordLiteral v s = .ok u ∧ TokenRecorded (.literal v) s u := by
  obtain ⟨u, hu, hrec, honly, hlz⟩ := recordLiteral_room (v := v) hr
  exact ⟨u, hu, trivial, hrec, honly, hlz⟩

theorem recordMatch_token {d l : Nat} {s : State} (hm : Config.M ≤ l ∧ l ≤ Config.L ∧ 1 ≤ d ∧ d ≤ Config.W)
    (hr : RoomFor 3 s) : ∃ u, recordMatch d l s = .ok u ∧ TokenRecorded (.copy l d) s u := by
  obtain ⟨u, hu, hrec, honly, hlz⟩ := recordMatch_room hm hr
  rw [matchBytes_eq_tokenBytes] at hrec
  exact ⟨u, hu, hm, hrec, honly, hlz⟩

theorem tokenBytes_literal_length (v : Byte) : (tokenBytes (.literal v)).length = 1 := rfl

theorem tokenBytes_length_le (x : Token) : (tokenBytes x).length ≤ 3 := by cases x <;> simp [tokenBytes]

/-- How far a record moves the cursor: the token's bytes, and the slot of the group it may open (R222 to R224). -/
theorem TokenRecorded.lzPos {x : Token} {s u : State} (h : TokenRecorded x s u) :
    u.lzPos.toNat = s.lzPos.toNat + (tokenBytes x).length + (if s.flagsLeft = 1#4 then 1 else 0) ∧
      (s.flagsLeft = 1#4 → u.flagsLeft ≠ 1#4) := by
  obtain ⟨⟨hpos, _, hleft, _⟩, _⟩ := h.recorded
  refine ⟨?_, fun hone h1 => ?_⟩
  · rw [hpos]; split_ifs <;> omega
  · rw [if_pos hone, h1] at hleft
    simp at hleft

/-- Where a parser step starts from: something to parse, and room for what it may record (R201, R225). -/
structure StepRoom (s : State) : Prop where
  nonempty : 1 ≤ s.lookaheadSize.toNat
  inLookahead : s.lookaheadSize.toNat ≤ Config.L
  cursors : LzOk s
  free : s.lzPos.toNat + 5 ≤ Config.LZ_SIZE - 4

theorem StepRoom.roomFor {s : State} (h : StepRoom s) {k : Nat} (hk : k ≤ 4) : RoomFor k s := by
  have := h.free
  refine ⟨h.cursors, ?_⟩
  split_ifs <;> omega

/-- After a literal there is still room for a match: only one of the two can open a group (R208, R224). -/
theorem StepRoom.roomForMatch {v : Byte} {s u : State} (h : StepRoom s) (hr : TokenRecorded (.literal v) s u) :
    RoomFor 3 u := by
  obtain ⟨hpos, hopen⟩ := hr.lzPos
  have := h.free
  refine ⟨hr.cursors, ?_⟩
  rw [hpos, tokenBytes_literal_length]
  by_cases hone : s.flagsLeft = 1#4
  · rw [if_pos hone, if_neg (hopen hone)]; omega
  · rw [if_neg hone]; split_ifs <;> omega

/-! ## The outcome of a step -/

theorem OnlyLzChanged.parser {s t : State} (h : OnlyLzChanged s t) : OnlyParserChanged s t := by
  unfold OnlyLzChanged at h; unfold OnlyParserChanged; rw [h]

theorem OnlyParserChanged.trans {s t u : State} (h : OnlyParserChanged s t) (k : OnlyParserChanged t u) :
    OnlyParserChanged s u := by
  unfold OnlyParserChanged at *; rw [k, h]

theorem OnlyParserChanged.setSaved (s : State) (v : BitVec 8) (d : BitVec 16) (l : BitVec 9) :
    OnlyParserChanged s (s.setSaved v d l) := rfl

theorem OnlyParserChanged.advanced (adv : Nat) (s : State) : OnlyParserChanged s (advanced adv s) := rfl

theorem OnlyParserChanged.dictByte {s t : State} (h : OnlyParserChanged s t) (i : Nat) : t.dictByte i = s.dictByte i := by
  rw [h]; rfl

/-- What a transition with room leaves: the tokens `new` join those of the buffer and of the session (R212 to R216). -/
structure Transition (adv : Nat) (new : List Token) (s t : State) : Prop where
  consumes : 1 ≤ adv ∧ adv ≤ s.lookaheadSize.toNat
  advanced : Advanced adv s t
  cursors : LzOk t
  stored : t.lzPos.toNat ≤ s.lzPos.toNat + 5
  only : OnlyParserChanged s t
  few : new.length ≤ 2
  holds : ∀ held, HoldsTokens held s → HoldsTokens (held ++ new) t
  covers : ∀ fed earlier, Covered fed earlier s → Covered fed (earlier ++ new) t

/-- The tokens a transition records before it saves a match and advances: from `s` to `u`. -/
structure TokensRecorded (new : List Token) (s u : State) : Prop where
  cursors : LzOk u
  stored : u.lzPos.toNat ≤ s.lzPos.toNat + 5
  only : OnlyLzChanged s u
  few : new.length ≤ 2
  holds : ∀ held, HoldsTokens held s → HoldsTokens (held ++ new) u

theorem TokensRecorded.none {s : State} (h : StepRoom s) : TokensRecorded [] s s :=
  ⟨h.cursors, by omega, .refl s, by simp, fun held hh => by rwa [List.append_nil]⟩

theorem TokenRecorded.one {x : Token} {s u : State} (h : TokenRecorded x s u) : TokensRecorded [x] s u := by
  refine ⟨h.cursors, ?_, h.only, by simp, fun held hh => hh.record h⟩
  have := tokenBytes_length_le x
  rw [h.lzPos.1]
  split_ifs <;> omega

theorem TokenRecorded.two {v : Byte} {x : Token} {s u w : State} (h : TokenRecorded (.literal v) s u)
    (k : TokenRecorded x u w) : TokensRecorded [.literal v, x] s w := by
  refine ⟨k.cursors, ?_, h.only.trans k.only, by simp, fun held hh => ?_⟩
  · obtain ⟨hpos, hopen⟩ := h.lzPos
    have := tokenBytes_length_le x
    rw [k.lzPos.1, hpos, tokenBytes_literal_length]
    by_cases hone : s.flagsLeft = 1#4
    · rw [if_pos hone, if_neg (hopen hone)]; omega
    · rw [if_neg hone]; split_ifs <;> omega
  · rw [List.append_cons]
    exact (hh.record h).record k

/-- Every transition ends so: with its tokens recorded it saves or clears a match and advances (R205 to R210, R215).
What is left to say of each is what its tokens cover. -/
theorem TokensRecorded.advance {new : List Token} {s u : State} (h : TokensRecorded new s u) {adv : Nat} {v : Byte}
    {d : BitVec 16} {l : BitVec 9} (h1 : 1 ≤ adv) (hle : adv ≤ s.lookaheadSize.toNat)
    (hcovers : ∀ fed earlier, Covered fed earlier s →
      CoversAt fed (earlier ++ new) (fed.length - s.lookaheadSize.toNat + adv) (u.setSaved v d l)) :
    ∃ t, Machine.advance adv (u.setSaved v d l) = .ok t ∧ Transition adv new s t := by
  obtain ⟨hpos, hsize, hdict⟩ := h.only.block.cursors
  have hadv : Advanced adv s (Machine.advanced adv (u.setSaved v d l)) := by
    have := advanced_spec adv (u.setSaved v d l)
    rw [Advanced, State.setSaved_lookaheadPos, State.setSaved_lookaheadSize, State.setSaved_dictSize, hpos, hsize,
      hdict] at this
    exact this
  have honly : OnlyParserChanged s (Machine.advanced adv (u.setSaved v d l)) :=
    (h.only.parser.trans (.setSaved u v d l)).trans (.advanced adv _)
  refine ⟨_, advance_iff.2 ⟨⟨h1, ?_⟩, rfl⟩, ⟨h1, hle⟩, hadv, h.cursors, h.stored, honly, h.few, h.holds, ?_⟩
  · rw [State.setSaved_lookaheadSize, hsize]; exact hle
  · intro fed earlier hc
    obtain ⟨hhist, _⟩ := covered_iff.1 hc
    refine covered_iff.2 ⟨hhist.advance hadv hle honly.dictByte, ?_⟩
    have hparsed : fed.length - (Machine.advanced adv (u.setSaved v d l)).lookaheadSize.toNat =
        fed.length - s.lookaheadSize.toNat + adv := by
      rw [hadv.2.1]
      have := hhist.1
      omega
    rw [hparsed]
    exact hcovers fed earlier hc

/-- A record leaves the saved match (R29). -/
theorem OnlyLzChanged.setSaved_self {s u : State} (h : OnlyLzChanged s u) :
    u.setSaved s.savedLit s.savedMatchDist s.savedMatchLen = u := by
  rw [h]; rfl

/-! ## The six transitions -/

/-- The finder's pair where it is an improvement: within the ranges of a record, and a match of every stream the
dictionary can stand for (R104, R191, R204). -/
structure PairOk (d l : Nat) (s : State) : Prop where
  long : Config.M ≤ l
  ahead : l ≤ s.lookaheadSize.toNat
  pos : 1 ≤ d
  inWindow : d ≤ Config.W
  real : ∀ fed, HistoryOk fed s → MatchAt fed (fed.length - s.lookaheadSize.toNat) d l

theorem PairOk.range {d l : Nat} {s : State} (h : PairOk d l s) (hroom : StepRoom s) :
    Config.M ≤ l ∧ l ≤ Config.L ∧ 1 ≤ d ∧ d ≤ Config.W :=
  ⟨h.long, Nat.le_trans h.ahead hroom.inLookahead, h.pos, h.inWindow⟩

variable {d l : Nat} {s : State}

/-- The byte at the parse point is the next of the stream (R205, R207). -/
theorem StepRoom.parseByte {fed : List Byte} (h : StepRoom s) (hh : HistoryOk fed s) :
    some s.parseByte = fed[fed.length - s.lookaheadSize.toNat]? :=
  hh.lookahead h.inLookahead h.nonempty

/-- A match that is saved is covered by the byte before the new parse point and the bytes after it (R207, R209). -/
theorem PairOk.coversAt_save {fed : List Byte} {ts : List Token} (h : PairOk d l s) (hroom : StepRoom s)
    (hh : HistoryOk fed s) (hc : Covers fed ts (fed.length - s.lookaheadSize.toNat)) (u : State) :
    CoversAt fed ts (fed.length - s.lookaheadSize.toNat + 1)
      (u.setSaved s.parseByte (BitVec.ofNat 16 d) (BitVec.ofNat 9 l)) := by
  obtain ⟨hl3, hl, hd1, hd⟩ := h.range hroom
  simp only [Config.M, Config.L, Config.W] at hl3 hl hd
  have hlen : (BitVec.ofNat 9 l).toNat = l := by rw [BitVec.toNat_ofNat]; omega
  have hdist : (BitVec.ofNat 16 d).toNat = d := by rw [BitVec.toNat_ofNat]; omega
  have hne : (u.setSaved s.parseByte (BitVec.ofNat 16 d) (BitVec.ofNat 9 l)).savedMatchLen ≠ 0#9 := by
    intro h0
    rw [State.setSaved_savedMatchLen] at h0
    rw [h0] at hlen
    simp at hlen
    omega
  rw [coversAt_deferred hne]
  simp only [State.setSaved_savedMatchLen, State.setSaved_savedMatchDist, State.setSaved_savedLit, hlen, hdist,
    Nat.add_sub_cancel]
  exact ⟨by omega, hc, hroom.parseByte hh, hc.copy (h.real fed hh)⟩

theorem idleLiteral_transition (hroom : StepRoom s) (hidle : s.savedMatchLen = 0#9) :
    ∃ t adv new, idleLiteral s = .ok t ∧ Transition adv new s t := by
  obtain ⟨u, hu, hrec⟩ := recordLiteral_token (v := s.parseByte) (hroom.roomFor (by decide))
  obtain ⟨t, ht, htr⟩ := hrec.one.advance (adv := 1) (v := s.savedLit) (d := s.savedMatchDist) (l := s.savedMatchLen)
    (Nat.le_refl 1) hroom.nonempty (by
      intro fed earlier hc
      obtain ⟨hhist, hcov⟩ := covered_iff.1 hc
      exact (coversAt_idle hidle).2 (((coversAt_idle hidle).1 hcov).literal (hroom.parseByte hhist)))
  rw [hrec.only.setSaved_self] at ht
  exact ⟨t, _, _, bind_ok.2 ⟨u, hu, ht⟩, htr⟩

theorem idleCommit_transition (hroom : StepRoom s) (hidle : s.savedMatchLen = 0#9) (hpair : PairOk d l s) :
    ∃ t adv new, idleCommit d l s = .ok t ∧ Transition adv new s t := by
  obtain ⟨u, hu, hrec⟩ := recordMatch_token (hpair.range hroom) (hroom.roomFor (by decide))
  have hlong := hpair.long
  obtain ⟨t, ht, htr⟩ := hrec.one.advance (adv := l) (v := s.savedLit) (d := s.savedMatchDist) (l := s.savedMatchLen)
    (by simp only [Config.M] at hlong; omega) hpair.ahead (by
      intro fed earlier hc
      obtain ⟨hhist, hcov⟩ := covered_iff.1 hc
      exact (coversAt_idle hidle).2 (((coversAt_idle hidle).1 hcov).copy (hpair.real fed hhist)))
  rw [hrec.only.setSaved_self] at ht
  exact ⟨t, _, _, bind_ok.2 ⟨u, hu, ht⟩, htr⟩

theorem idleDefer_transition (hroom : StepRoom s) (hidle : s.savedMatchLen = 0#9) (hpair : PairOk d l s) :
    ∃ t adv new, idleDefer d l s = .ok t ∧ Transition adv new s t := by
  obtain ⟨t, ht, htr⟩ := (TokensRecorded.none hroom).advance (adv := 1) (v := s.parseByte) (d := BitVec.ofNat 16 d)
    (l := BitVec.ofNat 9 l) (Nat.le_refl 1) hroom.nonempty (by
      intro fed earlier hc
      obtain ⟨hhist, hcov⟩ := covered_iff.1 hc
      rw [List.append_nil]
      exact hpair.coversAt_save hroom hhist ((coversAt_idle hidle).1 hcov) s)
  exact ⟨t, _, _, ht, htr⟩

/-- In `Deferred` the saved literal covers the byte before the parse point (R208, R209). -/
theorem Covered.savedLiteral {fed : List Byte} {earlier : List Token} (hdef : s.savedMatchLen ≠ 0#9)
    (hc : Covered fed earlier s) :
    Covers fed (earlier ++ [.literal s.savedLit]) (fed.length - s.lookaheadSize.toNat) := by
  obtain ⟨h1, hcov, hlit, _⟩ := (coversAt_deferred hdef).1 (covered_iff.1 hc).2
  have := hcov.literal hlit
  rwa [Nat.sub_add_cancel h1] at this

theorem deferredLongerLong_transition (hroom : StepRoom s) (hdef : s.savedMatchLen ≠ 0#9) (hpair : PairOk d l s) :
    ∃ t adv new, deferredLongerLong d l s = .ok t ∧ Transition adv new s t := by
  obtain ⟨u, hu, hlit⟩ := recordLiteral_token (v := s.savedLit) (hroom.roomFor (by decide))
  obtain ⟨w, hw, hcopy⟩ := recordMatch_token (hpair.range hroom) (hroom.roomForMatch hlit)
  have hlong := hpair.long
  obtain ⟨t, ht, htr⟩ := (hlit.two hcopy).advance (adv := l) (v := w.savedLit) (d := w.savedMatchDist) (l := 0#9)
    (by simp only [Config.M] at hlong; omega) hpair.ahead (by
      intro fed earlier hc
      rw [List.append_cons]
      exact (coversAt_idle rfl).2 ((hc.savedLiteral hdef).copy (hpair.real fed hc.1)))
  exact ⟨t, _, _, bind_ok.2 ⟨u, hu, bind_ok.2 ⟨w, hw, ht⟩⟩, htr⟩

theorem deferredLongerShort_transition (hroom : StepRoom s) (hdef : s.savedMatchLen ≠ 0#9) (hpair : PairOk d l s) :
    ∃ t adv new, deferredLongerShort d l s = .ok t ∧ Transition adv new s t := by
  obtain ⟨u, hu, hlit⟩ := recordLiteral_token (v := s.savedLit) (hroom.roomFor (by decide))
  obtain ⟨t, ht, htr⟩ := hlit.one.advance (adv := 1) (v := s.parseByte) (d := BitVec.ofNat 16 d)
    (l := BitVec.ofNat 9 l) (Nat.le_refl 1) hroom.nonempty
    fun fed earlier hc => hpair.coversAt_save hroom hc.1 (hc.savedLiteral hdef) u
  exact ⟨t, _, _, bind_ok.2 ⟨u, hu, ht⟩, htr⟩

/-- A saved match in its ranges (R207, R209). -/
def SavedMatchOk (s : State) : Prop :=
  s.savedMatchLen = 0#9 ∨
    (Config.M ≤ s.savedMatchLen.toNat ∧ s.savedMatchLen.toNat < Config.LONG_COMMIT ∧
      1 ≤ s.savedMatchDist.toNat ∧ s.savedMatchDist.toNat ≤ Config.W ∧ 2 ≤ s.lookaheadSize.toNat ∧
      s.savedMatchLen.toNat - 1 ≤ s.lookaheadSize.toNat)

theorem deferredCommit_transition (hroom : StepRoom s) (hdef : s.savedMatchLen ≠ 0#9) (hsaved : SavedMatchOk s) :
    ∃ t adv new, deferredCommit s = .ok t ∧ Transition adv new s t := by
  obtain ⟨hl3, hl64, hd1, hd, _, hahead⟩ := hsaved.resolve_left hdef
  simp only [Config.M, Config.LONG_COMMIT] at hl3 hl64
  obtain ⟨u, hu, hrec⟩ := recordMatch_token (d := s.savedMatchDist.toNat) (l := s.savedMatchLen.toNat)
    ⟨hl3, by simp only [Config.L]; omega, hd1, hd⟩ (hroom.roomFor (by decide))
  obtain ⟨t, ht, htr⟩ := hrec.one.advance (adv := s.savedMatchLen.toNat - 1) (v := u.savedLit) (d := u.savedMatchDist)
    (l := 0#9) (by omega) hahead (by
      intro fed earlier hc
      obtain ⟨h1, _, _, hcov⟩ := (coversAt_deferred hdef).1 (covered_iff.1 hc).2
      rw [show fed.length - s.lookaheadSize.toNat + (s.savedMatchLen.toNat - 1) =
        fed.length - s.lookaheadSize.toNat - 1 + s.savedMatchLen.toNat by omega]
      exact (coversAt_idle rfl).2 hcov)
  exact ⟨t, _, _, bind_ok.2 ⟨u, hu, ht⟩, htr⟩

/-- The row of the transition table that applies runs, whichever it is (R212). -/
theorem parseTransition_transition {better : Bool} (hroom : StepRoom s) (hsaved : SavedMatchOk s)
    (hpair : better = true → PairOk d l s) :
    ∃ t adv new, parseTransition d l better s = .ok t ∧ Transition adv new s t := by
  unfold parseTransition
  split
  · rename_i hidle
    split
    · rename_i hbetter
      split
      · exact idleCommit_transition hroom hidle (hpair hbetter)
      · exact idleDefer_transition hroom hidle (hpair hbetter)
    · exact idleLiteral_transition hroom hidle
  · rename_i hdef
    split
    · rename_i hbetter
      split
      · exact deferredLongerLong_transition hroom hdef (hpair hbetter)
      · exact deferredLongerShort_transition hroom hdef (hpair hbetter)
    · exact deferredCommit_transition hroom hdef hsaved

/-! ## The step -/

/-- The finder's mark is in `prev`, which no token and no cover depends on (R185). -/
theorem Transition.of_applyMark {m : Option Nat} {adv : Nat} {new : List Token} {t : State}
    (h : Transition adv new (applyMark m s) t) : Transition adv new { s with prev := t.prev } t := by
  have hm := applyMark_only s m
  have hprev : t.prev = (applyMark m s).prev := by rw [h.only]
  rw [hprev]
  rwa [hm] at h

theorem SavedMatchOk.savedOk (h : SavedMatchOk s) :
    SavedOk s.lookaheadSize.toNat s.savedMatchDist.toNat s.savedMatchLen.toNat :=
  h.imp (fun h0 => by rw [h0]; rfl) id

theorem SavedMatchOk.of_savedOk (h : SavedOk s.lookaheadSize.toNat s.savedMatchDist.toNat s.savedMatchLen.toNat) :
    SavedMatchOk s :=
  h.imp (fun h0 => BitVec.eq_of_toNat_eq (by simpa using h0)) id

/-- `PARSE_STEP` with room for its tokens completes (R201, R212, R215, R216). -/
theorem parseStep_transition (hroom : StepRoom s) (hdict : s.dictSize.toNat ≤ Config.W) (hsaved : SavedMatchOk s) :
    ∃ t adv new, parseStep s = .ok t ∧ Transition adv new { s with prev := t.prev } t ∧ ParserOk t := by
  have hfloor : s.savedMatchLen = 0#9 ∨ 2 ≤ s.savedMatchLen.toNat :=
    hsaved.imp_right fun h => by have := h.1; simp only [Config.M] at this; omega
  obtain ⟨f, hrun, _, hok⟩ := parseStep_eq s hroom.nonempty hroom.inLookahead hfloor
  have hm := applyMark_only s f.mark
  have hroom' : StepRoom (applyMark f.mark s) := by
    rw [hm]; exact ⟨hroom.nonempty, hroom.inLookahead, hroom.cursors, hroom.free⟩
  have hsaved' : SavedMatchOk (applyMark f.mark s) := by rw [hm]; exact hsaved
  obtain ⟨t, adv, new, ht, htr⟩ := parseTransition_transition hroom' hsaved' (d := f.dist) (l := f.len)
    (better := improved s.params.reject3Dist (matchFloor s) f.dist f.len) (by
      intro himp
      obtain ⟨h1, h2, h3, h4⟩ := improved_pair hdict hfloor hok himp
      rw [hm]
      exact ⟨h1, h2, h3, h4, fun fed hh => improved_matchAt hroom.inLookahead hok himp hh⟩)
  have hstep : parseStep s = .ok t := hrun.trans ht
  refine ⟨t, adv, new, hstep, htr.of_applyMark, ?_⟩
  obtain ⟨_, hso⟩ := parseStep_keeps hstep hroom.inLookahead hdict hsaved.savedOk
  obtain ⟨⟨h1, _⟩, ⟨_, hsize, hhist⟩, _⟩ := htr.of_applyMark
  have hL := hroom.inLookahead
  simp only [Config.L] at hL
  refine ⟨?_, ?_, SavedMatchOk.of_savedOk hso⟩
  · simp only [Config.L] at *; omega
  · rw [hhist]; exact Nat.min_le_right _ _

/-- Settles O40: the finder's pair selects one of six transitions, each of which runs within the room and covers. -/
theorem parseStepConsumesLookahead : Obligations.ParseStepConsumesLookahead := by
  intro s h1 hL hdict hsaved hlz hfree
  obtain ⟨t, adv, new, hrun, htr, hparser⟩ := parseStep_transition ⟨h1, hL, hlz, hfree⟩ hdict hsaved
  obtain ⟨⟨hpos, hle⟩, hadv, hlz', hstored, honly, hfew, hholds, hcovers⟩ := htr
  refine ⟨t, adv, ?_, hpos, hle, hadv, hparser, hlz', hstored, honly, new, hfew, hholds, hcovers⟩
  simp only [exec, execParseStep, hrun, ofRun_ok]

end Sys2Proof.Machine
end

section
/-! PROOFS. `FEED` where the LZ code buffer has room for the tokens of its bytes (spec/46_session.md R315,
spec/41_dictionary_hash.md R167, spec/43_parser_lzbuf.md R225). -/

namespace Sys2Proof.Machine

/-- No part of the output moved: nothing reached the sink, the staging buffer or the accumulator, and nothing failed. -/
def OutputSame (s t : State) : Prop :=
  t.failed = s.failed ∧ t.sinkLog = s.sinkLog ∧ streamBits t = streamBits s

theorem OutputSame.refl (s : State) : OutputSame s s := ⟨rfl, rfl, rfl⟩

theorem OutputSame.trans {s t u : State} (h : OutputSame s t) (k : OutputSame t u) : OutputSame s u :=
  ⟨k.1.trans h.1, k.2.1.trans h.2.1, k.2.2.trans h.2.2⟩

/-- A parser step that emits no block leaves the output alone. -/
theorem OnlyParserChanged.outputSame {s t : State} (h : OnlyParserChanged { s with prev := t.prev } t) :
    OutputSame s t := by
  rw [h]; exact ⟨rfl, rfl, rfl⟩

theorem takeByte_outputSame (b : Byte) (s : State) : OutputSame s (takeByte b s) := by
  unfold takeByte
  simp only
  split
  · rw [insertPosition_only, storeDictByte_only]; exact ⟨rfl, rfl, rfl⟩
  · rw [storeDictByte_only]; exact ⟨rfl, rfl, rfl⟩

/-- One byte with room for the at most 5 bytes of its tokens (R167, R225). -/
theorem feedByte_room {b : Byte} {s : State} (hs : CursorsOk s) (hfree : s.lzPos.toNat + 5 ≤ Config.LZ_SIZE - 4) :
    ∃ t, feedByte b s = .ok t ∧ t.lzPos.toNat ≤ s.lzPos.toNat + 5 ∧ OutputSame s t := by
  obtain ⟨_, ⟨hsize, hdict, hsaved⟩, hlz, _⟩ := hs
  obtain ⟨_, tsize, _, tdict, _, tdist, tlen, tlz, _, _, _, tpos⟩ := takeByte_fields b s
  simp only [Config.L] at hsize
  have hnext : (takeByte b s).lookaheadSize.toNat = s.lookaheadSize.toNat + 1 := by
    rw [tsize, BitVec.toNat_add]; simp; omega
  rw [feedByte, if_neg (by simp only [Config.L]; omega)]
  simp only
  split
  · rename_i hfull
    have hroom : StepRoom (takeByte b s) := ⟨by omega, by omega, tlz hlz, by rw [tpos]; exact hfree⟩
    have hsaved' : SavedMatchOk (takeByte b s) := by
      rw [SavedMatchOk, tlen, tdist, hnext]
      exact hsaved.imp_right fun ⟨h1, h2, h3, h4, h5, h6⟩ => ⟨h1, h2, h3, h4, by omega, by omega⟩
    obtain ⟨t, _, _, ht, htr, _⟩ := parseStep_transition hroom (by rw [tdict]; exact hdict) hsaved'
    refine ⟨t, ht, ?_, (takeByte_outputSame b s).trans htr.only.outputSame⟩
    rw [← tpos]
    exact htr.stored
  · exact ⟨_, rfl, by rw [tpos]; omega, takeByte_outputSame b s⟩

/-- The bytes of a `FEED`, each with room for its tokens. -/
theorem feedBytes_room {data : List Byte} {s : State} (hs : CursorsOk s)
    (hfree : s.lzPos.toNat + 5 * data.length ≤ Config.LZ_SIZE - 4) :
    ∃ t, feedBytes data s = .ok t ∧ OutputSame s t ∧
      t.lookaheadSize.toNat ≤ s.lookaheadSize.toNat + data.length := by
  induction data generalizing s with
  | nil => exact ⟨s, rfl, .refl s, Nat.le_refl _⟩
  | cons b bs ih =>
    rw [List.length_cons] at hfree ⊢
    obtain ⟨u, hu, hpos, hout⟩ := feedByte_room (b := b) hs (by omega)
    obtain ⟨_, _, hcursors, hsize⟩ := feedByte_keeps hu hs
    obtain ⟨t, ht, hout', hsize'⟩ := ih hcursors (by omega)
    exact ⟨t, bind_ok.2 ⟨u, hu, ht⟩, hout.trans hout', by omega⟩

/-- Settles O16: byte after byte there is room, so no block is emitted and no precondition fails. -/
theorem feedCompletesWithRoom : Obligations.FeedCompletesWithRoom := by
  intro data s hs ho hfree
  obtain ⟨u, hu, ⟨hfailed, hlog, hstream⟩, hsize⟩ := feedBytes_room hs.cursors hfree
  obtain ⟨hset, hret, hclosed, _⟩ := feed_lifecycle ho hu
  have hf : u.failed = false := hfailed.trans ho.2
  refine ⟨replyHealth u, (exec_feed_of_open ho).2 ⟨u, hu, rfl⟩, (feedBytes_sessionOk hu hs).reply _, ⟨hclosed, hf⟩, ?_,
    hlog, hstream, hset, hsize⟩
  rw [replyHealth, State.reply_returns, hret, hf]
  rfl

end Sys2Proof.Machine
end

section
/-! PROOFS. What every step keeps of the memories (spec/20_memory.md R60, R62, R63): the canonical form and the mirror
of `dict`. Both are shown along one walk over the instructions; what may write `dict` is `FEED_BYTE` alone. -/

namespace Sys2Proof.Machine

/-! ## The mirror of the dictionary -/

/-- A byte stored in its slot and, in the first 257 slots, in the mirror too keeps the mirror relation (R62, R162). -/
theorem MirrorOk.storeDictByte {q : Nat} {s : State} (h : MirrorOk s) (b : Byte) (hq : q < Config.W) :
    MirrorOk (storeDictByte q b s) := by
  intro j hj
  have hshort : Config.L - 1 ≤ Config.W := by decide
  have hnotMirror : q ≠ Config.W + j := by omega
  unfold Machine.storeDictByte
  split
  · have hboth : q + Config.W = Config.W + j ↔ q = j := by omega
    have hnotSlot : q + Config.W ≠ j := by omega
    simp only [State.writeDict, State.setDict_dict, Mem.get?_set, hboth, hnotMirror, hnotSlot, if_false, h j hj]
  · have hpast : q ≠ j := by omega
    simp only [State.writeDict, State.setDict_dict, Mem.get?_set, hnotMirror, hpast, if_false, h j hj]

theorem MirrorOk.takeByte {s : State} (h : MirrorOk s) (b : Byte) : MirrorOk (takeByte b s) := by
  have hstored : MirrorOk (Machine.storeDictByte (feedSlot s) b (adlerUpdate b s)) :=
    MirrorOk.storeDictByte (s := adlerUpdate b s) h b (feedSlot_lt s)
  unfold Machine.takeByte
  simp only
  split
  · exact hstored
  · exact hstored

theorem MirrorOk.of_dict {s t : State} (h : MirrorOk s) (hdict : t.dict = s.dict) : MirrorOk t := by
  unfold MirrorOk
  rw [hdict]
  exact h

/-! ## Both invariants together -/

/-- From `s` to `t` the canonical form of the memories and the mirror relation carry over (R60, R62). -/
structure MemoriesCarry (s t : State) : Prop where
  canonical : MemoriesOk s → MemoriesOk t
  mirror : MirrorOk s → MirrorOk t

theorem MemoriesCarry.refl (s : State) : MemoriesCarry s s := ⟨id, id⟩

theorem MemoriesCarry.trans {s t u : State} (h : MemoriesCarry s t) (k : MemoriesCarry t u) : MemoriesCarry s u :=
  ⟨fun hs => k.canonical (h.canonical hs), fun hs => k.mirror (h.mirror hs)⟩

/-- Work that leaves `dict` alone has only the canonical form to answer for. -/
theorem MemoriesCarry.of_dict {s t : State} (hdict : t.dict = s.dict) (hm : MemoriesOk s → MemoriesOk t) :
    MemoriesCarry s t := ⟨hm, fun h => h.of_dict hdict⟩

/-- The parser, the token buffer, the block encoder and the BitSink leave `dict` alone. -/
theorem OnlyStepChanged.carries {s t : State} (h : OnlyStepChanged s t) (hm : MemoriesOk s → MemoriesOk t) :
    MemoriesCarry s t := .of_dict (by rw [h]) hm

theorem StepKeeps.carries {s t : State} (h : StepKeeps s t) (hm : MemoriesOk s → MemoriesOk t) : MemoriesCarry s t := by
  obtain ⟨honly, _⟩ := h
  exact honly.carries hm

theorem OnlyBlockChanged.carries {s t : State} (h : OnlyBlockChanged s t) (hm : MemoriesOk s → MemoriesOk t) :
    MemoriesCarry s t := h.step.carries hm

theorem OnlyLzChanged.carries {s t : State} (h : OnlyLzChanged s t) (hm : MemoriesOk s → MemoriesOk t) :
    MemoriesCarry s t := h.block.carries hm

theorem OnlySinkChanged.carries {s t : State} (h : OnlySinkChanged s t) (hm : MemoriesOk s → MemoriesOk t) :
    MemoriesCarry s t := h.block.carries hm

theorem ofRun_carries {r : Except Fault State} {s t : State} (h : ofRun r = .next t)
    (hrun : r = .ok t → MemoriesCarry s t) : MemoriesCarry s t := hrun ((ofRun_next _ _).1 h)

/-- The value an internal operation yields is no memory (log 11). -/
theorem MemoriesCarry.setResult {s t : State} (h : MemoriesCarry s t) (r : OpResult) :
    MemoriesCarry s (t.setResult r) := ⟨h.canonical, h.mirror⟩

/-- A returned bit is no memory (R96). -/
theorem MemoriesCarry.reply {s t : State} (h : MemoriesCarry s t) (b : Bool) : MemoriesCarry s (t.reply b) :=
  ⟨h.canonical, h.mirror⟩

/-- A hardware reset leaves every memory unwritten, the dictionary and its mirror alike (R370). -/
theorem hardwareReset_carries (s u : State) : MemoriesCarry s (hardwareReset u) :=
  ⟨fun _ => hardwareReset_memoriesOk u, fun _ _ _ => rfl⟩

/-! ## The operations that need more than their frame -/

theorem putFields_carries {fs : List (Nat × Nat)} {s t : State} (h : putFields fs s = .ok t) : MemoriesCarry s t :=
  (putFields_only h).carries (·.putFields h)

/-- One fed byte is the only writer of `dict`; what the parser does after it leaves `dict` alone (R160, R162). -/
theorem feedByte_carries {b : Byte} {s t : State} (h : feedByte b s = .ok t) : MemoriesCarry s t := by
  refine ⟨(·.feedByte h), fun hmirror => ?_⟩
  have htaken := hmirror.takeByte b
  unfold feedByte at h
  split at h
  · cases h
  · simp only at h
    split at h
    · have honly : OnlyStepChanged (takeByte b s) t := (parseStep_stepKeeps h).1
      exact htaken.of_dict (by rw [honly])
    · cases h
      exact htaken

theorem feedBytes_carries {data : List Byte} {s t : State} (h : feedBytes data s = .ok t) : MemoriesCarry s t := by
  induction data generalizing s with
  | nil => cases h; exact .refl _
  | cons b bs ih =>
    obtain ⟨u, hu, h⟩ := bind_ok.1 h
    exact (feedByte_carries hu).trans (ih h)

/-- `FINISH` parses, flushes and emits; it takes no byte into the dictionary (R316). -/
theorem finishSession_carries {s t : State} (h : finishSession s = .ok t) : MemoriesCarry s t := by
  refine .of_dict ?_ (·.finishSession h)
  obtain ⟨parsed, flushed, emitted, aligned, trailed, drained, hparse, hsaved, hflush, halign, htrailer, hdrain, rfl⟩ :=
    finishSession_ok h
  have hsink : OnlySinkChanged emitted drained :=
    ((align_only halign).trans (putFields_only htrailer)).trans (drain_only hdrain)
  have honly : OnlyStepChanged s drained :=
    ((parseAll_empties hparse (Nat.le_refl _)).1.trans (savedMatchFlush_only hsaved)).trans
      ((flushBlock_only hflush).trans hsink.block).step
  rw [honly]
  rfl

/-- `INIT` clears registers, `head` at most, and the dictionary not at all (R310, R312). -/
theorem initSession_carries {flags : BitVec 16} {s t : State} (h : initSession flags s = .ok t) : MemoriesCarry s t := by
  refine .of_dict ?_ (·.initSession h)
  have honly : OnlySinkChanged (clearSession (takeFlags flags s)) t := putFields_only h
  rw [honly, clearSession_eq, takeFlags_eq]

theorem init_carries {p : Bool} {flags : BitVec 16} {s t : State} (h : exec (.init p flags) s = .next t) :
    MemoriesCarry s t := by
  cases p with
  | false =>
    have h : Host.Outcome.next (refuseCommand .sinkMissing s) = .next t := h
    cases h
    exact ⟨id, id⟩
  | true =>
    obtain ⟨u, hu, rfl⟩ := execInit_ok h
    exact (initSession_carries hu).reply true

theorem compressData_carries {i : Instr} {s t : State} (hi : isCompressData i) (h : exec i s = .next t) :
    MemoriesCarry s t := by
  rcases compressData_ok hi h with rfl | ⟨data, _, _, u, hu, rfl⟩ | ⟨_, _, u, hu, rfl⟩ | ⟨_, rfl⟩
  · exact (MemoriesCarry.refl s).reply false
  · exact (feedBytes_carries hu).reply _
  · exact (finishSession_carries hu).reply _
  · exact ⟨id, id⟩

/-- A call on the sink port reads `out_buf` and writes no memory (R97). -/
theorem execSinkPut_carries {n : BitVec 13} {s t : State} (h : execSinkPut n s = .next t) : MemoriesCarry s t := by
  unfold execSinkPut at h
  split at h
  · cases h
  split at h
  · cases h; exact .refl _
  · obtain ⟨answer, later, draws, hcall⟩ := sinkCall_eq (stagedBytes s n.toNat) s
    rw [hcall] at h
    cases answer <;> cases h <;> exact ⟨id, id⟩

/-- `NONDET` with the bit clear fills `head` with the sentinel (R310). -/
theorem takeNondet_carries (b : Bool) (s : State) : MemoriesCarry s (takeNondet b s) := by
  cases b with
  | true => exact ⟨id, id⟩
  | false => exact ⟨fun h => MemoriesOk.setHead (s := s.setNondet false) h rfl, id⟩

/-- The finder's terminal mark is all it writes (R185). -/
theorem findMatch_carries {pos : BitVec 15} {a b c d : Nat} {s : State} {r : State × Nat × Nat}
    (h : findMatch pos a b c d s = .ok r) : MemoriesCarry s r.1 := by
  refine .of_dict ?_ (·.findMatch h)
  obtain ⟨m, hm⟩ := findMatch_state h
  rw [hm, applyMark_only]

/-- `HUFF_DEPTHS` works in place, so the sorted array keeps its 288 elements (R35, R245). -/
theorem execHuffDepths_carries {n : BitVec 9} {s t : State} (h : execHuffDepths n s = .next t) : MemoriesCarry s t := by
  unfold execHuffDepths at h
  split at h
  · cases h
  obtain ⟨depths, _, h⟩ := bind_ok.1 ((ofRun_next _ _).1 h)
  have h := (pure_ok _ _).1 h
  subst h
  refine ⟨fun ⟨h1, h2, h3, h4, h5, h6, h7, h8, h9, h10, h11, h12, h13, h14, h288⟩ => ?_, id⟩
  have hlive : (storeDepths (s.syms.take n.toNat) depths).length ≤ s.syms.length := by
    simp only [storeDepths, List.length_zipWith, List.length_take]
    omega
  exact ⟨h1, h2, h3, h4, h5, h6, h7, h8, h9, h10, h11, h12, h13, h14, (overlay_length hlive).trans h288⟩

theorem execRlePack_carries {seq : List (BitVec 4)} {s t : State} (h : execRlePack seq s = .next t) :
    MemoriesCarry s t := by
  unfold execRlePack at h
  simp only at h
  split at h
  · cases h
  · cases h; exact ⟨id, id⟩

theorem execClLengths_carries {n : BitVec 5} {s t : State} (h : execClLengths n s = .next t) : MemoriesCarry s t := by
  unfold execClLengths at h
  split at h
  · cases h
  · exact ofRun_carries h putFields_carries

/-! ## Every instruction, every step -/

/-- Every instruction keeps both: an operation that leaves `dict` alone by its frame and its canonical-form law, the
others by the lemmas above. -/
theorem exec_carries {i : Instr} {s t : State} (h : exec i s = .next t) : MemoriesCarry s t := by
  cases i with
  | init p flags => exact init_carries h
  | feed data => exact compressData_carries (.inl ⟨data, rfl⟩) h
  | finish => exact compressData_carries (.inr (.inl rfl)) h
  | badarg len => exact compressData_carries (.inr (.inr ⟨len, rfl⟩)) h
  | reservedOp2 _ | reservedOp3 _ | reservedBit3 _ _ _ | reservedHigh _ _ _ _ | reservedCdFlags _ _ =>
    cases h; exact ⟨id, id⟩
  | sinkPut n => exact execSinkPut_carries h
  | flagProbes _ | flagZlib _ | flagBit13 _ | flagGreedy _ => cases h; exact ⟨id, id⟩
  | flagNondet b => cases h; exact takeNondet_carries b s
  | putBits v n => exact ofRun_carries h fun h => (putBits_only h).carries (·.putBits h)
  | outByte b => exact ofRun_carries h fun h => (outByte_only h).carries (·.outByte h)
  | drain => exact ofRun_carries h fun h => (drain_only h).carries (·.drain h)
  | align => exact ofRun_carries h fun h => (align_only h).carries (·.align h)
  | feedByte b => exact ofRun_carries h feedByte_carries
  | hash3 _ _ _ | rev _ _ | adlerUpdate _ => cases h; exact ⟨id, id⟩
  | findMatch pos maxDist maxLen dist len =>
    obtain ⟨r, hr, h⟩ := bind_ok.1 ((ofRun_next _ _).1 h)
    have h := (pure_ok _ _).1 h
    subst h
    exact (findMatch_carries hr).setResult _
  | parseStep => exact ofRun_carries h fun h => (parseStep_stepKeeps h).carries (·.parseStep h)
  | idleLiteral => exact ofRun_carries h fun h => (idleLiteral_keeps h).1.carries (·.idleLiteral h)
  | idleCommit d l => exact ofRun_carries h fun h => (idleCommit_keeps h).1.carries (·.idleCommit h)
  | idleDefer d l => exact ofRun_carries h fun h => (idleDefer_keeps h).1.carries (·.idleDefer h)
  | deferredLongerLong d l =>
    exact ofRun_carries h fun h => (deferredLongerLong_keeps h).1.carries (·.deferredLongerLong h)
  | deferredLongerShort d l =>
    exact ofRun_carries h fun h => (deferredLongerShort_keeps h).1.carries (·.deferredLongerShort h)
  | deferredCommit => exact ofRun_carries h fun h => (deferredCommit_keeps h).1.carries (·.deferredCommit h)
  | savedMatchFlush => exact ofRun_carries h fun h => (savedMatchFlush_only h).carries (·.savedMatchFlush h)
  | lzReset => cases h; exact (lzReset_only s).carries (·.lzReset)
  | recordLiteral v => exact ofRun_carries h fun h => (recordLiteral_only h).carries (·.recordLiteral h)
  | recordMatch d l => exact ofRun_carries h fun h => (recordMatch_only h).carries (·.recordMatch h)
  | lzAfterRecord m => exact ofRun_carries h fun h => (lzAfterRecord_only h).carries (·.lzAfterRecord h)
  | optimize x => exact ofRun_carries h fun h => (optimize_only h).block.carries (·.optimize h)
  | huffDepths n => exact execHuffDepths_carries h
  | flushBlock last => exact ofRun_carries h fun h => (flushBlock_only h).carries (·.flushBlock h)
  | tokens _ | lenSym _ | distSym _ =>
    obtain ⟨r, _, h⟩ := bind_ok.1 ((ofRun_next _ _).1 h)
    have h := (pure_ok _ _).1 h
    subst h
    exact (MemoriesCarry.refl s).setResult _
  | rlePack seq => exact execRlePack_carries h
  | lzFlag f => exact ofRun_carries h fun h => (writeLz_only h).carries (·.writeLz h)
  | lzLiteral v => exact ofRun_carries h fun h => (appendLz_only h).carries (·.appendLz h)
  | lzMatch l d => exact ofRun_carries h fun h => (appendLz_only h).carries (·.appendLz h)
  | clLengths n => exact execClLengths_carries h
  -- The rows of the wire format: each emits its fields (R110 to R120).
  | _ => exact ofRun_carries h putFields_carries

/-- A step is an instruction, the waiting step, or a hardware reset; taking an item from the host port or an operation
from the sequencer touches no memory (R12, R355, R370). -/
theorem step_carries {s t : State} (h : step s = .next t) : MemoriesCarry s t := by
  rcases step_cases h with ⟨i, rest, _, hexec⟩ | ⟨_, rfl | ⟨i, rest, _, hexec⟩ | ⟨u, rfl⟩⟩
  · exact MemoriesCarry.trans (t := s.setSequencer rest) ⟨id, id⟩ (exec_carries hexec)
  · exact .refl _
  · exact MemoriesCarry.trans (t := s.setHostIn rest) ⟨id, id⟩ (exec_carries hexec)
  · exact hardwareReset_carries s u

/-- Settles O57: every operation writes inside its memory, and a write inside keeps the canonical form. -/
theorem stepKeepsMemoriesCanonical : Obligations.StepKeepsMemoriesCanonical :=
  fun _ _ hs hstep => (step_carries hstep).canonical hs

/-- Settles O58: `FEED_BYTE` stores a byte and its mirror together, and nothing else writes `dict`. -/
theorem stepKeepsTheMirror : Obligations.StepKeepsTheMirror :=
  fun _ _ hs hstep => (step_carries hstep).mirror hs

end Sys2Proof.Machine
end

section
/-! PROOFS. Decoding and encoding are inverse to each other (spec/30_encoding.md R90 to R95, R101 to R104, R119, R281):
the command word by its fields, then what follows it, then the forms outside the host port. -/

namespace Sys2Proof

/-! ## The command word -/

section
variable (high : BitVec 12) (flags : BitVec 16) (bit3 p : Bool) (op : BitVec 2)

theorem getLsbD_packWord (i : Nat) :
    (packWord high flags bit3 p op).getLsbD i =
      if i < 2 then op.getLsbD i else if i = 2 then p else if i = 3 then bit3
      else if i < 20 then flags.getLsbD (i - 4) else high.getLsbD (i - 20) := by
  simp only [packWord, BitVec.getLsbD_append, BitVec.getLsbD_ofBool]
  grind

theorem packWord_op : (packWord high flags bit3 p op).extractLsb' 0 2 = op := by
  apply BitVec.eq_of_getLsbD_eq
  grind [getLsbD_packWord]

theorem packWord_op0 : (packWord high flags bit3 p op).getLsbD 0 = op.getLsbD 0 := by
  rw [getLsbD_packWord, if_pos (by decide)]

theorem packWord_p : (packWord high flags bit3 p op).getLsbD 2 = p := by
  rw [getLsbD_packWord, if_neg (by decide), if_pos rfl]

theorem packWord_bit3 : (packWord high flags bit3 p op).getLsbD 3 = bit3 := by
  rw [getLsbD_packWord, if_neg (by decide), if_neg (by decide), if_pos rfl]

theorem packWord_flags : (packWord high flags bit3 p op).extractLsb' 4 16 = flags := by
  apply BitVec.eq_of_getLsbD_eq
  grind [getLsbD_packWord]

theorem packWord_high : (packWord high flags bit3 p op).extractLsb' 20 12 = high := by
  apply BitVec.eq_of_getLsbD_eq
  grind [getLsbD_packWord]

end

/-- A command word is its fields (R90). -/
theorem packWord_fields (w : Word) :
    packWord (w.extractLsb' 20 12) (w.extractLsb' 4 16) (w.getLsbD 3) (w.getLsbD 2) (w.extractLsb' 0 2) = w := by
  apply BitVec.eq_of_getLsbD_eq
  grind [getLsbD_packWord]

/-- A word that `op` = 2 or `op` = 3 takes (R94). -/
theorem append_op (w : Word) : w.extractLsb' 2 30 ++ w.extractLsb' 0 2 = w := by
  apply BitVec.eq_of_getLsbD_eq
  grind

theorem opField_ne_two (b : Bool) : opField b ≠ 2#2 := by cases b <;> decide
theorem opField_ne_three (b : Bool) : opField b ≠ 3#2 := by cases b <;> decide
theorem opField_getLsbD (b : Bool) : (opField b).getLsbD 0 = b := by cases b <;> rfl

/-- The `op` field of a word that is neither `op` = 2 nor `op` = 3. -/
theorem opField_of_ne {op : BitVec 2} (h2 : op ≠ 2#2) (h3 : op ≠ 3#2) : opField (op.getLsbD 0) = op := by
  revert op; decide

/-- A word with bit 3 set, by the fields its reserved row keeps (R94). -/
theorem append_bit3 {w : Word} (h : w.getLsbD 3 = true) :
    w.extractLsb' 4 28 ++ 1#1 ++ BitVec.ofBool (w.getLsbD 2) ++ w.extractLsb' 0 2 = w := by
  apply BitVec.eq_of_getLsbD_eq
  grind [BitVec.getLsbD_ofBool]

theorem decodeWord_init (p : Bool) (flags : BitVec 16) :
    decodeWord (packWord 0#12 flags false p 0#2) = .whole (.init p flags) := by
  simp only [decodeWord, packWord_op, packWord_op0, packWord_p, packWord_bit3, packWord_flags, packWord_high]
  rfl

theorem decodeWord_compressData (p : Bool) : decodeWord (packWord 0#12 0#16 false p 1#2) = .compressData p := by
  simp only [decodeWord, packWord_op, packWord_op0, packWord_p, packWord_bit3, packWord_flags, packWord_high]
  rfl

theorem decodeWord_op2 (rest : BitVec 30) : decodeWord (rest ++ 2#2) = .whole (.reservedOp2 rest) := by
  rw [decodeWord, if_pos BitVec.extractLsb'_append_eq_right, BitVec.extractLsb'_append_eq_left]

theorem decodeWord_op3 (rest : BitVec 30) : decodeWord (rest ++ 3#2) = .whole (.reservedOp3 rest) := by
  have hop : (rest ++ 3#2).extractLsb' 0 2 = 3#2 := BitVec.extractLsb'_append_eq_right
  rw [decodeWord, if_neg (by rw [hop]; decide), if_pos hop, BitVec.extractLsb'_append_eq_left]

theorem decodeWord_bit3 (op0 p : Bool) (rest : BitVec 28) :
    decodeWord (rest ++ 1#1 ++ BitVec.ofBool p ++ opField op0) = .whole (.reservedBit3 op0 p rest) := by
  have hrest : (rest ++ 1#1 ++ BitVec.ofBool p ++ opField op0 : Word).extractLsb' 4 28 = rest := by
    apply BitVec.eq_of_getLsbD_eq
    grind
  have hop : (rest ++ 1#1 ++ BitVec.ofBool p ++ opField op0 : Word).extractLsb' 0 2 = opField op0 :=
    BitVec.extractLsb'_append_eq_right
  have hlow : ∀ k, (rest ++ 1#1 ++ BitVec.ofBool p ++ opField op0 : Word).getLsbD k =
      if k < 2 then (opField op0).getLsbD k else if k = 2 then p else if k = 3 then true else rest.getLsbD (k - 4) := by
    grind [BitVec.getLsbD_ofBool]
  rw [decodeWord, hop, if_neg (opField_ne_two _), if_neg (opField_ne_three _), hrest, hlow 0, hlow 2, hlow 3,
    opField_getLsbD]
  rfl

theorem decodeWord_high (op0 p : Bool) (flags : BitVec 16) {high : BitVec 12} (h : high ≠ 0#12) :
    decodeWord (packWord high flags false p (opField op0)) = .whole (.reservedHigh op0 p flags high) := by
  simp only [decodeWord, packWord_op, packWord_op0, packWord_p, packWord_bit3, packWord_flags, packWord_high,
    opField_getLsbD]
  simp [opField_ne_two, opField_ne_three, h]

theorem decodeWord_cdFlags (p : Bool) {flags : BitVec 16} (h : flags ≠ 0#16) :
    decodeWord (packWord 0#12 flags false p 1#2) = .whole (.reservedCdFlags p flags) := by
  simp only [decodeWord, packWord_op, packWord_op0, packWord_p, packWord_bit3, packWord_flags, packWord_high]
  simp [h]

/-- A command that a single word is: well-formed, and that word is its encoding (R90, R91, R94). -/
theorem decodeWord_whole_inv {w : Word} {i : Instr} (h : decodeWord w = .whole i) :
    i.wf = true ∧ encode i = .host (encodeHost i) ∧ encodeHost i = [.word w] := by
  have hword := packWord_fields w
  unfold decodeWord at h
  by_cases h2 : w.extractLsb' 0 2 = 2#2
  · rw [if_pos h2] at h
    cases h
    exact ⟨rfl, rfl, by rw [encodeHost, ← h2, append_op]⟩
  rw [if_neg h2] at h
  by_cases h3 : w.extractLsb' 0 2 = 3#2
  · rw [if_pos h3] at h
    cases h
    exact ⟨rfl, rfl, by rw [encodeHost, ← h3, append_op]⟩
  rw [if_neg h3] at h
  have hop : opField (w.getLsbD 0) = w.extractLsb' 0 2 := by
    rw [← opField_of_ne h2 h3, BitVec.getLsbD_extractLsb']; rfl
  by_cases hbit3 : w.getLsbD 3 = true
  · rw [if_pos hbit3] at h
    cases h
    refine ⟨rfl, rfl, ?_⟩
    rw [encodeHost, hop, append_bit3 hbit3]
  rw [if_neg hbit3] at h
  rw [Bool.not_eq_true] at hbit3
  rw [hbit3, ← hop] at hword
  by_cases hhigh : w.extractLsb' 20 12 = 0#12
  · rw [if_neg (not_not.2 hhigh)] at h
    rw [hhigh] at hword
    by_cases hop0 : w.getLsbD 0 = true
    · rw [if_pos hop0] at h
      rw [hop0] at hword
      by_cases hflags : w.extractLsb' 4 16 = 0#16
      · rw [if_neg (not_not.2 hflags)] at h
        cases h
      · rw [if_pos hflags] at h
        cases h
        exact ⟨by simpa [Instr.wf] using hflags, rfl, congrArg (fun x => [HostItem.word x]) hword⟩
    · rw [if_neg hop0] at h
      rw [Bool.not_eq_true] at hop0
      rw [hop0] at hword
      cases h
      exact ⟨rfl, rfl, congrArg (fun x => [HostItem.word x]) hword⟩
  · rw [if_pos hhigh] at h
    cases h
    exact ⟨by simpa [Instr.wf] using hhigh, rfl, congrArg (fun x => [HostItem.word x]) hword⟩

/-- A `COMPRESS_DATA` word leaves nothing unsaid but whether a buffer is given (R91, R94). -/
theorem decodeWord_compressData_inv {w : Word} {p : Bool} (h : decodeWord w = .compressData p) :
    w = packWord 0#12 0#16 false p 1#2 := by
  have hword := packWord_fields w
  unfold decodeWord at h
  by_cases h2 : w.extractLsb' 0 2 = 2#2
  · rw [if_pos h2] at h
    cases h
  by_cases h3 : w.extractLsb' 0 2 = 3#2
  · rw [if_neg h2, if_pos h3] at h
    cases h
  by_cases hbit3 : w.getLsbD 3 = true
  · rw [if_neg h2, if_neg h3, if_pos hbit3] at h
    cases h
  by_cases hhigh : w.extractLsb' 20 12 = 0#12
  · rw [if_neg h2, if_neg h3, if_neg hbit3, if_neg (not_not.2 hhigh)] at h
    by_cases hop0 : w.getLsbD 0 = true
    · by_cases hflags : w.extractLsb' 4 16 = 0#16
      · rw [if_pos hop0, if_neg (not_not.2 hflags)] at h
        cases h
        have hop : w.extractLsb' 0 2 = 1#2 := by
          rw [← opField_of_ne h2 h3, BitVec.getLsbD_extractLsb', show (0 : Nat) + 0 = 0 from rfl, hop0]
          rfl
        rw [Bool.not_eq_true] at hbit3
        rw [hhigh, hflags, hbit3, hop] at hword
        exact hword.symm
      · rw [if_pos hop0, if_pos hflags] at h
        cases h
    · rw [if_neg hop0] at h
      cases h
  · rw [if_neg h2, if_neg h3, if_neg hbit3, if_pos hhigh] at h
    cases h

/-! ## The host port -/

/-- A word that is a whole command takes nothing more (R94). -/
theorem decodeHost_whole {w : Word} {i : Instr} (h : decodeWord w = .whole i) (rest : List HostItem) :
    decodeHost (.word w :: rest) = .ok (i, rest) := by
  rw [decodeHost, h]

/-- Behind a `COMPRESS_DATA` word stand `len` and the data (R92). -/
theorem decodeHost_compressData (p : Bool) (items : List HostItem) :
    decodeHost (.word (packWord 0#12 0#16 false p 1#2) :: items) = decodeCompressData p items := by
  rw [decodeHost, decodeWord_compressData]

theorem decodeCompressData_feed {data : List Byte} (h : data.length < 2 ^ 32) (rest : List HostItem) :
    decodeCompressData true (.word (BitVec.ofNat 32 data.length) :: (data.map .byte ++ rest)) = .ok (.feed data, rest) := by
  have hlen : (BitVec.ofNat 32 data.length).toNat = data.length := Nat.mod_eq_of_lt h
  rw [decodeCompressData, if_pos rfl, hlen, takeBytes_map]

/-- What follows a `COMPRESS_DATA` word makes a well-formed command of it, and is its encoding (R92, R93). -/
theorem decodeCompressData_inv {p : Bool} {items rest : List HostItem} {i : Instr}
    (h : decodeCompressData p items = .ok (i, rest)) :
    i.wf = true ∧ encode i = .host (encodeHost i) ∧
      encodeHost i ++ rest = .word (packWord 0#12 0#16 false p 1#2) :: items := by
  unfold decodeCompressData at h
  split at h
  case h_5 len items =>
    cases p with
    | true =>
      rw [if_pos rfl] at h
      split at h
      case h_1 bs left htake =>
        cases h
        obtain ⟨rfl, hlen⟩ := takeBytes_inv htake
        refine ⟨decide_eq_true (hlen ▸ len.isLt), rfl, ?_⟩
        rw [encodeHost, hlen, BitVec.ofNat_toNat, BitVec.setWidth_eq]
        rfl
      case h_2 => cases h
    | false =>
      rw [if_neg (by decide)] at h
      by_cases hlen : len = 0#32
      · rw [if_pos hlen] at h
        cases h
        exact ⟨rfl, rfl, by rw [hlen]; rfl⟩
      · rw [if_neg hlen] at h
        cases h
        exact ⟨by simpa [Instr.wf] using hlen, rfl, rfl⟩
  all_goals cases h

/-- Settles O3: each form of command is one kind of word, and a `FEED` takes its `len` bytes and no more. -/
theorem hostCommandIsReadBack : Obligations.HostCommandIsReadBack := by
  intro i rest hwf henc
  cases i with
  | init p flags => exact decodeHost_whole (decodeWord_init p flags) rest
  | feed data =>
    exact (decodeHost_compressData true _).trans (decodeCompressData_feed (of_decide_eq_true hwf) rest)
  | finish => exact decodeHost_compressData false _
  | badarg len =>
    have hlen : len ≠ 0#32 := by simpa [Instr.wf] using hwf
    exact (decodeHost_compressData false _).trans (if_neg hlen)
  | reservedOp2 r => exact decodeHost_whole (decodeWord_op2 r) rest
  | reservedOp3 r => exact decodeHost_whole (decodeWord_op3 r) rest
  | reservedBit3 op0 p r => exact decodeHost_whole (decodeWord_bit3 op0 p r) rest
  | reservedHigh op0 p flags high =>
    exact decodeHost_whole (decodeWord_high op0 p flags (by simpa [Instr.wf] using hwf)) rest
  | reservedCdFlags p flags => exact decodeHost_whole (decodeWord_cdFlags p (by simpa [Instr.wf] using hwf)) rest
  -- Every other row has bits of another kind, or none.
  | _ => cases henc

/-- Settles O4: the command word by the inversion of `decodeWord`, what follows it by that of `decodeCompressData`. -/
theorem hostDecodingKeepsEveryBit : Obligations.HostDecodingKeepsEveryBit := by
  intro items rest i h
  unfold decodeHost at h
  split at h
  case h_5 w items =>
    split at h
    case h_1 j hword =>
      cases h
      obtain ⟨hwf, henc, hitems⟩ := decodeWord_whole_inv hword
      exact ⟨hwf, henc, by rw [hitems]; rfl⟩
    case h_2 p hword =>
      obtain ⟨hwf, henc, hitems⟩ := decodeCompressData_inv h
      exact ⟨hwf, henc, by rw [hitems, ← decodeWord_compressData_inv hword]⟩
  all_goals cases h

/-- Settles O1: each word and each byte is a closed value, which the decoder evaluates. -/
theorem specWordsDecode : Obligations.SpecWordsDecode := by
  unfold Obligations.SpecWordsDecode
  decide

/-! ## Every encoded form -/

theorem decode_flagProbes (v : BitVec 12) : decode (encode (.flagProbes v)) = some (.flagProbes v) := by
  have hmask : v.zeroExtend 16 &&& 0x0FFF#16 = v.zeroExtend 16 := by
    apply BitVec.eq_of_toNat_eq
    have hlt : (v.zeroExtend 16).toNat < 2 ^ 12 := by rw [BitVec.toNat_setWidth]; omega
    rw [BitVec.toNat_and, show (0x0FFF#16).toNat = 2 ^ 12 - 1 from rfl, Nat.and_two_pow_sub_one_eq_mod,
      Nat.mod_eq_of_lt hlt]
  have hback : (v.zeroExtend 16).extractLsb' 0 12 = v := by
    apply BitVec.eq_of_getLsbD_eq
    grind
  rw [encode, decode, if_pos ⟨rfl, hmask⟩, hback]

/-- The two bytes of a distance are its low byte and the 7 bits above it (R103). -/
theorem decode_lzMatch (l : Byte) (d : BitVec 15) : decode (encode (.lzMatch l d)) = some (.lzMatch l d) := by
  have htop : (0#1 ++ d.extractLsb' 8 7).getLsbD 7 = false := by
    grind
  have hback : (0#1 ++ d.extractLsb' 8 7).extractLsb' 0 7 ++ d.extractLsb' 0 8 = d := by
    apply BitVec.eq_of_getLsbD_eq
    grind
  simp only [encode, decode, decodeToken]
  rw [htop, hback]
  rfl

/-- The five fields of a header by their places (R110, R281). -/
theorem decode_blockHeader (bfinal : Bool) (hlit hdist : BitVec 5) (hclen : BitVec 4) :
    decode (encode (.blockHeader bfinal hlit hdist hclen)) = some (.blockHeader bfinal hlit hdist hclen) := by
  have hbit : ∀ k, (hclen ++ hdist ++ hlit ++ 2#2 ++ BitVec.ofBool bfinal).getLsbD k =
      if k = 0 then bfinal else if k < 3 then (2#2).getLsbD (k - 1) else if k < 8 then hlit.getLsbD (k - 3)
      else if k < 13 then hdist.getLsbD (k - 8) else hclen.getLsbD (k - 13) := by
    grind [BitVec.getLsbD_ofBool]
  have field : ∀ {w : Nat} (start : Nat) (v : BitVec w),
      (∀ k, k < w → (hclen ++ hdist ++ hlit ++ 2#2 ++ BitVec.ofBool bfinal).getLsbD (start + k) = v.getLsbD k) →
      (hclen ++ hdist ++ hlit ++ 2#2 ++ BitVec.ofBool bfinal).extractLsb' start w = v := by
    intro w start v h
    apply BitVec.eq_of_getLsbD_eq
    intro k hk
    rw [BitVec.getLsbD_extractLsb', decide_eq_true hk, Bool.true_and, h k hk]
  have htype := field 1 2#2 (by grind)
  have hhlit := field 3 hlit (by grind)
  have hhdist := field 8 hdist (by grind)
  have hhclen := field 13 hclen (by grind)
  rw [encode, decode, decodeBlockHeader, if_pos htype, hhlit, hhdist, hhclen, hbit 0]
  rfl

/-- Settles O2: host commands by O3, the other forms field by field. -/
theorem decodeUndoesEncode : Obligations.DecodeUndoesEncode := by
  intro i hwf hstate hinternal
  have host : encode i = .host (encodeHost i) → decode (encode i) = some i := by
    intro henc
    have hread := hostCommandIsReadBack i [] hwf henc
    rw [List.append_nil] at hread
    rw [henc, decode, hread]
  cases i with
  | init _ _ | feed _ | finish | badarg _ | reservedOp2 _ | reservedOp3 _ | reservedBit3 _ _ _ | reservedHigh _ _ _ _
  | reservedCdFlags _ _ => exact host rfl
  | flagProbes v => exact decode_flagProbes v
  | flagZlib b | flagBit13 b | flagGreedy b | flagNondet b => cases b <;> rfl
  | lzFlag f | lzLiteral v | zlibHeader => rfl
  | lzMatch l d => exact decode_lzMatch l d
  | blockHeader bfinal hlit hdist hclen => exact decode_blockHeader bfinal hlit hdist hclen
  -- Every other row has no bits of its own.
  | _ => simp [encode] at hstate hinternal

end Sys2Proof
end

section
/-! PROOFS. The token walk reads back the stream of any tokens (spec/45_block_encoder.md R271, R272), and the tokens of a
run of records are such a stream (spec/43_parser_lzbuf.md R221 to R224). The idea: the walk takes the stream group by
group, and in a group the flags still to be read are those of the tokens still to be read. -/

namespace Sys2Proof.Machine

/-! ## Bytes that stand in the buffer -/

/-- The bytes `bs` stand in `lz_buf` from index `i` on. -/
def StandsAt (s : State) (i : Nat) (bs : List Byte) : Prop := ∀ j, j < bs.length → some (s.lzByte (i + j)) = bs[j]?

theorem StandsAt.left {s : State} {i : Nat} {a b : List Byte} (h : StandsAt s i (a ++ b)) : StandsAt s i a := by
  intro j hj
  rw [h j (by rw [List.length_append]; omega), List.getElem?_append_left hj]

theorem StandsAt.right {s : State} {i : Nat} {a b : List Byte} (h : StandsAt s i (a ++ b)) :
    StandsAt s (i + a.length) b := by
  intro j hj
  rw [Nat.add_assoc, h _ (by rw [List.length_append]; omega), List.getElem?_append_right (by omega),
    Nat.add_sub_cancel_left]

theorem StandsAt.head {s : State} {i : Nat} {b : Byte} {bs : List Byte} (h : StandsAt s i (b :: bs)) : s.lzByte i = b :=
  Option.some.inj (h 0 (Nat.succ_pos _))

theorem StandsAt.tail {s : State} {i : Nat} {b : Byte} {bs : List Byte} (h : StandsAt s i (b :: bs)) :
    StandsAt s (i + 1) bs := StandsAt.right (a := [b]) h

/-! ## One turn of the walk -/

section
variable {s : State} {stop i k n : Nat} {f : Byte} {rest : List Token}

theorem tokenWalk_stop (h : stop ≤ i) : tokenWalk s stop n i k f = .ok [] := by
  cases n with
  | zero => rfl
  | succ n => rw [tokenWalk, if_pos h]

/-- A flag byte (R100). -/
theorem tokenWalk_flag (hi : i < stop) (hstop : stop ≤ Config.LZ_SIZE) :
    tokenWalk s stop (n + 1) i 8 f = tokenWalk s stop n (i + 1) 0 (s.lzByte i) := by
  rw [tokenWalk, if_neg (by omega), if_pos rfl, readLz_ok (by omega)]
  rfl

/-- A literal (R102). -/
theorem tokenWalk_literal (hk : k < 8) (hf : f.getLsbD k = false) (hi : i < stop) (hstop : stop ≤ Config.LZ_SIZE)
    (hrest : tokenWalk s stop n (i + 1) (k + 1) f = .ok rest) :
    tokenWalk s stop (n + 1) i k f = .ok (.literal (s.lzByte i) :: rest) := by
  rw [tokenWalk, if_neg (by omega), if_neg (by omega), if_neg (by simp [hf]), readLz_ok (by omega), hrest]
  rfl

/-- A match (R103). -/
theorem tokenWalk_match (hk : k < 8) (hf : f.getLsbD k = true) (hi : i + 3 ≤ stop) (hstop : stop ≤ Config.LZ_SIZE)
    (hrest : tokenWalk s stop n (i + 3) (k + 1) f = .ok rest) :
    tokenWalk s stop (n + 1) i k f =
      .ok (matchToken (s.lzByte i) (s.lzByte (i + 1)) (s.lzByte (i + 2)) :: rest) := by
  rw [tokenWalk, if_neg (by omega), if_neg (by omega), if_pos hf, readLz_ok (by omega), readLz_ok (by omega),
    readLz_ok (by omega), hrest]
  rfl

end

/-- The three bytes of a match in range stand for it (R103, R104). -/
theorem matchToken_bytes {l d : Nat} (h : tokenInRange (.copy l d)) :
    matchToken (BitVec.ofNat 8 (l - 3)) (BitVec.ofNat 8 ((d - 1) % 256)) (BitVec.ofNat 8 ((d - 1) / 256)) =
      .copy l d := by
  obtain ⟨hl3, hl, hd1, hd⟩ := h
  simp only [Config.M, Config.L, Config.W] at hl3 hl hd
  simp only [matchToken, Config.M, BitVec.toNat_ofNat, Token.copy.injEq]
  omega

/-- The lowest of the flags still to be read is that of the next token (R101). -/
theorem groupFlag_cons (x : Token) (g : List Token) :
    groupFlag (x :: g) = 2 * groupFlag g + if isCopy x then 1 else 0 := by
  cases x with
  | literal v => rfl
  | copy l d => exact Nat.add_comm 1 _

theorem getLsbD_of_groupFlag {f : Byte} {k : Nat} {x : Token} {g : List Token}
    (h : f.toNat / 2 ^ k = groupFlag (x :: g)) :
    f.getLsbD k = isCopy x ∧ f.toNat / 2 ^ (k + 1) = groupFlag g := by
  rw [groupFlag_cons] at h
  constructor
  · rw [BitVec.getLsbD, Nat.testBit_eq_decide_div_mod_eq, h]
    cases isCopy x <;> simp
  · rw [Nat.pow_succ, ← Nat.div_div_eq_div_mul, h]
    split_ifs <;> omega

/-! ## The walk over groups -/

/-- The walk takes the tokens of a group, or of the rest of one (R100 to R103). -/
theorem tokenWalk_group {s : State} {stop n : Nat} {f : Byte} {rest : List Token} (hstop : stop ≤ Config.LZ_SIZE)
    (g : List Token) (i k : Nat) (hrange : ∀ x ∈ g, tokenInRange x) (hk : k + g.length ≤ 8)
    (hflags : f.toNat / 2 ^ k = groupFlag g) (hstands : StandsAt s i (bodyBytes g))
    (hi : i + (bodyBytes g).length ≤ stop)
    (hrest : tokenWalk s stop n (i + (bodyBytes g).length) (k + g.length) f = .ok rest) :
    tokenWalk s stop (n + g.length) i k f = .ok (g ++ rest) := by
  induction g generalizing i k with
  | nil => exact hrest
  | cons x g ih =>
    obtain ⟨hflag, hflags⟩ := getLsbD_of_groupFlag hflags
    have hx : bodyBytes (x :: g) = tokenBytes x ++ bodyBytes g := rfl
    rw [hx] at hstands hi hrest
    rw [List.length_append] at hi hrest
    rw [List.length_cons] at hk hrest
    have hg := ih (i + (tokenBytes x).length) (k + 1) (fun y hy => hrange y (List.mem_cons_of_mem _ hy)) (by omega)
      hflags hstands.right (by omega) (by rwa [Nat.add_assoc, Nat.add_assoc, Nat.add_comm 1])
    cases x with
    | literal v =>
      have hv : s.lzByte i = v := hstands.left.head
      rw [← hv]
      exact tokenWalk_literal (by omega) hflag (by simp only [tokenBytes, List.length_singleton] at hi; omega) hstop hg
    | copy l d =>
      have h0 := hstands.left.head
      have h1 := hstands.left.tail.head
      have h2 := hstands.left.tail.tail.head
      rw [List.cons_append, ← matchToken_bytes (hrange _ (List.mem_cons_self ..)), ← h0, ← h1, ← h2]
      exact tokenWalk_match (by omega) hflag
        (by simp only [tokenBytes, List.length_cons, List.length_nil] at hi; omega) hstop hg

/-- The first group of a stream and the stream of the rest (R100). -/
theorem tokenStream_take_drop {ts : List Token} (h : ts ≠ []) :
    tokenStream ts = groupBytes (ts.take 8) ++ tokenStream (ts.drop 8) := by
  by_cases h8 : ts.length ≤ 8
  · rw [List.take_of_length_le h8, List.drop_eq_nil_of_le h8, tokenStream_short h h8]
    exact (List.append_nil _).symm
  · conv_lhs => rw [← List.take_append_drop 8 ts]
    exact tokenStream_group (by rw [List.length_take]; omega) _

/-- The flags of a group fit the flag byte (R101). -/
theorem groupFlag_lt (g : List Token) : groupFlag g < 2 ^ g.length := by
  induction g with
  | nil => exact Nat.one_pos
  | cons x g ih =>
    rw [groupFlag_cons, List.length_cons, Nat.pow_succ]
    split_ifs <;> omega

theorem length_le_bodyBytes (g : List Token) : g.length ≤ (bodyBytes g).length := by
  induction g with
  | nil => exact Nat.le_refl _
  | cons x g ih =>
    have : 1 ≤ (tokenBytes x).length := by cases x <;> simp [tokenBytes]
    rw [show bodyBytes (x :: g) = tokenBytes x ++ bodyBytes g from rfl, List.length_append, List.length_cons]
    omega

/-- The walk over the stream of any tokens yields those tokens (R272). -/
theorem tokenWalk_stream {s : State} {stop : Nat} (hstop : stop ≤ Config.LZ_SIZE) (ts : List Token) (i k n : Nat)
    (f : Byte) (hk : k = 8 ∨ ts = []) (hrange : ∀ x ∈ ts, tokenInRange x) (hstands : StandsAt s i (tokenStream ts))
    (hi : i + (tokenStream ts).length = stop) (hn : (tokenStream ts).length ≤ n) :
    tokenWalk s stop n i k f = .ok ts := by
  by_cases hts : ts = []
  · subst hts
    exact tokenWalk_stop (Nat.le_of_eq hi.symm)
  have hk := hk.resolve_right hts
  subst hk
  have hsplit := tokenStream_take_drop hts
  have hlen : (groupBytes (ts.take 8)).length = (bodyBytes (ts.take 8)).length + 1 := rfl
  rw [hsplit] at hstands
  rw [hsplit, List.length_append, hlen] at hi hn
  have hfuel := length_le_bodyBytes (ts.take 8)
  have hpos : 0 < ts.length := List.length_pos_of_ne_nil hts
  obtain ⟨m, rfl⟩ : ∃ m, n = m + (ts.take 8).length + 1 := ⟨n - (ts.take 8).length - 1, by omega⟩
  have hflag : s.lzByte i = BitVec.ofNat 8 (groupFlag (ts.take 8)) := hstands.left.head
  have hflags : (s.lzByte i).toNat / 2 ^ 0 = groupFlag (ts.take 8) := by
    have hlt : groupFlag (ts.take 8) < 2 ^ 8 :=
      Nat.lt_of_lt_of_le (groupFlag_lt _) (Nat.pow_le_pow_right (by decide) (by rw [List.length_take]; omega))
    rw [hflag, BitVec.toNat_ofNat, Nat.mod_eq_of_lt hlt, Nat.pow_zero, Nat.div_one]
  have hrest : tokenWalk s stop m (i + 1 + (bodyBytes (ts.take 8)).length) (0 + (ts.take 8).length) (s.lzByte i) =
      .ok (ts.drop 8) := by
    refine tokenWalk_stream hstop (ts.drop 8) _ _ m _ ?_ (fun x hx => hrange x (List.mem_of_mem_drop hx)) ?_ (by omega)
      (by omega)
    · by_cases h8 : 8 ≤ ts.length
      · left; rw [List.length_take]; omega
      · right; exact List.drop_eq_nil_of_le (by omega)
    · have := hstands.right
      rwa [hlen, Nat.add_comm _ 1, ← Nat.add_assoc] at this
  rw [tokenWalk_flag (by omega) hstop, tokenWalk_group hstop (ts.take 8) (i + 1) 0
    (fun x hx => hrange x (List.mem_of_mem_take hx)) (by rw [List.length_take]; omega) hflags hstands.left.tail (by omega) hrest,
    List.take_append_drop]
termination_by ts.length
decreasing_by rw [List.length_drop]; omega

/-- `TOKENS` records what the walk yields (R272; log 11). -/
theorem exec_tokens {stop : BitVec 16} {s : State} {ts : List Token} (h : lzTokens s stop.toNat = .ok ts) :
    exec (.tokens stop) s = .next { s with opResult := .tokens ts } := by
  simp only [exec, execTokens, h]
  rfl

/-- Settles O46: below the last two indices every read is inside the buffer; a stream is read back group by group. -/
theorem tokenWalkCompletes : Obligations.TokenWalkCompletes := by
  intro stop s
  constructor
  · intro hstop
    obtain ⟨ts, hts, hlen⟩ := tokenWalk_ok s stop.toNat hstop stop.toNat 0 8 0#8
    exact ⟨ts, exec_tokens hts, hlen⟩
  · intro ts hrange hlen hstop hreads
    refine exec_tokens (tokenWalk_stream hstop ts 0 8 _ _ (.inl rfl) hrange (fun j hj => ?_) (by omega) (by omega))
    rw [Nat.zero_add]
    exact hreads j (hlen ▸ hj)

/-! ## Recorded tokens -/

theorem tokenBytes_length (x : Token) : (tokenBytes x).length = 1 + if isCopy x then 2 else 0 := by cases x <;> rfl

/-- One byte for a literal, three for a match (R102, R103). -/
theorem bodyBytes_length (ts : List Token) : (bodyBytes ts).length = ts.length + 2 * (ts.filter isCopy).length := by
  induction ts with
  | nil => rfl
  | cons x ts ih =>
    rw [show bodyBytes (x :: ts) = tokenBytes x ++ bodyBytes ts from rfl, List.length_append, tokenBytes_length, ih,
      List.filter_cons, List.length_cons]
    split_ifs <;> simp <;> omega

/-- One flag byte for every 8 tokens begun (R100). -/
theorem tokenStream_length (ts : List Token) : (tokenStream ts).length = (bodyBytes ts).length + (ts.length + 7) / 8 := by
  by_cases hts : ts = []
  · subst hts; rfl
  have hpos : 0 < ts.length := List.length_pos_of_ne_nil hts
  have hbody : (bodyBytes ts).length = (bodyBytes (ts.take 8)).length + (bodyBytes (ts.drop 8)).length := by
    conv_lhs => rw [← List.take_append_drop 8 ts]
    rw [bodyBytes, List.flatMap_append, List.length_append]
    rfl
  have hlen : (groupBytes (ts.take 8)).length = (bodyBytes (ts.take 8)).length + 1 := rfl
  rw [tokenStream_take_drop hts, List.length_append, tokenStream_length (ts.drop 8), hlen, hbody, List.length_drop]
  omega
termination_by ts.length
decreasing_by rw [List.length_drop]; omega

/-- Where the cursor stands behind recorded tokens: their bytes, and the flag byte of each group opened (R221 to R224). -/
theorem HoldsTokens.pos {ts : List Token} {s : State} (h : HoldsTokens ts s) :
    s.lzPos.toNat = 1 + (bodyBytes ts).length + ts.length / 8 := by
  obtain ⟨_, _, _, hpos, _⟩ := h
  rw [hpos, tokenStream_length]
  split_ifs <;> omega

/-- An empty buffer holds no token (R221). -/
theorem holdsTokens_lzReset (s : State) : HoldsTokens [] (lzReset s) :=
  ⟨by simp, rfl, rfl, rfl, by simp [tokenStream, tokenGroups]⟩

/-- Room for one more token is room below the threshold for the stream with it (R225). -/
theorem HoldsTokens.roomFor {held : List Token} {x : Token} {s : State} (h : HoldsTokens held s) (hlz : LzOk s)
    (hroom : 1 + (bodyBytes (held ++ [x])).length + (held ++ [x]).length / 8 ≤ Config.LZ_SIZE - 4) :
    RoomFor (tokenBytes x).length s := by
  obtain ⟨_, hleft, _⟩ := id h
  rw [bodyBytes_snoc_length, List.length_append, List.length_singleton] at hroom
  refine ⟨hlz, ?_⟩
  rw [h.pos]
  split_ifs with hone
  · rw [hone] at hleft
    have : (1#4).toNat = 1 := rfl
    omega
  · omega

/-- One record where there is room (R222 to R224). -/
theorem recordToken_room {x : Token} {s : State} (hx : tokenInRange x) (hroom : RoomFor (tokenBytes x).length s) :
    ∃ t, exec (recordToken x) s = .next t ∧ TokenRecorded x s t := by
  cases x with
  | literal v =>
    obtain ⟨t, ht, hrec⟩ := recordLiteral_token (v := v) hroom
    exact ⟨t, (ofRun_next _ _).2 ht, hrec⟩
  | copy l d =>
    obtain ⟨t, ht, hrec⟩ := recordMatch_token hx hroom
    obtain ⟨_, hl, _, hd⟩ := hx
    have hd' : (BitVec.ofNat 16 d).toNat = d := by
      rw [BitVec.toNat_ofNat, Nat.mod_eq_of_lt]; simp only [Config.W] at hd; omega
    have hl' : (BitVec.ofNat 9 l).toNat = l := by
      rw [BitVec.toNat_ofNat, Nat.mod_eq_of_lt]; simp only [Config.L] at hl; omega
    refine ⟨t, (ofRun_next _ _).2 ?_, hrec⟩
    rw [hd', hl']
    exact ht

/-- Tokens recorded one after the other, with room for all of them. -/
theorem execAll_recordTokens {ts held : List Token} {s : State} (hrange : ∀ x ∈ ts, tokenInRange x)
    (hheld : HoldsTokens held s) (hlz : LzOk s)
    (hroom : 1 + (bodyBytes (held ++ ts)).length + (held ++ ts).length / 8 ≤ Config.LZ_SIZE - 4) :
    ∃ t, execAll (ts.map recordToken) s = .next t ∧ OnlyLzChanged s t ∧ HoldsTokens (held ++ ts) t ∧ LzOk t := by
  induction ts generalizing held s with
  | nil => exact ⟨s, rfl, .refl s, by rwa [List.append_nil], hlz⟩
  | cons x ts ih =>
    have hassoc : held ++ x :: ts = held ++ [x] ++ ts := by simp
    rw [hassoc] at hroom ⊢
    have hbody : (bodyBytes (held ++ [x] ++ ts)).length = (bodyBytes (held ++ [x])).length + (bodyBytes ts).length := by
      rw [bodyBytes, List.flatMap_append, List.length_append]; rfl
    have hlen : (held ++ [x] ++ ts).length = (held ++ [x]).length + ts.length := List.length_append
    obtain ⟨u, hu, hrec⟩ := recordToken_room (hrange x (List.mem_cons_self ..)) (hheld.roomFor hlz (by omega))
    obtain ⟨t, ht, honly, hholds, hok⟩ :=
      ih (fun y hy => hrange y (List.mem_cons_of_mem _ hy)) (hheld.record hrec) hrec.cursors hroom
    refine ⟨t, ?_, hrec.only.trans honly, hholds, hok⟩
    rw [List.map_cons, execAll, hu]
    exact ht

/-- Closing the stream of recorded tokens leaves it in place, up to the index it yields (R271). -/
theorem closeTokenStream_holds {ts : List Token} {s : State} (h : HoldsTokens ts s) (hlz : LzOk s) :
    ∃ u, closeTokenStream s = .ok (u, (tokenStream ts).length) ∧ StandsAt u 0 (tokenStream ts) := by
  obtain ⟨_, hleft, hfpos, hpos, hbytes⟩ := h
  obtain ⟨hp1, hp2, hfp, hl1, hl8⟩ := hlz
  simp only [Config.LZ_SIZE] at hp2
  have hin : s.lzFlagsPos.toNat < Config.LZ_SIZE := by simp only [Config.LZ_SIZE]; omega
  have hpos0 : s.lzPos ≠ 0#16 := by intro h0; rw [h0] at hp1; simp at hp1
  have hstop : s.lzPos.toNat - (if s.flagsLeft = 8#4 then 1 else 0) = (tokenStream ts).length := by
    have hiff : s.flagsLeft = 8#4 ↔ ts.length % 8 = 0 := by
      rw [← BitVec.toNat_inj, hleft]
      simp
      omega
    simp only [hiff]
    split_ifs at hpos ⊢ <;> omega
  refine ⟨s.setLzBuf (s.lzBuf.set s.lzFlagsPos.toNat (alignFlags (s.lzByte s.lzFlagsPos.toNat) s.flagsLeft.toNat)), ?_,
    fun j hj => ?_⟩
  · rw [closeTokenStream, if_neg hpos0, if_neg (by omega), readLz_ok hin]
    simp only [bind, Except.bind, pure, Except.pure, writeLz_ok _ hin, hstop]
  · rw [Nat.zero_add, lzByte_set, ← hbytes j hj]
    by_cases hj' : j = s.lzFlagsPos.toNat
    · rw [if_pos hj'.symm, if_pos hj', hj']; rfl
    · rw [if_neg (Ne.symm hj'), if_neg hj']

/-- Settles O47: the records keep `HoldsTokens`, closing makes a stream of what the buffer holds, and the walk reads a
stream back. -/
theorem recordedTokensAreReadBack : Obligations.RecordedTokensAreReadBack := by
  intro ts s hrange hroom
  change 1 + ts.length + 2 * (ts.filter isCopy).length + ts.length / 8 ≤ _ at hroom
  change ∃ (t : State) (u : State) (stop : Nat), _ ∧ _ ∧ t.lzPos.toNat = 1 + ts.length + 2 * (ts.filter isCopy).length + ts.length / 8 ∧ _ ∧ _
  have hbody := bodyBytes_length ts
  obtain ⟨t, hrun, honly, hholds, hlz⟩ :=
    execAll_recordTokens hrange (holdsTokens_lzReset s) (lzReset_lzOk s) (by rw [List.nil_append]; omega)
  rw [List.nil_append] at hholds
  obtain ⟨u, hclose, hstands⟩ := closeTokenStream_holds hholds hlz
  have hpos := hholds.pos
  have hstream := tokenStream_length ts
  have hstop : (BitVec.ofNat 16 (tokenStream ts).length).toNat = (tokenStream ts).length := by
    rw [BitVec.toNat_ofNat, Nat.mod_eq_of_lt]
    simp only [Config.LZ_SIZE] at hroom
    omega
  refine ⟨t, u, _, hrun, (lzReset_only s).trans honly, by omega, hclose, exec_tokens ?_⟩
  rw [hstop]
  exact tokenWalk_stream (by simp only [Config.LZ_SIZE] at hroom ⊢; omega) ts 0 8 _ _ (.inl rfl) hrange hstands (by omega)
    (Nat.le_refl _)

end Sys2Proof.Machine
end

section
/-! PROOFS. Each row of the wire format puts out its fields (spec/30_encoding.md R110 to R120): the fields of a row are
one list, and a list of fields that meet the precondition of `PUT_BITS` is appended to the stream. -/

namespace Sys2Proof.Machine

/-- A row that puts out fields within the precondition of `PUT_BITS` appends them to the stream (R110, R140). -/
theorem ofRun_putFields_emits {fs : List (Nat × Nat)} {s : State} (hf : s.failed = false) (hb : BitsOk s)
    (hfs : FieldsOk fs) : ∃ t, ofRun (putFields fs s) = .next t ∧ Emits fs s t := by
  obtain ⟨t, ht, hemit⟩ := putFields_emits fs s hf hb hfs
  exact ⟨t, (ofRun_next _ _).2 ht, hemit⟩

theorem fieldsOk_cons {v n : Nat} {fs : List (Nat × Nat)} (hn : n ≤ Config.PUT_MAX) (hv : v < 2 ^ n) (hfs : FieldsOk fs) :
    FieldsOk ((v, n) :: fs) := by
  intro f hf
  rcases List.mem_cons.1 hf with rfl | hf
  · exact ⟨hn, hv⟩
  · exact hfs f hf

theorem fieldsOk_nil : FieldsOk [] := by simp [FieldsOk]

/-- A code of at most 15 bits, then an extra field of at most 13 (R113 to R116). -/
theorem codedField_plain_ok {code : Nat} {m : Mem 4} {i : Nat} (hcode : code < 2 ^ m.entry i) :
    FieldsOk (codedField code (m.entry i) 0 0) :=
  fieldsOk_cons (Nat.le_of_lt (Mem.entry_lt m i)) hcode fieldsOk_nil

theorem codedField_extra {code len extraBits extra : Nat} (h : extraBits ≠ 0) :
    codedField code len extraBits extra = [(code, len), (extra, extraBits)] := by
  rw [codedField, if_neg h]

/-- A row of symbol `i` without an extra field, whose code is that of the table (R114 to R116). -/
theorem plainSymbol_emits {code i : Nat} {len : Mem 4} {s : State} (hf : s.failed = false) (hb : BitsOk s)
    (hcode : code < 2 ^ len.entry i) :
    ∃ t, ofRun (putFields (codedField code (len.entry i) 0 0) s) = .next t ∧ Emits [(code, len.entry i)] s t :=
  ofRun_putFields_emits hf hb (codedField_plain_ok hcode)

/-- A row of symbol `i` with an extra field of `w` bits (R113, R115, R116). -/
theorem extraSymbol_emits {code i w x : Nat} {len : Mem 4} {s : State} (hf : s.failed = false) (hb : BitsOk s)
    (hw : 1 ≤ w ∧ w ≤ 13) (hx : x < 2 ^ w) (hcode : code < 2 ^ len.entry i) :
    ∃ t, ofRun (putFields (codedField code (len.entry i) w (BitVec.ofNat w x).toNat) s) = .next t ∧
      Emits [(code, len.entry i), (x, w)] s t := by
  rw [BitVec.toNat_ofNat, Nat.mod_eq_of_lt hx, codedField_extra (by omega)]
  refine ofRun_putFields_emits hf hb (fieldsOk_cons ?_ hcode (fieldsOk_cons ?_ hx fieldsOk_nil))
  · exact Nat.le_of_lt (Mem.entry_lt len i)
  · simp only [Config.PUT_MAX]; omega

/-! ## The rows by number -/

/-- What each row of the code-length alphabet puts out (R113, R283). -/
theorem exec_plainCodeLength {p : Instr × Nat} (hp : p ∈ plainCodeLengthSymbols) (s : State) :
    exec p.1 s = ofRun (putFields (clField s p.2 0 0) s) := by
  unfold plainCodeLengthSymbols at hp
  fin_cases hp <;> rfl

theorem exec_extraCodeLength {x : Nat} {p : Instr × Nat × Nat} (hp : p ∈ extraCodeLengthSymbols x) (s : State) :
    (1 ≤ p.2.2 ∧ p.2.2 ≤ 13) ∧ exec p.1 s = ofRun (putFields (clField s p.2.1 p.2.2 (BitVec.ofNat p.2.2 x).toNat) s) := by
  unfold extraCodeLengthSymbols at hp
  fin_cases hp <;> exact ⟨by simp, rfl⟩

/-- What each row of the match lengths puts out (R115, R285). -/
theorem exec_plainLength {p : Instr × Nat} (hp : p ∈ plainLengthSymbols) (s : State) :
    exec p.1 s = ofRun (putFields (llField s p.2 0 0) s) := by
  unfold plainLengthSymbols at hp
  fin_cases hp <;> rfl

theorem exec_extraLength {x : Nat} {p : Instr × Nat × Nat} (hp : p ∈ extraLengthSymbols x) (s : State) :
    (1 ≤ p.2.2 ∧ p.2.2 ≤ 13) ∧ exec p.1 s = ofRun (putFields (llField s p.2.1 p.2.2 (BitVec.ofNat p.2.2 x).toNat) s) := by
  unfold extraLengthSymbols at hp
  fin_cases hp <;> exact ⟨by simp, rfl⟩

/-- What each row of the match distances puts out (R116, R286). -/
theorem exec_plainDistance {p : Instr × Nat} (hp : p ∈ plainDistanceSymbols) (s : State) :
    exec p.1 s = ofRun (putFields (distField s p.2 0 0) s) := by
  unfold plainDistanceSymbols at hp
  fin_cases hp <;> rfl

theorem exec_extraDistance {x : Nat} {p : Instr × Nat × Nat} (hp : p ∈ extraDistanceSymbols x) (s : State) :
    (1 ≤ p.2.2 ∧ p.2.2 ≤ 13) ∧ exec p.1 s = ofRun (putFields (distField s p.2.1 p.2.2 (BitVec.ofNat p.2.2 x).toNat) s) := by
  unfold extraDistanceSymbols at hp
  fin_cases hp <;> exact ⟨by simp, rfl⟩

/-! ## The statements -/

/-- Settles O29: every row of the code-length alphabet is the code of its symbol and its extra field. -/
theorem codeLengthSymbolsOnTheWire : Obligations.CodeLengthSymbolsOnTheWire := by
  intro s hf hb
  refine ⟨fun p hp hcode => ?_, fun x p hp hx hcode => ?_⟩
  · rw [exec_plainCodeLength hp]
    exact plainSymbol_emits hf hb hcode
  · obtain ⟨hw, hrun⟩ := exec_extraCodeLength hp s
    rw [hrun]
    exact extraSymbol_emits hf hb hw hx hcode

/-- Settles O30: a literal and the end of block are symbols without an extra field. -/
theorem literalsAndEndOfBlockOnTheWire : Obligations.LiteralsAndEndOfBlockOnTheWire :=
  fun _ _ hf hb => ⟨plainSymbol_emits hf hb, plainSymbol_emits hf hb⟩

/-- Settles O31: every row of the match lengths is the code of its symbol and its extra field. -/
theorem lengthSymbolsOnTheWire : Obligations.LengthSymbolsOnTheWire := by
  intro s hf hb
  refine ⟨fun p hp hcode => ?_, fun x p hp hx hcode => ?_⟩
  · rw [exec_plainLength hp]
    exact plainSymbol_emits hf hb hcode
  · obtain ⟨hw, hrun⟩ := exec_extraLength hp s
    rw [hrun]
    exact extraSymbol_emits hf hb hw hx hcode

/-- Settles O32: every row of the match distances is the code of its symbol and its extra field. -/
theorem distanceSymbolsOnTheWire : Obligations.DistanceSymbolsOnTheWire := by
  intro s hf hb
  refine ⟨fun p hp hcode => ?_, fun x p hp hx hcode => ?_⟩
  · rw [exec_plainDistance hp]
    exact plainSymbol_emits hf hb hcode
  · obtain ⟨hw, hrun⟩ := exec_extraDistance hp s
    rw [hrun]
    exact extraSymbol_emits hf hb hw hx hcode

/-- Settles O28: the header's fields fit their widths; a code length of the code-length alphabet fits 3 bits where every
entry of its table is below 8. -/
theorem blockHeaderOnTheWire : Obligations.BlockHeaderOnTheWire := by
  refine ⟨fun n s hn => if_pos hn, fun s hf hb => ⟨fun bfinal hlit hdist hclen => ?_, fun n hn hlen => ?_⟩⟩
  · have hfields : headerFields bfinal.toNat hlit.toNat hdist.toNat hclen.toNat =
        [(if bfinal then 1 else 0, 1), (2, 2), (hlit.toNat, 5), (hdist.toNat, 5), (hclen.toNat, 4)] := by
      cases bfinal <;> rfl
    rw [← hfields]
    exact ofRun_putFields_emits hf hb
      (fieldsOk_cons (by decide) (Bool.toNat_lt bfinal) <| fieldsOk_cons (by decide) (by decide) <|
        fieldsOk_cons (by decide) hlit.isLt <| fieldsOk_cons (by decide) hdist.isLt <|
        fieldsOk_cons (by decide) hclen.isLt fieldsOk_nil)
  · have hrun : exec (.clLengths n) s = ofRun (putFields (clLengthFields s n.toNat) s) := if_neg (Nat.not_lt.2 hn)
    rw [hrun]
    refine ofRun_putFields_emits hf hb fun f hfield => ?_
    obtain ⟨k, hk, rfl⟩ := List.mem_map.1 hfield
    have hbound : ∀ k ∈ swizzle, k ≤ 18 := by decide
    exact ⟨Nat.le_of_ble_eq_true rfl, hlen k (hbound k (List.mem_of_mem_take hk))⟩

/-- The bytes of a 32-bit register, as the trailer takes them (R120). -/
theorem extractByte_toNat (a : BitVec 32) (start : Nat) : (a.extractLsb' start 8).toNat = a.toNat / 2 ^ start % 256 := by
  rw [BitVec.extractLsb'_toNat, Nat.shiftRight_eq_div_pow]

/-- Settles O33: with framing on the two rows put out bytes, with framing off no field at all. -/
theorem zlibFramingOnTheWire : Obligations.ZlibFramingOnTheWire := by
  intro s hf hb
  refine ⟨fun hz => ⟨?_, ?_⟩, fun hz => ⟨?_, ?_⟩⟩
  · have hfields : zlibHeaderFields s = [(0x78, 8), (0x01, 8)] := if_pos hz
    rw [← hfields]
    refine ofRun_putFields_emits hf hb ?_
    rw [hfields]
    exact fieldsOk_cons (by decide) (by decide) (fieldsOk_cons (by decide) (by decide) fieldsOk_nil)
  · have hfields : zlibTrailerFields s = [(s.adler.toNat / 2 ^ 24, 8), (s.adler.toNat / 2 ^ 16 % 256, 8),
        (s.adler.toNat / 2 ^ 8 % 256, 8), (s.adler.toNat % 256, 8)] := by
      have htop : s.adler.toNat / 2 ^ 24 % 256 = s.adler.toNat / 2 ^ 24 := Nat.mod_eq_of_lt (by omega)
      rw [zlibTrailerFields, if_pos hz]
      simp only [extractByte_toNat, htop, Nat.pow_zero, Nat.div_one]
    rw [← hfields]
    refine ofRun_putFields_emits hf hb ?_
    rw [hfields]
    exact fieldsOk_cons (by decide) (by omega) <| fieldsOk_cons (by decide) (by omega) <|
      fieldsOk_cons (by decide) (by omega) <| fieldsOk_cons (by decide) (by omega) fieldsOk_nil
  · have hrun : exec .zlibHeader s = ofRun (putFields (zlibHeaderFields s) s) := rfl
    rw [hrun, zlibHeaderFields, if_neg (by simp [hz])]
    rfl
  · have hrun : exec .zlibTrailer s = ofRun (putFields (zlibTrailerFields s) s) := rfl
    rw [hrun, zlibTrailerFields, if_neg (by simp [hz])]
    rfl

end Sys2Proof.Machine
end

section
/-! PROOFS. Rows that store in one place: the flags word, one call on the sink port, and the LZ code buffer
(spec/30_encoding.md R95, R97, R101 to R103; spec/43_parser_lzbuf.md R223 to R225). -/

namespace Sys2Proof.Machine

/-- The probe budget is at least 1, by either mapping (R9, R311). -/
theorem probeBudget_toNat (v : BitVec 12) :
    (probeBudget .direct v).toNat = max 1 v.toNat ∧ (probeBudget .divided v).toNat = max 1 ((v.toNat + 2) / 3) := by
  have hlt := v.isLt
  constructor
  · rw [probeBudget, BitVec.toNat_ofNat, Nat.mod_eq_of_lt (by omega)]
  · rw [probeBudget, BitVec.toNat_ofNat, Nat.mod_eq_of_lt (by omega)]

/-- Settles O19: each row is one register update; FLAG.NONDET with 0 also fills `head` with the sentinel. -/
theorem flagFieldsSetTheirRegisters : Obligations.FlagFieldsSetTheirRegisters := by
  intro v b s
  obtain ⟨hdirect, hdivided⟩ := probeBudget_toNat v
  refine ⟨⟨takeProbes v s, rfl, rfl, fun h => ?_, fun h => ?_⟩, rfl, rfl, rfl, takeNondet b s, rfl, ?_, fun i => ?_⟩
  · rw [takeProbes, h]; exact hdirect
  · rw [takeProbes, h]; exact hdivided
  · cases b <;> rfl
  · cases b <;> rfl

/-- One call on the sink port: whose answer it is, and what is left of the environment's answers (R146; log 3). -/
theorem sinkCall_answer (bytes : List Byte) (s : State) :
    ∃ answer draws, sinkCall bytes s = (s.logPut ⟨bytes, answer⟩ (s.sinkAnswers.drop 1) draws, answer) ∧
      (∀ a later, s.sinkAnswers = a :: later → answer = a ∧ draws = s.sinkDraws) ∧
      (s.sinkAnswers = [] → answer = Config.sinkAnswer s.sinkDraws ∧ draws = s.sinkDraws + 1) := by
  unfold sinkCall
  cases hanswers : s.sinkAnswers with
  | nil => exact ⟨_, _, rfl, by simp, by simp⟩
  | cons a later => exact ⟨_, _, rfl, by simp, by simp⟩

/-- Settles O26: one call with the bytes from index 0 on, whose rejection is latched. -/
theorem sinkPutIsOneCall : Obligations.SinkPutIsOneCall := by
  intro length s h1 h2 hf
  obtain ⟨answer, draws, hcall, hlist, hdrawn⟩ := sinkCall_answer (stagedBytes s length.toNat) s
  have hrun : exec (.sinkPut length) s = .next (latchRejection
      ((s.logPut ⟨stagedBytes s length.toNat, answer⟩ (s.sinkAnswers.drop 1) draws).setResult (.flag answer), answer)) := by
    change execSinkPut length s = _
    rw [execSinkPut, if_neg (by simp only [Config.OUT_SIZE]; omega), if_neg (by simp [hf]), hcall]
  refine ⟨_, answer, hrun, ?_, ?_, ?_⟩
  · cases answer
    · rfl
    · simp [latchRejection, State.logPut, State.setResult, stagedBytes, hf]
  · cases answer <;> exact hlist
  · cases answer <;> exact hdrawn

/-! ## The LZ code buffer -/

theorem matchInRange_iff (d : BitVec 16) (l : BitVec 9) :
    matchInRange d l = true ↔ Config.M ≤ l.toNat ∧ l.toNat ≤ Config.L ∧ 1 ≤ d.toNat ∧ d.toNat ≤ Config.W :=
  decide_eq_true_iff

/-- Settles O43: three bytes and the flag by `record_spec`; the flush test is the room that `roomFor_iff` speaks of. -/
theorem recordMatchStoresThreeBytes : Obligations.RecordMatchStoresThreeBytes := by
  intro d l s hlz
  constructor
  · intro hm
    obtain ⟨u, hrec, honly, hrun⟩ :=
      record_spec (matchBytes d.toNat l.toNat) true s hlz (by simp [matchBytes]) (by simp [matchBytes])
    have hroom : RoomFor 3 s ↔ ¬ Config.LZ_SIZE - u.lzPos.toNat < 4 := roomFor_iff hlz hrec
    have hexec : exec (.recordMatch d l) s =
        ofRun (if Config.LZ_SIZE - u.lzPos.toNat < 4 then flushBlock false u else .ok u) := by
      rw [← hrun]
      exact congrArg ofRun (if_pos ((matchInRange_iff d l).1 hm))
    rw [matchBytes_eq_tokenBytes] at hrec
    refine ⟨u, hrec, honly, fun h => ?_, fun h => ?_⟩
    · rw [hexec, if_neg (hroom.1 h)]; rfl
    · rw [hexec, if_pos (not_not.1 (mt hroom.2 h))]; rfl
  · intro hm
    have hout := mt (matchInRange_iff d l).2 (by simp [hm])
    exact congrArg ofRun (if_neg hout)

/-- The bytes of the token that stands for one byte of length and 15 bits of distance (R103). -/
theorem matchBytes_fields (l : Byte) (d : BitVec 15) :
    matchBytes (d.toNat + 1) (l.toNat + Config.M) = [l, d.extractLsb' 0 8, 0#1 ++ d.extractLsb' 8 7] := by
  have hd := d.isLt
  simp only [matchBytes, Nat.add_sub_cancel, List.cons.injEq, and_true]
  refine ⟨by simp, ?_, ?_⟩
  · apply BitVec.eq_of_toNat_eq
    simp [BitVec.extractLsb'_toNat]
  · apply BitVec.eq_of_toNat_eq
    rw [BitVec.toNat_ofNat, BitVec.toNat_append, BitVec.extractLsb'_toNat, Nat.shiftRight_eq_div_pow]
    simp only [BitVec.toNat_ofNat, Nat.zero_mod, Nat.zero_shiftLeft, Nat.zero_or]
    omega

/-- A token's bytes at the next free index, with the cursor as a 16-bit sum (R102, R103). -/
theorem appendLz_stores (bytes : List Byte) (s : State) (h : s.lzPos.toNat + bytes.length ≤ Config.LZ_SIZE) :
    ∃ t, appendLz bytes s = .ok t ∧ t = { s with lzBuf := t.lzBuf, lzPos := s.lzPos + BitVec.ofNat 16 bytes.length } ∧
      ∀ i, t.lzByte i =
        if s.lzPos.toNat ≤ i ∧ i < s.lzPos.toNat + bytes.length then bytes.getD (i - s.lzPos.toNat) 0#8
        else s.lzByte i := by
  obtain ⟨t, ht, hframe, hpos, hbytes⟩ := appendLz_ok bytes s h
  have hsum : t.lzPos = s.lzPos + BitVec.ofNat 16 bytes.length := by
    apply BitVec.eq_of_toNat_eq
    simp only [Config.LZ_SIZE] at h
    rw [hpos, BitVec.toNat_add, BitVec.toNat_ofNat]
    omega
  exact ⟨t, ht, by rw [← hsum]; exact hframe, hbytes⟩

/-- Settles O45: one store, or the stores of a token's bytes at the next free index. -/
theorem lzFormsStoreTheirBytes : Obligations.LzFormsStoreTheirBytes := by
  intro f v l d s
  refine ⟨fun hpos => ?_, fun hpos => ?_, fun hpos => ?_⟩
  · refine ⟨_, (ofRun_next _ _).2 (writeLz_ok f hpos), rfl, fun i => ?_⟩
    rw [lzByte_set]
    simp only [eq_comm]
  · obtain ⟨t, ht, hframe, hbytes⟩ := appendLz_stores [v] s hpos
    refine ⟨t, (ofRun_next _ _).2 ht, hframe, fun i => ?_⟩
    rw [hbytes, List.length_singleton]
    by_cases hi : i = s.lzPos.toNat
    · rw [if_pos (by omega), if_pos hi, hi, Nat.sub_self]; rfl
    · rw [if_neg (by omega), if_neg hi]
  · obtain ⟨t, ht, hframe, hbytes⟩ := appendLz_stores [l, d.extractLsb' 0 8, 0#1 ++ d.extractLsb' 8 7] s hpos
    rw [← matchBytes_fields] at ht
    refine ⟨t, (ofRun_next _ _).2 ht, hframe, fun i => ?_⟩
    rw [hbytes, show [l, d.extractLsb' 0 8, 0#1 ++ d.extractLsb' 8 7].length = 3 from rfl]
    by_cases h0 : i = s.lzPos.toNat
    · rw [if_pos (by omega), if_pos h0, h0, Nat.sub_self]; rfl
    by_cases h1 : i = s.lzPos.toNat + 1
    · rw [if_pos (by omega), if_neg h0, if_pos h1, h1, Nat.add_sub_cancel_left]; rfl
    by_cases h2 : i = s.lzPos.toNat + 2
    · rw [if_pos (by omega), if_neg h0, if_neg h1, if_pos h2, h2, Nat.add_sub_cancel_left]; rfl
    · rw [if_neg (by omega), if_neg h0, if_neg h1, if_neg h2]

end Sys2Proof.Machine
end

section
/-! PROOFS. The code lengths of an alphabet as a histogram (spec/44_huffman_builder.md R247 to R250). The idea: weigh each
length, and add up. With weight 1 the sum counts the symbols, with weight `2 ^ (cap - l)` it is the Kraft sum; folding
and a turn of the repair loop change either sum by a known amount. -/

namespace Sys2Proof.Machine

/-! ## Weighted sums of a histogram -/

/-- The sum of a histogram in which length `l` has weight `w l`. -/
def weigh (w : Nat → Nat) (h : List Nat) : Nat := ∑ l ∈ Finset.range h.length, h.getD l 0 * w l

/-- The weight of a code of length `l` in the Kraft sum (R249). -/
def kraftWeight (cap l : Nat) : Nat := 2 ^ (cap - l)

theorem getD_set (h : List Nat) (i j v : Nat) (hi : i < h.length) :
    (h.set i v).getD j 0 = if i = j then v else h.getD j 0 := by
  by_cases hij : i = j
  · subst hij
    simp [List.getD, hi]
  · simp [List.getD, hij]

/-- One entry of a histogram changed. -/
theorem weigh_set (w : Nat → Nat) {h : List Nat} {i : Nat} (v : Nat) (hi : i < h.length) :
    weigh w (h.set i v) + h.getD i 0 * w i = weigh w h + v * w i := by
  have hmem : i ∈ Finset.range h.length := Finset.mem_range.2 hi
  have hrest : ∑ l ∈ (Finset.range h.length).erase i, (h.set i v).getD l 0 * w l =
      ∑ l ∈ (Finset.range h.length).erase i, h.getD l 0 * w l :=
    Finset.sum_congr rfl fun l hl => by rw [getD_set h i l v hi, if_neg (Finset.ne_of_mem_erase hl).symm]
  rw [weigh, weigh, List.length_set, ← Finset.add_sum_erase _ _ hmem, ← Finset.add_sum_erase _ _ hmem, hrest,
    getD_set h i i v hi, if_pos rfl]
  omega

/-- One code of length `i` fewer. -/
theorem weigh_pred (w : Nat → Nat) {h : List Nat} {i : Nat} (hpos : 0 < h.getD i 0) :
    weigh w (h.set i (h.getD i 0 - 1)) + w i = weigh w h := by
  have hi : i < h.length := by
    by_contra hn
    rw [List.getD_eq_default _ _ (by omega)] at hpos
    omega
  have hset := weigh_set w (h.getD i 0 - 1) hi
  have hmul : h.getD i 0 * w i = (h.getD i 0 - 1) * w i + w i := by
    rw [← Nat.succ_mul, Nat.succ_eq_add_one, Nat.sub_add_cancel hpos]
  omega

/-- `k` codes of length `i` more. -/
theorem weigh_add (w : Nat → Nat) {h : List Nat} {i : Nat} (k : Nat) (hi : i < h.length) :
    weigh w (h.set i (h.getD i 0 + k)) = weigh w h + k * w i := by
  have hset := weigh_set w (h.getD i 0 + k) hi
  rw [Nat.add_mul] at hset
  omega

/-- Weighing a single length counts its codes. -/
theorem weigh_single (h : List Nat) (i : Nat) : weigh (fun l => if l = i then 1 else 0) h = h.getD i 0 := by
  simp only [weigh, mul_ite, Nat.mul_one, Nat.mul_zero, Finset.sum_ite_eq', Finset.mem_range]
  split_ifs with hi
  · rfl
  · rw [List.getD_eq_default _ _ (by omega)]

theorem weigh_cons (w : Nat → Nat) (x : Nat) (h : List Nat) : weigh w (x :: h) = x * w 0 + weigh (fun l => w (l + 1)) h := by
  rw [weigh, List.length_cons, Finset.sum_range_succ', Nat.add_comm]
  rfl

theorem weigh_append (w : Nat → Nat) (a b : List Nat) :
    weigh w (a ++ b) = weigh w a + weigh (fun l => w (a.length + l)) b := by
  induction a generalizing w with
  | nil => simp [weigh]
  | cons x a ih =>
    rw [List.cons_append, weigh_cons, ih, weigh_cons, List.length_cons, Nat.add_assoc]
    simp only [Nat.add_right_comm]

theorem weigh_const (c : Nat) (h : List Nat) : weigh (fun _ => c) h = h.sum * c := by
  induction h with
  | nil => simp [weigh]
  | cons x h ih => rw [weigh_cons, ih, List.sum_cons, Nat.add_mul]

/-! ## Steps 4 and 5 up to the repair -/

theorem histogram_fold_length (depths h : List Nat) :
    (depths.foldl (fun h d => h.set d (h.getD d 0 + 1)) h).length = h.length := by
  induction depths generalizing h with
  | nil => rfl
  | cons d depths ih => rw [List.foldl_cons, ih, List.length_set]

@[simp] theorem histogram_length (depths : List Nat) : (histogram depths).length = 33 := by
  rw [histogram, histogram_fold_length, List.length_replicate]

theorem getD_replicate_zero (n i : Nat) : (List.replicate n 0).getD i 0 = 0 := by
  by_cases h : i < n
  · exact List.getD_replicate _ h
  · rw [List.getD_eq_default _ _ (by rw [List.length_replicate]; omega)]

theorem weigh_replicate_zero (w : Nat → Nat) (n : Nat) : weigh w (List.replicate n 0) = 0 :=
  Finset.sum_eq_zero fun l _ => by rw [getD_replicate_zero, Nat.zero_mul]

/-- The histogram of the depths weighs what the depths weigh (R247). -/
theorem weigh_histogram (w : Nat → Nat) {depths : List Nat} (h32 : ∀ d ∈ depths, d ≤ 32) :
    weigh w (histogram depths) = (depths.map w).sum := by
  have fold : ∀ (ds h : List Nat), (∀ d ∈ ds, d ≤ 32) → h.length = 33 →
      weigh w (ds.foldl (fun h d => h.set d (h.getD d 0 + 1)) h) = weigh w h + (ds.map w).sum := by
    intro ds
    induction ds with
    | nil => intro h _ _; rfl
    | cons d ds ih =>
      intro h hds hlen
      have hd : d < h.length := by have := hds d (List.mem_cons_self ..); omega
      rw [List.foldl_cons, ih _ (fun e he => hds e (List.mem_cons_of_mem _ he)) (by rw [List.length_set, hlen]),
        weigh_add w 1 hd, List.map_cons, List.sum_cons]
      omega
  rw [histogram, fold depths _ h32 (by rw [List.length_replicate]), weigh_replicate_zero, Nat.zero_add]

theorem foldDeep_length {cap : Nat} {h : List Nat} (hlen : h.length = 33) (hcap : cap ≤ 32) :
    (foldDeep cap h).length = 33 := by
  simp only [foldDeep, List.length_append, List.length_take, List.length_cons, List.length_replicate, hlen]
  omega

/-- The fold weighs every length above the cap as the cap (R248). -/
theorem weigh_foldDeep (w : Nat → Nat) {cap : Nat} {h : List Nat} (hlen : h.length = 33) (hcap : cap ≤ 32) :
    weigh w (foldDeep cap h) = weigh (fun l => w (min l cap)) h := by
  have htake : (h.take cap).length = cap := by rw [List.length_take]; omega
  have hlow : weigh (fun l => w (min l cap)) (h.take cap) = weigh w (h.take cap) :=
    Finset.sum_congr rfl fun l hl => by
      have := Finset.mem_range.1 hl
      simp only [Nat.min_eq_left (show l ≤ cap by omega)]
  have hhigh : weigh (fun l => w (min (cap + l) cap)) (h.drop cap) = (h.drop cap).sum * w cap := by
    simp only [Nat.min_eq_right (Nat.le_add_right cap _)]
    exact weigh_const _ _
  conv_rhs => rw [← List.take_append_drop cap h, weigh_append, htake, hlow, hhigh]
  rw [foldDeep, weigh_append, htake, weigh_cons, weigh_replicate_zero, Nat.add_zero, Nat.add_zero]

/-! ## The repair loop -/

theorem longestShorter_some {h : List Nat} {cap i : Nat} (hi : longestShorter h cap = some i) :
    i < cap ∧ 0 < h.getD i 0 := by
  induction cap with
  | zero => cases hi
  | succ k ih =>
    rw [longestShorter] at hi
    split at hi
    · cases hi
      exact ⟨Nat.lt_succ_self _, ‹_›⟩
    · obtain ⟨hlt, hpos⟩ := ih hi
      exact ⟨by omega, hpos⟩

theorem longestShorter_none {h : List Nat} {cap : Nat} (hnone : longestShorter h cap = none) {i : Nat} (hi : i < cap) :
    h.getD i 0 = 0 := by
  induction cap with
  | zero => omega
  | succ k ih =>
    rw [longestShorter] at hnone
    split at hnone
    · cases hnone
    · by_cases hik : i = k
      · rw [hik]; omega
      · exact ih hnone (by omega)

/-- Between turns of the repair loop: `m` symbols of lengths 1 to `cap`, a Kraft sum of `kraft`, and at least `deep`
codes of length `cap` (R249). -/
structure Capped (cap m kraft deep : Nat) (h : List Nat) : Prop where
  length : h.length = 33
  noZero : h.getD 0 0 = 0
  noDeeper : ∀ i, cap < i → h.getD i 0 = 0
  symbols : weigh (fun _ => 1) h = m
  kraftSum : weigh (kraftWeight cap) h = kraft
  atCap : deep ≤ h.getD cap 0

variable {cap m kraft t : Nat} {h : List Nat}

/-- Two codes one longer weigh as much as the shorter one. -/
theorem kraftWeight_succ {i : Nat} (hi : i < cap) : kraftWeight cap i = 2 * kraftWeight cap (i + 1) := by
  rw [kraftWeight, kraftWeight, ← Nat.pow_succ']
  congr 1
  omega

/-- A code shorter than the cap exists while the Kraft sum is too large: there are not enough symbols to exceed it with
codes of length `cap` alone (R249). -/
theorem Capped.exists_shorter (hc : Capped cap m (2 ^ cap + (t + 1)) (t + 1) h) (hm : m ≤ 2 ^ cap) (hcap : cap ≤ 32) :
    ∃ i, longestShorter (h.set cap (h.getD cap 0 - 1)) cap = some i := by
  have hlen := hc.length
  cases hs : longestShorter (h.set cap (h.getD cap 0 - 1)) cap with
  | some i => exact ⟨i, rfl⟩
  | none =>
    have hzero : ∀ i, i < cap → h.getD i 0 = 0 := by
      intro i hi
      have := longestShorter_none hs hi
      rwa [getD_set _ _ _ _ (by omega), if_neg (by omega)] at this
    have hsame : weigh (kraftWeight cap) h = weigh (fun _ => 1) h := by
      refine Finset.sum_congr rfl fun l _ => ?_
      rcases Nat.lt_trichotomy l cap with hl | rfl | hl
      · rw [hzero l hl, Nat.zero_mul, Nat.zero_mul]
      · rw [kraftWeight, Nat.sub_self, Nat.pow_zero]
      · rw [hc.noDeeper l hl, Nat.zero_mul, Nat.zero_mul]
    rw [hc.kraftSum, hc.symbols] at hsame
    omega

/-- One turn of the repair loop lowers the Kraft sum by one and keeps the number of symbols (R249). -/
theorem Capped.turn (hc : Capped cap m (2 ^ cap + (t + 1)) (t + 1) h) (hm : m ≤ 2 ^ cap) (hcap : cap ≤ 32) :
    ∃ h', repairTurn cap h = .ok h' ∧ Capped cap m (2 ^ cap + t) t h' := by
  obtain ⟨i, hi⟩ := hc.exists_shorter hm hcap
  obtain ⟨hlt, hpos⟩ := longestShorter_some hi
  obtain ⟨hlen, hzero, hdeeper, hsym, hkraft, hdeep⟩ := hc
  obtain ⟨h1, hh1⟩ : ∃ h1, h1 = h.set cap (h.getD cap 0 - 1) := ⟨_, rfl⟩
  obtain ⟨h2, hh2⟩ : ∃ h2, h2 = h1.set i (h1.getD i 0 - 1) := ⟨_, rfl⟩
  have hlen1 : h1.length = 33 := by rw [hh1, List.length_set, hlen]
  have hlen2 : h2.length = 33 := by rw [hh2, List.length_set, hlen1]
  rw [← hh1] at hi hpos
  have hread1 : ∀ j, h1.getD j 0 = if cap = j then h.getD cap 0 - 1 else h.getD j 0 :=
    fun j => by rw [hh1, getD_set _ _ _ _ (by omega)]
  have hread2 : ∀ j, h2.getD j 0 = if i = j then h1.getD i 0 - 1 else h1.getD j 0 :=
    fun j => by rw [hh2, getD_set _ _ _ _ (by omega)]
  have hread3 : ∀ j, (h2.set (i + 1) (h2.getD (i + 1) 0 + 2)).getD j 0 =
      if i + 1 = j then h2.getD (i + 1) 0 + 2 else h2.getD j 0 := fun j => getD_set _ _ _ _ (by omega)
  have hi0 : i ≠ 0 := by
    rintro rfl
    rw [hread1, if_neg (by omega)] at hpos
    omega
  have hweigh : ∀ w, weigh w (h2.set (i + 1) (h2.getD (i + 1) 0 + 2)) + w i + w cap = weigh w h + 2 * w (i + 1) := by
    intro w
    have w1 := weigh_pred w (h := h) (i := cap) (by omega)
    have w2 := weigh_pred w hpos
    have w3 := weigh_add w (h := h2) (i := i + 1) 2 (by omega)
    rw [← hh1] at w1
    rw [← hh2] at w2
    omega
  refine ⟨h2.set (i + 1) (h2.getD (i + 1) 0 + 2), ?_, ⟨by rw [List.length_set, hlen2], ?_, fun j hj => ?_, ?_, ?_, ?_⟩⟩
  · simp only [repairTurn, ← hh1, hi, ← hh2]
  · rw [hread3, if_neg (by omega), hread2, if_neg (by omega), hread1, if_neg (by omega), hzero]
  · rw [hread3, if_neg (by omega), hread2, if_neg (by omega), hread1, if_neg (by omega), hdeeper j hj]
  · have := hweigh fun _ => 1
    omega
  · have := hweigh (kraftWeight cap)
    rw [kraftWeight_succ hlt, hkraft, show kraftWeight cap cap = 1 by rw [kraftWeight, Nat.sub_self, Nat.pow_zero]] at this
    omega
  · have hcap2 : h2.getD cap 0 = h.getD cap 0 - 1 := by rw [hread2, if_neg (by omega), hread1, if_pos rfl]
    rw [hread3]
    split_ifs with hlast
    · rw [hlast, hcap2]; omega
    · rw [hcap2]; omega

/-- The repair loop brings the Kraft sum down to `2 ^ cap` (R249). -/
theorem Capped.repair (hc : Capped cap m (2 ^ cap + t) t h) (hm : m ≤ 2 ^ cap) (hcap : cap ≤ 32) :
    ∃ h', repair cap t h = .ok h' ∧ Capped cap m (2 ^ cap) 0 h' := by
  induction t generalizing h with
  | zero => exact ⟨h, rfl, hc⟩
  | succ t ih =>
    obtain ⟨h1, hturn, hc1⟩ := hc.turn hm hcap
    obtain ⟨h', hrun, hc'⟩ := ih hc1
    refine ⟨h', ?_, hc'⟩
    rw [Machine.repair, hturn]
    exact hrun

/-! ## Steps 4 and 5 -/

theorem sum_map_range (f : Nat → Nat) (n : Nat) : ((List.range n).map f).sum = ∑ x ∈ Finset.range n, f x := rfl

/-- Where no code has length 0 and none is longer than the cap, lengths 1 to the cap make up the sum. -/
theorem weigh_eq_sum (w : Nat → Nat) (hlen : h.length = 33) (hcap : cap ≤ 32) (hzero : h.getD 0 0 = 0)
    (hdeeper : ∀ i, cap < i → h.getD i 0 = 0) : weigh w h = ∑ k ∈ Finset.range cap, h.getD (k + 1) 0 * w (k + 1) := by
  obtain ⟨k, hk⟩ : ∃ k, h.length = cap + k + 1 := ⟨32 - cap, by omega⟩
  have htail : ∑ l ∈ Finset.range k, h.getD (cap + l + 1) 0 * w (cap + l + 1) = 0 :=
    Finset.sum_eq_zero fun l _ => by rw [hdeeper _ (by omega), Nat.zero_mul]
  rw [weigh, hk, Finset.sum_range_succ', hzero, Nat.zero_mul, Nat.add_zero, Finset.sum_range_add, htail, Nat.add_zero]

/-- The Kraft sum of R249, as a weight. -/
theorem Capped.kraftSum_eq (hc : Capped cap m kraft t h) (hcap : cap ≤ 32) : Machine.kraftSum cap h = kraft := by
  rw [← hc.kraftSum, weigh_eq_sum _ hc.length hcap hc.noZero hc.noDeeper, Machine.kraftSum, sum_map_range]
  exact Finset.sum_congr rfl fun l _ => Nat.shiftLeft_eq _ _

/-- The Kraft sum of the folded depths exceeds `2 ^ cap` by no more than the number of depths at or above the cap:
each of them weighs less than 1 too much (R248, R249). -/
theorem kraft_folded {ds : List Nat} (hcap : cap ≤ 32)
    (hkraft : (ds.map fun d => 2 ^ (32 - d)).sum = 2 ^ 32) :
    2 ^ cap ≤ (ds.map fun d => kraftWeight cap (min d cap)).sum ∧
      (ds.map fun d => kraftWeight cap (min d cap)).sum ≤
        2 ^ cap + (ds.map fun d => if min d cap = cap then 1 else 0).sum := by
  have hscale : ∀ l, l ≤ cap → kraftWeight cap l * 2 ^ (32 - cap) = 2 ^ (32 - l) := by
    intro l hl
    rw [kraftWeight, ← Nat.pow_add]
    congr 1
    omega
  have hpos : 0 < 2 ^ (32 - cap) := Nat.two_pow_pos _
  have htotal : 2 ^ cap * 2 ^ (32 - cap) = 2 ^ 32 := by
    rw [← Nat.pow_add, Nat.add_sub_cancel' hcap]
  have hlow : ∀ d ∈ ds, 2 ^ (32 - d) ≤ kraftWeight cap (min d cap) * 2 ^ (32 - cap) := by
    intro d _
    rw [hscale _ (Nat.min_le_right d cap)]
    exact Nat.pow_le_pow_right (by decide) (by omega)
  have hhigh : ∀ d ∈ ds, kraftWeight cap (min d cap) * 2 ^ (32 - cap) ≤
      2 ^ (32 - d) + (if min d cap = cap then 1 else 0) * 2 ^ (32 - cap) := by
    intro d _
    rw [hscale _ (Nat.min_le_right d cap)]
    split_ifs with hd
    · rw [hd, Nat.one_mul]
      exact Nat.le_add_left _ _
    · rw [show min d cap = d by omega]
      exact Nat.le_add_right _ _
  have hl := List.sum_le_sum hlow
  have hh := List.sum_le_sum hhigh
  rw [hkraft, List.sum_map_mul_right, ← htotal] at hl
  rw [List.sum_map_add, hkraft, List.sum_map_mul_right, List.sum_map_mul_right, ← htotal, ← Nat.add_mul] at hh
  exact ⟨Nat.le_of_mul_le_mul_right hl hpos, Nat.le_of_mul_le_mul_right hh hpos⟩

/-- The depths that R258 allows. -/
theorem depthsLegal_iff {n : Nat} {ds : List Nat} (hlegal : depthsLegal n ds = true) :
    ds.length = n ∧ (∀ d ∈ ds, 1 ≤ d ∧ d ≤ 32) ∧ (n = 1 → ds = [1]) ∧
      (2 ≤ n → (ds.map fun d => 2 ^ (32 - d)).sum = 2 ^ 32) := by
  match n with
  | 0 =>
    obtain rfl : ds = [] := by simpa [depthsLegal] using hlegal
    simp
  | 1 =>
    obtain rfl : ds = [1] := by simpa [depthsLegal] using hlegal
    simp
  | n + 2 =>
    simp only [depthsLegal, Bool.and_eq_true, decide_eq_true_eq, List.all_eq_true, Config.MAX_HUFF_LEN] at hlegal
    obtain ⟨⟨⟨hlen, hrange⟩, _⟩, hkraft⟩ := hlegal
    exact ⟨hlen, hrange, by omega, fun _ => hkraft⟩

/-- The histogram after the fold (R247, R248). -/
theorem capped_folded {ds : List Nat} (hcap : cap ≤ 32) (hcap1 : 1 ≤ cap) (hds : ∀ d ∈ ds, 1 ≤ d ∧ d ≤ 32) :
    Capped cap ds.length (ds.map fun d => kraftWeight cap (min d cap)).sum
      (ds.map fun d => if min d cap = cap then 1 else 0).sum (foldDeep cap (histogram ds)) := by
  have h32 : ∀ d ∈ ds, d ≤ 32 := fun d hd => (hds d hd).2
  have hweigh : ∀ w, weigh w (foldDeep cap (histogram ds)) = (ds.map fun d => w (min d cap)).sum := fun w => by
    rw [weigh_foldDeep w (histogram_length ds) hcap, weigh_histogram _ h32]
  have hread : ∀ i, (foldDeep cap (histogram ds)).getD i 0 = (ds.map fun d => if min d cap = i then 1 else 0).sum :=
    fun i => by rw [← weigh_single, hweigh]
  refine ⟨foldDeep_length (histogram_length ds) hcap, ?_, fun i hi => ?_, ?_, hweigh _, Nat.le_of_eq (hread cap).symm⟩
  · rw [hread]
    refine List.sum_eq_zero fun x hx => ?_
    obtain ⟨d, hd, rfl⟩ := List.mem_map.1 hx
    have := hds d hd
    rw [if_neg (by omega)]
  · rw [hread]
    refine List.sum_eq_zero fun x hx => ?_
    obtain ⟨d, hd, rfl⟩ := List.mem_map.1 hx
    rw [if_neg (by omega)]
  · rw [hweigh]
    simp

/-- The histogram `OPTIMIZE` deals the lengths from (R247 to R249): the Kraft sum is at most `2 ^ cap`, and equal from two
symbols on; a single symbol has length 1. -/
theorem cappedHistogram_ok {ds : List Nat} (hcap : cap ≤ 32) (hcap1 : 1 ≤ cap) (hm : m ≤ 2 ^ cap)
    (hlegal : depthsLegal m ds = true) :
    ∃ h kraft, cappedHistogram cap ds = .ok h ∧ Capped cap m kraft 0 h ∧ kraft ≤ 2 ^ cap ∧
      (2 ≤ m → kraft = 2 ^ cap) ∧ (m = 1 → h.getD 1 0 = 1) := by
  obtain ⟨hlen, hrange, hone, hkraft⟩ := depthsLegal_iff hlegal
  have hfold := capped_folded hcap hcap1 hrange
  rw [cappedHistogram, hfold.kraftSum_eq hcap]
  by_cases h2 : 2 ≤ m
  · obtain ⟨hlow, hhigh⟩ := kraft_folded hcap (hkraft h2)
    obtain ⟨t, ht⟩ := Nat.exists_eq_add_of_le hlow
    rw [ht, Nat.add_sub_cancel_left]
    rw [hlen, ht] at hfold
    have hstart : Capped cap m (2 ^ cap + t) t (foldDeep cap (histogram ds)) :=
      { hfold with atCap := Nat.le_trans (by omega) hfold.atCap }
    obtain ⟨h', hrun, hc⟩ := hstart.repair hm hcap
    exact ⟨h', 2 ^ cap, hrun, hc, Nat.le_refl _, fun _ => rfl, by omega⟩
  · have hle : (ds.map fun d => kraftWeight cap (min d cap)).sum ≤ 2 ^ cap := by
      by_cases h1 : m = 1
      · rw [hone h1]
        simp only [List.map_cons, List.map_nil, List.sum_cons, List.sum_nil, Nat.add_zero, kraftWeight]
        exact Nat.pow_le_pow_right (by decide) (by omega)
      · rw [List.eq_nil_of_length_eq_zero (show ds.length = 0 by omega)]
        exact Nat.zero_le _
    rw [Nat.sub_eq_zero_of_le hle]
    rw [hlen] at hfold
    refine ⟨_, _, rfl, { hfold with atCap := Nat.zero_le _ }, hle, fun h => absurd h h2, fun h1 => ?_⟩
    rw [← weigh_single, weigh_foldDeep _ (histogram_length ds) hcap, weigh_histogram _ fun d hd => (hrange d hd).2, hone h1]
    simp [Nat.min_eq_left hcap1]

end Sys2Proof.Machine
end

section
/-! PROOFS. The lengths dealt to the symbols (spec/44_huffman_builder.md R241, R242, R250, R253): each symbol that occurs
is dealt one length, so the table weighs what the histogram weighs. -/

namespace Sys2Proof.Machine

variable {cap m kraft : Nat} {h : List Nat}

/-! ## The lengths in the order they are dealt -/

/-- Every length dealt is 1 to the cap (R250). -/
theorem mem_dealtLengths {l : Nat} (hl : l ∈ dealtLengths cap h) : 1 ≤ l ∧ l ≤ cap := by
  obtain ⟨k, hk, hl⟩ := List.mem_flatMap.1 hl
  have hk := List.mem_range.1 hk
  rw [List.eq_of_mem_replicate hl]
  omega

/-- The lengths dealt weigh what the histogram weighs (R250). -/
theorem sum_dealtLengths (w : Nat → Nat) (hc : Capped cap m kraft 0 h) (hcap : cap ≤ 32) :
    ((dealtLengths cap h).map w).sum = weigh w h := by
  rw [weigh_eq_sum w hc.length hcap hc.noZero hc.noDeeper, dealtLengths, List.map_flatMap, List.flatMap_def,
    List.sum_flatten, List.map_map, sum_map_range]
  refine Finset.sum_congr rfl fun k _ => ?_
  rw [Function.comp_apply, List.map_replicate, List.sum_replicate, smul_eq_mul]

theorem dealtLengths_length (hc : Capped cap m kraft 0 h) (hcap : cap ≤ 32) : (dealtLengths cap h).length = m := by
  rw [← hc.symbols, ← sum_dealtLengths _ hc hcap]
  simp

/-! ## The symbols that occur -/

theorem insertByKey_perm (p : SymKey) (l : List SymKey) : (insertByKey p l).Perm (p :: l) := by
  induction l with
  | nil => exact .refl _
  | cons q l ih =>
    rw [insertByKey]
    split
    · exact .refl _
    · exact (ih.cons q).trans (.swap p q l)

/-- Sorting only reorders (R242). -/
theorem sortByKey_perm (l : List SymKey) : (sortByKey l).Perm l := by
  induction l with
  | nil => exact .refl _
  | cons p l ih => exact (insertByKey_perm p (sortByKey l)).trans (ih.cons p)

/-- The symbols collected are those that occur, each once (R241). -/
theorem collect_syms {freq : Mem 16} {n : Nat} (hn : n ≤ 288) :
    (collect freq n).map (fun p => p.sym.toNat) = (List.range n).filter fun i => decide (freq.entry i ≠ 0) := by
  rw [collect, List.map_filterMap, ← List.filterMap_eq_filter]
  refine List.filterMap_congr fun i hi => ?_
  have hi := List.mem_range.1 hi
  have hsym : (BitVec.ofNat 9 i).toNat = i := by rw [BitVec.toNat_ofNat, Nat.mod_eq_of_lt (by omega)]
  by_cases hfreq : freq.entry i = 0
  · simp [hfreq, Option.guard]
  · simp [hfreq, Option.guard, hsym]

theorem sorted_syms_perm {freq : Mem 16} {n : Nat} (hn : n ≤ 288) :
    ((sortByKey (collect freq n)).reverse.map fun p => p.sym.toNat).Perm
      ((List.range n).filter fun i => decide (freq.entry i ≠ 0)) := by
  rw [← collect_syms hn]
  exact ((List.reverse_perm _).trans (sortByKey_perm _)).map _

/-- There are no more sorted symbols than symbols of the alphabet. -/
theorem sortedLength_le {freq : Mem 16} {n : Nat} (hn : n ≤ 288) : (sortByKey (collect freq n)).length ≤ n := by
  have hlen := (sorted_syms_perm (freq := freq) hn).length_eq
  have := List.length_filter_le (fun i => decide (freq.entry i ≠ 0)) (List.range n)
  rw [List.length_map, List.length_reverse] at hlen
  rw [List.length_range] at this
  omega

/-! ## Tables written entry by entry -/

theorem Mem.entry_set {w : Nat} (t : Mem w) (i j : Nat) (v : BitVec w) :
    (t.set i v).entry j = if i = j then v.toNat else t.entry j := by
  rw [Mem.entry, Mem.entry, Mem.get?_set]
  split_ifs <;> rfl

@[simp] theorem Mem.entry_filled_zero (w i : Nat) : (Mem.filled 0#w).entry i = 0 := by
  rw [Mem.entry, Mem.get?_filled]
  rfl

section
variable {α : Type} {w : Nat} (key : α → Nat) (val : α → BitVec w)

/-- A table after writes at different entries, none of which held anything: a sum over its entries grows by the values
written. -/
theorem sum_entries_writes (f : Nat → Nat) (hf : f 0 = 0) (n : Nat) (ps : List α) (t : Mem w)
    (hnodup : (ps.map key).Nodup) (hkeys : ∀ p ∈ ps, key p < n) (hempty : ∀ p ∈ ps, t.entry (key p) = 0) :
    ∑ i ∈ Finset.range n, f ((ps.foldl (fun t p => t.set (key p) (val p)) t).entry i) =
      ∑ i ∈ Finset.range n, f (t.entry i) + (ps.map fun p => f (val p).toNat).sum := by
  induction ps generalizing t with
  | nil => rfl
  | cons p ps ih =>
    rw [List.map_cons, List.nodup_cons] at hnodup
    have hp := Finset.mem_range.2 (hkeys p (List.mem_cons_self ..))
    have hstep : ∑ i ∈ Finset.range n, f ((t.set (key p) (val p)).entry i) =
        ∑ i ∈ Finset.range n, f (t.entry i) + f (val p).toNat := by
      have hrest : ∑ i ∈ (Finset.range n).erase (key p), f ((t.set (key p) (val p)).entry i) =
          ∑ i ∈ (Finset.range n).erase (key p), f (t.entry i) :=
        Finset.sum_congr rfl fun i hi => by rw [Mem.entry_set, if_neg (Finset.ne_of_mem_erase hi).symm]
      rw [← Finset.add_sum_erase _ _ hp, ← Finset.add_sum_erase _ _ hp, hrest, Mem.entry_set, if_pos rfl,
        hempty p (List.mem_cons_self ..), hf]
      omega
    rw [List.foldl_cons, ih _ hnodup.2 (fun q hq => hkeys q (List.mem_cons_of_mem _ hq)), hstep, List.map_cons,
      List.sum_cons, Nat.add_assoc]
    intro q hq
    have hne : key p ≠ key q := fun heq => hnodup.1 (heq ▸ List.mem_map_of_mem hq)
    rw [Mem.entry_set, if_neg hne, hempty q (List.mem_cons_of_mem _ hq)]

/-- Nonzero entries are those written where only nonzero values are. -/
theorem entry_writes_ne_zero {ps : List α} (t : Mem w) (hval : ∀ p ∈ ps, (val p).toNat ≠ 0) (i : Nat) :
    (ps.foldl (fun t p => t.set (key p) (val p)) t).entry i ≠ 0 ↔ t.entry i ≠ 0 ∨ i ∈ ps.map key := by
  induction ps generalizing t with
  | nil => simp
  | cons p ps ih =>
    have hp := hval p (List.mem_cons_self ..)
    rw [List.foldl_cons, ih _ fun q hq => hval q (List.mem_cons_of_mem _ hq), Mem.entry_set, List.map_cons, List.mem_cons]
    by_cases hi : key p = i
    · simp [hi, hp]
    · simp [hi, Ne.symm hi]

theorem entry_writes_le {ps : List α} {t : Mem w} {bound : Nat} (hval : ∀ p ∈ ps, (val p).toNat ≤ bound) {i : Nat}
    (ht : t.entry i ≤ bound) : (ps.foldl (fun t p => t.set (key p) (val p)) t).entry i ≤ bound := by
  induction ps generalizing t with
  | nil => exact ht
  | cons p ps ih =>
    refine ih (fun q hq => hval q (List.mem_cons_of_mem _ hq)) ?_
    rw [Mem.entry_set]
    split_ifs
    · exact hval p (List.mem_cons_self ..)
    · exact ht

end

/-! ## The length table -/

/-- What the length table of an alphabet with `n` symbols is dealt (R250, R253): lengths up to the cap to the symbols
that occur, and to no other; in any sum it weighs what the histogram weighs. -/
structure Dealt (n cap : Nat) (freq : Mem 16) (h : List Nat) (len : Nat → Nat) : Prop where
  le : ∀ i, len i ≤ cap
  occurs : ∀ i, len i ≠ 0 ↔ i < n ∧ freq.entry i ≠ 0
  sum : ∀ f : Nat → Nat, f 0 = 0 → ∑ i ∈ Finset.range n, f (len i) = weigh f h

theorem dealLengths_dealt {freq : Mem 16} {n : Nat} (hn : n ≤ 288) (hcap : cap ≤ 15)
    (hc : Capped cap (sortByKey (collect freq n)).length kraft 0 h) :
    Dealt n cap freq h (dealLengths (sortByKey (collect freq n)) (dealtLengths cap h)).entry := by
  obtain ⟨sorted, hsorted⟩ : ∃ sorted, sorted = sortByKey (collect freq n) := ⟨_, rfl⟩
  rw [← hsorted] at hc ⊢
  have hlen := dealtLengths_length hc (by omega)
  have hperm := sorted_syms_perm (freq := freq) hn
  rw [← hsorted] at hperm
  obtain ⟨pairs, hpairs⟩ : ∃ pairs, pairs = sorted.reverse.zip (dealtLengths cap h) := ⟨_, rfl⟩
  have hfst : pairs.map (fun p => p.1.sym.toNat) = sorted.reverse.map fun p => p.sym.toNat := by
    have hzip : pairs.map Prod.fst = sorted.reverse := by
      rw [hpairs]
      exact List.map_fst_zip (by simp [hlen])
    rw [← hzip, List.map_map]
    rfl
  have hsnd : pairs.map (fun p => p.2) = dealtLengths cap h := by
    rw [hpairs]
    exact List.map_snd_zip (by simp [hlen])
  have hbound : ∀ p ∈ pairs, 1 ≤ p.2 ∧ p.2 ≤ cap := by
    intro p hp
    refine mem_dealtLengths (h := h) ?_
    rw [← hsnd]
    exact List.mem_map_of_mem hp
  have hval : ∀ p ∈ pairs, (BitVec.ofNat 4 p.2).toNat = p.2 := by
    intro p hp
    have := hbound p hp
    rw [BitVec.toNat_ofNat, Nat.mod_eq_of_lt (by omega)]
  have hmem : ∀ i, i ∈ pairs.map (fun p => p.1.sym.toNat) ↔ i < n ∧ freq.entry i ≠ 0 := by
    intro i
    rw [hfst, hperm.mem_iff]
    simp
  rw [dealLengths, ← hpairs]
  refine ⟨fun i => ?_, fun i => ?_, fun f hf => ?_⟩
  · refine entry_writes_le _ _ (fun p hp => ?_) (by simp)
    rw [hval p hp]
    exact (hbound p hp).2
  · rw [entry_writes_ne_zero _ _ _ (fun p hp => by rw [hval p hp]; have := hbound p hp; omega), Mem.entry_filled_zero, hmem]
    simp
  · rw [sum_entries_writes _ _ f hf n pairs _ ?_ ?_ (by simp)]
    · have hvals : (pairs.map fun p => f (BitVec.ofNat 4 p.2).toNat) = (dealtLengths cap h).map f := by
        rw [← hsnd, List.map_map]
        exact List.map_congr_left fun p hp => congrArg f (hval p hp)
      simp only [Mem.entry_filled_zero, hf, Finset.sum_const_zero, Nat.zero_add, hvals]
      exact sum_dealtLengths f hc (by omega)
    · rw [hfst]
      exact hperm.nodup_iff.2 (List.nodup_range.filter _)
    · intro p hp
      exact ((hmem _).1 (List.mem_map_of_mem hp)).1

end Sys2Proof.Machine
end

section
/-! PROOFS. Canonical codes of code lengths that meet the Kraft inequality (spec/44_huffman_builder.md R251, R252): they
fit their lengths, and reversed none begins another. The idea: in units of `2 ^ -l`, the first code of length
`l` is the Kraft sum of the shorter lengths. -/

namespace Sys2Proof.Machine

/-! ## Counting lengths -/

theorem lengthCount_succ (len : Nat → Nat) (n l : Nat) :
    lengthCount len (n + 1) l = lengthCount len n l + if len n = l then 1 else 0 := by
  rw [lengthCount, List.range_succ, List.filter_append, List.length_append]
  by_cases h : len n = l <;> simp [lengthCount, h]

theorem lengthCount_eq_sum (len : Nat → Nat) (n l : Nat) :
    lengthCount len n l = ∑ i ∈ Finset.range n, if len i = l then 1 else 0 := by
  induction n with
  | zero => rfl
  | succ n ih => rw [lengthCount_succ, Finset.sum_range_succ, ih]

theorem lengthCount_mono (len : Nat → Nat) (l : Nat) {a b : Nat} (hab : a ≤ b) : lengthCount len a l ≤ lengthCount len b l := by
  induction hab with
  | refl => exact Nat.le_refl _
  | step _ ih => rw [lengthCount_succ]; omega

/-- A symbol is counted behind itself and not before. -/
theorem lengthCount_lt (len : Nat → Nat) {i b : Nat} (hib : i < b) : lengthCount len i (len i) < lengthCount len b (len i) := by
  have := lengthCount_mono len (len i) (show i + 1 ≤ b from hib)
  rw [lengthCount_succ, if_pos rfl] at this
  omega

/-! ## The first code of each length -/

section
variable {len : Nat → Nat} {n cap : Nat}

theorem firstOfLength_succ (len : Nat → Nat) (n l : Nat) :
    firstOfLength len n (l + 2) = 2 * (firstOfLength len n (l + 1) + lengthCount len n (l + 1)) := rfl

/-- The first code of a length is the Kraft sum of the shorter lengths (R251). -/
theorem firstOfLength_scaled {l : Nat} (hl : l + 1 ≤ cap) :
    firstOfLength len n (l + 1) * 2 ^ (cap - (l + 1)) =
      ∑ k ∈ Finset.range l, lengthCount len n (k + 1) * kraftWeight cap (k + 1) := by
  induction l with
  | zero => simp [firstOfLength]
  | succ l ih =>
    have hpow : 2 ^ (cap - (l + 1)) = 2 * 2 ^ (cap - (l + 2)) := by
      rw [← Nat.pow_succ']
      congr 1
      omega
    rw [Finset.sum_range_succ, ← ih (by omega), firstOfLength_succ, kraftWeight, hpow]
    ring

/-- The codes of a length fit it where the lengths meet the Kraft inequality (R251). -/
theorem firstOfLength_add_count_le
    (hkraft : ∑ k ∈ Finset.range cap, lengthCount len n (k + 1) * kraftWeight cap (k + 1) ≤ 2 ^ cap) {l : Nat} (h1 : 1 ≤ l)
    (hl : l ≤ cap) : firstOfLength len n l + lengthCount len n l ≤ 2 ^ l := by
  obtain ⟨l, rfl⟩ : ∃ k, l = k + 1 := ⟨l - 1, by omega⟩
  have hpart : ∑ k ∈ Finset.range (l + 1), lengthCount len n (k + 1) * kraftWeight cap (k + 1) ≤
      ∑ k ∈ Finset.range cap, lengthCount len n (k + 1) * kraftWeight cap (k + 1) :=
    Finset.sum_le_sum_of_subset (Finset.range_mono hl)
  rw [Finset.sum_range_succ, ← firstOfLength_scaled hl, kraftWeight, ← Nat.add_mul] at hpart
  refine Nat.le_of_mul_le_mul_right ?_ (Nat.two_pow_pos (cap - (l + 1)))
  rw [← Nat.pow_add, Nat.add_sub_cancel' hl]
  exact Nat.le_trans hpart hkraft

/-- Longer codes begin behind every shorter code (R251). -/
theorem firstOfLength_longer {a : Nat} (h1 : 1 ≤ a) (d : Nat) :
    (firstOfLength len n a + lengthCount len n a) * 2 ^ (d + 1) ≤ firstOfLength len n (a + (d + 1)) := by
  obtain ⟨a, rfl⟩ : ∃ k, a = k + 1 := ⟨a - 1, by omega⟩
  induction d with
  | zero =>
    rw [firstOfLength_succ]
    omega
  | succ d ih =>
    rw [show a + 1 + (d + 1 + 1) = (a + 1 + d) + 2 by omega, firstOfLength_succ, Nat.pow_succ,
      ← Nat.mul_assoc]
    rw [show a + 1 + (d + 1) = a + 1 + d + 1 by omega] at ih
    omega

end

/-! ## The codes -/

/-- Code lengths for which canonical codes exist: at most `cap`, 0 outside the alphabet, within the Kraft inequality. -/
structure LengthsFit (n cap : Nat) (len : Nat → Nat) : Prop where
  le : ∀ i, len i ≤ cap
  inside : ∀ i, len i ≠ 0 → i < n
  kraft : ∑ k ∈ Finset.range cap, lengthCount len n (k + 1) * kraftWeight cap (k + 1) ≤ 2 ^ cap

variable {n cap : Nat} {len : Nat → Nat}

/-- A canonical code is below the first one past its length. -/
theorem canonicalCode_lt_end (hfit : LengthsFit n cap len) {i : Nat} (hi : len i ≠ 0) :
    canonicalCode len n i < firstOfLength len n (len i) + lengthCount len n (len i) :=
  Nat.add_lt_add_left (lengthCount_lt len (hfit.inside i hi)) _

/-- A canonical code fits its length (R251). -/
theorem canonicalCode_lt (hfit : LengthsFit n cap len) {i : Nat} (hi : len i ≠ 0) : canonicalCode len n i < 2 ^ len i :=
  Nat.lt_of_lt_of_le (canonicalCode_lt_end hfit hi)
    (firstOfLength_add_count_le hfit.kraft (Nat.one_le_iff_ne_zero.2 hi) (hfit.le i))

/-- The high bits of a canonical code are no other symbol's code (R117, R251). -/
theorem canonicalCode_high_ne (hfit : LengthsFit n cap len) {i j : Nat} (hij : i ≠ j) (hi : len i ≠ 0)
    (hle : len i ≤ len j) : canonicalCode len n j / 2 ^ (len j - len i) ≠ canonicalCode len n i := by
  rcases Nat.lt_or_eq_of_le hle with hlt | heq
  · obtain ⟨d, hd⟩ : ∃ d, len j = len i + (d + 1) := ⟨len j - len i - 1, by omega⟩
    have hlong := firstOfLength_longer (len := len) (n := n) (Nat.one_le_iff_ne_zero.2 hi) d
    have hend := canonicalCode_lt_end hfit hi
    have hfirst : firstOfLength len n (len i + (d + 1)) ≤ canonicalCode len n j := by
      rw [← hd]
      exact Nat.le_add_right _ _
    have hdiv := (Nat.le_div_iff_mul_le (Nat.two_pow_pos (d + 1))).2 (Nat.le_trans hlong hfirst)
    rw [hd, Nat.add_sub_cancel_left]
    omega
  · rw [heq, Nat.sub_self, Nat.pow_zero, Nat.div_one, canonicalCode, canonicalCode, heq]
    intro hsame
    have hcount := Nat.add_left_cancel hsame
    rcases Nat.lt_or_gt_of_ne hij with h | h
    · have := lengthCount_lt len h
      rw [heq] at this
      omega
    · have := lengthCount_lt len h
      omega

/-- Reversed, the code that stands for symbol `i` in the stream (R252). -/
def streamCode (len : Nat → Nat) (n i : Nat) : Nat := rev (canonicalCode len n i) (len i)

/-- No code is the beginning of another in the stream (R117, R252). -/
theorem streamCode_prefixFree (hfit : LengthsFit n cap len) {i j : Nat} (hij : i ≠ j) (hi : len i ≠ 0)
    (hle : len i ≤ len j) : streamCode len n j % 2 ^ len i ≠ streamCode len n i := by
  intro hsame
  refine canonicalCode_high_ne hfit hij hi hle (Nat.eq_of_testBit_eq fun k => ?_)
  have hbound := canonicalCode_lt hfit hi
  have hboundj := canonicalCode_lt hfit (i := j) (by omega)
  rw [Nat.testBit_div_two_pow]
  by_cases hk : k < len i
  · have hbit := congrArg (fun c => c.testBit (len i - 1 - k)) hsame
    simp only [Nat.testBit_mod_two_pow, show len i - 1 - k < len i by omega, decide_true, Bool.true_and, streamCode] at hbit
    rw [(rev_spec _ _).2 _ (by omega), (rev_spec _ _).2 _ (by omega)] at hbit
    rw [show len i - 1 - (len i - 1 - k) = k by omega, show len j - 1 - (len i - 1 - k) = k + (len j - len i) by omega]
      at hbit
    exact hbit
  · rw [Nat.testBit_lt_two_pow (Nat.lt_of_lt_of_le hbound (Nat.pow_le_pow_right (by decide) (by omega))),
      Nat.testBit_lt_two_pow (Nat.lt_of_lt_of_le hboundj (Nat.pow_le_pow_right (by decide) (by omega)))]

end Sys2Proof.Machine
end

section
/-! PROOFS. `OPTIMIZE` on depths that R258 allows (spec/44_huffman_builder.md R240 to R258): the codes given out in symbol
order are the canonical ones, and the whole operation completes. -/

namespace Sys2Proof.Machine

/-! ## Codes given out in symbol order -/

theorem assignCodes_append (t : Mem 4) (ss rest next : List Nat) (codes : List (Nat × Nat)) :
    assignCodes t (ss ++ rest) next codes =
      assignCodes t rest (assignCodes t ss next codes).1 (assignCodes t ss next codes).2.reverse := by
  induction ss generalizing next codes with
  | nil => rw [List.nil_append, assignCodes, List.reverse_reverse]
  | cons s ss ih =>
    simp only [List.cons_append, assignCodes]
    split
    · exact ih _ _
    · exact ih _ _

/-- The last symbol takes the next code of its length (R251). -/
theorem assignCodes_snoc (t : Mem 4) (ss next : List Nat) (i : Nat) :
    assignCodes t (ss ++ [i]) next [] =
      if t.entry i = 0 then assignCodes t ss next []
      else
        ((assignCodes t ss next []).1.set (t.entry i) ((assignCodes t ss next []).1.getD (t.entry i) 0 + 1),
          (assignCodes t ss next []).2 ++ [(i, rev ((assignCodes t ss next []).1.getD (t.entry i) 0) (t.entry i))]) := by
  rw [assignCodes_append]
  simp only [assignCodes, List.reverse_cons, List.reverse_reverse]

theorem codeTable_snoc (w : Nat) (codes : List (Nat × Nat)) (i c : Nat) :
    codeTable w (codes ++ [(i, c)]) = (codeTable w codes).set i (BitVec.ofNat w c) := by
  rw [codeTable, List.foldl_append]
  rfl

/-- What giving out codes to the first `n` symbols leaves: how far the next code of each length has moved, and the code
of each symbol with a length (R251, R253). -/
theorem assignCodes_range (t : Mem 4) (w : Nat) (next : List Nat) (hnext : next.length = 16) (n : Nat) :
    (assignCodes t (List.range n) next []).1.length = 16 ∧
      (∀ l, l ≠ 0 → (assignCodes t (List.range n) next []).1.getD l 0 = next.getD l 0 + lengthCount t.entry n l) ∧
      ∀ i, (codeTable w (assignCodes t (List.range n) next []).2).entry i =
        if i < n ∧ t.entry i ≠ 0 then
          rev (next.getD (t.entry i) 0 + lengthCount t.entry i (t.entry i)) (t.entry i) % 2 ^ w
        else 0 := by
  induction n with
  | zero =>
    refine ⟨hnext, fun l _ => rfl, fun i => ?_⟩
    rw [if_neg (by omega)]
    exact Mem.entry_filled_zero w i
  | succ n ih =>
    obtain ⟨hlen, hmoved, hcodes⟩ := ih
    have hn : t.entry n < 16 := Mem.entry_lt t n
    rw [List.range_succ, assignCodes_snoc]
    split_ifs with h0
    · refine ⟨hlen, fun l hl => ?_, fun i => ?_⟩
      · rw [hmoved l hl, lengthCount_succ, if_neg (by omega), Nat.add_zero]
      · rw [hcodes i]
        by_cases hi : i = n
        · rw [if_neg (by omega), if_neg (by rintro ⟨_, hne⟩; exact hne (hi ▸ h0))]
        · simp only [show i < n + 1 ↔ i < n by omega]
    · refine ⟨by rw [List.length_set, hlen], fun l hl => ?_, fun i => ?_⟩
      · rw [getD_set _ _ _ _ (by omega), lengthCount_succ]
        split_ifs with heq
        · rw [hmoved _ h0, heq, Nat.add_assoc]
        · rw [hmoved l hl, Nat.add_zero]
      · rw [codeTable_snoc, Mem.entry_set, hcodes i, BitVec.toNat_ofNat, hmoved _ h0]
        by_cases hi : n = i
        · subst hi
          rw [if_pos rfl, if_pos ⟨Nat.lt_succ_self n, h0⟩]
        · rw [if_neg hi]
          simp only [show i < n + 1 ↔ i < n by omega]

/-! ## The lengths as the histogram counts them -/

variable {n cap m kraft : Nat} {freq : Mem 16} {h : List Nat} {len : Nat → Nat}

/-- Each length goes to as many symbols as the histogram says (R250). -/
theorem Dealt.count (hd : Dealt n cap freq h len) {l : Nat} (hl : l ≠ 0) : lengthCount len n l = h.getD l 0 := by
  rw [lengthCount_eq_sum, hd.sum (fun x => if x = l then 1 else 0) (if_neg (Ne.symm hl)), weigh_single]

theorem Dealt.lengthsFit (hd : Dealt n cap freq h len) (hc : Capped cap m kraft 0 h) (hcap : cap ≤ 32)
    (hkraft : kraft ≤ 2 ^ cap) : LengthsFit n cap len := by
  refine ⟨hd.le, fun i hi => ((hd.occurs i).1 hi).1, ?_⟩
  have hsum : ∑ k ∈ Finset.range cap, lengthCount len n (k + 1) * kraftWeight cap (k + 1) = kraft := by
    rw [← hc.kraftSum, weigh_eq_sum _ hc.length hcap hc.noZero hc.noDeeper]
    exact Finset.sum_congr rfl fun k _ => by rw [hd.count (Nat.succ_ne_zero k)]
  exact Nat.le_trans (Nat.le_of_eq hsum) hkraft

/-- The Kraft sum over the symbols (R249). -/
theorem Dealt.kraft_symbols (hd : Dealt n cap freq h len) (hc : Capped cap m kraft 0 h) :
    ((List.range n).map fun i => if len i = 0 then 0 else 2 ^ (cap - len i)).sum = kraft := by
  rw [sum_map_range, hd.sum (fun l => if l = 0 then 0 else 2 ^ (cap - l)) (if_pos rfl), ← hc.kraftSum]
  refine Finset.sum_congr rfl fun l _ => ?_
  by_cases hl : l = 0
  · subst hl
    rw [hc.noZero, Nat.zero_mul, Nat.zero_mul]
  · simp only [if_neg hl, kraftWeight]

/-- The first codes of `OPTIMIZE` are the canonical ones (R251). -/
theorem firstCode_eq (hcount : ∀ l, l ≠ 0 → lengthCount len n l = h.getD l 0) (l : Nat) :
    firstCode h l = firstOfLength len n l := by
  induction l with
  | zero => rfl
  | succ l ih =>
    cases l with
    | zero => rfl
    | succ l =>
      rw [firstCode, ih, firstOfLength_succ, hcount _ (Nat.succ_ne_zero l), Nat.shiftLeft_eq, Nat.mul_comm, Nat.pow_one]

theorem firstCodes_getD {l : Nat} (h1 : l ≠ 0) (hl : l ≤ cap) (h15 : cap ≤ 15) (old : List Nat) :
    (firstCodes cap h old).getD l 0 = firstCode h l := by
  rw [firstCodes, List.getD_eq_getElem _ _ (by simp; omega), List.getElem_map, List.getElem_range, if_pos (by omega)]

/-! ## The whole operation -/

/-- What R249 to R253 and R256 say of the lengths and codes of an alphabet with `n` symbols, `m` of which occur. -/
structure CodesOk (n cap m : Nat) (freq : Mem 16) (len code : Nat → Nat) : Prop where
  bounds : ∀ i, len i ≤ cap ∧ code i < 2 ^ len i ∧ (n ≤ i → len i = 0)
  occurs : ∀ i, i < n → (len i = 0 ↔ freq.entry i = 0)
  kraft : 2 ≤ m → ((List.range n).map fun i => if len i = 0 then 0 else 2 ^ (cap - len i)).sum = 2 ^ cap
  single : m = 1 → ∀ i, len i ≠ 0 → len i = 1 ∧ code i = 0
  canonical : ∀ i, len i ≠ 0 → canonicalCode len n i < 2 ^ len i ∧
    ∀ k, k < len i → (code i).testBit k = (canonicalCode len n i).testBit (len i - 1 - k)
  prefixFree : ∀ i j, i ≠ j → len i ≠ 0 → len i ≤ len j → code j % 2 ^ len i ≠ code i

/-- A single symbol takes the code 0 of length 1 (R245, R256). -/
theorem Dealt.single (hd : Dealt n cap freq h len) (hc : Capped cap 1 kraft 0 h) (hone : h.getD 1 0 = 1) {i : Nat}
    (hi : len i ≠ 0) : len i = 1 ∧ canonicalCode len n i = 0 := by
  have hin := ((hd.occurs i).1 hi).1
  have hothers : weigh (fun l => if l = 0 ∨ l = 1 then 0 else 1) h + weigh (fun l => if l = 1 then 1 else 0) h =
      weigh (fun _ => 1) h := by
    rw [weigh, weigh, weigh, ← Finset.sum_add_distrib]
    refine Finset.sum_congr rfl fun l _ => ?_
    by_cases h0 : l = 0
    · rw [h0, hc.noZero]; simp only [Nat.zero_mul]
    · by_cases h1 : l = 1 <;> simp [h0, h1]
  have hnone : ∑ j ∈ Finset.range n, (if len j = 0 ∨ len j = 1 then 0 else 1) = 0 := by
    rw [hd.sum (fun l => if l = 0 ∨ l = 1 then 0 else 1) (if_pos (.inl rfl))]
    rw [weigh_single, hc.symbols, hone] at hothers
    omega
  have hlen : len i = 1 := by
    have := Finset.sum_eq_zero_iff.1 hnone i (Finset.mem_range.2 hin)
    by_contra h1
    rw [if_neg (by omega)] at this
    cases this
  refine ⟨hlen, ?_⟩
  have hbefore := lengthCount_lt len hin
  rw [hlen, hd.count Nat.one_ne_zero, hone] at hbefore
  rw [canonicalCode, hlen, Nat.lt_one_iff.1 hbefore]
  rfl

theorem codesOk (hcap : cap ≤ 15) (hd : Dealt n cap freq h len) (hc : Capped cap m kraft 0 h)
    (hle : kraft ≤ 2 ^ cap) (hkraft : 2 ≤ m → kraft = 2 ^ cap) (hone : m = 1 → h.getD 1 0 = 1) {code : Nat → Nat}
    (hcode : ∀ i, code i = if len i = 0 then 0 else streamCode len n i) : CodesOk n cap m freq len code := by
  have hfit := hd.lengthsFit hc (by omega) hle
  have hin : ∀ i, len i ≠ 0 → code i = streamCode len n i := fun i hi => by rw [hcode, if_neg hi]
  refine ⟨fun i => ⟨hd.le i, ?_, fun hout => ?_⟩, fun i hi => ?_, fun h2 => ?_, fun h1 i hi => ?_, fun i hi => ?_,
    fun i j hij hi hlen => ?_⟩
  · rw [hcode]
    split_ifs with h0
    · exact Nat.two_pow_pos _
    · exact (rev_spec _ _).1
  · by_contra h0
    have := hfit.inside i h0
    omega
  · rw [← not_iff_not]
    exact (hd.occurs i).trans (and_iff_right hi)
  · rw [hd.kraft_symbols hc, hkraft h2]
  · subst h1
    obtain ⟨hlen, hzero⟩ := hd.single hc (hone rfl) hi
    refine ⟨hlen, ?_⟩
    rw [hin i hi, streamCode, hzero, hlen]
    rfl
  · refine ⟨canonicalCode_lt hfit hi, fun k hk => ?_⟩
    rw [hin i hi]
    exact (rev_spec _ _).2 k hk
  · rw [hin i hi, hin j (by omega)]
    exact streamCode_prefixFree hfit hij hi hlen

/-- Depths that R258 allows are what `HUFF_DEPTHS` yields, by R246 or by a substitute (R10, R258). -/
theorem huffDepths_ok {s : State} {keys : List Nat} (hlegal : depthsLegal keys.length (chosenDepths s keys) = true) :
    huffDepths s.params.depths keys = .ok (chosenDepths s keys) := by
  have hrange := (depthsLegal_iff hlegal).2.1
  unfold chosenDepths at *
  cases halg : s.params.depths with
  | moffatKatajainen =>
    simp only [halg] at hrange
    exact if_pos (List.all_eq_true.2 fun d hd => decide_eq_true (hrange d hd).2)
  | substitute =>
    simp only [halg] at hlegal
    exact if_pos hlegal

/-- The alphabets are small enough for their caps: not every symbol needs a code of the longest length (R8, R240). -/
theorem alphabet_fits (x : HuffTable) :
    tableSymbols x ≤ 288 ∧ tableSymbols x ≤ 2 ^ tableCap x ∧ 1 ≤ tableCap x ∧ tableCap x ≤ 15 := by
  cases x <;> decide

/-- The tables `OPTIMIZE` computes, where the depths and the repair complete (R250, R251). -/
theorem buildCodes_ok {a : DepthAlgorithm} {ds : List Nat} {old : List Nat}
    (hds : huffDepths a ((sortByKey (collect freq n)).map fun p => p.key.toNat) = .ok ds)
    (hrun : cappedHistogram cap ds = .ok h) :
    ∃ b, buildCodes a freq n cap old = .ok b ∧ b.len = dealLengths (sortByKey (collect freq n)) (dealtLengths cap h) ∧
      b.codes = (assignCodes b.len (List.range n) (firstCodes cap h old) []).2 := by
  rw [buildCodes, hds]
  simp only [hrun, bind, Except.bind]
  exact ⟨_, rfl, rfl, rfl⟩

/-- The computation of `OPTIMIZE` on depths that R258 allows gives the lengths and codes of R249 to R253. -/
theorem buildCodes_legal {a : DepthAlgorithm} {ds : List Nat} (hn : n ≤ 288) (hfits : n ≤ 2 ^ cap) (hcap1 : 1 ≤ cap)
    (hcap : cap ≤ 15) (hm : m = (sortByKey (collect freq n)).length)
    (hds : huffDepths a ((sortByKey (collect freq n)).map fun p => p.key.toNat) = .ok ds)
    (hlegal : depthsLegal m ds = true) (old : List Nat) :
    ∃ b, buildCodes a freq n cap old = .ok b ∧ CodesOk n cap m freq b.len.entry (codeTable cap b.codes).entry := by
  obtain ⟨h, kraft, hrun, hc, hle, hkraft, hone⟩ :=
    cappedHistogram_ok (by omega) hcap1 (by rw [hm]; exact Nat.le_trans (sortedLength_le hn) hfits) hlegal
  obtain ⟨b, hb, hlen, hgiven⟩ := buildCodes_ok (old := old) hds hrun
  have hd := dealLengths_dealt hn hcap (hm ▸ hc)
  rw [← hlen] at hd
  have hfit := hd.lengthsFit hc (by omega) hle
  refine ⟨b, hb, codesOk hcap hd hc hle hkraft hone fun i => ?_⟩
  obtain ⟨_, _, hcodes⟩ := assignCodes_range b.len cap (firstCodes cap h old) (by simp [firstCodes]) n
  rw [hgiven, hcodes i]
  by_cases hi : b.len.entry i = 0
  · rw [if_pos hi, if_neg (by rintro ⟨_, hne⟩; exact hne hi)]
  · rw [if_neg hi, if_pos ⟨hfit.inside i hi, hi⟩, firstCodes_getD hi (hfit.le i) hcap,
      firstCode_eq fun l hl => hd.count hl]
    refine Nat.mod_eq_of_lt (Nat.lt_of_lt_of_le (rev_spec _ _).1 ?_)
    exact Nat.pow_le_pow_right (by decide) (hfit.le i)

/-- `OPTIMIZE` on depths that R258 allows completes, and its lengths and codes are those of R249 to R253. -/
theorem optimize_legal {s : State} {x : HuffTable} (hlegal : LegalDepths s x) :
    ∃ b, optimize x s = .ok ((storeCodes x b s).setScratch (overlay b.syms s.syms) (b.numCodes.map (BitVec.ofNat 9))
        (b.nextCode.map (BitVec.ofNat 16))) ∧
      CodesOk (tableSymbols x) (tableCap x) (sortedKeys s x).length (s.freqTable x) b.len.entry
        (codeTable (tableCap x) b.codes).entry := by
  obtain ⟨hn, hfits, hcap1, hcap⟩ := alphabet_fits x
  obtain ⟨b, hb, hok⟩ := buildCodes_legal hn hfits hcap1 hcap (List.length_map _) (huffDepths_ok hlegal) hlegal
    (s.nextCode.map fun c => c.toNat)
  refine ⟨b, ?_, hok⟩
  rw [optimize, hb]
  rfl

/-- Settles O56: `OPTIMIZE` completes with the lengths and codes of `CodesOk`, in the tables of its alphabet alone. -/
theorem optimizeMeetsKraftWithinTheCap : Obligations.OptimizeMeetsKraftWithinTheCap := by
  intro x s hlegal
  obtain ⟨b, hrun, hok⟩ := optimize_legal hlegal
  have hexec : exec (.optimize x) s = ofRun (optimize x s) := rfl
  rw [hexec, hrun]
  refine ⟨_, rfl, ?_⟩
  cases x with
  | litLen =>
    exact ⟨rfl, fun h => absurd rfl h, fun _ => ⟨rfl, rfl⟩, fun _ => ⟨rfl, rfl⟩, hok.bounds, hok.occurs, hok.kraft,
      hok.single, hok.canonical, hok.prefixFree⟩
  | dist =>
    exact ⟨rfl, fun _ => ⟨rfl, rfl⟩, fun h => absurd rfl h, fun _ => ⟨rfl, rfl⟩, hok.bounds, hok.occurs, hok.kraft,
      hok.single, hok.canonical, hok.prefixFree⟩
  | codeLen =>
    exact ⟨rfl, fun _ => ⟨rfl, rfl⟩, fun _ => ⟨rfl, rfl⟩, fun h => absurd rfl h, hok.bounds, hok.occurs, hok.kraft,
      hok.single, hok.canonical, hok.prefixFree⟩

end Sys2Proof.Machine
end

section
/-! PROOFS. The fields of an emitted block (spec/30_encoding.md R110, spec/45_block_encoder.md R270 to R288), read off the
tables and the tokens it was built from. -/

namespace Sys2Proof.Machine

/-! ## The counts of R275, R276 and R280 -/

theorem trimCount_sent (len : Nat → Nat) {least most : Nat} (h : least ≤ most) :
    SentCount len least most (trimCount (fun i => decide (len i ≠ 0)) least most) := by
  induction most with
  | zero => exact ⟨h, Nat.le_refl _, by omega, .inl (Nat.le_zero.1 h).symm⟩
  | succ n ih =>
    rw [trimCount]
    by_cases htrim : least < n + 1 ∧ len n = 0
    · rw [if_pos (by simpa using htrim)]
      obtain ⟨hleast, hmost, hzero, hlast⟩ := ih (by omega)
      refine ⟨hleast, by omega, fun i hi hin => ?_, hlast⟩
      by_cases hn : i = n
      · rw [hn]; exact htrim.2
      · exact hzero i hi (by omega)
    · rw [if_neg (by simpa using htrim)]
      refine ⟨h, Nat.le_refl _, by omega, ?_⟩
      rw [Nat.add_sub_cancel]
      omega

/-! ## The end of block in the tally -/

theorem countSymbol_entry (t : Mem 16) (i j : Nat) :
    (countSymbol t i).entry j = if i = j then (t.entry i + 1) % 2 ^ 16 else t.entry j := by
  rw [countSymbol, Mem.entry_set, BitVec.toNat_ofNat]

/-- The symbol of a match length is behind the end of block (R289). -/
theorem lenRow_bounds {l : Nat} {r : SymbolRow} (h : lenRow l = .ok r) : 257 ≤ r.sym ∧ l ≤ 258 := by
  unfold lenRow rowOf at h
  split at h
  case h_1 r' hr =>
    cases h
    have hall : ∀ x ∈ lenRows, 257 ≤ x.sym ∧ x.last ≤ 258 := by decide
    have hrow := hall r (List.mem_of_find?_eq_some hr)
    have hin := List.find?_some hr
    simp only [Bool.and_eq_true, decide_eq_true_eq] at hin
    omega
  case h_2 => cases h

theorem distRow_bounds {d : Nat} {r : SymbolRow} (h : distRow d = .ok r) : d ≤ 32768 := by
  unfold distRow rowOf at h
  split at h
  case h_1 r' hr =>
    cases h
    have hall : ∀ x ∈ distRows, x.last ≤ 32768 := by decide
    have hrow := hall r (List.mem_of_find?_eq_some hr)
    have hin := List.find?_some hr
    simp only [Bool.and_eq_true, decide_eq_true_eq] at hin
    omega
  case h_2 => cases h

/-- No token counts as an end of block (R272, R273). -/
theorem tallyTokens_eob {ts : List Token} {lit dist : Mem 16} {c : Mem 16 × Mem 16}
    (h : tallyTokens ts lit dist = .ok c) : c.1.entry 256 = lit.entry 256 := by
  induction ts generalizing lit dist with
  | nil => cases h; rfl
  | cons x ts ih =>
    cases x with
    | literal v =>
      have hv := v.isLt
      rw [ih h, countSymbol_entry, if_neg (by omega)]
    | copy l d =>
      obtain ⟨lr, hlr, h⟩ := bind_ok.1 h
      obtain ⟨dr, _, h⟩ := bind_ok.1 h
      have hsym := (lenRow_bounds hlr).1
      rw [ih h, countSymbol_entry, if_neg (by omega)]

/-! ## Pass 1 -/

/-- What `OPTIMIZE` on one alphabet leaves of what pass 1 has built (R240, R270). -/
theorem optimize_leaves {x : HuffTable} {s t : State} (h : optimize x s = .ok t) :
    t.litFreq = s.litFreq ∧ t.packed = s.packed ∧ (x ≠ .litLen → t.llLen = s.llLen) ∧ (x ≠ .dist → t.dLen = s.dLen) := by
  obtain ⟨b, _, rfl⟩ := optimize_ok h
  cases x with
  | litLen => exact ⟨rfl, rfl, fun h => absurd rfl h, fun _ => rfl⟩
  | dist => exact ⟨rfl, rfl, fun _ => rfl, fun h => absurd rfl h⟩
  | codeLen => exact ⟨rfl, rfl, fun _ => rfl, fun _ => rfl⟩

/-- Where the depths of an alphabet are such as R258 allows, a symbol that occurs has a code (R258). -/
theorem optimize_litLen_occurs {s t : State} (h : optimize .litLen s = .ok t) (hlegal : LegalDepths s .litLen) {i : Nat}
    (hi : i < 288) (hfreq : s.litFreq.entry i ≠ 0) : t.llLen.entry i ≠ 0 := by
  obtain ⟨b, hrun, hok⟩ := optimize_legal hlegal
  rw [h] at hrun
  cases hrun
  exact fun h0 => hfreq ((hok.occurs i hi).1 h0)

/-- Whether depths are legal is a matter of the frequencies and the algorithm alone (R10, R258). -/
theorem legalDepths_congr {s t : State} (hparams : t.params = s.params) (hfreq : t.litFreq = s.litFreq) :
    LegalDepths t .litLen ↔ LegalDepths s .litLen := by
  simp only [LegalDepths, chosenDepths, sortedKeys, State.freqTable, hparams, hfreq]

/-- What pass 1 leaves: the end of block counted once and with a code, and the code lengths packed (R272 to R280). -/
theorem buildTables_leaves {ts : List Token} {s t : State} (h : buildTables ts s = .ok t) :
    t.litFreq.entry 256 = 1 ∧ (LegalDepths t .litLen → 1 ≤ t.llLen.entry 256) ∧ t.packed = rlePack (codeLengthSeq t) := by
  have hparams : t.params = s.params := by rw [buildTables_only h]
  obtain ⟨c, hc, h⟩ := bind_ok.1 h
  obtain ⟨s1, h1, h⟩ := bind_ok.1 h
  obtain ⟨s2, h2, h⟩ := bind_ok.1 h
  obtain ⟨f1, _, _, _⟩ := optimize_leaves h1
  obtain ⟨f2, _, l2, _⟩ := optimize_leaves h2
  obtain ⟨f3, p3, l3, d3⟩ := optimize_leaves h
  have hl2 := l2 (by decide)
  have hl3 := l3 (by decide)
  have hd3 := d3 (by decide)
  have hfreq : t.litFreq = countSymbol c.1 256 := f3.trans (f2.trans f1)
  have hcount : (countSymbol c.1 256).entry 256 = 1 := by
    rw [countSymbol_entry, if_pos rfl, tallyTokens_eob hc, Mem.entry_filled_zero]
    rfl
  have hlen : t.llLen = s1.llLen := hl3.trans hl2
  refine ⟨by rw [hfreq, hcount], fun hlegal => ?_, ?_⟩
  · have hlegal := (legalDepths_congr (s := s.setFreqs (countSymbol c.1 256) c.2) hparams hfreq).1 hlegal
    rw [hlen]
    refine Nat.one_le_iff_ne_zero.2 (optimize_litLen_occurs h1 hlegal (by decide) ?_)
    rw [State.setFreqs_litFreq, hcount]
    decide
  · have hseq : codeLengthSeq t = codeLengthSeq s2 := by
      simp only [codeLengthSeq, hlit, hdist, hl3, hd3, State.setPacked_llLen, State.setPacked_dLen]
    rw [p3, hseq]
    rfl

/-! ## Pass 2 -/

/-- Both states have the same code tables and the same packed list (R34, R35). -/
structure SameCodes (s t : State) : Prop where
  llCode : t.llCode = s.llCode
  llLen : t.llLen = s.llLen
  dCode : t.dCode = s.dCode
  dLen : t.dLen = s.dLen
  clCode : t.clCode = s.clCode
  clLen : t.clLen = s.clLen
  packed : t.packed = s.packed

theorem OnlySinkChanged.sameCodes {s t : State} (h : OnlySinkChanged s t) : SameCodes s t := by
  rw [h]; exact ⟨rfl, rfl, rfl, rfl, rfl, rfl, rfl⟩

/-- An extra field of no bits puts nothing out (R113 to R116). -/
theorem fieldBits_codedField (code len extraBits extra : Nat) :
    fieldBits (codedField code len extraBits extra) = fieldBits [(code, len), (extra, extraBits)] := by
  rw [codedField]
  split_ifs with h
  · rw [h]; rfl
  · rfl

theorem tokenWire_copy {l d : Nat} {lr dr : SymbolRow} (hl : lenRow l = .ok lr) (hd : distRow d = .ok dr) (t : State) :
    tokenWire t (.copy l d) = [(t.llCode.entry lr.sym, t.llLen.entry lr.sym), (l - lr.base, lr.extraBits),
      (t.dCode.entry dr.sym, t.dLen.entry dr.sym), (d - dr.base, dr.extraBits)] := by
  have hl' : (BitVec.ofNat 9 l).toNat = l := by
    have := (lenRow_bounds hl).2
    rw [BitVec.toNat_ofNat, Nat.mod_eq_of_lt (by omega)]
  have hd' : (BitVec.ofNat 16 d).toNat = d := by
    have := distRow_bounds hd
    rw [BitVec.toNat_ofNat, Nat.mod_eq_of_lt (by omega)]
  have hlen : exec (.lenSym (BitVec.ofNat 9 l)) t = .next (t.setResult (.symbol lr.sym lr.extraBits lr.base)) := by
    change execLenSym _ t = _
    rw [execLenSym, hl', hl]
    rfl
  have hdist : exec (.distSym (BitVec.ofNat 16 d)) t = .next (t.setResult (.symbol dr.sym dr.extraBits dr.base)) := by
    change execDistSym _ t = _
    rw [execDistSym, hd', hd]
    rfl
  rw [tokenWire, hlen, hdist]
  rfl

/-- A token's fields, from the tables of any state that has them (R284 to R286). -/
theorem tokenFields_bits {x : Token} {s t : State} {fs : List (Nat × Nat)} (hsame : SameCodes s t)
    (h : tokenFields s x = .ok fs) : fieldBits fs = fieldBits (tokenWire t x) := by
  cases x with
  | literal v =>
    cases h
    rw [tokenWire, hsame.llCode, hsame.llLen]
    rfl
  | copy l d =>
    obtain ⟨lr, hlr, h⟩ := bind_ok.1 h
    obtain ⟨dr, hdr, h⟩ := bind_ok.1 h
    rw [← (pure_ok _ _).1 h, tokenWire_copy hlr hdr, hsame.llCode, hsame.llLen, hsame.dCode, hsame.dLen, fieldBits_append,
      llField, distField, fieldBits_codedField, fieldBits_codedField]
    simp only [fieldBits_cons, fieldBits_nil, List.append_nil, List.append_assoc]

theorem tokensFields_bits {ts : List Token} {s t : State} {fs : List (Nat × Nat)} (hsame : SameCodes s t)
    (h : tokensFields s ts = .ok fs) : fieldBits fs = fieldBits (ts.flatMap (tokenWire t)) := by
  induction ts generalizing fs with
  | nil => cases h; rfl
  | cons x ts ih =>
    obtain ⟨f, hf, h⟩ := bind_ok.1 h
    obtain ⟨rest, hrest, h⟩ := bind_ok.1 h
    rw [← (pure_ok _ _).1 h, List.flatMap_cons, fieldBits_append, fieldBits_append, tokenFields_bits hsame hf, ih hrest]

theorem fieldBits_flatMap {α : Type} {f g : α → List (Nat × Nat)} (h : ∀ a, fieldBits (f a) = fieldBits (g a))
    (as : List α) : fieldBits (as.flatMap f) = fieldBits (as.flatMap g) := by
  induction as with
  | nil => rfl
  | cons a as ih => rw [List.flatMap_cons, List.flatMap_cons, fieldBits_append, fieldBits_append, h, ih]

/-- The first code lengths in swizzle order, by index (R112). -/
theorem swizzle_take {n : Nat} (hn : n ≤ 19) : swizzle.take n = (List.range n).map swizzleAt := by
  revert n; decide

/-- The fields of a block are those of R110, in order. -/
theorem blockFields_bits {last : Bool} {ts : List Token} {s t : State} {fs : List (Nat × Nat)} (hsame : SameCodes s t)
    (h : blockFields last ts s = .ok fs) :
    fieldBits fs = fieldBits (blockWire last (hlit s) (hdist s) (hclen s) ts t) := by
  obtain ⟨body, hbody, h⟩ := bind_ok.1 h
  have hhclen : hclen s ≤ 19 := (trimCount_sent (fun i => s.clLen.entry (swizzleAt i)) (by decide)).2.1
  have hpacked := fieldBits_flatMap
    (f := fun p : PackedEntry => clField s p.sym p.extraBits p.extra)
    (g := fun p => [(s.clCode.entry p.sym, s.clLen.entry p.sym), (p.extra, p.extraBits)])
    (fun p => fieldBits_codedField _ _ _ _) s.packed
  have hbfinal : headerFields last.toNat (hlit s - 257) (hdist s - 1) (hclen s - 4) =
      [(if last then 1 else 0, 1), (2, 2), (hlit s - 257, 5), (hdist s - 1, 5), (hclen s - 4, 4)] := by
    cases last <;> rfl
  rw [← (pure_ok _ _).1 h, blockWire, hsame.packed, hsame.clCode, hsame.clLen, hsame.llCode, hsame.llLen]
  simp only [fieldBits_append]
  rw [hbfinal, clLengthFields, swizzle_take hhclen, hpacked, tokensFields_bits hsame hbody, llField, fieldBits_codedField,
    List.map_map]
  simp only [fieldBits_cons, fieldBits_nil, List.append_nil, List.append_assoc, bitsOf_zero, Function.comp_def]

/-! ## The block -/

theorem lzReset_sameCodes (s : State) : SameCodes s (lzReset s) := ⟨rfl, rfl, rfl, rfl, rfl, rfl, rfl⟩

theorem SameCodes.trans {s t u : State} (h : SameCodes s t) (k : SameCodes t u) : SameCodes s u :=
  ⟨k.llCode.trans h.llCode, k.llLen.trans h.llLen, k.dCode.trans h.dCode, k.dLen.trans h.dLen, k.clCode.trans h.clCode,
    k.clLen.trans h.clLen, k.packed.trans h.packed⟩

/-- The counts of a block are those of its tables (R275, R276, R280). -/
theorem SameCodes.counts {s t : State} (h : SameCodes s t) :
    hlit t = hlit s ∧ hdist t = hdist s ∧ hclen t = hclen s ∧ codeLengthSeq t = codeLengthSeq s := by
  simp only [codeLengthSeq, hlit, hdist, hclen, h.llLen, h.dLen, h.clLen, and_self]

/-- What pass 1 leaves still stands after pass 2 and the reset of the LZ code buffer (R270, R288). -/
theorem flushBlock_tables {ts : List Token} {fields : List (Nat × Nat)} {c built sent : State}
    (hbt : buildTables ts c = .ok built) (hs : putFields fields built = .ok sent) :
    SameCodes built (lzReset sent) ∧ (lzReset sent).litFreq.entry 256 = 1 ∧
      (LegalDepths (lzReset sent) .litLen → 1 ≤ (lzReset sent).llLen.entry 256) ∧
      (lzReset sent).packed = rlePack (codeLengthSeq (lzReset sent)) := by
  have hsame : SameCodes built (lzReset sent) := (putFields_only hs).sameCodes.trans (lzReset_sameCodes sent)
  have hfreq : (lzReset sent).litFreq = built.litFreq := by rw [putFields_only hs]; rfl
  have hparams : (lzReset sent).params = built.params := by rw [putFields_only hs]; rfl
  obtain ⟨hcount, hlen, hpacked⟩ := buildTables_leaves hbt
  obtain ⟨_, _, _, hseq⟩ := hsame.counts
  rw [hfreq, hsame.llLen, legalDepths_congr hparams hfreq, hsame.packed, hseq]
  exact ⟨hsame, hcount, hlen, hpacked⟩

/-- The code lengths of the sent counts as `RLE_PACK` takes them (R277). -/
theorem codeLengthSeq_toNat (s : State) :
    (((List.range (hlit s)).map (fun i => BitVec.ofNat 4 (s.llLen.entry i)) ++
      (List.range (hdist s)).map (fun i => BitVec.ofNat 4 (s.dLen.entry i))).map fun c => c.toNat) = codeLengthSeq s := by
  have hnat : ∀ (m : Mem 4) (i : Nat), (BitVec.ofNat 4 (m.entry i)).toNat = m.entry i := fun m i => by
    rw [BitVec.toNat_ofNat, Nat.mod_eq_of_lt (m.entry_lt i)]
  simp only [List.map_append, List.map_map, Function.comp_def, hnat, codeLengthSeq]

/-- Packing the code lengths of a block again gives its packed list (R277, R278). -/
theorem exec_rlePack_again {s : State} (h : s.packed = rlePack (codeLengthSeq s)) :
    exec (.rlePack ((List.range (hlit s)).map (fun i => BitVec.ofNat 4 (s.llLen.entry i)) ++
      (List.range (hdist s)).map (fun i => BitVec.ofNat 4 (s.dLen.entry i)))) s = .next s := by
  have hlitMost : hlit s ≤ 286 := (trimCount_sent (fun i => s.llLen.entry i) (by decide)).2.1
  have hdistMost : hdist s ≤ 30 := (trimCount_sent (fun i => s.dLen.entry i) (by decide)).2.1
  obtain ⟨_, _, _, hshort⟩ := rlePack_spec (codeLengthSeq_lt s)
  have hlen : (codeLengthSeq s).length = hlit s + hdist s := by
    rw [codeLengthSeq, List.length_append, List.length_map, List.length_map, List.length_range, List.length_range]
  have hfits : ¬ Config.PACKED_LEN < (rlePack (codeLengthSeq s)).length := by
    rw [Config.PACKED_LEN]; omega
  change execRlePack _ s = _
  rw [execRlePack, codeLengthSeq_toNat, if_neg hfits, ← h]
  rfl

/-- What one block adds to the output, where no call was rejected (R110, R141, R144). -/
theorem flushBlock_stream {last : Bool} {ts : List Token} {fields : List (Nat × Nat)} {s c built sent : State} {stop : Nat}
    (hb : BitsOk s) (hc : closeTokenStream s = .ok (c, stop)) (hbt : buildTables ts c = .ok built)
    (hf : blockFields last ts built = .ok fields) (hs : putFields fields built = .ok sent) (hfail : sent.failed = false) :
    streamBits (lzReset sent) = streamBits s ++
      fieldBits (blockWire last (hlit built) (hdist built) (hclen built) ts (lzReset sent)) := by
  obtain ⟨_, rfl, _⟩ := closeTokenStream_ok hc
  have hbuilt : BitsOk built ∧ streamBits built = streamBits s := by
    rw [buildTables_only hbt]; exact ⟨hb, rfl⟩
  obtain ⟨_, _, hemits, _⟩ := putFields_emits_of_ok hs hfail hbuilt.1
  calc streamBits (lzReset sent)
      = streamBits sent := rfl
    _ = streamBits s ++ fieldBits fields := by rw [(hemits hfail).1, hbuilt.2]
    _ = _ := by rw [blockFields_bits (flushBlock_tables hbt hs).1 hf]

/-- Settles O52: the emission is taken apart into closing the stream, the two passes and the reset, and each part's
facts are read off the tables it left. -/
theorem flushedBlockShape : Obligations.FlushedBlockShape := by
  intro last s t hb hexec
  have h : flushBlock last s = .ok t := (ofRun_next _ _).1 hexec
  obtain ⟨hpos, hflags, hleft⟩ := flushBlock_cursors h
  have hputs := flushBlock_putsFull h
  refine ⟨flushBlock_only h, flushBlock_bitsOk h hb, hpos, hflags, hleft, ?_⟩
  obtain ⟨c, stop, ts, built, fields, sent, hc, hts, hbt, hf, hs, rfl⟩ := flushBlock_ok h
  obtain ⟨hsame, hcount, hlen, hpacked⟩ := flushBlock_tables hbt hs
  obtain ⟨hhlit, hhdist, hhclen, _⟩ := hsame.counts
  have hstop : (BitVec.ofNat 16 stop).toNat = stop := by
    obtain ⟨_, _, rfl⟩ := closeTokenStream_ok hc
    have := s.lzPos.isLt
    rw [BitVec.toNat_ofNat, Nat.mod_eq_of_lt (by omega)]
  refine ⟨hcount, hlen, c, stop, hlit (lzReset sent), hdist (lzReset sent), hclen (lzReset sent), ts, hc,
    exec_tokens (hstop.symm ▸ hts), trimCount_sent _ (by decide), trimCount_sent _ (by decide),
    trimCount_sent (fun i => (lzReset sent).clLen.entry (swizzleAt i)) (by decide), exec_rlePack_again hpacked,
    fun hfail => ?_⟩
  have hsf := hputs.not_failed hfail
  refine ⟨hsf, (hputs.2 hsf).1, ?_⟩
  rw [hhlit, hhdist, hhclen]
  exact flushBlock_stream hb hc hbt hf hs hfail

end Sys2Proof.Machine
end

section
/-! PROOFS. The operations of the BitSink performed by themselves (spec/40_bitsink.md R140 to R144): each runs one function
of the model, whose effect on the stream, the staging buffer and the sink port is known. -/

namespace Sys2Proof.Machine

/-- Settles O22: within its precondition a field is appended; outside it the first test is the fault. -/
theorem putBitsAppendsToTheStream : Obligations.PutBitsAppendsToTheStream := by
  intro value n s
  refine ⟨fun hf hb hn hv => ?_, fun hout => congrArg ofRun (if_pos hout)⟩
  obtain ⟨t, ht, hemit⟩ := putBits_emits value n s hf hb hn hv
  exact ⟨t, (ofRun_next _ _).2 ht, hemit⟩

/-! ## DRAIN -/

/-- On a session that has not failed, the latch holds whether this call was rejected (R97, R142). -/
theorem latchRejection_of_not_failed {s : State} (hf : s.failed = false) (answer : Bool) :
    latchRejection (s, answer) = s.setFailed (!answer) := by
  cases answer with
  | false => rfl
  | true => rw [latchRejection, if_pos rfl, State.setFailed, Bool.not_true, ← hf]

/-- `DRAIN` with staged bytes, and whose answer its call takes (R142, R146; log 3). -/
theorem drain_answer {s : State} (hf : s.failed = false) (h1 : 1 ≤ s.outPos.toNat)
    (h2 : s.outPos.toNat ≤ Config.OUT_SIZE) :
    ∃ answer draws, drain s = .ok (((s.logPut ⟨stagedBytes s s.outPos.toNat, answer⟩ (s.sinkAnswers.drop 1) draws).setOut
        s.outBuf 0#13).setFailed (!answer)) ∧
      (∀ a later, s.sinkAnswers = a :: later → answer = a ∧ draws = s.sinkDraws) ∧
      (s.sinkAnswers = [] → answer = Config.sinkAnswer s.sinkDraws ∧ draws = s.sinkDraws + 1) := by
  obtain ⟨answer, draws, hcall, hsource⟩ := sinkCall_answer (stagedBytes s s.outPos.toNat) s
  refine ⟨answer, draws, ?_, hsource⟩
  have hne : s.outPos ≠ 0#13 := fun h0 => by simp [h0] at h1
  rw [drain, if_neg (by simp [hf]), if_neg hne, if_neg (by omega), hcall]
  exact congrArg _ (latchRejection_of_not_failed (by simpa using hf) answer)

theorem drain_empty {s : State} (h0 : s.outPos = 0#13) : drain s = .ok s := by
  rw [drain, if_pos h0, ite_self]

/-- Settles O24: nothing staged is the second test of `DRAIN`; staged bytes are one call, with its answer. -/
theorem drainHandsOverTheStagedBytes : Obligations.DrainHandsOverTheStagedBytes := by
  intro s hf
  refine ⟨fun h0 => congrArg ofRun (drain_empty h0), fun h1 h2 => ?_⟩
  obtain ⟨answer, draws, hrun, hsource⟩ := drain_answer hf h1 h2
  exact ⟨_, answer, congrArg ofRun hrun, rfl, hsource⟩

/-! ## OUT_BYTE -/

/-- The state once `b` is staged at the next free index, before any drain (R141). -/
def stageByte (b : Byte) (s : State) : State := s.setOut (s.outBuf.set s.outPos.toNat b) (s.outPos + 1#13)

theorem stageByte_outBufByte (b : Byte) (s : State) (i : Nat) :
    (stageByte b s).outBufByte i = if i = s.outPos.toNat then b else s.outBufByte i := by
  simp only [stageByte, outBufByte_setOut, eq_comm]

theorem stageByte_outPos (b : Byte) {s : State} (ho : s.outPos.toNat < Config.OUT_SIZE) :
    (stageByte b s).outPos.toNat = s.outPos.toNat + 1 := by
  simp only [Config.OUT_SIZE] at ho
  simp only [stageByte, State.setOut_outPos, BitVec.toNat_add, BitVec.toNat_ofNat]
  omega

/-- The staged bytes gain the new one at the end (R141). -/
theorem stageByte_stagedBytes (b : Byte) (s : State) :
    stagedBytes (stageByte b s) (s.outPos.toNat + 1) = stagedBytes s s.outPos.toNat ++ [b] := by
  rw [stagedBytes_succ, stageByte_outBufByte, if_pos rfl, stagedBytes_congr (s := s)]
  intro i hi
  rw [stageByte_outBufByte, if_neg (Nat.ne_of_lt hi)]

/-- `OUT_BYTE` on a session that has not failed: the byte is staged, and a full buffer drained (R141). -/
theorem outByte_eq_stageByte (b : Byte) {s : State} (hf : s.failed = false) (ho : s.outPos.toNat < Config.OUT_SIZE) :
    outByte b s =
      if s.outPos.toNat + 1 = Config.OUT_SIZE then drain (stageByte b s) else .ok (stageByte b s) := by
  rw [outByte, if_neg (by simp [hf]), if_pos ho, ← stageByte_outPos b ho]
  rfl

/-- Settles O23: below the last index the byte is staged; at the last one the full buffer is drained by one call. -/
theorem outByteStagesAndDrains : Obligations.OutByteStagesAndDrains := by
  intro b s hf
  refine ⟨fun hroom => ?_, fun hlast => ?_⟩
  · have ho : s.outPos.toNat < Config.OUT_SIZE := by simp only [Config.OUT_SIZE]; omega
    have hrun : outByte b s = .ok (stageByte b s) := by
      rw [outByte_eq_stageByte b hf ho, if_neg (by simp only [Config.OUT_SIZE]; omega)]
    exact ⟨_, congrArg ofRun hrun, rfl, stageByte_outPos b ho, stageByte_outBufByte b s⟩
  · have ho : s.outPos.toNat < Config.OUT_SIZE := by simp only [Config.OUT_SIZE]; omega
    have hpos : (stageByte b s).outPos.toNat = 4096 := by rw [stageByte_outPos b ho, hlast]
    have hbytes : stagedBytes (stageByte b s) 4096 = stagedBytes s 4095 ++ [b] := by
      rw [← hlast, ← stageByte_stagedBytes, hlast]
    obtain ⟨answer, draws, hdrain, _⟩ := drain_answer (s := stageByte b s) hf (by omega) (Nat.le_of_eq hpos)
    have hrun : outByte b s = drain (stageByte b s) := by
      rw [outByte_eq_stageByte b hf ho, if_pos (by simp only [Config.OUT_SIZE]; omega)]
    rw [hpos, hbytes] at hdrain
    have ht := hrun.trans hdrain
    refine ⟨_, answer, congrArg ofRun ht, outByte_only ht, rfl, rfl, rfl, rfl, rfl, fun i => ?_⟩
    rw [← hlast]
    exact stageByte_outBufByte b s i

/-! ## ALIGN -/

/-- The padding of `ALIGN` as a field of the stream (R143). -/
def alignFields (s : State) : List (Nat × Nat) := if s.bitsIn = 0#5 then [] else [(0, 8 - s.bitsIn.toNat)]

theorem bitsOf_value_zero (n : Nat) : bitsOf n 0 = List.replicate n false := by
  simp [bitsOf, List.eq_replicate_iff]

theorem fieldBits_alignFields {s : State} (h7 : s.bitsIn.toNat ≤ 7) :
    fieldBits (alignFields s) = List.replicate ((8 - s.bitsIn.toNat) % 8) false := by
  unfold alignFields
  split
  case isTrue h0 => rw [h0]; rfl
  case isFalse h0 =>
    have hpos : s.bitsIn.toNat ≠ 0 := fun h => h0 (BitVec.eq_of_toNat_eq h)
    rw [Nat.mod_eq_of_lt (by omega), fieldBits_cons, bitsOf_value_zero, fieldBits_nil, List.append_nil]

/-- The held bits and their padding are one byte at most (R143). -/
theorem alignFields_bytes {s : State} (h7 : s.bitsIn.toNat ≤ 7) : (s.bitsIn.toNat + fieldWidth (alignFields s)) / 8 ≤ 1 := by
  unfold alignFields
  split
  · simp only [fieldWidth_nil]; omega
  · simp only [fieldWidth_cons, fieldWidth_nil]; omega

/-- An empty accumulator is 0 (R31). -/
theorem BitsOk.bitBuffer_of_empty {s : State} (h : BitsOk s) (h0 : s.bitsIn = 0#5) : s.bitBuffer = 0#24 := by
  obtain ⟨_, hbuf, _⟩ := h
  rw [h0] at hbuf
  exact BitVec.eq_of_toNat_eq (Nat.lt_one_iff.1 hbuf)

/-- Settles O25: `ALIGN` emits its padding, which completes one byte at most and leaves no bit held back. -/
theorem alignPadsToAByteBoundary : Obligations.AlignPadsToAByteBoundary := by
  intro s hf hb
  obtain ⟨t, hrun, honly, hbt, hstream, hput, hstaged⟩ : ∃ t, align s = .ok t ∧ Emits (alignFields s) s t :=
    align_emits s hf hb
  refine ⟨t, (ofRun_next _ _).2 hrun, honly, hput, hstaged.mono (alignFields_bytes hb.1), fun h0 => ?_, fun ht => ?_⟩
  · rw [align, if_pos h0] at hrun
    exact (Except.ok.inj hrun).symm
  · have h0 := align_bitsIn hrun ht
    exact ⟨h0, hbt.bitBuffer_of_empty h0, (hstream ht).1.trans (congrArg _ (fieldBits_alignFields hb.1))⟩

end Sys2Proof.Machine
end

section
/-! PROOFS. A failed session writes nothing (spec/40_bitsink.md R144): a row that puts out fields within the precondition of
`PUT_BITS` leaves a failed session alone, and the fields of every row of the wire format are within it. -/

namespace Sys2Proof.Machine

/-- A row that puts out fields within the precondition of `PUT_BITS` does nothing once `failed` is set (R144). -/
theorem ofRun_putFields_failed {fs : List (Nat × Nat)} {s : State} (hf : s.failed = true) (hfs : FieldsOk fs) :
    ofRun (putFields fs s) = .next s := congrArg ofRun (putFields_failed s hf hfs)

/-! ## Fields within the precondition -/

/-- The code of symbol `i` and an extra field of at most 13 bits (R113 to R116). -/
theorem codedField_ok {code i w : Nat} {len : Mem 4} (x : BitVec w) (hw : w ≤ 13) (hcode : code < 2 ^ len.entry i) :
    FieldsOk (codedField code (len.entry i) w x.toNat) := by
  by_cases h0 : w = 0
  · rw [codedField, if_pos h0]
    exact fieldsOk_cons (Nat.le_of_lt (Mem.entry_lt len i)) hcode fieldsOk_nil
  · rw [codedField_extra h0]
    refine fieldsOk_cons (Nat.le_of_lt (Mem.entry_lt len i)) hcode (fieldsOk_cons ?_ x.isLt fieldsOk_nil)
    simp only [Config.PUT_MAX]; omega

theorem headerFields_ok (bfinal : Bool) (hlit hdist : BitVec 5) (hclen : BitVec 4) :
    FieldsOk (headerFields bfinal.toNat hlit.toNat hdist.toNat hclen.toNat) :=
  fieldsOk_cons (by decide) (Bool.toNat_lt bfinal) <| fieldsOk_cons (by decide) (by decide) <|
    fieldsOk_cons (by decide) hlit.isLt <| fieldsOk_cons (by decide) hdist.isLt <|
    fieldsOk_cons (by decide) hclen.isLt fieldsOk_nil

theorem clLengthFields_ok {s : State} (n : Nat) (hlen : ∀ k, k ≤ 18 → s.clLen.entry k < 8) :
    FieldsOk (clLengthFields s n) := by
  have hbound : ∀ k ∈ swizzle, k ≤ 18 := by decide
  intro f hfield
  obtain ⟨k, hk, rfl⟩ := List.mem_map.1 hfield
  exact ⟨Nat.le_of_ble_eq_true rfl, hlen k (hbound k (List.mem_of_mem_take hk))⟩

theorem zlibHeaderFields_ok (s : State) : FieldsOk (zlibHeaderFields s) := by
  unfold zlibHeaderFields
  split
  · exact fieldsOk_cons (by decide) (by decide) (fieldsOk_cons (by decide) (by decide) fieldsOk_nil)
  · exact fieldsOk_nil

theorem zlibTrailerFields_ok (s : State) : FieldsOk (zlibTrailerFields s) := by
  unfold zlibTrailerFields
  split
  · exact fieldsOk_cons (by decide) (BitVec.isLt _) <| fieldsOk_cons (by decide) (BitVec.isLt _) <|
      fieldsOk_cons (by decide) (BitVec.isLt _) <| fieldsOk_cons (by decide) (BitVec.isLt _) fieldsOk_nil
  · exact fieldsOk_nil

/-! ## The rows -/

/-- A row of a symbol without an extra field, on a failed session (R144). -/
theorem plainSymbol_failed {code i : Nat} {len : Mem 4} {s : State} (hf : s.failed = true)
    (hcode : code < 2 ^ len.entry i) : ofRun (putFields (codedField code (len.entry i) 0 0) s) = .next s :=
  ofRun_putFields_failed hf (codedField_plain_ok hcode)

/-- A row of a symbol with an extra field of `w` bits, on a failed session (R144). -/
theorem extraSymbol_failed {code i w : Nat} {len : Mem 4} {s : State} (hf : s.failed = true) (x : BitVec w) (hw : w ≤ 13)
    (hcode : code < 2 ^ len.entry i) : ofRun (putFields (codedField code (len.entry i) w x.toNat) s) = .next s :=
  ofRun_putFields_failed hf (codedField_ok x hw hcode)

/-- `put` on a failed session makes no call (R144). -/
theorem exec_sinkPut_failed {length : BitVec 13} {s : State} (hf : s.failed = true) (h1 : 1 ≤ length.toNat)
    (h2 : length.toNat ≤ 4096) : exec (.sinkPut length) s = .next s := by
  change execSinkPut length s = _
  rw [execSinkPut, if_neg (by simp only [Config.OUT_SIZE]; omega), if_pos hf]

/-- `ALIGN` on a failed session (R144): its padding is within the precondition of `PUT_BITS`. -/
theorem align_failed {s : State} (hf : s.failed = true) : align s = .ok s := by
  unfold align
  split
  · rfl
  · exact putBits_failed s hf (by simp only [Config.PUT_MAX]; omega) (by positivity)

/-- Settles O27, one clause per operation or row, in the order of the statement. -/
theorem failedSessionWritesNothing : Obligations.FailedSessionWritesNothing := by
  intro s hf
  refine ⟨?putBits, ?outByte, ?drain, ?align, ?sinkPut, ?extraLength, ?extraDistance, ?extraCodeLength, ?plainLength,
    ?plainDistance, ?plainCodeLength, ?literal, ?endOfBlock, ?zlibHeader, ?zlibTrailer, ?clLengths, ?blockHeader⟩
  case putBits => exact fun value n hn hv => congrArg ofRun (putBits_failed s hf hn hv)
  case outByte => exact fun b => congrArg ofRun (outByte_failed b s hf)
  case drain => exact congrArg ofRun (drain_failed s hf)
  case align => exact congrArg ofRun (align_failed hf)
  case sinkPut => exact fun length h1 h2 => exec_sinkPut_failed hf h1 h2
  case extraLength =>
    intro x p hp hcode
    obtain ⟨hw, hrun⟩ := exec_extraLength hp s
    exact hrun.trans (extraSymbol_failed hf _ hw.2 hcode)
  case extraDistance =>
    intro x p hp hcode
    obtain ⟨hw, hrun⟩ := exec_extraDistance hp s
    exact hrun.trans (extraSymbol_failed hf _ hw.2 hcode)
  case extraCodeLength =>
    intro x p hp hcode
    obtain ⟨hw, hrun⟩ := exec_extraCodeLength hp s
    exact hrun.trans (extraSymbol_failed hf _ hw.2 hcode)
  case plainLength => exact fun p hp hcode => (exec_plainLength hp s).trans (plainSymbol_failed hf hcode)
  case plainDistance => exact fun p hp hcode => (exec_plainDistance hp s).trans (plainSymbol_failed hf hcode)
  case plainCodeLength => exact fun p hp hcode => (exec_plainCodeLength hp s).trans (plainSymbol_failed hf hcode)
  case literal => exact fun v => plainSymbol_failed hf
  case endOfBlock => exact plainSymbol_failed hf
  case zlibHeader => exact ofRun_putFields_failed hf (zlibHeaderFields_ok s)
  case zlibTrailer => exact ofRun_putFields_failed hf (zlibTrailerFields_ok s)
  case clLengths =>
    intro n hn hlen
    have hrun : exec (.clLengths n) s = ofRun (putFields (clLengthFields s n.toNat) s) := if_neg (Nat.not_lt.2 hn)
    exact hrun.trans (ofRun_putFields_failed hf (clLengthFields_ok n.toNat hlen))
  case blockHeader =>
    exact fun bfinal hlit hdist hclen => ofRun_putFields_failed hf (headerFields_ok bfinal hlit hdist hclen)

end Sys2Proof.Machine
end

section
/-! PROOFS. The hash of a triplet and one byte's way into the dictionary (spec/41_dictionary_hash.md R160 to R167). -/

namespace Sys2Proof.Machine

/-! ## The hash -/

/-- Masking with `H - 1` keeps 12 bits (R161). -/
theorem hashMask_eq_mod (n : Nat) : n &&& 0xFFF = n % 2 ^ 12 := Nat.and_two_pow_sub_one_eq_mod n 12

/-- One step of the hash in the arithmetic of R161: on unbounded naturals, then masked. -/
theorem hashStep_toNat (h : BitVec 12) (b : Byte) :
    (hashStep h b).toNat = ((h.toNat <<< 4) ^^^ b.toNat) &&& 0xFFF := by
  rw [hashStep, BitVec.toNat_xor, BitVec.toNat_shiftLeft, BitVec.toNat_setWidth, hashMask_eq_mod, Nat.xor_mod_two_pow]

/-- What the mask cuts off does not come back: shifting only moves bits away from the 12 kept ones (R161). -/
theorem mask_shift_xor (x y : Nat) : (((x &&& 0xFFF) <<< 4) ^^^ y) &&& 0xFFF = ((x <<< 4) ^^^ y) &&& 0xFFF := by
  have hshift : ((x % 2 ^ 12) <<< 4) % 2 ^ 12 = (x <<< 4) % 2 ^ 12 := by
    simp only [Nat.shiftLeft_eq]; omega
  simp only [hashMask_eq_mod, Nat.xor_mod_two_pow, hshift]

/-- The three steps as one formula (R161). -/
theorem hash3_toNat (b0 b1 b2 : Byte) :
    (hash3 b0 b1 b2).toNat = ((b0.toNat <<< 8) ^^^ (b1.toNat <<< 4) ^^^ b2.toNat) &&& 0xFFF := by
  have hfirst : (hashStep 0#12 b0).toNat = b0.toNat &&& 0xFFF := by
    rw [hashStep_toNat, BitVec.toNat_zero, Nat.zero_shiftLeft, Nat.zero_xor]
  have hsecond : (hashStep (hashStep 0#12 b0) b1).toNat = ((b0.toNat <<< 4) ^^^ b1.toNat) &&& 0xFFF := by
    rw [hashStep_toNat, hfirst, mask_shift_xor]
  rw [hash3, hashStep_toNat, hsecond, mask_shift_xor, Nat.shiftLeft_xor_distrib, ← Nat.shiftLeft_add]

/-- Settles O21: the row records the hash, which is the masked mix of the three bytes. -/
theorem hashOfATriplet : Obligations.HashOfATriplet := by
  intro b0 b1 b2 s
  have hrun : exec (.hash3 b0 b1 b2) s = .next (s.setResult (.value (hash3 b0 b1 b2).toNat)) := rfl
  rw [hrun, hash3_toNat]
  rfl

/-! ## One byte -/

/-- With room in the lookahead the byte is taken, and a lookahead it fills is parsed (R160, R167). -/
theorem feedByte_of_room {b : Byte} {s : State} (h : s.lookaheadSize.toNat < Config.L) :
    feedByte b s = if (takeByte b s).lookaheadSize.toNat = Config.L then parseStep (takeByte b s)
      else .ok (takeByte b s) := if_neg (Nat.not_le.2 h)

/-- Settles O34: the byte is taken as `takeByte_spec` says; whether the parser runs is a comparison of the lookahead
size after it, which is one more than before. -/
theorem feedByteEntersTheDictionary : Obligations.FeedByteEntersTheDictionary := by
  intro b s hroom
  have hcapacity : Config.L - 1 + 1 = Config.L := rfl
  have hlt : s.lookaheadSize.toNat < Config.L := by omega
  have htaken := takeByte_spec b s hroom
  obtain ⟨_, _, hsize, _⟩ := id htaken
  have hrun : exec (.feedByte b) s = ofRun (feedByte b s) := rfl
  rw [feedByte_of_room hlt, hsize] at hrun
  refine ⟨takeByte b s, htaken, fun hshort => ?_, fun hfull => ?_⟩
  · have hbelow : s.lookaheadSize.toNat + 1 ≠ Config.L := by omega
    rw [hrun, if_neg hbelow]
    rfl
  · have hreached : s.lookaheadSize.toNat + 1 = Config.L := by omega
    rw [hrun, if_pos hreached]
    rfl

end Sys2Proof.Machine
end

section
/-! PROOFS. What the walk of a hash chain visits, yields and marks (spec/42_match_finder.md R180 to R191). -/

namespace Sys2Proof.Machine

/-! ## One probe -/

/-- The full compare stops no earlier than the agreement does (R188). -/
theorem le_commonLength {s : State} {a b k n : Nat} (hk : n ≤ k)
    (h : ∀ i, i < n → s.dictByte (a + i) = s.dictByte (b + i)) : n ≤ commonLength s a b k := by
  induction k generalizing a b n with
  | zero => omega
  | succ k ih =>
    cases n with
    | zero => exact Nat.zero_le _
    | succ n =>
      have hfirst : s.dictByte a = s.dictByte b := h 0 n.succ_pos
      have hrest : n ≤ commonLength s (a + 1) (b + 1) k := ih (by omega) fun i hi => by
        simpa only [Nat.add_assoc, Nat.add_comm 1] using h (i + 1) (by omega)
      rw [commonLength, if_pos hfirst]
      exact Nat.succ_le_succ hrest

/-- How many bytes of the candidate behind link `k` agree with those at `pos`, at most `maxLen` of them (R188). -/
def agreement (s : State) (pos maxLen k : Nat) : Nat := commonLength s (chainLink s pos (k + 1)) pos maxLen

theorem agreement_le (s : State) (pos maxLen k : Nat) : agreement s pos maxLen k ≤ maxLen :=
  (commonLength_spec _ _ _ _).1

theorem agrees_agreement (s : State) (pos maxLen k : Nat) : Agrees s pos k (agreement s pos maxLen k) :=
  (commonLength_spec _ _ _ _).2

theorem Agrees.le_agreement {s : State} {pos maxLen k n : Nat} (h : Agrees s pos k n) (hn : n ≤ maxLen) :
    n ≤ agreement s pos maxLen k := le_commonLength hn h

/-- The pre-check rejects no candidate that the full compare would prefer: it looks at two bytes of those a longer match
agrees on (R187). -/
theorem agreement_le_of_precheck {s : State} {pos maxLen k len : Nat} (hlen : 1 ≤ len)
    (h : s.dictByte (chainLink s pos (k + 1) + len) ≠ s.dictByte (pos + len) ∨
      s.dictByte (chainLink s pos (k + 1) + len - 1) ≠ s.dictByte (pos + len - 1)) :
    agreement s pos maxLen k ≤ len := by
  by_contra hlonger
  have hagree := agrees_agreement s pos maxLen k
  rcases h with hlast | hbefore
  · exact hlast (hagree len (by omega))
  · rw [Nat.add_sub_assoc hlen, Nat.add_sub_assoc hlen] at hbefore
    exact hbefore (hagree (len - 1) (by omega))

/-- A candidate that does not qualify ends the walk, and where it is a window index its entry is marked (R184, R185). -/
theorem walkChain_of_not_qualified {s : State} {pos maxDist v : Nat} (hq : ¬ Qualified s pos maxDist v)
    (maxLen k d l : Nat) :
    walkChain s pos maxDist maxLen (k + 1) (chainLink s pos v) (chainDist s pos v) d l =
      ⟨d, l, if chainLink s pos (v + 1) < Config.W then some (chainLink s pos v) else none⟩ := by
  by_cases hwindow : chainLink s pos (v + 1) < Config.W
  · have hstop : maxDist < chainDist s pos (v + 1) ∨ chainDist s pos (v + 1) ≤ chainDist s pos v := by
      simp only [Qualified, hwindow, true_and] at hq; omega
    rw [if_pos hwindow]
    exact (if_neg (Nat.not_le.2 hwindow)).trans (if_pos hstop)
  · rw [if_neg hwindow]
    exact if_pos (Nat.not_lt.1 hwindow)

/-- A candidate that qualifies is visited, and becomes the best one where it agrees on more bytes; where it agrees on all
that are asked for, the walk is over (R187 to R189). -/
theorem walkChain_of_qualified {s : State} {pos maxDist v : Nat} (hq : Qualified s pos maxDist v) (maxLen k d : Nat)
    {l : Nat} (hl : 1 ≤ l) :
    walkChain s pos maxDist maxLen (k + 1) (chainLink s pos v) (chainDist s pos v) d l =
      if l < agreement s pos maxLen v then
        if agreement s pos maxLen v = maxLen then ⟨chainDist s pos (v + 1), agreement s pos maxLen v, none⟩
        else walkChain s pos maxDist maxLen k (chainLink s pos (v + 1)) (chainDist s pos (v + 1))
          (chainDist s pos (v + 1)) (agreement s pos maxLen v)
      else walkChain s pos maxDist maxLen k (chainLink s pos (v + 1)) (chainDist s pos (v + 1)) d l := by
  obtain ⟨hwindow, hnear, hfarther⟩ := hq
  have hgoes : ¬ (maxDist < chainDist s pos (v + 1) ∨ chainDist s pos (v + 1) ≤ chainDist s pos v) := by omega
  refine (if_neg (Nat.not_le.2 hwindow)).trans ((if_neg hgoes).trans ?_)
  by_cases hpre : s.dictByte (chainLink s pos (v + 1) + l) ≠ s.dictByte (pos + l) ∨
      s.dictByte (chainLink s pos (v + 1) + l - 1) ≠ s.dictByte (pos + l - 1)
  · rw [if_neg (Nat.not_lt.2 (agreement_le_of_precheck hl hpre))]
    exact if_pos hpre
  · exact if_neg hpre

/-! ## The walk -/

/-- `(d, l)` is the best pair after the first `v` candidates, when `(dist, len)` came in (R187 to R189). -/
structure BestVisited (s : State) (pos maxDist maxLen dist len v d l : Nat) : Prop where
  qualified : ∀ k, k < v → Qualified s pos maxDist k
  longest : ∀ k n, k < v → n ≤ maxLen → Agrees s pos k n → n ≤ l
  source : d = dist ∧ l = len ∨
    ∃ k, k < v ∧ d = chainDist s pos (k + 1) ∧ 1 ≤ d ∧ d ≤ maxDist ∧ len < l ∧ l ≤ maxLen ∧ Agrees s pos k l ∧
      ∀ j, j < k → ¬ Agrees s pos j l

/-- The walk with a budget of `budget` probes yields `f` after `v` candidates: it stopped for want of probes, at a match
of full length, or at a candidate that does not qualify, and then it marks the entry of a window index (R183 to R185,
R189, R190). -/
structure WalkEnds (s : State) (pos maxDist maxLen budget v : Nat) (f : Found) : Prop where
  within : v ≤ budget
  stopped : v < budget → f.len < maxLen → ¬ Qualified s pos maxDist v
  mark : f.mark = if v < budget ∧ f.len < maxLen ∧ chainLink s pos (v + 1) < Config.W then some (chainLink s pos v)
    else none

section
variable {s : State} {pos maxDist maxLen dist len v d l : Nat}

theorem BestVisited.start : BestVisited s pos maxDist maxLen dist len 0 dist len :=
  ⟨by simp, by simp, .inl ⟨rfl, rfl⟩⟩

theorem BestVisited.len_le (h : BestVisited s pos maxDist maxLen dist len v d l) : len ≤ l := by
  rcases h.source with ⟨_, hl⟩ | ⟨_, _, _, _, _, hl, _⟩ <;> omega

theorem BestVisited.qualified_succ (h : BestVisited s pos maxDist maxLen dist len v d l)
    (hq : Qualified s pos maxDist v) : ∀ k, k < v + 1 → Qualified s pos maxDist k :=
  Nat.forall_lt_succ_right.2 ⟨h.qualified, hq⟩

/-- Visiting a candidate that does not beat the best pair leaves it the best (R189: a tie does not replace it). -/
theorem BestVisited.keep (h : BestVisited s pos maxDist maxLen dist len v d l) (hq : Qualified s pos maxDist v)
    (hle : agreement s pos maxLen v ≤ l) : BestVisited s pos maxDist maxLen dist len (v + 1) d l where
  qualified := h.qualified_succ hq
  longest k n hk hn hagree := by
    rcases Nat.lt_succ_iff_lt_or_eq.1 hk with hbefore | rfl
    · exact h.longest k n hbefore hn hagree
    · exact (hagree.le_agreement hn).trans hle
  source := h.source.imp_right fun ⟨k, hk, hrest⟩ => ⟨k, hk.trans v.lt_succ_self, hrest⟩

/-- A candidate that agrees on more bytes becomes the best pair; none before it agrees on as many (R189). -/
theorem BestVisited.improve (h : BestVisited s pos maxDist maxLen dist len v d l) (hq : Qualified s pos maxDist v)
    (hlt : l < agreement s pos maxLen v) :
    BestVisited s pos maxDist maxLen dist len (v + 1) (chainDist s pos (v + 1)) (agreement s pos maxLen v) where
  qualified := h.qualified_succ hq
  longest k n hk hn hagree := by
    rcases Nat.lt_succ_iff_lt_or_eq.1 hk with hbefore | rfl
    · exact (h.longest k n hbefore hn hagree).trans hlt.le
    · exact hagree.le_agreement hn
  source := by
    obtain ⟨_, hnear, hfarther⟩ := hq
    have hmax := agreement_le s pos maxLen v
    refine .inr ⟨v, v.lt_succ_self, rfl, by omega, hnear, h.len_le.trans_lt hlt, hmax,
      agrees_agreement s pos maxLen v, ?_⟩
    exact fun j hj hagree => Nat.not_lt.2 (h.longest j _ hj hmax hagree) hlt

/-- The walk from link `v` on, by induction on the probes left: it ends after some candidates, and its pair is the best
of them. -/
theorem walkChain_best (hlen : 1 ≤ len) {budget probes : Nat} (hprobes : v + probes = budget) {f : Found}
    (hf : f = walkChain s pos maxDist maxLen probes (chainLink s pos v) (chainDist s pos v) d l) (hshort : l < maxLen)
    (h : BestVisited s pos maxDist maxLen dist len v d l) :
    ∃ v', BestVisited s pos maxDist maxLen dist len v' f.dist f.len ∧ WalkEnds s pos maxDist maxLen budget v' f := by
  induction probes generalizing v d l with
  | zero =>
    subst hf
    exact ⟨v, h, by omega, fun _ => by omega, (if_neg (by omega)).symm⟩
  | succ k ih =>
    by_cases hq : Qualified s pos maxDist v
    · rw [walkChain_of_qualified hq maxLen k d (hlen.trans h.len_le)] at hf
      split at hf
      next hlonger =>
        have hbest := h.improve hq hlonger
        split at hf
        next hfull =>
          subst hf
          exact ⟨v + 1, hbest, by omega, fun _ hless => absurd hfull hless.ne, (if_neg (by simp [hfull])).symm⟩
        next hpart => exact ih (by omega) hf (lt_of_le_of_ne (agreement_le ..) hpart) hbest
      next hnot => exact ih (by omega) hf hshort (h.keep hq (Nat.not_lt.1 hnot))
    · rw [walkChain_of_not_qualified hq] at hf
      subst hf
      exact ⟨v, h, by omega, fun _ _ => hq, by simp [hshort, show v < budget by omega]⟩

end

/-! ## The operation -/

/-- Where no longer match is possible the incoming pair is the answer (R181). -/
theorem exec_findMatch_early {pos : BitVec 15} {maxDist : BitVec 16} {maxLen : BitVec 9} {matchDist : BitVec 16}
    {matchLen : BitVec 9} {s : State} (h : maxLen.toNat ≤ matchLen.toNat) :
    exec (.findMatch pos maxDist maxLen matchDist matchLen) s =
      .next (s.setResult (.found matchDist.toNat matchLen.toNat)) := by
  change execFindMatch pos maxDist maxLen matchDist matchLen s = _
  rw [execFindMatch, findMatch, if_pos h]
  rfl

/-- The pair and the mark of the walk that begins at `pos` itself (R182). -/
def walkFrom (s : State) (pos maxDist maxLen dist len : Nat) : Found :=
  walkChain s pos maxDist maxLen s.maxProbes.toNat (chainLink s pos 0) (chainDist s pos 0) dist len

/-- The walk from `pos` visits candidates within the session's probe budget and yields the best of them (R183, R190). -/
theorem walkFrom_best {s : State} {pos maxDist maxLen dist len : Nat} {f : Found}
    (hf : f = walkFrom s pos maxDist maxLen dist len) (hlen : 1 ≤ len) (hshort : len < maxLen) :
    ∃ v, BestVisited s pos maxDist maxLen dist len v f.dist f.len ∧ WalkEnds s pos maxDist maxLen s.maxProbes.toNat v f :=
  walkChain_best hlen (Nat.zero_add _) hf hshort .start

/-- Reading `prev` after the walk from a window index: only the entry it marked has changed (R185, R191). -/
theorem prevEntry_walkFrom {s : State} {pos maxDist maxLen dist len : Nat} {f : Found}
    (hf : f = walkFrom s pos maxDist maxLen dist len) (hpos : pos < Config.W) (j : Nat) :
    (applyMark f.mark s).prevEntry j = if f.mark = some j then Config.SENTINEL else s.prevEntry j :=
  prevEntry_applyMark s f.mark (hf ▸ (walkChain_spec s pos maxDist maxLen _ _ _ dist len hpos).2) j

/-- Every position is at distance 0 from itself (R186). -/
theorem chainDist_zero (s : State) (pos : Nat) : chainDist s pos 0 = 0 := by
  rw [chainDist, chainLink, Nat.add_sub_cancel_left, Nat.mod_self]

/-- Within the contract and past the early return the row is the walk and its mark (R180 to R183). -/
theorem exec_findMatch_walk {pos : BitVec 15} {maxDist : BitVec 16} {maxLen : BitVec 9} {matchDist : BitVec 16}
    {matchLen : BitVec 9} {s : State} (hmax : maxLen.toNat ≤ Config.L) (hmin : 2 ≤ matchLen.toNat)
    (h : matchLen.toNat < maxLen.toNat) {f : Found}
    (hf : f = walkFrom s pos.toNat maxDist.toNat maxLen.toNat matchDist.toNat matchLen.toNat) :
    exec (.findMatch pos maxDist maxLen matchDist matchLen) s =
      .next ((applyMark f.mark s).setResult (.found f.dist f.len)) := by
  subst hf
  have hcontract : ¬ (Config.L < maxLen.toNat ∨ matchLen.toNat < Config.M - 1) := by
    simp only [Config.L, Config.M] at *; omega
  change execFindMatch pos maxDist maxLen matchDist matchLen s = _
  rw [execFindMatch, findMatch, if_neg (Nat.not_le.2 h), if_neg hcontract, walkFrom, chainDist_zero]
  rfl

/-- Recording a result and marking an entry write `prev` and the result alone (R191). -/
theorem setResult_applyMark (m : Option Nat) (r : OpResult) (s : State) :
    (applyMark m s).setResult r = { s with prev := (applyMark m s).prev, opResult := r } := by
  rw [applyMark_only]; rfl

/-- Settles O35: at the early return nothing is walked; else the walk visits candidates and yields the best of them
(`walkFrom_best`), and `prev` is read through the mark it leaves. -/
theorem findMatchYieldsARealMatch : Obligations.FindMatchYieldsARealMatch := by
  intro pos maxDist maxLen matchDist matchLen s hmax hmin
  rcases Nat.lt_or_ge matchLen.toNat maxLen.toNat with hwalk | hearly
  case inr =>
    exact ⟨_, matchDist.toNat, matchLen.toNat, exec_findMatch_early hearly, rfl, fun _ => rfl,
      fun h => absurd hearly (Nat.not_le.2 h)⟩
  obtain ⟨f, hf⟩ : ∃ f, f = walkFrom s pos.toNat maxDist.toNat maxLen.toNat matchDist.toNat matchLen.toNat := ⟨_, rfl⟩
  obtain ⟨visited, hbest, hends⟩ := walkFrom_best hf (le_of_lt hmin) hwalk
  have hread : ∀ j, ((applyMark f.mark s).setResult (.found f.dist f.len)).prevEntry j = _ :=
    prevEntry_walkFrom hf pos.isLt
  refine ⟨_, f.dist, f.len, exec_findMatch_walk hmax hmin hwalk hf, setResult_applyMark ..,
    fun h => absurd h (Nat.not_le.2 hwalk), fun _ =>
    ⟨visited, hends.within, hbest.qualified, hbest.longest, hbest.source, ?_⟩⟩
  split
  next hmarked =>
    refine ⟨hends.stopped hmarked.1 hmarked.2.1, fun j => ?_⟩
    rw [hread, hends.mark, if_pos hmarked]
    simp only [Option.some.injEq, eq_comm]
  next hunmarked =>
    intro j
    rw [hread, hends.mark, if_neg hunmarked]
    exact if_neg (by simp)

end Sys2Proof.Machine
end

section
/-! PROOFS. The LZ code buffer's reset and records, the rows of the transition table each by itself, and the row that
`PARSE_STEP` performs (spec/43_parser_lzbuf.md R201 to R225). -/

namespace Sys2Proof.Machine

/-! ## The LZ code buffer -/

/-- Settles O41: the one store of `lzReset` is at index 0. -/
theorem lzResetEmptiesTheBuffer : Obligations.LzResetEmptiesTheBuffer := by
  intro s
  refine ⟨lzReset s, rfl, rfl, fun i => ?_⟩
  rw [lzReset_eq, lzByte_setLzCursors, lzByte_set]
  simp only [eq_comm]

/-- What a run that ends in the flush test answers, on either side of the threshold (R225). -/
theorem flushTest_run {r : Except Fault State} {u : State}
    (hr : r = if Config.LZ_SIZE - u.lzPos.toNat < 4 then flushBlock false u else .ok u) :
    (¬ Config.LZ_SIZE - u.lzPos.toNat < 4 → ofRun r = .next u) ∧
      (Config.LZ_SIZE - u.lzPos.toNat < 4 → ofRun r = exec (.flushBlock false) u) :=
  ⟨fun h => by rw [hr, if_neg h]; rfl, fun h => by rw [hr, if_pos h]; rfl⟩

/-- Settles O44: `lzAfterRecord_spec`, with the flush test read as a bound on the cursor before it. -/
theorem lzAfterRecordEntersTheFlag : Obligations.LzAfterRecordEntersTheFlag := by
  intro isMatch s hflags hpos h1 h8
  obtain ⟨u, hentered, honly, hframe, hrun⟩ := lzAfterRecord_spec isMatch s hflags hpos h1 h8
  obtain ⟨hroom, hfull⟩ := flushTest_run hrun
  have hcursor : u.lzPos.toNat = s.lzPos.toNat + if s.flagsLeft = 1#4 then 1 else 0 := by
    rw [hentered.1]; split <;> rfl
  simp only [Config.LZ_SIZE] at hroom hfull ⊢
  exact ⟨u, hentered, honly, hframe, fun h => hroom (by omega), fun h => hfull (by omega)⟩

/-- Settles O42: the byte and the flag by `record_spec`; the flush test is the room that `roomFor_iff` speaks of. -/
theorem recordLiteralStoresOneByte : Obligations.RecordLiteralStoresOneByte := by
  intro v s hlz
  obtain ⟨u, hrec, honly, hrun⟩ := record_spec [v] false s hlz (by simp) (by simp)
  have htest : RoomFor 1 s ↔ ¬ Config.LZ_SIZE - u.lzPos.toNat < 4 := roomFor_iff hlz hrec
  obtain ⟨hroom, hfull⟩ := flushTest_run hrun
  exact ⟨u, hrec, honly, fun h => hroom (htest.1 h), fun h => hfull (not_not.1 (mt htest.2 h))⟩

/-! ## How a transition row ends -/

/-- A recorded token is read in `lz_buf` and its cursors alone (R222 to R224). -/
theorem Recorded.of_sameLz {bytes : List Byte} {isMatch : Bool} {s u t : State} (h : Recorded bytes isMatch s u)
    (hlz : SameLz u t) : Recorded bytes isMatch s t := by
  obtain ⟨hpos, hflags, hleft, hbyte⟩ := hlz
  simpa only [Recorded, FlagEntered, hpos, hflags, hleft, hbyte] using h

/-- A record leaves the saved literal and the saved distance (R29). -/
theorem OnlyLzChanged.savedPair {s u : State} (h : OnlyLzChanged s u) :
    u.savedLit = s.savedLit ∧ u.savedMatchDist = s.savedMatchDist :=
  ⟨h.block.saved.1, h.block.saved.2.1⟩

/-- Every row ends so: after its records it saves or clears a match and advances (R205 to R210, R215). -/
theorem OnlyLzChanged.save_advance {s u : State} (h : OnlyLzChanged s u) {adv : Nat} (h1 : 1 ≤ adv)
    (hle : adv ≤ s.lookaheadSize.toNat) (v : Byte) (d : BitVec 16) (l : BitVec 9) :
    ∃ t, advance adv (u.setSaved v d l) = .ok t ∧ OnlyParserChanged s t ∧ Advanced adv s t ∧ SameLz u t ∧
      Saved v d.toNat l.toNat t := by
  obtain ⟨hpos, hsize, hdict⟩ := h.block.cursors
  have hadv := advanced_spec adv (u.setSaved v d l)
  rw [Advanced, State.setSaved_lookaheadPos, State.setSaved_lookaheadSize, State.setSaved_dictSize, hpos, hsize,
    hdict] at hadv
  refine ⟨advanced adv (u.setSaved v d l), advance_iff.2 ⟨⟨h1, ?_⟩, rfl⟩,
    (h.parser.trans (.setSaved u v d l)).trans (.advanced adv _), hadv, ⟨rfl, rfl, rfl, fun _ => rfl⟩, rfl, rfl, rfl⟩
  rw [State.setSaved_lookaheadSize, hsize]; exact hle

/-- A row that leaves the saved match as it stands (R205, R206). -/
theorem OnlyLzChanged.advance {s u : State} (h : OnlyLzChanged s u) {adv : Nat} (h1 : 1 ≤ adv)
    (hle : adv ≤ s.lookaheadSize.toNat) :
    ∃ t, Machine.advance adv u = .ok t ∧ OnlyParserChanged s t ∧ Advanced adv s t ∧ SameLz u t ∧
      Saved s.savedLit s.savedMatchDist.toNat s.savedMatchLen.toNat t := by
  have := h.save_advance h1 hle s.savedLit s.savedMatchDist s.savedMatchLen
  rwa [h.setSaved_self] at this

/-! ## The rows -/

/-- Settles O36: each row is its record, if any, and the advance. -/
theorem idleTransitions : Obligations.IdleTransitions := by
  intro d l s hmatch
  have hrange := (matchInRange_iff d l).1 hmatch
  refine ⟨fun h1 hroom => ?literal, fun hle hroom => ?commit, fun h1 => ?defer⟩
  case literal =>
    obtain ⟨u, hu, hrec, honly, _⟩ := recordLiteral_room (v := s.parseByte) hroom
    obtain ⟨t, ht, hparser, hadv, hlz, hsaved⟩ := honly.advance le_rfl h1
    exact ⟨t, (ofRun_next _ _).2 (bind_ok.2 ⟨u, hu, ht⟩), hparser, hadv, hrec.of_sameLz hlz, hsaved⟩
  case commit =>
    obtain ⟨u, hu, hrec, honly, _⟩ := recordMatch_room hrange hroom
    obtain ⟨t, ht, hparser, hadv, hlz, hsaved⟩ := honly.advance (le_trans (by decide) hrange.1) hle
    exact ⟨t, (ofRun_next _ _).2 (bind_ok.2 ⟨u, hu, ht⟩), hparser, hadv, hrec.of_sameLz hlz, hsaved⟩
  case defer =>
    obtain ⟨t, ht, hparser, hadv, hlz, hsaved⟩ := (OnlyLzChanged.refl s).save_advance le_rfl h1 s.parseByte d l
    refine ⟨t, (ofRun_next _ _).2 ?_, hparser, hadv, hlz, hsaved⟩
    rwa [idleDefer, BitVec.ofNat_toNat, BitVec.ofNat_toNat, BitVec.setWidth_eq, BitVec.setWidth_eq]

/-- Five bytes are room for a literal and a match: only one of the two can open a group (R208, R224). -/
theorem roomFor_match_of_literal {v : Byte} {s u : State} (hfree : s.lzPos.toNat + 5 ≤ Config.LZ_SIZE - 4)
    (hrec : Recorded [v] false s u) (hlz : LzOk u) : RoomFor 3 u := by
  obtain ⟨⟨hpos, _, hleft, _⟩, _⟩ := hrec
  refine ⟨hlz, ?_⟩
  rw [hpos, List.length_singleton]
  by_cases hopen : s.flagsLeft = 1#4
  · have hfresh : u.flagsLeft ≠ 1#4 := by
      intro h; rw [if_pos hopen, h] at hleft; exact absurd hleft (by decide)
    rw [if_pos hopen, if_neg hfresh]; omega
  · rw [if_neg hopen]; split <;> omega

/-- Settles O37: each row is its records and the advance, the match saved or cleared between them. -/
theorem deferredTransitions : Obligations.DeferredTransitions := by
  intro d l s hmatch
  have hrange := (matchInRange_iff d l).1 hmatch
  refine ⟨fun hle hlz hfree => ?longerLong, fun h1 hroom => ?longerShort, fun hsavedMatch hle hroom => ?commit⟩
  case longerLong =>
    have hroom : RoomFor 1 s := ⟨hlz, by split <;> omega⟩
    obtain ⟨u, hu, hlit, honlyLit, hlzu⟩ := recordLiteral_room (v := s.savedLit) hroom
    obtain ⟨w, hw, hcopy, honlyCopy, _⟩ := recordMatch_room hrange (roomFor_match_of_literal hfree hlit hlzu)
    have honly := honlyLit.trans honlyCopy
    obtain ⟨t, ht, hparser, hadv, hsame, hsaved⟩ :=
      honly.save_advance (le_trans (by decide) hrange.1) hle w.savedLit w.savedMatchDist 0#9
    rw [honly.savedPair.1, honly.savedPair.2] at hsaved
    exact ⟨u, t, (ofRun_next _ _).2 (bind_ok.2 ⟨u, hu, bind_ok.2 ⟨w, hw, ht⟩⟩), hparser, hadv, hlit,
      hcopy.of_sameLz hsame, hsaved⟩
  case longerShort =>
    obtain ⟨u, hu, hrec, honly, _⟩ := recordLiteral_room (v := s.savedLit) hroom
    obtain ⟨t, ht, hparser, hadv, hsame, hsaved⟩ := honly.save_advance le_rfl h1 s.parseByte d l
    refine ⟨t, (ofRun_next _ _).2 (bind_ok.2 ⟨u, hu, ?_⟩), hparser, hadv, hrec.of_sameLz hsame, hsaved⟩
    rwa [BitVec.ofNat_toNat, BitVec.ofNat_toNat, BitVec.setWidth_eq, BitVec.setWidth_eq]
  case commit =>
    have hsavedRange := (matchInRange_iff _ _).1 hsavedMatch
    obtain ⟨u, hu, hrec, honly, _⟩ := recordMatch_room hsavedRange hroom
    have hadv1 : 1 ≤ s.savedMatchLen.toNat - 1 :=
      Nat.le_sub_of_add_le (le_trans (by decide : 1 + 1 ≤ Config.M) hsavedRange.1)
    obtain ⟨t, ht, hparser, hadv, hsame, hsaved⟩ := honly.save_advance hadv1 hle u.savedLit u.savedMatchDist 0#9
    rw [honly.savedPair.1, honly.savedPair.2] at hsaved
    exact ⟨t, (ofRun_next _ _).2 (bind_ok.2 ⟨u, hu, ht⟩), hparser, hadv, hrec.of_sameLz hsame, hsaved⟩

/-- Settles O38: a saved match in range is recorded and cleared; `ParserOk` allows none at an empty lookahead. -/
theorem savedMatchFlushRecordsTheMatch : Obligations.SavedMatchFlushRecordsTheMatch := by
  intro s
  refine ⟨fun hmatch hroom => ?saved, fun hnone => ?none, fun hparser hempty => ?between⟩
  case saved =>
    have hrange := (matchInRange_iff _ _).1 hmatch
    obtain ⟨u, hu, hrec, honly, _⟩ := recordMatch_room hrange hroom
    obtain ⟨hpos, hsize, hdict⟩ := honly.block.cursors
    have hsome : s.savedMatchLen ≠ 0#9 := by
      intro h; rw [h] at hrange; exact absurd hrange.1 (by decide)
    have hrun : savedMatchFlush s = .ok (u.setSaved u.savedLit u.savedMatchDist 0#9) :=
      (if_neg hsome).trans (bind_ok.2 ⟨u, hu, rfl⟩)
    refine ⟨_, (ofRun_next _ _).2 hrun, honly.parser.trans (.setSaved u _ _ _),
      hrec.of_sameLz ⟨rfl, rfl, rfl, fun _ => rfl⟩, ⟨honly.savedPair.1, ?_, rfl⟩, hpos, hsize, hdict⟩
    exact congrArg BitVec.toNat honly.savedPair.2
  case none => exact congrArg ofRun (if_pos hnone)
  case between =>
    refine hparser.2.2.resolve_right fun ⟨_, _, _, _, hahead, _⟩ => ?_
    rw [hempty] at hahead
    exact absurd hahead (by decide)

/-! ## The step -/

/-- The test of R204 as the statement writes it. -/
theorem improved_iff {reject3Dist floor d l : Nat} :
    improved reject3Dist floor d l = true ↔ floor < l ∧ ¬ (l = Config.M ∧ reject3Dist ≤ d) := by
  rw [improved, Bool.and_eq_true, Bool.not_eq_true', Bool.and_eq_false_iff, decide_eq_true_iff, decide_eq_false_iff_not,
    decide_eq_false_iff_not, not_and_or]

/-- The row the statement names is the transition the model performs, where the pair fits its operands (R212). -/
theorem exec_transitionRow {d l : Nat} (hd : d < 2 ^ 16) (hl : l < 2 ^ 9) (s : State) :
    exec (transitionRow s d l) s =
      ofRun (parseTransition d l (improved s.params.reject3Dist (matchFloor s) d l) s) := by
  have hdist : (BitVec.ofNat 16 d).toNat = d := Nat.mod_eq_of_lt hd
  have hlen : (BitVec.ofNat 9 l).toNat = l := Nat.mod_eq_of_lt hl
  simp only [transitionRow, parseTransition, improved_iff, matchFloor]
  by_cases hidle : s.savedMatchLen = 0#9
  · simp only [if_pos hidle]
    split_ifs
    · rw [exec, execIdleCommit, hdist, hlen]
    · rw [exec, execIdleDefer, hdist, hlen]
    · rfl
  · simp only [if_neg hidle]
    split_ifs
    · rw [exec, execDeferredLongerLong, hdist, hlen]
    · rw [exec, execDeferredLongerShort, hdist, hlen]
    · rfl

/-- The finder's mark is in `prev`, which selects no row (R185, R212). -/
theorem exec_transitionRow_applyMark {d l : Nat} (hd : d < 2 ^ 16) (hl : l < 2 ^ 9) (m : Option Nat) (s : State) :
    exec (transitionRow s d l) (applyMark m s) =
      ofRun (parseTransition d l (improved s.params.reject3Dist (matchFloor s) d l) (applyMark m s)) := by
  have := exec_transitionRow hd hl (applyMark m s)
  rw [applyMark_only] at this ⊢
  exact this

/-- The finder's operands as `PARSE_STEP` passes them (R202, R203). -/
theorem parseStep_operands {s : State} (hdict : s.dictSize.toNat ≤ Config.W) :
    (BitVec.ofNat 16 (min s.dictSize.toNat (Config.W - s.lookaheadSize.toNat))).toNat = distanceBound s ∧
      (if s.savedMatchLen = 0#9 then 2#9 else s.savedMatchLen).toNat = matchFloor s := by
  constructor
  · simp only [Config.W] at hdict
    exact Nat.mod_eq_of_lt (by simp only [Config.W]; omega)
  · rw [matchFloor, apply_ite BitVec.toNat]; rfl

/-- A pair within the finder's bounds fits the operands of a row (R191, R202, R203). -/
theorem FoundOk.fits {s : State} {pos : Nat} {f : Found}
    (h : FoundOk s pos (distanceBound s) s.lookaheadSize.toNat 0 (matchFloor s) f) : f.dist < 2 ^ 16 ∧ f.len < 2 ^ 9 := by
  rcases h.1 with ⟨hd, hl⟩ | ⟨_, hd, _, hl, _⟩
  · refine ⟨by omega, ?_⟩
    rw [hl, matchFloor]
    split
    · decide
    · exact s.savedMatchLen.isLt
  · have hbound : distanceBound s ≤ s.dictSize.toNat := Nat.min_le_left _ _
    exact ⟨(hd.trans hbound).trans_lt s.dictSize.isLt, hl.trans_lt s.lookaheadSize.isLt⟩

/-- Settles O39: `parseStep_eq` with the finder's operands, then the row its pair selects. -/
theorem parseStepFollowsTheTransitionTable : Obligations.ParseStepFollowsTheTransitionTable := by
  intro s h1 hL hdict hsaved
  have hfloor : s.savedMatchLen = 0#9 ∨ 2 ≤ s.savedMatchLen.toNat := hsaved.imp_right (le_trans (by decide))
  obtain ⟨f, hstep, hfind, hfound⟩ := parseStep_eq s h1 hL hfloor
  obtain ⟨hbound, hleast⟩ := parseStep_operands hdict
  obtain ⟨hd, hl⟩ := hfound.fits
  refine ⟨(applyMark f.mark s).setResult (.found f.dist f.len), f.dist, f.len, ?asks, rfl, ?performs⟩
  case asks =>
    rw [exec, execFindMatch, hbound, hleast]
    exact (ofRun_next _ _).2 (bind_ok.2 ⟨_, hfind, rfl⟩)
  case performs =>
    have hrestored : { (applyMark f.mark s).setResult (.found f.dist f.len) with opResult := s.opResult } =
        applyMark f.mark s := by rw [applyMark_only]; rfl
    rw [hrestored, exec_transitionRow_applyMark hd hl, exec, execParseStep, hstep]

end Sys2Proof.Machine
end

section
/-! PROOFS. `REV` and `HUFF_DEPTHS` performed by themselves (spec/44_huffman_builder.md R240, R245, R246, R252). -/

namespace Sys2Proof.Machine

/-- Settles O53: the reversal of the model, on the code's number. -/
theorem revReversesTheBits : Obligations.RevReversesTheBits := by
  intro c n s
  obtain ⟨hfits, hbits⟩ := rev_spec n.toNat c.toNat
  exact ⟨rev c.toNat n.toNat, rfl, hfits, hbits⟩

/-! ## The length of the array of R246 -/

theorem firstChild_length (n node : Nat) (t : TreeScan) : (firstChild n node t).a.length = t.a.length := by
  rw [firstChild]
  split_ifs <;> simp only [List.length_set]

theorem secondChild_length (n node : Nat) (t : TreeScan) : (secondChild n node t).a.length = t.a.length := by
  rw [secondChild]
  split_ifs <;> simp only [List.length_set]

theorem buildTree_length (n steps node : Nat) (t : TreeScan) : (buildTree n steps node t).a.length = t.a.length := by
  induction steps generalizing node t with
  | zero => rfl
  | succ k ih => rw [buildTree, ih, secondChild_length, firstChild_length]

theorem internalDepths_length (k : Nat) (a : List Nat) : (internalDepths k a).length = a.length := by
  induction k generalizing a with
  | zero => rfl
  | succ k ih => rw [internalDepths, ih, List.length_set]

theorem fillLeaves_length (depth k next : Nat) (a : List Nat) : (fillLeaves depth k next a).length = a.length := by
  induction k generalizing next a with
  | zero => rfl
  | succ k ih => rw [fillLeaves, ih, List.length_set]

theorem leafDepths_length (turns avbl depth root next : Nat) (a : List Nat) :
    (leafDepths turns avbl depth root next a).length = a.length := by
  induction turns generalizing avbl depth root next a with
  | zero => rfl
  | succ t ih =>
    rw [leafDepths]
    split
    · rfl
    · rw [ih, fillLeaves_length]

/-- There is one depth for each key (R246). -/
theorem moffatKatajainen_length (keys : List Nat) : (moffatKatajainen keys).length = keys.length := by
  match keys with
  | [] => rfl
  | [_] => rfl
  | k0 :: k1 :: rest =>
    rw [moffatKatajainen, leafDepths_length, internalDepths_length, List.length_set, buildTree_length]
    rfl

/-! ## Depths in place of keys -/

/-- The first `n` elements with their depths, as numbers (R240). -/
theorem storeDepths_keys {live : List SymKey} {depths : List Nat} (hlen : depths.length = live.length)
    (hfit : ∀ d ∈ depths, d ≤ Config.MAX_HUFF_LEN) : (storeDepths live depths).map (fun p => p.key.toNat) = depths := by
  induction live generalizing depths with
  | nil => rw [List.length_eq_zero_iff.1 hlen]; rfl
  | cons p live ih =>
    cases depths with
    | nil => simp at hlen
    | cons d depths =>
      have hd : d ≤ 32 := hfit d (List.mem_cons_self ..)
      have hkey : (BitVec.ofNat 16 d).toNat = d := by rw [BitVec.toNat_ofNat, Nat.mod_eq_of_lt (by omega)]
      rw [storeDepths, List.zipWith_cons_cons, List.map_cons, hkey]
      exact congrArg _ (ih (Nat.succ.inj hlen) fun e he => hfit e (List.mem_cons_of_mem _ he))

theorem storeDepths_length {live : List SymKey} {depths : List Nat} (hlen : depths.length = live.length) :
    (storeDepths live depths).length = live.length := by
  rw [storeDepths, List.length_zipWith, hlen, Nat.min_self]

theorem storeDepths_syms {live : List SymKey} {depths : List Nat} (hlen : depths.length = live.length) :
    (storeDepths live depths).map (fun p => p.sym) = live.map (fun p => p.sym) := by
  rw [storeDepths, List.map_zipWith]
  refine List.ext_getElem ?_ fun i h1 h2 => ?_
  · rw [List.length_zipWith, List.length_map, hlen, Nat.min_self]
  · rw [List.getElem_zipWith, List.getElem_map]

/-- The sorted array after `HUFF_DEPTHS` has written its first `n` elements. -/
def withDepths (n : Nat) (depths : List Nat) (s : State) : List SymKey :=
  overlay (storeDepths (s.syms.take n) depths) s.syms

section
variable {n : Nat} {depths : List Nat} {s : State}

theorem withDepths_eq (hn : n ≤ s.syms.length) (hlen : depths.length = n) :
    withDepths n depths s = storeDepths (s.syms.take n) depths ++ s.syms.drop n ∧
      (storeDepths (s.syms.take n) depths).length = n := by
  have htake : (s.syms.take n).length = n := List.length_take_of_le hn
  have hstored : (storeDepths (s.syms.take n) depths).length = n :=
    (storeDepths_length (hlen.trans htake.symm)).trans htake
  rw [withDepths, overlay, hstored]
  exact ⟨rfl, rfl⟩

theorem withDepths_length (hn : n ≤ s.syms.length) (hlen : depths.length = n) :
    (withDepths n depths s).length = s.syms.length := by
  obtain ⟨heq, hstored⟩ := withDepths_eq hn hlen
  rw [heq, List.length_append, hstored, List.length_drop]
  omega

theorem withDepths_syms (hn : n ≤ s.syms.length) (hlen : depths.length = n) :
    (withDepths n depths s).map (fun p => p.sym) = s.syms.map (fun p => p.sym) := by
  rw [(withDepths_eq hn hlen).1, List.map_append, storeDepths_syms (hlen.trans (List.length_take_of_le hn).symm),
    ← List.map_append, List.take_append_drop]

theorem withDepths_drop (hn : n ≤ s.syms.length) (hlen : depths.length = n) :
    (withDepths n depths s).drop n = s.syms.drop n := by
  obtain ⟨heq, hstored⟩ := withDepths_eq hn hlen
  rw [heq]
  exact List.drop_left' hstored

theorem withDepths_keys (hn : n ≤ s.syms.length) (hlen : depths.length = n)
    (hfit : ∀ d ∈ depths, d ≤ Config.MAX_HUFF_LEN) :
    ((withDepths n depths s).take n).map (fun p => p.key.toNat) = depths := by
  obtain ⟨heq, hstored⟩ := withDepths_eq hn hlen
  rw [heq, List.take_left' hstored, storeDepths_keys (hlen.trans (List.length_take_of_le hn).symm) hfit]

end

/-- The keys `HUFF_DEPTHS` is given: those of the first `n` elements (R240, R246). -/
def keysOf (n : Nat) (s : State) : List Nat := (s.syms.take n).map fun p => p.key.toNat

theorem keysOf_length {n : Nat} {s : State} (hn : n ≤ s.syms.length) : (keysOf n s).length = n := by
  rw [keysOf, List.length_map, List.length_take_of_le hn]

/-- `HUFF_DEPTHS` runs where there are `n` elements and the algorithm yields depths; it writes them in place
(R10, R246). -/
theorem exec_huffDepths {n : BitVec 9} {s t : State} :
    exec (.huffDepths n) s = .next t ↔ n.toNat ≤ 288 ∧ ∃ depths, huffDepths s.params.depths (keysOf n.toNat s) = .ok depths ∧
      t = { s with syms := withDepths n.toNat depths s } := by
  change execHuffDepths n s = .next t ↔ _
  rw [execHuffDepths]
  split_ifs with hover
  · change 288 < n.toNat at hover
    exact ⟨nofun, fun h => absurd h.1 (by omega)⟩
  · change ¬ 288 < n.toNat at hover
    rw [ofRun_next, bind_ok]
    refine ⟨fun ⟨depths, hrun, h⟩ => ⟨by omega, depths, hrun, ((pure_ok _ _).1 h).symm⟩, fun ⟨_, depths, hrun, h⟩ => ?_⟩
    exact ⟨depths, hrun, (pure_ok _ _).2 h.symm⟩

/-- Settles O54: one depth for each key is stored over the first `n` keys; the fault is the test of the row. -/
theorem huffDepthsInPlace : Obligations.HuffDepthsInPlace := by
  intro n s
  refine ⟨fun hn halg h288 hfit => ?_, fun hover => if_pos hover⟩
  have hle : n.toNat ≤ s.syms.length := by omega
  have hlen : (moffatKatajainen (keysOf n.toNat s)).length = n.toNat := by
    rw [moffatKatajainen_length, keysOf_length hle]
  have hrun : huffDepths s.params.depths (keysOf n.toNat s) = .ok (moffatKatajainen (keysOf n.toNat s)) := by
    rw [halg]
    exact if_pos (List.all_eq_true.2 fun d hd => decide_eq_true (hfit d hd))
  have hkeys := withDepths_keys hle hlen hfit
  refine ⟨_, exec_huffDepths.2 ⟨hn, _, hrun, rfl⟩, rfl, withDepths_length hle hlen, withDepths_syms hle hlen,
    withDepths_drop hle hlen, hkeys, fun h1 => ?_⟩
  obtain ⟨k, hk⟩ := List.length_eq_one_iff.1 ((keysOf_length hle).trans h1)
  rw [hk] at hkeys ⊢
  have hpos := withDepths_length hle (hk ▸ hlen)
  match hw : withDepths n.toNat (moffatKatajainen [k]) s with
  | [] => rw [hw] at hpos; simp only [List.length_nil] at hpos; omega
  | p :: ps =>
    rw [hw, h1] at hkeys
    have hkey : p.key.toNat = 1 := List.head_eq_of_cons_eq hkeys
    exact ⟨p, rfl, BitVec.eq_of_toNat_eq hkey⟩

end Sys2Proof.Machine
end

section
/-! PROOFS. The depths of R246 are those of a full binary tree, whatever the keys (spec/44_huffman_builder.md R246, R258).
The idea: phase 1 hands out parents in ascending order, at most two children each, so in phase 2 the depths of the
internal nodes never grow along the array and each level has at most twice the nodes of the level above; phase 3 turns
the places of a level that no internal node takes into leaves, which keeps the Kraft sum. -/

namespace Sys2Proof.Machine

/-! ## Phase 1: parents -/

/-- The first `root` entries of `a` are parents below `node`: each stands behind its child, they never shrink, and none is
shared by three nodes (R246, phase 1). -/
structure Parents (root node : Nat) (a : List Nat) : Prop where
  behind : ∀ i, i < root → i < a.getD i 0
  below : ∀ i, i < root → a.getD i 0 < node
  ascending : ∀ i, i + 1 < root → a.getD i 0 ≤ a.getD (i + 1) 0
  noThird : ∀ i, i + 2 < root → a.getD i 0 < a.getD (i + 2) 0

section
variable {n node root : Nat} {a : List Nat} {t : TreeScan}

theorem Parents.write (h : Parents root node a) {j : Nat} (v : Nat) (hj : j < a.length) (hroot : root ≤ j) :
    Parents root node (a.set j v) := by
  have hread : ∀ i, i < root → (a.set j v).getD i 0 = a.getD i 0 := fun i hi => by
    rw [getD_set a j i v hj, if_neg (by omega)]
  refine ⟨fun i hi => ?_, fun i hi => ?_, fun i hi => ?_, fun i hi => ?_⟩
  · rw [hread i hi]; exact h.behind i hi
  · rw [hread i hi]; exact h.below i hi
  · rw [hread i (by omega), hread _ hi]; exact h.ascending i hi
  · rw [hread i (by omega), hread _ hi]; exact h.noThird i hi

/-- The next node takes `node` as its parent, which has at most one child yet. -/
theorem Parents.attach (h : Parents root (node + 1) a) (hlen : root < a.length) (hroot : root < node)
    (hfree : ∀ i, i + 2 = root → a.getD i 0 < node) : Parents (root + 1) (node + 1) (a.set root node) := by
  have hread : ∀ i, (a.set root node).getD i 0 = if root = i then node else a.getD i 0 := fun i =>
    getD_set a root i node hlen
  refine ⟨fun i hi => ?_, fun i hi => ?_, fun i hi => ?_, fun i hi => ?_⟩
  · rw [hread]
    split_ifs with heq
    · omega
    · exact h.behind i (by omega)
  · rw [hread]
    split_ifs with heq
    · omega
    · exact h.below i (by omega)
  · rw [hread, hread, if_neg (by omega)]
    have := h.below i (by omega)
    split_ifs with heq
    · omega
    · exact h.ascending i (by omega)
  · rw [hread, hread, if_neg (by omega)]
    split_ifs with heq
    · exact hfree i heq.symm
    · exact h.noThird i (by omega)

/-- The array in phase 1 of R246, before `node` is made: every node before it has taken two of the leaves and nodes. -/
structure Scanned (n node : Nat) (t : TreeScan) : Prop where
  length : t.a.length = n
  leaf_le : t.leaf ≤ n
  taken : t.root + t.leaf = 2 * node
  root_lt : t.root < node
  parents : Parents t.root node t.a

/-- The same when `node` has its first child. -/
structure HalfScanned (n node : Nat) (t : TreeScan) : Prop where
  length : t.a.length = n
  leaf_le : t.leaf ≤ n
  taken : t.root + t.leaf = 2 * node + 1
  root_le : t.root ≤ node
  parents : Parents t.root (node + 1) t.a
  oneChild : ∀ i, i + 2 = t.root → t.a.getD i 0 < node

theorem Scanned.firstChild (h : Scanned n node t) (hnode : node + 2 ≤ n) : HalfScanned n node (firstChild n node t) := by
  obtain ⟨hlen, hleaf, htaken, hroot, hpar⟩ := h
  have hset : ∀ v, Parents t.root node (t.a.set node v) := fun v => hpar.write v (by omega) (Nat.le_of_lt hroot)
  have hwide : ∀ v, Parents t.root (node + 1) (t.a.set node v) := fun v =>
    { hset v with below := fun i hi => Nat.lt_succ_of_lt ((hset v).below i hi) }
  rw [Machine.firstChild]
  split_ifs with hcase
  · refine ⟨by simpa using hlen, hleaf, ?_, hroot, (hwide _).attach (by rw [List.length_set]; omega) hroot fun i hi =>
      (hset _).below i (by omega), fun i hi => ?_⟩
    · simp only; omega
    · simp only at hi ⊢
      rw [getD_set _ _ _ _ (by rw [List.length_set]; omega), if_neg (by omega)]
      exact (hset _).below i (by omega)
  · refine ⟨by simpa using hlen, ?_, ?_, Nat.le_of_lt hroot, hwide _, fun i hi => (hset _).below i ?_⟩
    · simp only; omega
    · simp only; omega
    · simp only at hi; omega

theorem HalfScanned.secondChild (h : HalfScanned n node t) (hnode : node + 2 ≤ n) :
    Scanned n (node + 1) (secondChild n node t) := by
  obtain ⟨hlen, hleaf, htaken, hroot, hpar, hone⟩ := h
  have hset : ∀ v, Parents t.root (node + 1) (t.a.set node v) := fun v => hpar.write v (by omega) hroot
  rw [Machine.secondChild]
  split_ifs with hcase
  · have hroot : t.root < node := by
      rcases hcase with hleaves | ⟨hlt, _⟩
      · omega
      · exact hlt
    refine ⟨by simpa using hlen, hleaf, ?_, ?_, (hset _).attach (by rw [List.length_set]; omega) hroot fun i hi => ?_⟩
    · simp only; omega
    · simp only; omega
    · rw [getD_set _ _ _ _ (by omega), if_neg (by omega)]
      exact hone i hi
  · refine ⟨by simpa using hlen, ?_, ?_, Nat.lt_succ_of_le hroot, hset _⟩
    · simp only; omega
    · simp only; omega

theorem Scanned.buildTree {steps : Nat} (h : Scanned n node t) (hn : node + steps + 1 = n) :
    Scanned n (node + steps) (buildTree n steps node t) := by
  induction steps generalizing node t with
  | zero => exact h
  | succ k ih =>
    rw [Machine.buildTree, show node + (k + 1) = node + 1 + k by omega]
    exact ih ((h.firstChild (by omega)).secondChild (by omega)) (by omega)

/-- When the last node is made, every other node has its parent. -/
theorem Scanned.allParents {m : Nat} (h : Scanned (m + 2) (m + 1) t) : Parents m (m + 1) t.a := by
  obtain ⟨_, hleaf, htaken, hroot, hpar⟩ := h
  rwa [show t.root = m by omega] at hpar

end

/-! ## Phase 2: the depths of the internal nodes -/

/-- From the last parent down, every entry becomes the depth behind its parent; the entries from `k` on stay (R246, phase
2). -/
theorem internalDepths_reads {k : Nat} {a : List Nat} (hk : k ≤ a.length) (hbehind : ∀ i, i < k → i < a.getD i 0) :
    (∀ i, k ≤ i → (internalDepths k a).getD i 0 = a.getD i 0) ∧
      ∀ i, i < k → (internalDepths k a).getD i 0 = (internalDepths k a).getD (a.getD i 0) 0 + 1 := by
  induction k generalizing a with
  | zero => exact ⟨fun i _ => rfl, fun i hi => absurd hi (Nat.not_lt_zero i)⟩
  | succ k ih =>
    have hset : ∀ i, (a.set k (a.getD (a.getD k 0) 0 + 1)).getD i 0 =
        if k = i then a.getD (a.getD k 0) 0 + 1 else a.getD i 0 := fun i => getD_set a k i _ hk
    have hother : ∀ i, k ≠ i → (a.set k (a.getD (a.getD k 0) 0 + 1)).getD i 0 = a.getD i 0 := fun i hi => by
      rw [hset, if_neg hi]
    obtain ⟨hstay, hdepth⟩ := ih (a := a.set k (a.getD (a.getD k 0) 0 + 1)) (by rw [List.length_set]; omega)
      fun i hi => by rw [hother i (by omega)]; exact hbehind i (by omega)
    have hkp := hbehind k (by omega)
    rw [internalDepths]
    refine ⟨fun i hi => ?_, fun i hi => ?_⟩
    · rw [hstay i (by omega), hother i (by omega)]
    · by_cases hik : i = k
      · subst hik
        rw [hstay i (Nat.le_refl i), hset, if_pos rfl, hstay _ (Nat.le_of_lt hkp), hother _ (by omega)]
      · rw [hdepth i (by omega), hother i (Ne.symm hik)]

/-! ## Levels -/

/-- How many of the first `m` nodes have depth `d`. -/
def levelCount (m : Nat) (b : Nat → Nat) (d : Nat) : Nat := ((Finset.range m).filter fun i => b i = d).card

/-- The depths `b` of `m` internal nodes, the root last: they never grow, skip no level, and a level has at most twice the
nodes of the level above (R246). -/
structure Levels (m : Nat) (b : Nat → Nat) : Prop where
  antitone : ∀ i j, i ≤ j → j < m → b j ≤ b i
  noGap : ∀ i, i + 1 < m → b i ≤ b (i + 1) + 1
  last : ∀ i, i + 1 = m → b i = 0
  oneRoot : levelCount m b 0 ≤ 1
  double : ∀ d, levelCount m b (d + 1) ≤ 2 * levelCount m b d

/-- Where no entry from `low` on is greater than the one before it, later entries are no greater than earlier ones. -/
theorem le_of_never_grows {f : Nat → Nat} {low m : Nat} (h : ∀ i, low ≤ i → i + 1 < m → f (i + 1) ≤ f i) {i j : Nat}
    (hlow : low ≤ i) (hij : i ≤ j) (hj : j < m) : f j ≤ f i := by
  induction j, hij using Nat.le_induction with
  | base => exact Nat.le_refl _
  | succ j hij ih => exact Nat.le_trans (h j (by omega) hj) (ih (by omega))

section
variable {m node : Nat} {a : List Nat} {b : Nat → Nat}

theorem Parents.mono (h : Parents m node a) {i j : Nat} (hij : i ≤ j) (hj : j < m) : a.getD i 0 ≤ a.getD j 0 := by
  induction j, hij using Nat.le_induction with
  | base => exact Nat.le_refl _
  | succ j _ ih => exact Nat.le_trans (ih (by omega)) (h.ascending j hj)

/-- At most two nodes have the same parent. -/
theorem Parents.children_le_two (h : Parents m node a) (v : Nat) {s : Finset ℕ} (hs : ∀ i ∈ s, i < m ∧ a.getD i 0 = v) :
    s.card ≤ 2 := by
  rcases s.eq_empty_or_nonempty with rfl | hne
  · exact Nat.zero_le _
  refine Nat.le_trans (Finset.card_le_card (t := {s.min' hne, s.min' hne + 1}) fun i hi => ?_) Finset.card_le_two
  have hmin := s.min'_le i hi
  obtain ⟨him, hiv⟩ := hs i hi
  obtain ⟨_, hfirst⟩ := hs _ (s.min'_mem hne)
  by_contra hfar
  simp only [Finset.mem_insert, Finset.mem_singleton, not_or] at hfar
  have hthird := h.noThird (s.min' hne) (by omega)
  have hmono := h.mono (i := s.min' hne + 2) (j := i) (by omega) him
  omega

/-- Depths that count one more than the parent's never grow (R246, phase 2): by the order of the parents, from the root
down. -/
theorem Parents.depth_antitone (h : Parents m (m + 1) a) (hroot : b m = 0) (hdepth : ∀ i, i < m → b i = b (a.getD i 0) + 1)
    (k : Nat) : ∀ i, m ≤ i + k → i < m → b (i + 1) ≤ b i := by
  induction k with
  | zero => omega
  | succ k ih =>
    intro i hk hi
    by_cases hlast : i + 1 = m
    · rw [hlast, hroot]; exact Nat.zero_le _
    · have hbehind := h.behind i hi
      have hbelow := h.below (i + 1) (by omega)
      rw [hdepth i hi, hdepth (i + 1) (by omega)]
      exact Nat.succ_le_succ (le_of_never_grows (low := i + 1) (m := m + 1) (fun x hx hm => ih x (by omega) (by omega)) hbehind
        (h.ascending i (by omega)) hbelow)

/-- Depths that count one more than the parent's are levels (R246, phase 2). -/
theorem Parents.levels (h : Parents m (m + 1) a) (hroot : b m = 0) (hdepth : ∀ i, i < m → b i = b (a.getD i 0) + 1) :
    Levels (m + 1) b := by
  have hanti : ∀ i j, i ≤ j → j < m + 1 → b j ≤ b i := fun i j hij hj =>
    le_of_never_grows (fun x _ hx => h.depth_antitone hroot hdepth m x (by omega) (by omega)) (Nat.zero_le i) hij hj
  have hnonroot : ∀ i d, i ∈ (Finset.range (m + 1)).filter (fun i => b i = d + 1) → i < m ∧ b i = d + 1 := by
    intro i d hi
    obtain ⟨him, hid⟩ := Finset.mem_filter.1 hi
    have him := Finset.mem_range.1 him
    refine ⟨?_, hid⟩
    by_contra hge
    rw [show i = m by omega, hroot] at hid
    omega
  refine ⟨hanti, fun i hi => ?_, fun i hi => ?_, ?_, fun d => ?_⟩
  · rw [hdepth i (by omega)]
    exact Nat.succ_le_succ (hanti _ _ (h.behind i (by omega)) (h.below i (by omega)))
  · rw [show i = m by omega, hroot]
  · refine Nat.le_trans (Finset.card_le_card (t := {m}) fun i hi => ?_) (Nat.le_of_eq (Finset.card_singleton m))
    obtain ⟨him, hi0⟩ := Finset.mem_filter.1 hi
    have him := Finset.mem_range.1 him
    rw [Finset.mem_singleton]
    by_contra hne
    have := hdepth i (by omega)
    omega
  · refine Finset.card_le_mul_card_image_of_maps_to (f := fun i => a.getD i 0) (fun i hi => ?_) 2 fun v _ => ?_
    · obtain ⟨hlt, hid⟩ := hnonroot i d hi
      have := hdepth i hlt
      exact Finset.mem_filter.2 ⟨Finset.mem_range.2 (h.below i hlt), by omega⟩
    · refine h.children_le_two v fun i hi => ?_
      obtain ⟨hi, hiv⟩ := Finset.mem_filter.1 hi
      exact ⟨(hnonroot i d hi).1, hiv⟩

/-- After phases 1 and 2 the array begins with the depths of the internal nodes (R246). -/
theorem internalDepths_levels (hlen : m < a.length) (h : Parents m (m + 1) a) :
    Levels (m + 1) fun i => (internalDepths m (a.set m 0)).getD i 0 := by
  have h' := h.write 0 hlen (Nat.le_refl m)
  obtain ⟨hstay, hdepth⟩ := internalDepths_reads (by rw [List.length_set]; omega) h'.behind
  refine h'.levels ?_ hdepth
  rw [hstay m (Nat.le_refl m), getD_set _ _ _ _ hlen, if_pos rfl]

end

/-! ## Phase 3: the depths of the leaves -/

theorem fillLeaves_eq (depth : Nat) {k next : Nat} {a : List Nat} (hk : k ≤ next) (hnext : next ≤ a.length) :
    fillLeaves depth k next a = a.take (next - k) ++ (List.replicate k depth ++ a.drop next) := by
  induction k generalizing next a with
  | zero => exact (List.take_append_drop next a).symm
  | succ k ih =>
    obtain ⟨j, rfl⟩ : ∃ j, next = j + 1 := ⟨next - 1, by omega⟩
    have hdrop : (a.set j depth).drop j = depth :: a.drop (j + 1) := by
      rw [List.drop_eq_getElem_cons (by rw [List.length_set]; omega), List.getElem_set_self,
        List.drop_set_of_lt (Nat.lt_succ_self j)]
    rw [fillLeaves, Nat.add_sub_cancel, ih (by omega) (by rw [List.length_set]; omega), hdrop,
      List.take_set_of_le (by omega), Nat.add_sub_add_right, List.replicate_succ', List.append_assoc,
      List.singleton_append]

/-- What `countAtDepth` counts: the entries below `root` down to the first other one (R246, phase 3). -/
theorem countAtDepth_spec (a : List Nat) (depth root : Nat) :
    countAtDepth a depth root ≤ root ∧
      (∀ i, root - countAtDepth a depth root ≤ i → i < root → a.getD i 0 = depth) ∧
      ∀ i, i + 1 = root - countAtDepth a depth root → a.getD i 0 ≠ depth := by
  induction root with
  | zero => exact ⟨Nat.le_refl _, fun i _ hi => absurd hi (Nat.not_lt_zero i), fun i hi => by omega⟩
  | succ r ih =>
    obtain ⟨hle, hin, hout⟩ := ih
    rw [countAtDepth]
    split_ifs with hr
    · rw [Nat.add_sub_add_right]
      refine ⟨Nat.succ_le_succ hle, fun i hlow hi => ?_, hout⟩
      by_cases hir : i = r
      · rw [hir, hr]
      · exact hin i hlow (by omega)
    · exact ⟨Nat.zero_le _, fun i hlow hi => by omega, fun i hi => by rwa [show i = r by omega]⟩

/-- Before a turn of phase 3 (R246): the first `root` entries are the internal nodes from `depth` on, the leaves to come
fill the first `next` entries, and the level has `avbl` places, enough for its internal nodes. -/
structure LeafTurn (m : Nat) (b : Nat → Nat) (avbl depth root next : Nat) (a : List Nat) : Prop where
  root_le : root ≤ m
  deeper : ∀ i, i < m → (i < root ↔ depth ≤ b i)
  kept : ∀ i, i < root → a.getD i 0 = b i
  places : levelCount m b depth ≤ avbl
  next_eq : next = root + avbl
  next_le : next ≤ a.length

section
variable {m avbl depth root next : Nat} {b : Nat → Nat} {a : List Nat}

/-- Above the nodes a turn counts there are the deeper ones (R246, phase 3). -/
theorem LeafTurn.deeper_iff (h : LeafTurn m b avbl depth root next a) (hl : Levels m b) {i : Nat} (hi : i < m) :
    i < root - countAtDepth a depth root ↔ depth + 1 ≤ b i := by
  obtain ⟨_, hin, hout⟩ := countAtDepth_spec a depth root
  generalize countAtDepth a depth root = used at *
  have hroot := h.root_le
  constructor
  · intro hlt
    have hne := hout (root - used - 1) (by omega)
    rw [h.kept _ (by omega)] at hne
    have hge := (h.deeper (root - used - 1) (by omega)).1 (by omega)
    have := hl.antitone i (root - used - 1) (by omega) (by omega)
    omega
  · intro hdeep
    have hir := (h.deeper i hi).2 (by omega)
    by_contra hge
    have := hin i (by omega) hir
    rw [h.kept i hir] at this
    omega

/-- A turn counts the internal nodes of its level. -/
theorem LeafTurn.count_eq (h : LeafTurn m b avbl depth root next a) (hl : Levels m b) :
    countAtDepth a depth root = levelCount m b depth := by
  obtain ⟨hle, _⟩ := countAtDepth_spec a depth root
  have hroot := h.root_le
  have hlevel : (Finset.range m).filter (fun i => b i = depth) = Finset.Ico (root - countAtDepth a depth root) root := by
    ext i
    rw [Finset.mem_filter, Finset.mem_range, Finset.mem_Ico]
    constructor
    · rintro ⟨hi, hd⟩
      have := h.deeper_iff hl hi
      have := h.deeper i hi
      omega
    · rintro ⟨hlow, hhigh⟩
      have hi : i < m := by omega
      have := h.deeper_iff hl hi
      have := h.deeper i hi
      omega
  rw [levelCount, hlevel, Nat.card_Ico]
  omega

theorem LeafTurn.count_le (h : LeafTurn m b avbl depth root next a) (hl : Levels m b) : levelCount m b depth ≤ root := by
  rw [← h.count_eq hl]
  exact (countAtDepth_spec a depth root).1

/-- While there are internal nodes, the level has one: no level is skipped. -/
theorem LeafTurn.level_nonempty (h : LeafTurn m b avbl depth root next a) (hl : Levels m b) (h0 : root ≠ 0) :
    levelCount m b depth ≠ 0 := by
  intro hnone
  have hroot := h.root_le
  have hdeep := h.deeper_iff hl (i := root - 1) (by omega)
  rw [h.count_eq hl, hnone] at hdeep
  by_cases hlast : root = m
  · have := hl.last (root - 1) (by omega)
    omega
  · have hgap := hl.noGap (root - 1) (by omega)
    have hnext := h.deeper root (by omega)
    rw [show root - 1 + 1 = root by omega] at hgap
    omega

/-- Without places there are no leaves to come. -/
theorem LeafTurn.allPlaced (h : LeafTurn m b 0 depth root next a) (hl : Levels m b) : next = 0 := by
  rw [h.next_eq, Nat.add_zero]
  by_contra hne
  exact h.level_nonempty hl hne (Nat.le_zero.1 h.places)

/-- A turn leads to the next: the places that no internal node takes are leaves, each internal node gives two places
(R246, phase 3). -/
theorem LeafTurn.turn (h : LeafTurn m b avbl depth root next a) (hl : Levels m b) :
    LeafTurn m b (2 * levelCount m b depth) (depth + 1) (root - levelCount m b depth)
      (next - (avbl - levelCount m b depth)) (fillLeaves depth (avbl - levelCount m b depth) next a) := by
  have hle := h.count_le hl
  have hsplit : ∀ i, i < m → (i < root - levelCount m b depth ↔ depth + 1 ≤ b i) := fun i hi =>
    h.count_eq hl ▸ h.deeper_iff hl hi
  obtain ⟨hroot, _, hkept, hplaces, hnext, hlen⟩ := h
  refine ⟨by omega, hsplit, fun i hi => ?_, hl.double depth, by omega, ?_⟩
  · rw [← hkept i (by omega), fillLeaves_eq depth (by omega) hlen, List.getD_append _ _ _ _ (by
      rw [List.length_take]; omega), List.getD_eq_getElem?_getD, List.getD_eq_getElem?_getD,
      List.getElem?_take_of_lt (by omega)]
  · rw [fillLeaves_length]
    omega

/-- Leaves of the level `depth` and deeper, deepest first, that use up `avbl` places of that level (R246, R258). -/
structure LeavesFrom (depth avbl : Nat) (leaves : List Nat) : Prop where
  deep : ∀ d ∈ leaves, depth ≤ d
  ordered : leaves.Pairwise (· ≥ ·)
  kraft : ∀ most, (∀ d ∈ leaves, d ≤ most) → (leaves.map fun d => 2 ^ (most - d)).sum = avbl * 2 ^ (most - depth)

theorem LeavesFrom.none (depth : Nat) : LeavesFrom depth 0 [] := ⟨by simp, .nil, fun _ _ => by simp⟩

/-- The leaves below the `used` internal nodes of a level, with the leaves of the level itself. -/
theorem LeavesFrom.addLevel {used : Nat} {leaves : List Nat} (h : LeavesFrom (depth + 1) (2 * used) leaves)
    (hused : used ≤ avbl) : LeavesFrom depth avbl (leaves ++ List.replicate (avbl - used) depth) := by
  obtain ⟨hdeep, hordered, hkraft⟩ := h
  refine ⟨fun d hd => ?_, List.pairwise_append.2 ⟨hordered, List.pairwise_replicate.2 (.inr (Nat.le_refl _)), ?_⟩,
    fun most hmost => ?_⟩
  · rcases List.mem_append.1 hd with hd | hd
    · exact Nat.le_of_succ_le (hdeep d hd)
    · exact Nat.le_of_eq (List.eq_of_mem_replicate hd).symm
  · intro d hd e he
    rw [List.eq_of_mem_replicate he]
    exact Nat.le_of_succ_le (hdeep d hd)
  · have hbelow := hkraft most fun d hd => hmost d (List.mem_append_left _ hd)
    have hscale : 2 * used * 2 ^ (most - (depth + 1)) = used * 2 ^ (most - depth) := by
      cases leaves with
      | nil =>
        have hnone : used = 0 := by simpa using hbelow.symm
        rw [hnone, Nat.mul_zero, Nat.zero_mul, Nat.zero_mul]
      | cons d leaves =>
        have h1 := hdeep d (List.mem_cons_self ..)
        have h2 := hmost d (List.mem_append_left _ (List.mem_cons_self ..))
        rw [show most - depth = most - (depth + 1) + 1 by omega, Nat.pow_succ]
        ring
    rw [List.map_append, List.sum_append, hbelow, hscale, List.map_replicate, List.sum_replicate, smul_eq_mul, ← Nat.add_mul,
      Nat.add_sub_cancel' hused]

/-- Phase 3 fills the entries below `next` with leaves that use up the places of its level (R246, R258). -/
theorem leafDepths_leaves {turns : Nat} (hl : Levels m b) (h : LeafTurn m b avbl depth root next a)
    (hturns : avbl = 0 ∨ root + 1 ≤ turns) :
    ∃ leaves, leafDepths turns avbl depth root next a = leaves ++ a.drop next ∧ leaves.length = next ∧
      LeavesFrom depth avbl leaves := by
  induction turns generalizing avbl depth root next a with
  | zero =>
    obtain rfl : avbl = 0 := by omega
    have hnext := h.allPlaced hl
    exact ⟨[], by rw [hnext]; rfl, hnext.symm, .none depth⟩
  | succ t ih =>
    rw [leafDepths]
    split_ifs with h0
    · subst h0
      have hnext := h.allPlaced hl
      exact ⟨[], by rw [hnext]; rfl, hnext.symm, .none depth⟩
    have hcount := h.count_eq hl
    have hle := h.count_le hl
    have hsome := h.level_nonempty hl
    have hplaces := h.places
    have hnext := h.next_eq
    have hlen := h.next_le
    obtain ⟨leaves, hrun, hlength, hleaves⟩ := ih (h.turn hl) (by omega)
    refine ⟨leaves ++ List.replicate (avbl - levelCount m b depth) depth, ?_, ?_, hleaves.addLevel hplaces⟩
    · simp only [hcount]
      rw [hrun, fillLeaves_eq depth (by omega) hlen, List.drop_left' (by rw [List.length_take]; omega), List.append_assoc]
    · rw [List.length_append, hlength, List.length_replicate]
      omega

end

/-! ## The algorithm -/

theorem nonIncreasing_iff (l : List Nat) : nonIncreasing l = true ↔ l.Pairwise (· ≥ ·) := by
  induction l with
  | nil => simp [nonIncreasing]
  | cons a l ih =>
    cases l with
    | nil => simp [nonIncreasing]
    | cons b l =>
      rw [nonIncreasing, Bool.and_eq_true, decide_eq_true_eq, ih, List.pairwise_cons (a := a)]
      refine ⟨fun ⟨hba, hl⟩ => ⟨fun c hc => ?_, hl⟩, fun ⟨ha, hl⟩ => ⟨ha b (List.mem_cons_self ..), hl⟩⟩
      rcases List.mem_cons.1 hc with rfl | hc
      · exact hba
      · exact Nat.le_trans (List.rel_of_pairwise_cons hl hc) hba

/-- On two keys and more the depths are the leaves of a full tree, below its root (R246, R258). -/
theorem moffatKatajainen_leaves (k0 k1 : Nat) (rest : List Nat) :
    LeavesFrom 1 2 (moffatKatajainen (k0 :: k1 :: rest)) := by
  have hstart : Scanned (rest.length + 2) 1 { a := (k0 + k1) :: k1 :: rest, root := 0, leaf := 2 } :=
    ⟨rfl, by simp, rfl, Nat.one_pos, ⟨nofun, nofun, nofun, nofun⟩⟩
  have htree := hstart.buildTree (steps := rest.length) (by omega)
  rw [Nat.add_comm 1] at htree
  have hlevels := internalDepths_levels (by rw [htree.length]; omega) htree.allParents
  rw [moffatKatajainen]
  simp only [Nat.add_sub_cancel]
  have hlen : (internalDepths rest.length ((buildTree (rest.length + 2) rest.length 1
      { a := (k0 + k1) :: k1 :: rest, root := 0, leaf := 2 }).a.set rest.length 0)).length = rest.length + 2 := by
    rw [internalDepths_length, List.length_set, htree.length]
  generalize internalDepths rest.length _ = inner at hlevels hlen ⊢
  have hroot : LeafTurn (rest.length + 1) (fun i => inner.getD i 0) 1 0 (rest.length + 1) (rest.length + 2) inner :=
    ⟨Nat.le_refl _, fun i hi => ⟨fun _ => Nat.zero_le _, fun _ => hi⟩, fun _ _ => rfl, hlevels.oneRoot, rfl, by omega⟩
  have hcount := hroot.count_eq hlevels
  have hone : levelCount (rest.length + 1) (fun i => inner.getD i 0) 0 = 1 := by
    have := hlevels.oneRoot
    have := hroot.level_nonempty hlevels (by omega)
    omega
  have hfirst := hroot.turn hlevels
  rw [hone] at hfirst
  obtain ⟨leaves, hrun, hlength, hleaves⟩ := leafDepths_leaves hlevels hfirst (turns := rest.length + 1) (by omega)
  rw [show rest.length + 2 - 1 = rest.length + 1 by omega, leafDepths, if_neg Nat.one_ne_zero]
  simp only [hcount, hone]
  rw [hrun, List.drop_eq_nil_of_le (by rw [fillLeaves_length]; omega), List.append_nil]
  exact hleaves

/-- The depths of R246, where none is above 32, are such as R258 allows. -/
theorem moffatKatajainen_legal {keys : List Nat} (h32 : ∀ d ∈ moffatKatajainen keys, d ≤ Config.MAX_HUFF_LEN) :
    depthsLegal keys.length (moffatKatajainen keys) = true := by
  match keys with
  | [] => rfl
  | [_] => rfl
  | k0 :: k1 :: rest =>
    obtain ⟨hdeep, hordered, hkraft⟩ := moffatKatajainen_leaves k0 k1 rest
    have hsum := hkraft Config.MAX_HUFF_LEN h32
    change depthsLegal (rest.length + 2) _ = true
    simp only [depthsLegal, Bool.and_eq_true, decide_eq_true_eq, List.all_eq_true]
    exact ⟨⟨⟨moffatKatajainen_length _, fun d hd => ⟨hdeep d hd, h32 d hd⟩⟩, (nonIncreasing_iff _).2 hordered⟩, hsum⟩

/-- Whatever depths `HUFF_DEPTHS` yields, by R246 or by a substitute, are such as R258 allows (R10, R258). -/
theorem huffDepths_legal {algorithm : DepthAlgorithm} {keys depths : List Nat}
    (h : huffDepths algorithm keys = .ok depths) : depthsLegal keys.length depths = true := by
  cases algorithm with
  | moffatKatajainen =>
    rw [huffDepths] at h
    split_ifs at h with hall
    cases h
    exact moffatKatajainen_legal fun d hd => of_decide_eq_true (List.all_eq_true.1 hall d hd)
  | substitute =>
    rw [huffDepths] at h
    split_ifs at h with hlegal
    cases h
    exact hlegal

theorem depthsLegal_ordered {n : Nat} {ds : List Nat} (hlegal : depthsLegal n ds = true) : ds.Pairwise (· ≥ ·) := by
  obtain ⟨hlen, _⟩ := depthsLegal_iff hlegal
  match n with
  | 0 => rw [List.length_eq_zero_iff.1 hlen]; exact .nil
  | 1 =>
    obtain ⟨d, rfl⟩ := List.length_eq_one_iff.1 hlen
    exact List.pairwise_singleton _ d
  | n + 2 =>
    simp only [depthsLegal, Bool.and_eq_true] at hlegal
    obtain ⟨⟨_, hordered⟩, _⟩ := hlegal
    exact (nonIncreasing_iff ds).1 hordered

/-- Settles O55: what `HUFF_DEPTHS` yields are the leaves of a full binary tree, or depths that were tested to be such;
the order of the keys does not matter for it. -/
theorem huffDepthsMeetTheConstraint : Obligations.HuffDepthsMeetTheConstraint := by
  intro n s t h288 hexec _ depths
  obtain ⟨hn, ds, hrun, rfl⟩ := exec_huffDepths.1 hexec
  have hle : n.toNat ≤ s.syms.length := by omega
  have hlegal := huffDepths_legal hrun
  rw [keysOf_length hle] at hlegal
  obtain ⟨hlen, hrange, hone, hkraft⟩ := depthsLegal_iff hlegal
  have hstored : depths = ds := withDepths_keys hle hlen fun d hd => (hrange d hd).2
  rw [hstored]
  exact ⟨hlen, hrange, depthsLegal_ordered hlegal, hone, hkraft⟩

end Sys2Proof.Machine
end

section
/-! PROOFS. `FLUSH_BLOCK` completes where the depths of its tables are such as R258 allows (spec/45_block_encoder.md R270 to
R288, spec/44_huffman_builder.md R258). No precondition fails on the way: the stream of the held tokens is read back, every
length and distance has its symbol, every code fits its length, and so every field is within `PUT_BITS`. -/

namespace Sys2Proof.Machine

/-! ## Every length and every distance has a symbol -/

/-- The rows, in order, leave out no value from `lo` to `hi`. -/
def rowsCover (hi : Nat) : (lo : Nat) → List SymbolRow → Bool
  | lo, [] => decide (hi < lo)
  | lo, r :: rows => decide (r.base ≤ lo) && rowsCover hi (r.last + 1) rows

theorem rowOf_of_cover {hi lo v : Nat} {rows : List SymbolRow} (h : rowsCover hi lo rows = true) (hlo : lo ≤ v)
    (hhi : v ≤ hi) : ∃ r, rowOf rows v = some r := by
  induction rows generalizing lo with
  | nil =>
    have := of_decide_eq_true h
    omega
  | cons r rows ih =>
    simp only [rowsCover, Bool.and_eq_true, decide_eq_true_eq] at h
    obtain ⟨hbase, hrest⟩ := h
    by_cases hlast : v ≤ r.last
    · exact ⟨r, by rw [rowOf, List.find?_cons_of_pos]; simp only [Bool.and_eq_true, decide_eq_true_eq]; omega⟩
    · obtain ⟨q, hq⟩ := ih hrest (by omega)
      refine ⟨q, ?_⟩
      rw [rowOf, List.find?_cons_of_neg]
      · exact hq
      · simp only [Bool.and_eq_true, decide_eq_true_eq]; omega

theorem rowOf_mem {rows : List SymbolRow} {v : Nat} {r : SymbolRow} (h : rowOf rows v = some r) :
    r ∈ rows ∧ v ≤ r.last := by
  have hin := List.find?_some h
  simp only [Bool.and_eq_true, decide_eq_true_eq] at hin
  exact ⟨List.mem_of_find?_eq_some h, hin.2⟩

/-- A match length has a symbol, and its offset fits the extra field (R289). -/
theorem lenRow_of_range {l : Nat} (h3 : Config.M ≤ l) (h258 : l ≤ Config.L) :
    ∃ r, lenRow l = .ok r ∧ r.extraBits ≤ 13 ∧ l - r.base < 2 ^ r.extraBits := by
  obtain ⟨r, hr⟩ := rowOf_of_cover (rows := lenRows) (lo := 3) (hi := 258) (by decide) h3 h258
  obtain ⟨hmem, hlast⟩ := rowOf_mem hr
  have hall : ∀ x ∈ lenRows, x.extraBits ≤ 13 ∧ x.last - x.base < 2 ^ x.extraBits := by decide
  obtain ⟨hbits, hfits⟩ := hall r hmem
  exact ⟨r, by rw [lenRow, hr], hbits, by omega⟩

/-- A match distance has a symbol, and its offset fits the extra field (R290). -/
theorem distRow_of_range {d : Nat} (h1 : 1 ≤ d) (hW : d ≤ Config.W) :
    ∃ r, distRow d = .ok r ∧ r.extraBits ≤ 13 ∧ d - r.base < 2 ^ r.extraBits := by
  obtain ⟨r, hr⟩ := rowOf_of_cover (rows := distRows) (lo := 1) (hi := 32768) (by decide) h1 hW
  obtain ⟨hmem, hlast⟩ := rowOf_mem hr
  have hall : ∀ x ∈ distRows, x.extraBits ≤ 13 ∧ x.last - x.base < 2 ^ x.extraBits := by decide
  obtain ⟨hbits, hfits⟩ := hall r hmem
  exact ⟨r, by rw [distRow, hr], hbits, by omega⟩

theorem tallyTokens_of_range {ts : List Token} (hrange : ∀ x ∈ ts, tokenInRange x) (lit dist : Mem 16) :
    ∃ counts, tallyTokens ts lit dist = .ok counts := by
  induction ts generalizing lit dist with
  | nil => exact ⟨_, rfl⟩
  | cons x ts ih =>
    have hrest : ∀ y ∈ ts, tokenInRange y := fun y hy => hrange y (List.mem_cons_of_mem _ hy)
    cases x with
    | literal v => exact ih hrest _ _
    | copy l d =>
      obtain ⟨h3, h258, h1, hW⟩ := hrange _ (List.mem_cons_self ..)
      obtain ⟨lr, hl, _⟩ := lenRow_of_range h3 h258
      obtain ⟨dr, hd, _⟩ := distRow_of_range h1 hW
      obtain ⟨counts, hc⟩ := ih hrest (countSymbol lit lr.sym) (countSymbol dist dr.sym)
      exact ⟨counts, bind_ok.2 ⟨lr, hl, bind_ok.2 ⟨dr, hd, hc⟩⟩⟩

/-! ## Closing the stream -/

/-- The flag byte of the open group stands before the cursor, and the cursor behind the stream (R220, R224, R271). -/
theorem HoldsTokens.flagsBehind {ts : List Token} {s : State} (h : HoldsTokens ts s) :
    s.lzFlagsPos.toNat < s.lzPos.toNat := by
  obtain ⟨_, _, hflags, hpos, _⟩ := h
  have hwhole : (ts.take (8 * (ts.length / 8))).length = 8 * (ts.length / 8) := List.length_take_of_le (by omega)
  have hstream : (tokenStream ts).length = (tokenStream (ts.take (8 * (ts.length / 8)))).length +
      (tokenStream (ts.drop (8 * (ts.length / 8)))).length := by
    rw [← List.length_append, ← tokenStream_append (by omega), List.take_append_drop]
  have hopen := tokenStream_length (ts.drop (8 * (ts.length / 8)))
  rw [List.length_drop] at hopen
  split_ifs at hpos with h8 <;> omega

/-- The held tokens are read back from the closed stream, wherever the cursor is inside the buffer (R271, R272). -/
theorem HoldsTokens.close {ts : List Token} {s : State} (h : HoldsTokens ts s) (hlz : s.lzPos.toNat ≤ Config.LZ_SIZE) :
    ∃ c stop, closeTokenStream s = .ok (c, stop) ∧ lzTokens c stop = .ok ts := by
  have hbehind := h.flagsBehind
  obtain ⟨hrange, hleft, _, hpos, hbytes⟩ := h
  have hin : s.lzFlagsPos.toNat < Config.LZ_SIZE := by omega
  have hstop : s.lzPos.toNat - (if s.flagsLeft = 8#4 then 1 else 0) = (tokenStream ts).length := by
    have hiff : s.flagsLeft = 8#4 ↔ ts.length % 8 = 0 := by
      rw [← BitVec.toNat_inj, hleft]
      simp
      omega
    simp only [hiff]
    split_ifs at hpos ⊢ <;> omega
  have hpos0 : s.lzPos ≠ 0#16 := fun h0 => by rw [h0] at hbehind; exact Nat.not_lt_zero _ hbehind
  refine ⟨s.setLzBuf (s.lzBuf.set s.lzFlagsPos.toNat (alignFlags (s.lzByte s.lzFlagsPos.toNat) s.flagsLeft.toNat)),
    (tokenStream ts).length, ?_, ?_⟩
  · rw [closeTokenStream, if_neg hpos0, if_neg (by omega), readLz_ok hin]
    simp only [bind, Except.bind, pure, Except.pure, writeLz_ok _ hin, hstop]
  · refine tokenWalk_stream (by split_ifs at hpos <;> omega) ts 0 8 _ _ (.inl rfl) hrange (fun j hj => ?_) (by omega)
      (Nat.le_refl _)
    rw [Nat.zero_add, lzByte_set, ← hbytes j hj]
    by_cases hj' : j = s.lzFlagsPos.toNat
    · rw [if_pos hj'.symm, if_pos hj', hj']; rfl
    · rw [if_neg (Ne.symm hj'), if_neg hj']

/-! ## The tables -/

/-- The code lengths of an alphabet (R34). -/
def State.lens (s : State) : HuffTable → Nat → Nat
  | .litLen => s.llLen.entry
  | .dist => s.dLen.entry
  | .codeLen => s.clLen.entry

/-- The codes of an alphabet (R34). -/
def State.codes (s : State) : HuffTable → Nat → Nat
  | .litLen => s.llCode.entry
  | .dist => s.dCode.entry
  | .codeLen => s.clCode.entry

/-- What `OPTIMIZE` on one alphabet leaves: the codes of the others, the counts, the packed list (R240). -/
structure OthersKept (x : HuffTable) (s t : State) : Prop where
  tables : ∀ y, y ≠ x → t.lens y = s.lens y ∧ t.codes y = s.codes y
  freq : ∀ y, t.freqTable y = s.freqTable y
  packed : t.packed = s.packed
  params : t.params = s.params

theorem optimize_keeps {x : HuffTable} {s t : State} (h : optimize x s = .ok t) : OthersKept x s t := by
  obtain ⟨b, _, rfl⟩ := optimize_ok h
  refine ⟨fun y hy => ?_, fun y => ?_, ?_, ?_⟩
  · cases x with
    | litLen => cases y with
      | litLen => exact absurd rfl hy
      | dist => exact ⟨rfl, rfl⟩
      | codeLen => exact ⟨rfl, rfl⟩
    | dist => cases y with
      | litLen => exact ⟨rfl, rfl⟩
      | dist => exact absurd rfl hy
      | codeLen => exact ⟨rfl, rfl⟩
    | codeLen => cases y with
      | litLen => exact ⟨rfl, rfl⟩
      | dist => exact ⟨rfl, rfl⟩
      | codeLen => exact absurd rfl hy
  · cases x <;> cases y <;> rfl
  · cases x <;> rfl
  · cases x <;> rfl

/-- `OPTIMIZE` on depths that R258 allows completes with the lengths and codes of R249 to R253. -/
theorem optimize_codesOk {s : State} {x : HuffTable} (hlegal : LegalDepths s x) :
    ∃ t, optimize x s = .ok t ∧
      CodesOk (tableSymbols x) (tableCap x) (sortedKeys s x).length (s.freqTable x) (t.lens x) (t.codes x) := by
  obtain ⟨b, hrun, hok⟩ := optimize_legal hlegal
  refine ⟨_, hrun, ?_⟩
  cases x <;> exact hok

/-- Whether the depths of an alphabet are legal is a matter of its counts and the algorithm alone (R10, R258). -/
theorem LegalDepths.of_freq {x : HuffTable} {s t : State} (h : LegalDepths s x) (hparams : t.params = s.params)
    (hfreq : t.freqTable x = s.freqTable x) : LegalDepths t x := by
  simp only [LegalDepths, chosenDepths, sortedKeys] at h ⊢
  rwa [hparams, hfreq]

/-- The counts of the tokens and of one end of block (R272, R273). -/
def tallied (counts : Mem 16 × Mem 16) (s : State) : State := s.setFreqs (countSymbol counts.1 256) counts.2

/-- The code lengths packed and counted (R277 to R279). -/
def withPacked (s : State) : State :=
  s.setPacked (rlePack (codeLengthSeq s)) (packedFreq (rlePack (codeLengthSeq s)))

/-- Pass 1 is the tally and the three tables in turn (R270 to R280). -/
theorem buildTables_iff {ts : List Token} {s t : State} :
    buildTables ts s = .ok t ↔ ∃ counts a b, tallyTokens ts (Mem.filled 0#16) (Mem.filled 0#16) = .ok counts ∧
      optimize .litLen (tallied counts s) = .ok a ∧ optimize .dist a = .ok b ∧ optimize .codeLen (withPacked b) = .ok t := by
  constructor
  · intro h
    obtain ⟨counts, hc, h⟩ := bind_ok.1 h
    obtain ⟨a, ha, h⟩ := bind_ok.1 h
    obtain ⟨b, hb, h⟩ := bind_ok.1 h
    exact ⟨counts, a, b, hc, ha, hb, h⟩
  · rintro ⟨counts, a, b, hc, ha, hb, h⟩
    exact bind_ok.2 ⟨counts, hc, bind_ok.2 ⟨a, ha, bind_ok.2 ⟨b, hb, h⟩⟩⟩

/-- What the fields of a block are read from: codes that fit their lengths, and legal packed entries (R34, R35, R113). -/
structure WireTables (s : State) : Prop where
  code_lt : ∀ x i, s.codes x i < 2 ^ s.lens x i
  clLen_le : ∀ i, s.clLen.entry i ≤ 7
  packed : ∀ p ∈ s.packed, EntryLegal p

/-- Pass 1 with depths that R258 allows completes, and its tables fit the wire (R270 to R280). -/
theorem buildTables_wire {ts : List Token} {s : State} (hrange : ∀ x ∈ ts, tokenInRange x) (hlegal : BlockTablesLegal ts s) :
    ∃ built, buildTables ts s = .ok built ∧ WireTables built := by
  obtain ⟨counts, hc⟩ := tallyTokens_of_range hrange (Mem.filled 0#16) (Mem.filled 0#16)
  obtain ⟨hlegalL, hlegalD, hlegalC⟩ := hlegal counts hc
  obtain ⟨a, ha, hokL⟩ := optimize_codesOk hlegalL
  have keptA := optimize_keeps ha
  obtain ⟨b, hb, hokD⟩ := optimize_codesOk (hlegalD.of_freq keptA.params (keptA.freq .dist))
  have keptB := optimize_keeps hb
  obtain ⟨t, ht, hokC⟩ := optimize_codesOk (hlegalC a b ((ofRun_next _ _).2 ha) ((ofRun_next _ _).2 hb))
  have keptT := optimize_keeps ht
  refine ⟨t, buildTables_iff.2 ⟨counts, a, b, hc, ha, hb, ht⟩, ⟨fun x i => ?_, fun i => ?_, ?_⟩⟩
  · cases x with
    | litLen =>
      obtain ⟨lensB, codesB⟩ := keptB.tables .litLen (by decide)
      obtain ⟨lensT, codesT⟩ := keptT.tables .litLen (by decide)
      rw [lensT.trans lensB, codesT.trans codesB]
      exact (hokL.bounds i).2.1
    | dist =>
      obtain ⟨lensT, codesT⟩ : t.lens .dist = b.lens .dist ∧ t.codes .dist = b.codes .dist := keptT.tables .dist (by decide)
      rw [lensT, codesT]
      exact (hokD.bounds i).2.1
    | codeLen => exact (hokC.bounds i).2.1
  · exact (hokC.bounds i).1
  · rw [keptT.packed]
    exact (rlePack_spec (codeLengthSeq_lt b)).2.1

/-- Pass 1 does not look at the LZ code buffer again (R272 to R280). -/
theorem optimize_setLzBuf {x : HuffTable} {s t : State} (h : optimize x s = .ok t) (m : Mem 8) :
    optimize x (s.setLzBuf m) = .ok (t.setLzBuf m) := by
  obtain ⟨b, hb, rfl⟩ := optimize_ok h
  have hfreq : (s.setLzBuf m).freqTable x = s.freqTable x := by cases x <;> rfl
  rw [optimize, State.setLzBuf_params, hfreq, State.setLzBuf_nextCode, hb]
  cases x <;> rfl

theorem buildTables_setLzBuf {ts : List Token} {s t : State} (h : buildTables ts s = .ok t) (m : Mem 8) :
    buildTables ts (s.setLzBuf m) = .ok (t.setLzBuf m) := by
  obtain ⟨counts, a, b, hc, ha, hb, ht⟩ := buildTables_iff.1 h
  exact buildTables_iff.2 ⟨counts, _, _, hc, optimize_setLzBuf ha m, optimize_setLzBuf hb m, optimize_setLzBuf ht m⟩

theorem WireTables.setLzBuf {s : State} (h : WireTables s) (m : Mem 8) : WireTables (s.setLzBuf m) := by
  refine ⟨fun x i => ?_, h.clLen_le, h.packed⟩
  cases x with
  | litLen => exact h.code_lt .litLen i
  | dist => exact h.code_lt .dist i
  | codeLen => exact h.code_lt .codeLen i

/-! ## The fields -/

theorem fieldsOk_append {fs gs : List (Nat × Nat)} (hf : FieldsOk fs) (hg : FieldsOk gs) : FieldsOk (fs ++ gs) := by
  intro f h
  rcases List.mem_append.1 h with h | h
  · exact hf f h
  · exact hg f h

theorem fieldsOk_flatMap {α : Type} {f : α → List (Nat × Nat)} {as : List α} (h : ∀ a ∈ as, FieldsOk (f a)) :
    FieldsOk (as.flatMap f) := by
  intro g hg
  obtain ⟨a, ha, hg⟩ := List.mem_flatMap.1 hg
  exact h a ha g hg

theorem codedField_fits {code extra extraBits i : Nat} {len : Mem 4} (hcode : code < 2 ^ len.entry i)
    (hbits : extraBits ≤ 13) (hextra : extra < 2 ^ extraBits) : FieldsOk (codedField code (len.entry i) extraBits extra) := by
  have h := codedField_ok (BitVec.ofNat extraBits extra) hbits hcode
  rwa [BitVec.toNat_ofNat, Nat.mod_eq_of_lt hextra] at h

section
variable {s : State}

/-- The fields of tokens within the ranges of the format, from tables that fit the wire (R284 to R286). -/
theorem WireTables.tokenFields (hw : WireTables s) {x : Token} (hx : tokenInRange x) :
    ∃ fs, tokenFields s x = .ok fs ∧ FieldsOk fs := by
  cases x with
  | literal v => exact ⟨_, rfl, codedField_fits (hw.code_lt .litLen _) (by decide) (by decide)⟩
  | copy l d =>
    obtain ⟨h3, h258, h1, hW⟩ := hx
    obtain ⟨lr, hl, hlbits, hlfits⟩ := lenRow_of_range h3 h258
    obtain ⟨dr, hd, hdbits, hdfits⟩ := distRow_of_range h1 hW
    refine ⟨_, bind_ok.2 ⟨lr, hl, bind_ok.2 ⟨dr, hd, rfl⟩⟩, fieldsOk_append ?_ ?_⟩
    · exact codedField_fits (hw.code_lt .litLen _) hlbits hlfits
    · exact codedField_fits (hw.code_lt .dist _) hdbits hdfits

theorem WireTables.tokensFields (hw : WireTables s) {ts : List Token} (hrange : ∀ x ∈ ts, tokenInRange x) :
    ∃ fs, tokensFields s ts = .ok fs ∧ FieldsOk fs := by
  induction ts with
  | nil => exact ⟨[], rfl, fieldsOk_nil⟩
  | cons x ts ih =>
    obtain ⟨f, hf, hfok⟩ := hw.tokenFields (hrange x (List.mem_cons_self ..))
    obtain ⟨fs, hfs, hfsok⟩ := ih fun y hy => hrange y (List.mem_cons_of_mem _ hy)
    exact ⟨_, bind_ok.2 ⟨f, hf, bind_ok.2 ⟨fs, hfs, rfl⟩⟩, fieldsOk_append hfok hfsok⟩

/-- The counts of R275, R276 and R280 fit the header (R110, R111). -/
theorem countFields_ok (last : Bool) (s : State) :
    FieldsOk (headerFields last.toNat (hlit s - 257) (hdist s - 1) (hclen s - 4)) := by
  obtain ⟨_, hl, _⟩ := trimCount_sent s.llLen.entry (least := 257) (most := 286) (by decide)
  obtain ⟨_, hd, _⟩ := trimCount_sent s.dLen.entry (least := 1) (most := 30) (by decide)
  obtain ⟨_, hc, _⟩ := trimCount_sent (fun i => s.clLen.entry (swizzleAt i)) (least := 4) (most := 19) (by decide)
  have h := headerFields_ok last (BitVec.ofNat 5 (hlit s - 257)) (BitVec.ofNat 5 (hdist s - 1))
    (BitVec.ofNat 4 (hclen s - 4))
  have hl : hlit s ≤ 286 := hl
  have hd : hdist s ≤ 30 := hd
  have hc : hclen s ≤ 19 := hc
  rwa [BitVec.toNat_ofNat, BitVec.toNat_ofNat, BitVec.toNat_ofNat, Nat.mod_eq_of_lt (by omega), Nat.mod_eq_of_lt (by omega),
    Nat.mod_eq_of_lt (by omega)] at h

/-- Every field of a block is within the precondition of `PUT_BITS` (R110, R293). -/
theorem WireTables.blockFields (hw : WireTables s) {ts : List Token} (hrange : ∀ x ∈ ts, tokenInRange x) (last : Bool) :
    ∃ fs, blockFields last ts s = .ok fs ∧ FieldsOk fs := by
  obtain ⟨body, hbody, hok⟩ := hw.tokensFields hrange
  refine ⟨_, bind_ok.2 ⟨body, hbody, rfl⟩, ?_⟩
  refine fieldsOk_append (fieldsOk_append (fieldsOk_append (fieldsOk_append (countFields_ok last s) ?_) ?_) hok) ?_
  · exact clLengthFields_ok _ fun k _ => Nat.lt_succ_of_le (hw.clLen_le k)
  · refine fieldsOk_flatMap fun p hp => ?_
    obtain ⟨_, hextra, hbits⟩ := hw.packed p hp
    refine codedField_fits (hw.code_lt .codeLen _) ?_ hextra
    rw [hbits]
    split_ifs <;> decide
  · exact codedField_fits (hw.code_lt .litLen _) (by decide) (by decide)

/-- Fields within the precondition go out, to the stream or, on a failed session, nowhere (R140, R144). -/
theorem putFields_completes {fs : List (Nat × Nat)} (hb : BitsOk s) (hfs : FieldsOk fs) : ∃ t, putFields fs s = .ok t := by
  by_cases hf : s.failed = true
  · exact ⟨s, putFields_failed s hf hfs⟩
  · obtain ⟨t, ht, _⟩ := putFields_emits fs s (by simpa using hf) hb hfs
    exact ⟨t, ht⟩

/-! ## The block -/

/-- `FLUSH_BLOCK` of held tokens completes where R258 allows the depths of its tables (R270). -/
theorem flushBlock_completes {held : List Token} (hb : BitsOk s) (hheld : HoldsTokens held s)
    (hlz : s.lzPos.toNat ≤ Config.LZ_SIZE) (hlegal : BlockTablesLegal held s) (last : Bool) :
    ∃ t, flushBlock last s = .ok t := by
  obtain ⟨hrange, _⟩ := id hheld
  obtain ⟨c, stop, hc, hts⟩ := hheld.close hlz
  obtain ⟨built, hbuilt, hwire⟩ := buildTables_wire hrange hlegal
  obtain ⟨_, rfl, _⟩ := closeTokenStream_ok hc
  have hbuilt' := buildTables_setLzBuf hbuilt
    (s.lzBuf.set s.lzFlagsPos.toNat (alignFlags (s.lzByte s.lzFlagsPos.toNat) s.flagsLeft.toNat))
  obtain ⟨fields, hfields, hok⟩ := (hwire.setLzBuf _).blockFields hrange last
  have hbits : BitsOk built := by rw [buildTables_only hbuilt]; exact hb
  have hbits' : ∀ m, BitsOk (built.setLzBuf m) := fun _ => hbits
  obtain ⟨sent, hsent⟩ := putFields_completes (hbits' _) hok
  exact ⟨lzReset sent, bind_ok.2 ⟨_, hc, bind_ok.2 ⟨held, hts, bind_ok.2 ⟨_, hbuilt', bind_ok.2 ⟨fields, hfields,
    bind_ok.2 ⟨sent, hsent, rfl⟩⟩⟩⟩⟩⟩

end

end Sys2Proof.Machine
end

section
/-! PROOFS. The block of an empty buffer (spec/45_block_encoder.md R295), and `FLUSH_BLOCK` of any (R270). The end of block is
the only symbol counted, so each of the three tables has at most three symbols. -/

namespace Sys2Proof.Machine

/-! ## The first two tables -/

/-- The code of a symbol is its canonical code, reversed (R251, R252). -/
theorem CodesOk.code_eq {n cap m : Nat} {freq : Mem 16} {len code : Nat → Nat} (h : CodesOk n cap m freq len code) {i : Nat}
    (hi : len i ≠ 0) : code i = rev (canonicalCode len n i) (len i) := by
  obtain ⟨_, hfits, _⟩ := h.bounds i
  obtain ⟨_, hbits⟩ := h.canonical i hi
  obtain ⟨hrev, hrevbits⟩ := rev_spec (len i) (canonicalCode len n i)
  refine Nat.eq_of_testBit_eq fun k => ?_
  by_cases hk : k < len i
  · rw [hbits k hk, hrevbits k hk]
  · have hpow : 2 ^ len i ≤ 2 ^ k := Nat.pow_le_pow_right (by decide) (by omega)
    rw [Nat.testBit_lt_two_pow (by omega), Nat.testBit_lt_two_pow (by omega)]

section
variable {s : State}

/-- The end of block counted once and nothing else: a single code of one bit (R245, R273). -/
theorem optimize_litLen_empty (halg : s.params.depths = .moffatKatajainen)
    (hfreq : s.litFreq = countSymbol (Mem.filled 0#16) 256) :
    ∃ t, optimize .litLen s = .ok t ∧ LegalDepths s .litLen ∧ (∀ i, t.llLen.entry i = if i = 256 then 1 else 0) ∧
      t.llCode.entry 256 = 0 := by
  have hkeys : sortedKeys s .litLen = [1] := by
    rw [sortedKeys, State.freqTable, hfreq]
    rfl
  have hlegal : LegalDepths s .litLen := by
    rw [LegalDepths, hkeys, chosenDepths, halg]
    rfl
  obtain ⟨t, ht, hok⟩ := optimize_codesOk hlegal
  have hocc : ∀ i, i < 288 → (t.llLen.entry i = 0 ↔ i ≠ 256) := fun i hi => by
    have h := hok.occurs i hi
    rw [State.freqTable, hfreq, countSymbol_entry, Mem.entry_filled_zero] at h
    refine h.trans ⟨fun h0 heq => ?_, fun hne => ?_⟩
    · rw [if_pos heq.symm] at h0
      cases h0
    · rw [if_neg (Ne.symm hne), Mem.entry_filled_zero]
  have hsingle : t.llLen.entry 256 = 1 ∧ t.llCode.entry 256 = 0 :=
    hok.single (by rw [hkeys]; rfl) 256 fun h0 => (hocc 256 (by decide)).1 h0 rfl
  refine ⟨t, ht, hlegal, fun i => ?_, hsingle.2⟩
  split_ifs with hi
  · rw [hi, hsingle.1]
  · by_cases h288 : i < 288
    · exact (hocc i h288).2 hi
    · exact (hok.bounds i).2.2 (by change 288 ≤ i; omega)

/-- No distance: no code (R257, R276). -/
theorem optimize_dist_empty (halg : s.params.depths = .moffatKatajainen) (hfreq : s.distFreq = Mem.filled 0#16) :
    ∃ t, optimize .dist s = .ok t ∧ LegalDepths s .dist ∧ ∀ i, t.dLen.entry i = 0 := by
  have hlegal : LegalDepths s .dist := by
    rw [LegalDepths, sortedKeys, State.freqTable, hfreq, chosenDepths, halg]
    rfl
  obtain ⟨t, ht, hok⟩ := optimize_codesOk hlegal
  refine ⟨t, ht, hlegal, fun i => ?_⟩
  by_cases h32 : i < 32
  · refine (hok.occurs i h32).2 ?_
    rw [State.freqTable, hfreq, Mem.entry_filled_zero]
  · exact (hok.bounds i).2.2 (by change 32 ≤ i; omega)

/-! ## The packed code lengths -/

theorem codeLengthSeq_empty (hll : ∀ i, s.llLen.entry i = if i = 256 then 1 else 0) (hd : ∀ i, s.dLen.entry i = 0) :
    hlit s = 257 ∧ hdist s = 1 ∧ codeLengthSeq s = List.replicate 256 0 ++ [1, 0] := by
  have hll : s.llLen.entry = fun i => if i = 256 then 1 else 0 := funext hll
  have hd : s.dLen.entry = fun _ => 0 := funext hd
  have hhlit : hlit s = 257 := by
    rw [hlit, hll]
    decide
  have hhdist : hdist s = 1 := by
    rw [hdist, hd]
    decide
  have hzeros : (List.range 256).map (fun i => if i = 256 then 1 else 0) = List.replicate 256 0 := by
    refine List.eq_replicate_iff.2 ⟨by rw [List.length_map, List.length_range], fun x hx => ?_⟩
    obtain ⟨i, hi, rfl⟩ := List.mem_map.1 hx
    have := List.mem_range.1 hi
    rw [if_neg (by omega)]
  refine ⟨hhlit, hhdist, ?_⟩
  rw [codeLengthSeq, hhlit, hhdist, hll, hd, List.range_succ, List.map_append, hzeros, List.append_assoc]
  rfl

/-- A run of zeros that the packing does not have to cut yet (R278). -/
theorem foldl_rleStep_zeros (out : List PackedEntry) {k : Nat} (zeros prev : Nat) (hk : zeros + k < 138) :
    (List.replicate k 0).foldl rleStep { out := out, zeros := zeros, rep := 0, prev := prev } =
      { out := out, zeros := zeros + k, rep := 0, prev := if k = 0 then prev else 0 } := by
  induction k generalizing zeros prev with
  | zero => rfl
  | succ k ih =>
    have hstep : rleStep { out := out, zeros := zeros, rep := 0, prev := prev } 0 =
        { out := out, zeros := zeros + 1, rep := 0, prev := 0 } := by
      rw [rleStep_zero_eq]
      simp only [flushRep, if_true]
      rw [if_neg (by omega)]
    rw [List.replicate_succ, List.foldl_cons, hstep, ih _ _ (by omega), ite_self, if_neg (Nat.succ_ne_zero k),
      Nat.add_assoc, Nat.add_comm 1 k]

/-- The packed code lengths of the empty block (R295). -/
def emptyPacked : List PackedEntry := [⟨18, 7, 127⟩, ⟨18, 7, 107⟩, ⟨1, 0, 0⟩, ⟨0, 0, 0⟩]

theorem rlePack_empty : rlePack (List.replicate 256 0 ++ [1, 0]) = emptyPacked := by
  have hsplit : List.replicate 256 0 ++ [1, 0] =
      List.replicate 137 0 ++ (0 :: (List.replicate 118 0 ++ [1, 0])) := by
    rw [← List.cons_append, ← List.replicate_succ, ← List.append_assoc, List.replicate_append_replicate]
  rw [rlePack, hsplit, List.foldl_append, foldl_rleStep_zeros [] 0 0xFF (by decide), List.foldl_cons]
  have hcut : rleStep { out := [], zeros := 0 + 137, rep := 0, prev := if 137 = 0 then 0xFF else 0 } 0 =
      { out := [⟨18, 7, 127⟩], zeros := 0, rep := 0, prev := 0 } := by decide
  rw [hcut, List.foldl_append, foldl_rleStep_zeros _ 0 0 (by decide)]
  decide

/-! ## The third table -/

/-- The code lengths of the code-length alphabet in the empty block (R295). -/
def emptyClLen (i : Nat) : Nat := if i = 0 ∨ i = 1 then 2 else if i = 18 then 1 else 0

/-- The symbols 0 and 1 once, 18 twice (R279, R295). -/
theorem optimize_codeLen_empty (halg : s.params.depths = .moffatKatajainen) (hfreq : s.clFreq = packedFreq emptyPacked) :
    ∃ t, optimize .codeLen s = .ok t ∧ LegalDepths s .codeLen ∧ (∀ i, t.clLen.entry i = emptyClLen i) ∧
      t.clCode.entry 0 = 1 ∧ t.clCode.entry 1 = 3 ∧ t.clCode.entry 18 = 0 := by
  have hsorted : sortByKey (collect (packedFreq emptyPacked) 19) =
      [⟨1#16, 0#9⟩, ⟨1#16, 1#9⟩, ⟨2#16, 18#9⟩] := by decide
  have hlegal : LegalDepths s .codeLen := by
    rw [LegalDepths, sortedKeys, State.freqTable, hfreq, tableSymbols, hsorted, chosenDepths, halg]
    decide
  obtain ⟨t, ht, hok⟩ := optimize_codesOk hlegal
  have hlen : t.clLen.entry = emptyClLen := by
    obtain ⟨b, hb, rfl⟩ := optimize_ok ht
    have hds : huffDepths .moffatKatajainen ((sortByKey (collect (packedFreq emptyPacked) 19)).map fun p => p.key.toNat) =
        .ok [2, 2, 1] := by rw [hsorted]; rfl
    obtain ⟨b', hb', hlen, _⟩ := buildCodes_ok (cap := 7) (old := s.nextCode.map fun c => c.toNat) hds rfl
    rw [State.freqTable, hfreq, halg] at hb
    obtain rfl : b = b' := Except.ok.inj (hb.symm.trans hb')
    have hdealt : b.len = (((Mem.filled 0#4).set 18 1#4).set 1 2#4).set 0 2#4 := by
      rw [hlen, hsorted]
      rfl
    funext i
    change b.len.entry i = _
    simp only [hdealt, Mem.entry_set, Mem.entry_filled_zero, BitVec.toNat_ofNat, emptyClLen]
    split_ifs <;> omega
  have hcode : ∀ i, emptyClLen i ≠ 0 → t.clCode.entry i = rev (canonicalCode emptyClLen 19 i) (emptyClLen i) := by
    rw [← hlen]
    exact fun i hi => hok.code_eq hi
  refine ⟨t, ht, hlegal, fun i => by rw [hlen], ?_, ?_, ?_⟩
  · rw [hcode 0 (by decide)]; decide
  · rw [hcode 1 (by decide)]; decide
  · rw [hcode 18 (by decide)]; decide

/-- The tables of the empty block (R295). -/
structure EmptyTables (t : State) : Prop where
  llLen : ∀ i, t.llLen.entry i = if i = 256 then 1 else 0
  eobCode : t.llCode.entry 256 = 0
  dLen : ∀ i, t.dLen.entry i = 0
  clLen : ∀ i, t.clLen.entry i = emptyClLen i
  clCode : t.clCode.entry 0 = 1 ∧ t.clCode.entry 1 = 3 ∧ t.clCode.entry 18 = 0
  packed : t.packed = emptyPacked

/-- Pass 1 of an empty buffer: the depths of its three tables are such as R258 allows, and the tables are those of R295. -/
theorem emptyBlock_tables (halg : s.params.depths = .moffatKatajainen) :
    BlockTablesLegal [] s ∧ ∀ t, buildTables [] s = .ok t → EmptyTables t := by
  obtain ⟨counts, hcounts⟩ : ∃ counts, counts = (Mem.filled 0#16, Mem.filled 0#16) := ⟨_, rfl⟩
  have htally : tallyTokens [] (Mem.filled 0#16) (Mem.filled 0#16) = .ok counts := by rw [hcounts]; rfl
  obtain ⟨a, ha, hlegalL, hll, heob⟩ := optimize_litLen_empty (s := tallied counts s) halg (by rw [hcounts]; rfl)
  have keptA := optimize_keeps ha
  have hdfreq : a.distFreq = Mem.filled 0#16 := (keptA.freq .dist).trans (by rw [hcounts]; rfl)
  obtain ⟨b, hb, hlegalD, hd⟩ := optimize_dist_empty (s := a) (by rw [keptA.params]; exact halg) hdfreq
  have keptB := optimize_keeps hb
  have hllB : b.lens .litLen = a.lens .litLen := (keptB.tables .litLen (by decide)).1
  obtain ⟨_, _, hseq⟩ := codeLengthSeq_empty (fun i => (congrFun hllB i).trans (hll i)) hd
  have hpacked : rlePack (codeLengthSeq b) = emptyPacked := by rw [hseq, rlePack_empty]
  have hparams : (withPacked b).params.depths = .moffatKatajainen := by
    change b.params.depths = _
    rw [keptB.params, keptA.params]
    exact halg
  obtain ⟨t, ht, hlegalC, hcl, hcode⟩ := optimize_codeLen_empty hparams (congrArg packedFreq hpacked)
  have keptT := optimize_keeps ht
  constructor
  · intro counts' hc
    obtain rfl := Except.ok.inj (htally.symm.trans hc)
    refine ⟨hlegalL, hlegalD.of_freq keptA.params.symm (keptA.freq .dist).symm, fun a' b' ha' hb' => ?_⟩
    obtain rfl := Except.ok.inj (ha.symm.trans ((ofRun_next _ _).1 ha'))
    obtain rfl := Except.ok.inj (hb.symm.trans ((ofRun_next _ _).1 hb'))
    exact hlegalC
  · intro t' h
    obtain ⟨counts', a', b', hc, ha', hb', ht'⟩ := buildTables_iff.1 h
    obtain rfl := Except.ok.inj (htally.symm.trans hc)
    obtain rfl := Except.ok.inj (ha.symm.trans ha')
    obtain rfl := Except.ok.inj (hb.symm.trans hb')
    obtain rfl := Except.ok.inj (ht.symm.trans ht')
    obtain ⟨lensB, codesB⟩ := keptB.tables .litLen (by decide)
    obtain ⟨lensT, codesT⟩ := keptT.tables .litLen (by decide)
    obtain ⟨lensD, _⟩ := keptT.tables .dist (by decide)
    exact ⟨fun i => (congrFun (lensT.trans lensB) i).trans (hll i), (congrFun (codesT.trans codesB) 256).trans heob,
      fun i => (congrFun lensD i).trans (hd i), hcl, hcode, keptT.packed.trans hpacked⟩

/-! ## The bits -/

/-- The counts of the empty block (R295). -/
theorem EmptyTables.counts {t : State} (h : EmptyTables t) : hlit t = 257 ∧ hdist t = 1 ∧ hclen t = 18 := by
  obtain ⟨hhlit, hhdist, _⟩ := codeLengthSeq_empty h.llLen h.dLen
  refine ⟨hhlit, hhdist, ?_⟩
  rw [hclen, show t.clLen.entry = emptyClLen from funext h.clLen]
  decide

/-- The fields of the empty block are the 92 bits of R295, under its `BFINAL`. -/
theorem EmptyTables.wire {t : State} (h : EmptyTables t) (last : Bool) :
    fieldBits (blockWire last 257 1 18 [] t) = last :: emptyBlockBits.drop 1 := by
  obtain ⟨h0, h1, h18⟩ := h.clCode
  have hpacked : (t.packed.flatMap fun p => [(t.clCode.entry p.sym, t.clLen.entry p.sym), (p.extra, p.extraBits)]) =
      [(0, 1), (127, 7), (0, 1), (107, 7), (3, 2), (0, 0), (1, 2), (0, 0)] := by
    rw [h.packed, emptyPacked]
    simp only [List.flatMap_cons, List.flatMap_nil, List.cons_append, List.nil_append, h0, h1, h18, h.clLen]
    rfl
  rw [blockWire, hpacked]
  simp only [h.llLen, h.eobCode, h.clLen, if_true, List.flatMap_nil]
  cases last <;> decide

/-- `FLUSH_BLOCK` leaves `lz_buf` alone but for its first byte, where no token is held (R221, R271). -/
theorem flushBlock_lzByte {last : Bool} {t : State} (h : flushBlock last s = .ok t) (hflags : s.lzFlagsPos = 0#15) (i : Nat) :
    t.lzByte i = if i = 0 then 0#8 else s.lzByte i := by
  obtain ⟨c, stop, ts, built, fields, sent, hc, _, hbt, _, hs, rfl⟩ := flushBlock_ok h
  obtain ⟨_, rfl, _⟩ := closeTokenStream_ok hc
  rw [lzReset_eq, lzByte_setLzCursors, lzByte_set, putFields_only hs, buildTables_only hbt]
  by_cases hi : i = 0
  · rw [if_pos hi.symm, if_pos hi]
  · rw [if_neg (Ne.symm hi), if_neg hi]
    change (s.setLzBuf (s.lzBuf.set s.lzFlagsPos.toNat _)).lzByte i = _
    rw [lzByte_set, hflags]
    exact if_neg (Ne.symm hi)

theorem EmptyTables.of_sameCodes {t u : State} (h : EmptyTables t) (hsame : SameCodes t u) : EmptyTables u := by
  obtain ⟨hll, heob, hd, hcl, hcode, hpacked⟩ := h
  refine ⟨?_, ?_, ?_, ?_, ?_, hsame.packed.trans hpacked⟩
  · rw [hsame.llLen]; exact hll
  · rw [hsame.llCode]; exact heob
  · rw [hsame.dLen]; exact hd
  · rw [hsame.clLen]; exact hcl
  · rw [hsame.clCode]; exact hcode

/-- The empty block: what goes out, and the tables it was built with (R295). -/
theorem flushBlock_empty {last : Bool} {t : State} (hb : BitsOk s) (halg : s.params.depths = .moffatKatajainen)
    (hheld : HoldsTokens [] s) (hlz : s.lzPos.toNat ≤ Config.LZ_SIZE) (h : flushBlock last s = .ok t) :
    EmptyTables t ∧ (t.failed = false →
      streamBits t = streamBits s ++ last :: emptyBlockBits.drop 1 ∧ t.bitsIn.toNat = (s.bitsIn.toNat + 92) % 8) := by
  obtain ⟨c, stop, ts, built, fields, sent, hc, hts, hbt, hf, hs, rfl⟩ := flushBlock_ok h
  obtain ⟨c', stop', hc', hts'⟩ := hheld.close hlz
  obtain ⟨rfl, rfl⟩ := Prod.mk.inj (Except.ok.inj (hc.symm.trans hc'))
  obtain rfl := Except.ok.inj (hts.symm.trans hts')
  have hbuilt : EmptyTables built ∧ BitsOk built ∧ built.bitsIn = s.bitsIn := by
    obtain ⟨_, hclosed, _⟩ := closeTokenStream_ok hc
    have halg' : c.params.depths = .moffatKatajainen := by rw [hclosed]; exact halg
    refine ⟨(emptyBlock_tables halg').2 built hbt, ?_, ?_⟩
    · rw [buildTables_only hbt, hclosed]; exact hb
    · rw [buildTables_only hbt, hclosed]; rfl
  obtain ⟨htables, hbits, hheldBits⟩ := hbuilt
  have hsame := (flushBlock_tables hbt hs).1
  have hafter := htables.of_sameCodes hsame
  obtain ⟨hhlit, hhdist, hhclen⟩ := htables.counts
  have hwire := hafter.wire last
  refine ⟨hafter, fun hfail => ⟨?_, ?_⟩⟩
  · rw [flushBlock_stream hb hc hbt hf hs hfail, hhlit, hhdist, hhclen, hwire]
  · obtain ⟨_, _, hemits, _⟩ := putFields_emits_of_ok hs hfail hbits
    have hwidth : fieldWidth fields = 92 := by
      rw [← fieldBits_length, blockFields_bits hsame hf, hhlit, hhdist, hhclen, hwire]
      rfl
    have := (hemits hfail).2.1
    rwa [hwidth, hheldBits] at this

end

theorem holdsTokens_empty {s : State} (hpos : s.lzPos = 1#16) (hflags : s.lzFlagsPos = 0#15) (hleft : s.flagsLeft = 8#4) :
    HoldsTokens [] s := by
  refine ⟨by simp, ?_, ?_, ?_, by simp [tokenStream, tokenGroups]⟩
  · rw [hleft]; rfl
  · rw [hflags]; rfl
  · rw [hpos]; rfl

/-- Settles O51: any held tokens are flushed where the depths allow it, and for no token they do. -/
theorem flushOfAnEmptyBuffer : Obligations.FlushOfAnEmptyBuffer := by
  intro last s hb
  constructor
  · intro halg hsf hpos hflags hleft
    have hheld := holdsTokens_empty hpos hflags hleft
    have hlz : s.lzPos.toNat ≤ Config.LZ_SIZE := by rw [hpos]; decide
    obtain ⟨t, h⟩ := flushBlock_completes hb hheld hlz (emptyBlock_tables halg).1 last
    obtain ⟨htables, hstream⟩ := flushBlock_empty hb halg hheld hlz h
    have hbyte := flushBlock_lzByte h hflags
    obtain ⟨hpos', hflags', hleft'⟩ := flushBlock_cursors h
    obtain ⟨hfull, _⟩ := (flushBlock_putsFull h).2 hsf
    refine ⟨t, (ofRun_next _ _).2 h, flushBlock_only h, flushBlock_bitsOk h hb, hfull, hpos', hflags', hleft',
      (hbyte 0).trans (if_pos rfl), fun i hi => (hbyte i).trans (if_neg hi), htables.llLen, htables.dLen, htables.clLen,
      htables.packed, fun hf => (hstream hf).1⟩
  · intro held hheld hlz hlegal
    obtain ⟨t, h⟩ := flushBlock_completes hb hheld hlz hlegal last
    obtain ⟨hpos, hflags, hleft⟩ := flushBlock_cursors h
    exact ⟨t, (ofRun_next _ _).2 h, flushBlock_only h, flushBlock_bitsOk h hb, hpos, hflags, hleft,
      fun hsf => ((flushBlock_putsFull h).2 hsf).1⟩

end Sys2Proof.Machine
end

section
/-! PROOFS. `FINISH` on an open session (spec/46_session.md R316, R317, R320): the rest of the lookahead is parsed, the
terminal block goes out, and behind it the padding and the trailer, which always can. -/

namespace Sys2Proof.Machine

/-! ## Behind the terminal block -/

/-- `DRAIN` does nothing, or hands the staged bytes over in one call (R142, R144). -/
theorem drain_cases {s : State} (hb : BitsOk s) : drain s = .ok s ∨ ∃ answer later draws, drain s =
    .ok (((s.logPut ⟨stagedBytes s s.outPos.toNat, answer⟩ later draws).setOut s.outBuf 0#13).setFailed (!answer)) := by
  by_cases hf : s.failed = true
  · exact .inl (drain_failed s hf)
  by_cases h0 : s.outPos = 0#13
  · exact .inl (drain_empty h0)
  obtain ⟨_, _, hpos⟩ := hb
  have h1 : 1 ≤ s.outPos.toNat := Nat.pos_of_ne_zero fun h => h0 (BitVec.eq_of_toNat_eq h)
  exact .inr (drain_staged s (by simpa using hf) h1 (Nat.le_of_lt hpos))

theorem drain_completes {s : State} (hb : BitsOk s) : ∃ t, drain s = .ok t := by
  rcases drain_cases hb with h | ⟨_, _, _, h⟩
  · exact ⟨_, h⟩
  · exact ⟨_, h⟩

/-- Handing the staged bytes over moves no bit of the stream, whatever the sink answers (R37, R142). -/
theorem drain_streamBits {s t : State} (hb : BitsOk s) (h : drain s = .ok t) : streamBits t = streamBits s := by
  rcases drain_cases hb with hd | ⟨_, _, _, hd⟩
  · rw [← Except.ok.inj (hd.symm.trans h)]
  · rw [← Except.ok.inj (hd.symm.trans h)]
    simp [streamBits, bytesBits]

theorem align_completes {s : State} (hb : BitsOk s) : ∃ t, align s = .ok t := by
  by_cases hf : s.failed = true
  · exact ⟨s, align_failed hf⟩
  · obtain ⟨t, ht, _⟩ := align_emits s (by simpa using hf) hb
    exact ⟨t, ht⟩

/-- What follows the terminal block on the wire, where `held` bits are held back behind it: the padding to a byte, and with
framing the checksum, its highest byte first (R143, R317). -/
def closingBits (zlib : Bool) (adler : BitVec 32) (held : Nat) : List Bool :=
  List.replicate ((8 - held) % 8) false ++
    (if zlib then bytesBits [adler.extractLsb' 24 8, adler.extractLsb' 16 8, adler.extractLsb' 8 8, adler.extractLsb' 0 8]
    else [])

theorem fieldBits_zlibTrailer (s : State) : fieldBits (zlibTrailerFields s) =
    if s.zlib then bytesBits [s.adler.extractLsb' 24 8, s.adler.extractLsb' 16 8, s.adler.extractLsb' 8 8,
      s.adler.extractLsb' 0 8] else [] := by
  unfold zlibTrailerFields
  split_ifs <;> rfl

/-- `ALIGN`, the trailer and the last `DRAIN` complete, and put out the padding and the trailer (R143, R317). -/
theorem closing_completes {s : State} (hb : BitsOk s) :
    ∃ aligned trailed drained, align s = .ok aligned ∧ putFields (zlibTrailerFields aligned) aligned = .ok trailed ∧
      drain trailed = .ok drained ∧
      (drained.failed = false →
        s.failed = false ∧ streamBits drained = streamBits s ++ closingBits s.zlib s.adler s.bitsIn.toNat) := by
  obtain ⟨aligned, ha⟩ := align_completes hb
  have hba := align_bitsOk ha hb
  obtain ⟨trailed, ht⟩ := putFields_completes hba (zlibTrailerFields_ok aligned)
  have hbt := putFields_bitsOk ht hba
  obtain ⟨drained, hd⟩ := drain_completes hbt
  refine ⟨aligned, trailed, drained, ha, ht, hd, fun hf => ?_⟩
  have htf := drain_not_failed hd hf
  have haf := (putFields_putsFull ht).not_failed htf
  have hsf := (align_putsFull ha).not_failed haf
  have halign : streamBits aligned = streamBits s ++ List.replicate ((8 - s.bitsIn.toNat) % 8) false := by
    obtain ⟨u, hu, _, _, hemits, _⟩ : ∃ t, align s = .ok t ∧ Emits (alignFields s) s t := align_emits s hsf hb
    obtain rfl := Except.ok.inj (ha.symm.trans hu)
    rw [(hemits haf).1, fieldBits_alignFields hb.1]
  have htrail : streamBits trailed = streamBits aligned ++ fieldBits (zlibTrailerFields aligned) := by
    obtain ⟨_, _, hemits, _⟩ := putFields_emits_of_ok ht htf hba
    exact (hemits htf).1
  have hkept : aligned.zlib = s.zlib ∧ aligned.adler = s.adler := by
    rw [align_only ha]
    exact ⟨rfl, rfl⟩
  refine ⟨hsf, ?_⟩
  rw [drain_streamBits hbt hd, htrail, halign, fieldBits_zlibTrailer, hkept.1, hkept.2, closingBits, List.append_assoc]

/-! ## The command -/

/-- `FINISH` ran from `s` to `t`: the session is closed, and nothing is left behind (R316, R320). -/
def Finishes (s t : State) : Prop :=
  exec .finish s = .next t ∧ t.closed = true ∧ t.returns = s.returns ++ [!t.failed] ∧ SameSettings s t ∧ t.lzPos = 1#16 ∧
    t.flagsLeft = 8#4 ∧ t.outPos = 0#13 ∧ (t.failed = false → t.bitsIn = 0#5)

/-- With the lookahead parsed to `u` and the terminal block emitted to `w`, `FINISH` completes (R316, R317, R320). -/
theorem finish_of_block {s u w : State} (hs : CursorsOk s) (ho : OpenSession s)
    (hparse : parseAll s.lookaheadSize.toNat s = .ok u) (hblock : flushBlock true u = .ok w) :
    ∃ t, Finishes s t ∧ (t.failed = false →
      w.failed = false ∧ streamBits t = streamBits w ++ closingBits s.zlib s.adler w.bitsIn.toNat) := by
  obtain ⟨honly, ⟨_, hparser, _, hbits⟩, hzero⟩ := parseAll_keeps hparse hs (Nat.le_refl _)
  obtain ⟨aligned, trailed, drained, ha, ht, hd, hstream⟩ := closing_completes (flushBlock_bitsOk hblock hbits)
  have hrun : finishSession s = .ok (drained.setClosed true) :=
    bind_ok.2 ⟨u, hparse, bind_ok.2 ⟨u, savedMatchFlush_dead hparser hzero, bind_ok.2 ⟨w, hblock, bind_ok.2 ⟨aligned, ha,
      bind_ok.2 ⟨trailed, ht, bind_ok.2 ⟨drained, hd, rfl⟩⟩⟩⟩⟩⟩
  obtain ⟨hset, hret, hclosed, _, _, hpos, hheld, _⟩ := finish_lifecycle ho hrun
  have hkept : w.zlib = s.zlib ∧ w.adler = s.adler := by
    obtain ⟨⟨_, _, _, hzlib, _⟩, _, _, hadler, _⟩ := (honly.trans (flushBlock_only hblock).step).settings
    exact ⟨hzlib, hadler⟩
  have hcursors : drained.lzPos = w.lzPos ∧ drained.flagsLeft = w.flagsLeft := by
    rw [((align_only ha).trans (putFields_only ht)).trans (drain_only hd)]
    exact ⟨rfl, rfl⟩
  obtain ⟨hlz, _, hleft⟩ := flushBlock_cursors hblock
  refine ⟨replyHealth (drained.setClosed true), ⟨(exec_finish_of_open ho).2 ⟨_, hrun, rfl⟩, hclosed,
    congrArg (· ++ [!drained.failed]) hret, hset, hcursors.1.trans hlz, hcursors.2.trans hleft, hpos, hheld⟩, fun hf => ?_⟩
  obtain ⟨hwf, hbitsOut⟩ := hstream hf
  rw [hkept.1, hkept.2] at hbitsOut
  exact ⟨hwf, hbitsOut⟩

/-! ## The rest of the lookahead -/

/-- With room for its tokens the whole lookahead is parsed into the buffer, step by step (R211, R226, R316). -/
theorem parseAll_room {n : Nat} {s : State} {held : List Token} (hparser : ParserOk s) (hlz : LzOk s)
    (hn : s.lookaheadSize.toNat ≤ n) (hfree : s.lzPos.toNat + 5 * s.lookaheadSize.toNat ≤ Config.LZ_SIZE - 4)
    (hheld : HoldsTokens held s) :
    ∃ k u new, k ≤ s.lookaheadSize.toNat ∧ execAll (List.replicate k .parseStep) s = .next u ∧ parseAll n s = .ok u ∧
      HoldsTokens (held ++ new) u := by
  induction n generalizing s held with
  | zero => exact ⟨0, s, [], Nat.zero_le _, rfl, rfl, by rwa [List.append_nil]⟩
  | succ n ih =>
    rw [parseAll]
    split_ifs with h0
    · exact ⟨0, s, [], Nat.zero_le _, rfl, rfl, by rwa [List.append_nil]⟩
    obtain ⟨hsize, hdict, hsaved⟩ := hparser
    have h1 : 1 ≤ s.lookaheadSize.toNat := Nat.pos_of_ne_zero fun h => h0 (BitVec.eq_of_toNat_eq h)
    obtain ⟨t, adv, new, ht, htr, hparser'⟩ := parseStep_transition ⟨h1, by omega, hlz, by omega⟩ hdict hsaved
    obtain ⟨hadv, hle⟩ := htr.consumes
    obtain ⟨_, hsize', _⟩ := htr.advanced
    have hstored : t.lzPos.toNat ≤ s.lzPos.toNat + 5 := htr.stored
    change adv ≤ s.lookaheadSize.toNat at hle
    change t.lookaheadSize.toNat = s.lookaheadSize.toNat - adv at hsize'
    obtain ⟨k, u, later, hk, hexec, hparse, hholds⟩ :=
      ih hparser' htr.cursors (by omega) (by omega) (htr.holds held hheld)
    refine ⟨k + 1, u, new ++ later, by omega, ?_, bind_ok.2 ⟨t, ht, hparse⟩, by rwa [← List.append_assoc]⟩
    have hstep : exec .parseStep s = .next t := (ofRun_next _ _).2 ht
    rw [List.replicate_succ, execAll, hstep]
    exact hexec

/-- Settles O18: nothing to parse and the empty block, or the whole lookahead and a block that completes; then the padding,
the trailer and the last drain. -/
theorem finishOfAnEmptySession : Obligations.FinishOfAnEmptySession := by
  intro s hs ho
  obtain ⟨_, hparser, hlz, hbits⟩ := hs.cursors
  refine ⟨fun halg hzero hpos hleft => ?_, fun held hheld hfree => ?_⟩
  · have hflags : s.lzFlagsPos = 0#15 := by
      obtain ⟨_, _, hlt, _⟩ := hlz
      rw [hpos] at hlt
      exact BitVec.eq_of_toNat_eq (Nat.lt_one_iff.1 hlt)
    have hempty := holdsTokens_empty hpos hflags hleft
    have hroom : s.lzPos.toNat ≤ Config.LZ_SIZE := by rw [hpos]; decide
    obtain ⟨w, hw⟩ := flushBlock_completes hbits hempty hroom (emptyBlock_tables halg).1 true
    have hparse : parseAll s.lookaheadSize.toNat s = .ok s := by rw [hzero]; rfl
    obtain ⟨t, ht, hstream⟩ := finish_of_block hs.cursors ho hparse hw
    refine ⟨t, ht, fun hf => ?_⟩
    obtain ⟨hwf, hout⟩ := hstream hf
    obtain ⟨_, hblock⟩ := flushBlock_empty hbits halg hempty hroom hw
    obtain ⟨hbitsOut, hheldBits⟩ := hblock hwf
    have hterminal : true :: emptyBlockBits.drop 1 = emptyBlockBits := by decide
    rw [hout, hbitsOut, hterminal, hheldBits]
    rfl
  · obtain ⟨k, u, new, hk, hexec, hparse, hholds⟩ := parseAll_room hparser hlz (Nat.le_refl _) hfree hheld
    obtain ⟨_, ⟨_, _, ⟨_, hroom, _⟩, hbitsU⟩, hzero⟩ := parseAll_keeps hparse hs.cursors (Nat.le_refl _)
    refine ⟨k, u, new, hk, hexec, hzero, hholds, fun hlegal => ?_⟩
    obtain ⟨w, hw⟩ := flushBlock_completes hbitsU hholds (by omega) hlegal true
    obtain ⟨t, ht, hstream⟩ := finish_of_block hs.cursors ho hparse hw
    exact ⟨w, t, (ofRun_next _ _).2 hw, ht, fun hf => (hstream hf).2⟩

end Sys2Proof.Machine
end

section
/-! PROOFS. The length and distance tables (spec/45_block_encoder.md R289, R290): a table's rows lie side by side in its
range, the value in an extra field is the offset from the row's base, and each group of rows follows one formula. -/

namespace Sys2Proof.Machine

/-! ## The row of a value -/

theorem rowOf_base_le {rows : List SymbolRow} {v : Nat} {r : SymbolRow} (h : rowOf rows v = some r) : r.base ≤ v := by
  have hin := List.find?_some h
  simp only [Bool.and_eq_true, decide_eq_true_eq] at hin
  exact hin.1

theorem rowOf_eq_none_of_outside {rows : List SymbolRow} {lo hi v : Nat}
    (hrows : ∀ r ∈ rows, lo ≤ r.base ∧ r.last ≤ hi) (hv : ¬(lo ≤ v ∧ v ≤ hi)) : rowOf rows v = none := by
  refine List.find?_eq_none.2 fun r hr => ?_
  obtain ⟨hlo, hhi⟩ := hrows r hr
  simp only [Bool.and_eq_true, decide_eq_true_eq]
  omega

/-- The extra value is the low bits of the distance from the start of the table, because a row starts at a multiple of its
own width (R289, R290). -/
theorem offset_eq_mod {start base v width : Nat} (hstart : start ≤ base) (hbase : base ≤ v) (hdvd : width ∣ base - start)
    (hfits : v - base < width) : v - base = (v - start) % width := by
  obtain ⟨k, hk⟩ := hdvd
  have hsum : v - start = v - base + width * k := by omega
  rw [hsum, Nat.add_mul_mod_self_left, Nat.mod_eq_of_lt hfits]

theorem lenRow_ok {l : Nat} {r : SymbolRow} : lenRow l = .ok r ↔ rowOf lenRows l = some r := by
  rw [lenRow]
  cases rowOf lenRows l <;> simp

theorem distRow_ok {d : Nat} {r : SymbolRow} : distRow d = .ok r ↔ rowOf distRows d = some r := by
  rw [distRow]
  cases rowOf distRows d <;> simp

theorem lenRow_outside {l : Nat} (h : ¬(3 ≤ l ∧ l ≤ 258)) : lenRow l = .error (.lengthRange l) := by
  rw [lenRow, rowOf_eq_none_of_outside (by decide) h]

theorem distRow_outside {d : Nat} (h : ¬(1 ≤ d ∧ d ≤ 32768)) : distRow d = .error (.distanceRange d) := by
  rw [distRow, rowOf_eq_none_of_outside (by decide) h]

/-! ## The groups of a table -/

/-- The three groups of the length table: one length per symbol, four symbols per width, and the longest match (R289). -/
theorem lenRows_groups : ∀ r ∈ lenRows, 3 ≤ r.base ∧ 2 ^ r.extraBits ∣ r.base - 3 ∧
    (r.sym = 254 + r.base ∧ r.base < 11 ∧ r.extraBits = 0 ∨
      (265 ≤ r.sym ∧ r.sym ≤ 284) ∧ (11 ≤ r.base ∧ r.last ≤ 257) ∧ r.extraBits = (r.sym - 261) / 4 ∧
        r.base = 3 + (4 + (r.sym - 261) % 4) * 2 ^ r.extraBits ∨
      r.sym = 285 ∧ r.base = 258 ∧ r.extraBits = 0) := by decide

/-- The two groups of the distance table: one distance per symbol, and two symbols per width (R290). -/
theorem distRows_groups : ∀ r ∈ distRows, 1 ≤ r.base ∧ 2 ^ r.extraBits ∣ r.base - 1 ∧
    (r.sym = r.base - 1 ∧ r.base ≤ 4 ∧ r.extraBits = 0 ∨
      r.sym ≤ 29 ∧ 5 ≤ r.base ∧ r.extraBits = r.sym / 2 - 1 ∧ r.base = 1 + (2 + r.sym % 2) * 2 ^ r.extraBits) := by decide

/-! ## The operations -/

theorem exec_lenSym (l : BitVec 9) (s : State) : exec (.lenSym l) s = execLenSym l s := rfl

theorem exec_lenSym_ok {l : BitVec 9} {r : SymbolRow} (h : lenRow l.toNat = .ok r) (s : State) :
    exec (.lenSym l) s = .next { s with opResult := .symbol r.sym r.extraBits r.base } := by
  rw [exec_lenSym, execLenSym, h]
  rfl

theorem exec_lenSym_error {l : BitVec 9} {f : Fault} (h : lenRow l.toNat = .error f) (s : State) :
    exec (.lenSym l) s = .fault f := by
  rw [exec_lenSym, execLenSym, h]
  rfl

theorem exec_distSym (d : BitVec 16) (s : State) : exec (.distSym d) s = execDistSym d s := rfl

theorem exec_distSym_ok {d : BitVec 16} {r : SymbolRow} (h : distRow d.toNat = .ok r) (s : State) :
    exec (.distSym d) s = .next { s with opResult := .symbol r.sym r.extraBits r.base } := by
  rw [exec_distSym, execDistSym, h]
  rfl

theorem exec_distSym_error {d : BitVec 16} {f : Fault} (h : distRow d.toNat = .error f) (s : State) :
    exec (.distSym d) s = .fault f := by
  rw [exec_distSym, execDistSym, h]
  rfl

/-! ## The statements -/

/-- Settles O49: every length of the range has a row, and each of the three groups of rows meets its clause. -/
theorem lengthSymbolTable : Obligations.LengthSymbolTable := by
  intro l s
  refine ⟨fun h3 h258 => ?_, fun hout => exec_lenSym_error (lenRow_outside hout) s⟩
  obtain ⟨r, hr, _, hfits⟩ := lenRow_of_range h3 h258
  obtain ⟨hmem, hlast⟩ := rowOf_mem (lenRow_ok.1 hr)
  have hbase := rowOf_base_le (lenRow_ok.1 hr)
  obtain ⟨hstart, hdvd, hgroup⟩ := lenRows_groups r hmem
  have hmod := offset_eq_mod hstart hbase hdvd hfits
  refine ⟨r.sym, r.extraBits, r.base, exec_lenSym_ok hr s, ?_⟩
  rcases hgroup with ⟨hsym, hshort, hzero⟩ | ⟨hsym, hrange, hbits, hformula⟩ | ⟨hsym, hlongest, hzero⟩
  · have heq : l.toNat = r.base := by rw [hzero] at hfits; omega
    exact ⟨by omega, by omega, hbase, hfits, hmod, by omega, fun _ => hzero, fun _ => ⟨by omega, hzero⟩, by omega⟩
  · exact ⟨by omega, by omega, hbase, hfits, hmod, by omega, by omega, by omega, fun _ _ => ⟨hbits, hformula⟩⟩
  · exact ⟨by omega, by omega, hbase, hfits, hmod, by omega, fun _ => hzero, by omega, by omega⟩

/-- Settles O50: every distance of the range has a row, and both groups of rows meet their clause. -/
theorem distanceSymbolTable : Obligations.DistanceSymbolTable := by
  intro d s
  refine ⟨fun h1 hW => ?_, fun hout => exec_distSym_error (distRow_outside hout) s⟩
  obtain ⟨r, hr, _, hfits⟩ := distRow_of_range h1 hW
  have hmem := (rowOf_mem (distRow_ok.1 hr)).1
  have hbase := rowOf_base_le (distRow_ok.1 hr)
  obtain ⟨hstart, hdvd, hgroup⟩ := distRows_groups r hmem
  have hmod := offset_eq_mod hstart hbase hdvd hfits
  refine ⟨r.sym, r.extraBits, r.base, exec_distSym_ok hr s, ?_⟩
  rcases hgroup with ⟨hsym, hshort, hzero⟩ | ⟨hsym, hlong, hbits, hformula⟩
  · have heq : d.toNat = r.base := by rw [hzero] at hfits; omega
    exact ⟨by omega, hbase, hfits, hmod, fun _ => ⟨by omega, hzero⟩, by omega⟩
  · exact ⟨hsym, hbase, hfits, hmod, by omega, fun _ => ⟨hbits, hformula⟩⟩

end Sys2Proof.Machine
end

section
/-! PROOFS. The checksum of one byte, `INIT` with a sink, and a `FEED` in two chunks (spec/46_session.md R310 to R318,
R322). -/

namespace Sys2Proof.Machine

/-! ## The checksum -/

/-- The two halves of the checksum after one byte (R318). -/
theorem adlerUpdate_halves (b : Byte) (s : State) :
    ((adlerUpdate b s).adler.extractLsb' 0 16).toNat = adlerLow s.adler b ∧
      ((adlerUpdate b s).adler.extractLsb' 16 16).toNat = adlerHigh s.adler b := by
  have hlow : adlerLow s.adler b < 65521 := Nat.mod_lt _ (by decide)
  have hhigh : adlerHigh s.adler b < 65521 := Nat.mod_lt _ (by decide)
  have hwidth : (16 : Nat) - 16 = 0 := rfl
  rw [adlerUpdate, State.setAdler_adler, BitVec.extractLsb'_append_eq_of_add_le (by omega),
    BitVec.extractLsb'_append_eq_of_le (by omega)]
  simp only [hwidth, BitVec.extractLsb'_eq_self, BitVec.toNat_ofNat]
  omega

/-- Settles O20: the row writes the checksum only, and its halves are the two sums. -/
theorem adlerUpdateAddsOneByte : Obligations.AdlerUpdateAddsOneByte := fun b s =>
  ⟨adlerUpdate b s, rfl, adlerUpdate_only b s, adlerUpdate_halves b s⟩

/-! ## Feeding in chunks -/

/-- The bytes of two chunks together are those of the first, then those of the second (R315, R322). -/
theorem feedBytes_append (first second : List Byte) (s : State) :
    feedBytes (first ++ second) s = feedBytes first s >>= feedBytes second := by
  induction first generalizing s with
  | nil => rfl
  | cons b bs ih => simp only [List.cons_append, feedBytes, ih, bind_assoc]

/-- Settles O17: the first chunk alone runs to where both together pass through, and there no `put` has been rejected. -/
theorem feedIsChunkIndependent : Obligations.FeedIsChunkIndependent := by
  intro first second s t ho hexec ht
  obtain ⟨w, hw, rfl⟩ := (exec_feed_of_open ho).1 hexec
  rw [feedBytes_append] at hw
  obtain ⟨v, hfirst, hsecond⟩ := bind_ok.1 hw
  obtain ⟨_, hret, hclosed, _⟩ := feed_lifecycle ho hfirst
  have hfailed : v.failed = false := (feedBytes_putsFull hsecond).not_failed ht
  have hunreplied : { replyHealth v with returns := s.returns } = v := by rw [← hret]; rfl
  refine ⟨replyHealth v, (exec_feed_of_open ho).2 ⟨v, hfirst, rfl⟩, ⟨hclosed, hfailed⟩, ?_, ?_⟩
  · rw [replyHealth, State.reply_returns, hret, hfailed]; rfl
  · rw [hunreplied]
    exact (exec_feed_of_open ⟨hclosed, hfailed⟩).2 ⟨w, hsecond, rfl⟩

/-! ## One byte put out -/

theorem stageByte_setBits (b : Byte) (s : State) (buffer : BitVec 24) (count : BitVec 5) :
    stageByte b (s.setBits buffer count) = (stageByte b s).setBits buffer count := rfl

theorem setBits_setBits (s : State) (buffer buffer' : BitVec 24) (count count' : BitVec 5) :
    (s.setBits buffer count).setBits buffer' count' = s.setBits buffer' count' := rfl

/-- One whole byte in the accumulator is staged in one turn of the loop of `PUT_BITS`, which leaves no bit (R140). -/
theorem spill_byte {s : State} (b : Byte) (hf : s.failed = false) (ho : s.outPos.toNat + 1 < Config.OUT_SIZE) :
    spill 2 (s.setBits (b.setWidth 24) 8#5) = .ok ((stageByte b s).setBits 0#24 0#5) := by
  have hbyte : (b.setWidth 24).truncate 8 = b := by simp
  have hspent : b.setWidth 24 >>> 8 = 0#24 := by
    have := b.isLt
    exact BitVec.eq_of_toNat_eq (by simp [Nat.shiftRight_eq_div_pow]; omega)
  have hstage : outByte b (s.setBits (b.setWidth 24) 8#5) = .ok ((stageByte b s).setBits (b.setWidth 24) 8#5) := by
    rw [outByte_eq_stageByte b (by simpa using hf) (by simpa using Nat.lt_of_succ_lt ho), State.setBits_outPos,
      if_neg (Nat.ne_of_lt ho), stageByte_setBits]
  rw [spill_turn 1 (s.setBits (b.setWidth 24) 8#5) (Nat.le_refl 8), State.setBits_bitBuffer, hbyte, hstage, Except.bind,
    State.setBits_bitBuffer, State.setBits_bitsIn, hspent, BitVec.sub_self, setBits_setBits]
  exact spill_done 1 ((stageByte b s).setBits 0#24 0#5) (Nat.zero_lt_succ 7)

/-- A byte put out with no bit held back is staged, and again no bit is held back (R140, R141). -/
theorem putBits_byte {s : State} (b : Byte) (hf : s.failed = false) (hbits : s.bitsIn = 0#5)
    (hbuf : s.bitBuffer = 0#24) (ho : s.outPos.toNat + 1 < Config.OUT_SIZE) :
    putBits b.toNat 8 s = .ok (stageByte b s) := by
  have hfits : ¬ (Config.PUT_MAX < 8 ∨ 2 ^ 8 ≤ b.toNat) := by
    have := b.isLt
    simp only [Config.PUT_MAX]
    omega
  have hheld : s.bitBuffer ||| BitVec.ofNat 24 (b.toNat <<< s.bitsIn.toNat) = b.setWidth 24 := by
    rw [hbits, hbuf, BitVec.zero_or]
    exact BitVec.eq_of_toNat_eq (by simp)
  have hcount : s.bitsIn + BitVec.ofNat 5 8 = 8#5 := by rw [hbits]; rfl
  have hempty : (stageByte b s).setBits 0#24 0#5 = stageByte b s := by rw [← hbuf, ← hbits]; rfl
  rw [putBits, if_neg hfits, if_neg (by simp [hf]), if_neg (by simp [hbits]), hheld, hcount, spill_byte b hf ho, hempty]

/-! ## The zlib header -/

theorem stageByte_outPos_of_empty (b : Byte) {s : State} (hpos : s.outPos = 0#13) : (stageByte b s).outPos = 1#13 := by
  rw [stageByte, State.setOut_outPos, hpos]
  rfl

/-- The session with the header bytes staged where framing is on (R313). -/
def stageHeader (s : State) : State := if s.zlib then stageByte 0x01#8 (stageByte 0x78#8 s) else s

/-- What the staging of the header leaves alone: every register and memory but the staging buffer. -/
theorem stageHeader_only (s : State) :
    stageHeader s = { s with outBuf := (stageHeader s).outBuf, outPos := (stageHeader s).outPos } := by
  unfold stageHeader
  split <;> rfl

/-- Into an empty staging buffer and with no bit held back, the fields of the header are the staged bytes (R313). -/
theorem putFields_zlibHeaderFields {s : State} (hf : s.failed = false) (hbits : s.bitsIn = 0#5)
    (hbuf : s.bitBuffer = 0#24) (hpos : s.outPos = 0#13) :
    putFields (zlibHeaderFields s) s = .ok (stageHeader s) := by
  have hfirst : putBits 0x78 8 s = .ok (stageByte 0x78#8 s) :=
    putBits_byte 0x78#8 hf hbits hbuf (by rw [hpos]; decide)
  have hsecond : putBits 0x01 8 (stageByte 0x78#8 s) = .ok (stageByte 0x01#8 (stageByte 0x78#8 s)) :=
    putBits_byte 0x01#8 hf hbits hbuf (by rw [stageByte_outPos_of_empty _ hpos]; decide)
  unfold zlibHeaderFields stageHeader
  split
  · exact bind_ok.2 ⟨_, hfirst, bind_ok.2 ⟨_, hsecond, rfl⟩⟩
  · rfl

/-- The staging buffer with the header in it (R313). -/
theorem stageHeader_staged {s : State} (hpos : s.outPos = 0#13) :
    (stageHeader s).outPos = (if s.zlib then 2#13 else 0#13) ∧
      ∀ i, (stageHeader s).outBufByte i =
        if s.zlib then (if i = 0 then 0x78#8 else if i = 1 then 0x01#8 else s.outBufByte i) else s.outBufByte i := by
  have hpos1 := stageByte_outPos_of_empty 0x78#8 hpos
  unfold stageHeader
  split
  · refine ⟨by rw [stageByte, State.setOut_outPos, hpos1]; rfl, fun i => ?_⟩
    rw [stageByte_outBufByte, stageByte_outBufByte, hpos1, hpos]
    change (if i = 1 then _ else if i = 0 then _ else _) = _
    split
    · rename_i h1
      rw [if_neg (by omega)]
    · rfl
  · exact ⟨hpos, fun _ => rfl⟩

/-! ## Opening a session -/

/-- The registers and memories of a new session, before the zlib header (R310 to R312). -/
def freshSession (flags : BitVec 16) (s : State) : State := clearSession (takeFlags flags s)

theorem freshSession_headEntry (flags : BitVec 16) (s : State) (i : Nat) :
    (freshSession flags s).headEntry i = if flags.getLsbD 15 then s.headEntry i else 0xFFFF#16 := by
  rw [freshSession, clearSession_eq, takeFlags_eq]
  cases flags.getLsbD 15 <;> rfl

theorem freshSession_lzByte (flags : BitVec 16) (s : State) (i : Nat) :
    (freshSession flags s).lzByte i = if i = 0 then 0#8 else s.lzByte i := by
  have hset := lzByte_set s 0 i 0#8
  simp only [eq_comm (a := 0)] at hset
  rw [freshSession, clearSession_eq, takeFlags_eq]
  exact hset

/-- `INIT` with a sink completes in every state (R310, R313). -/
theorem exec_init (flags : BitVec 16) (s : State) :
    exec (.init true flags) s = .next ((stageHeader (freshSession flags s)).reply true) := by
  have hrun : exec (.init true flags) s = ofRun (initSession flags s >>= fun t => pure (t.reply true)) := rfl
  have hinit : initSession flags s = .ok (stageHeader (freshSession flags s)) :=
    putFields_zlibHeaderFields (s := freshSession flags s) rfl rfl rfl rfl
  rw [hrun, hinit]
  rfl

theorem freshSession_outBufByte (flags : BitVec 16) (s : State) (i : Nat) :
    (freshSession flags s).outBufByte i = s.outBufByte i := by
  rw [freshSession, clearSession_eq, takeFlags_eq]
  rfl

/-- Settles O8: `INIT` leaves a fresh session with the header staged, and the answer; staging the header touches the staging
buffer alone. -/
theorem initOpensASession : Obligations.InitOpensASession := by
  intro flags s
  obtain ⟨hdirect, hdivided⟩ := probeBudget_toNat (flags.extractLsb' 0 12)
  have honly := stageHeader_only (freshSession flags s)
  have hprobes : (stageHeader (freshSession flags s)).maxProbes =
      probeBudget s.params.probeMap (flags.extractLsb' 0 12) := by
    rw [honly, freshSession, clearSession_eq, takeFlags_eq]
  have hzlib : (freshSession flags s).zlib = flags.getLsbD 12 := by rw [freshSession, clearSession_eq, takeFlags_eq]
  obtain ⟨hpos, hout⟩ := stageHeader_staged (s := freshSession flags s) rfl
  simp only [hzlib, freshSession_outBufByte] at hpos hout
  refine ⟨_, exec_init flags s, ?_, fun hmap => ?_, fun hmap => ?_, fun i => ?_, fun i => ?_, hpos, hout⟩
  · rw [honly, freshSession, clearSession_eq, takeFlags_eq]
    rfl
  · rw [State.reply_maxProbes, hprobes, hmap, hdirect]
  · rw [State.reply_maxProbes, hprobes, hmap, hdivided]
  · rw [← freshSession_headEntry, honly]
    rfl
  · rw [← freshSession_lzByte flags, honly]
    rfl

end Sys2Proof.Machine
end

section
/-! PROOFS. Commands that are turned away: the refused session, the bad argument, the missing sink and the reserved words
(spec/60_exceptions.md R342 to R352; spec/30_encoding.md R94). -/

namespace Sys2Proof.Machine

/-! ## A session that is closed or failed -/

/-- Where the first two tests of `COMPRESS_DATA` turn a command away, its form does not matter (R314, R349). -/
theorem exec_compressData_of_gate {i : Instr} {s : State} {cause : RefusalCause} (hi : isCompressData i)
    (hgate : sessionGate s = some cause) : exec i s = .next (refuseCommand cause s) := by
  rcases hi with ⟨data, rfl⟩ | rfl | ⟨len, rfl⟩
  · simp only [exec, execFeed, hgate]
  · simp only [exec, execFinish, hgate]
  · simp only [exec, execBadarg, hgate]

/-- A failed session that is not closed turns every form of `COMPRESS_DATA` away (R345). -/
theorem exec_compressData_of_failed {i : Instr} {s : State} (hi : isCompressData i) (hclosed : s.closed = false)
    (hfailed : s.failed = true) : exec i s = .next (s.reply false) := by
  have hgate : sessionGate s = some .sessionFailed := by simp [sessionGate, hclosed, hfailed]
  exact exec_compressData_of_gate hi hgate

theorem exec_compressData_of_refused {i : Instr} {s : State} (hi : isCompressData i)
    (hs : s.closed = true ∨ s.failed = true) : exec i s = .next (s.reply false) := by
  cases hclosed : s.closed with
  | true => exact exec_compressData_of_closed hi hclosed
  | false => exact exec_compressData_of_failed hi hclosed (hs.resolve_left (by simp [hclosed]))

/-- Settles O9: the missing sink is the cause that closes. -/
theorem initWithoutASinkCloses : Obligations.InitWithoutASinkCloses := fun _ _ => rfl

/-- Settles O10, by the gate's first test. -/
theorem closedSessionRefusesCompressData : Obligations.ClosedSessionRefusesCompressData :=
  fun _ _ hi hclosed => exec_compressData_of_closed hi hclosed

/-- Settles O11, by the gate's second test. -/
theorem failedSessionRefusesCompressData : Obligations.FailedSessionRefusesCompressData :=
  fun _ _ hi hclosed hfailed => exec_compressData_of_failed hi hclosed hfailed

/-- Settles O14, by induction on the commands: an answer leaves the session refused, so the next command meets the same
gate. -/
theorem refusedSessionStaysRefused : Obligations.RefusedSessionStaysRefused := by
  intro commands
  induction commands with
  | nil => intro s _ _; simp [execAll]
  | cons i later ih =>
    intro s hall hs
    obtain ⟨hi, hlater⟩ := List.forall_mem_cons.1 hall
    have hrest := ih (s.reply false) hlater hs
    rw [execAll, exec_compressData_of_refused hi hs]
    simpa [State.reply, List.replicate_succ] using hrest

/-! ## A bad argument -/

/-- On an open session the length without a buffer is the cause that latches `failed` (R343). -/
theorem exec_badarg_of_open (len : Word) {s : State} (ho : OpenSession s) :
    exec (.badarg len) s = .next ((s.setFailed true).reply false) := by
  simp only [exec, execBadarg, sessionGate_of_open ho, refuseCommand]

/-- Settles O12: the latch makes the session a failed one, and O14 says what follows. -/
theorem badArgumentLatchesFailed : Obligations.BadArgumentLatchesFailed := by
  intro len s _ ho
  refine ⟨exec_badarg_of_open len ho, fun later hlater => ?_⟩
  have hfailed : ((s.setFailed true).reply false).failed = true := rfl
  have hrest := refusedSessionStaysRefused later _ hlater (.inr hfailed)
  rw [execAll, exec_badarg_of_open len ho]
  simpa [State.reply, State.setFailed, List.replicate_succ] using hrest

/-! ## Reserved words -/

/-- The five rows a reserved word decodes to (R94, R348). -/
inductive ReservedRow : Instr → Prop
  | op2 (rest : BitVec 30) : ReservedRow (.reservedOp2 rest)
  | op3 (rest : BitVec 30) : ReservedRow (.reservedOp3 rest)
  | bit3 (op0 p : Bool) (rest : BitVec 28) : ReservedRow (.reservedBit3 op0 p rest)
  | high (op0 p : Bool) (flags : BitVec 16) (high : BitVec 12) : ReservedRow (.reservedHigh op0 p flags high)
  | cdFlags (p : Bool) (flags : BitVec 16) : ReservedRow (.reservedCdFlags p flags)

/-- A reserved row only answers (R348). -/
theorem ReservedRow.exec {i : Instr} (hi : ReservedRow i) (s : State) : exec i s = .next (s.reply false) := by
  cases hi <;> rfl

/-- A reserved word is one whole command, of a reserved row: the decoder's tests in their order (R94; log 8). -/
theorem ReservedWord.decodeWord {w : Word} (hw : ReservedWord w) : ∃ i, ReservedRow i ∧ decodeWord w = .whole i := by
  unfold Sys2Proof.decodeWord
  by_cases h2 : w.extractLsb' 0 2 = 2#2
  · exact ⟨_, .op2 _, if_pos h2⟩
  by_cases h3 : w.extractLsb' 0 2 = 3#2
  · exact ⟨_, .op3 _, by rw [if_neg h2, if_pos h3]⟩
  by_cases hbit3 : w.getLsbD 3 = true
  · exact ⟨_, .bit3 _ _ _, by rw [if_neg h2, if_neg h3, if_pos hbit3]⟩
  by_cases hhigh : w.extractLsb' 20 12 ≠ 0#12
  · exact ⟨_, .high _ _ _ _, by rw [if_neg h2, if_neg h3, if_neg hbit3, if_pos hhigh]⟩
  obtain ⟨hop, hflags⟩ : w.extractLsb' 0 2 = 1#2 ∧ w.extractLsb' 4 16 ≠ 0#16 := by
    rcases hw with h | h | h | h | h
    · exact absurd h h2
    · exact absurd h h3
    · exact absurd h hbit3
    · exact absurd h hhigh
    · exact h
  have hop0 : w.getLsbD 0 = true := by simpa [hop] using (BitVec.getLsbD_extractLsb' 0 2 w 0).symm
  exact ⟨_, .cdFlags _ _, by rw [if_neg h2, if_neg h3, if_neg hbit3, if_neg hhigh, if_pos hop0, if_pos hflags]⟩

/-- Settles O13: the rows by what each does, the step by the row its word decodes to. -/
theorem reservedWordsChangeNothing : Obligations.ReservedWordsChangeNothing := by
  constructor
  · intro rest rest' high flags op0 p s
    exact ⟨(ReservedRow.op2 rest).exec s, (ReservedRow.op3 rest).exec s, (ReservedRow.bit3 op0 p rest').exec s,
      (ReservedRow.high op0 p flags high).exec s, (ReservedRow.cdFlags p flags).exec s⟩
  · intro s w items hseq hhost hw
    obtain ⟨i, hi, hword⟩ := hw.decodeWord
    have hdec : decodeHost s.hostIn = .ok (i, items) := by rw [hhost, decodeHost_whole hword]
    rw [step_of_decodeHost hseq hdec, hi.exec]
    rfl

end Sys2Proof.Machine
end
